-- ==== Sys2Proof/Word.lean ====
section
/-! DEFINITION. The fixed-width values of the block (00_scope.md R11, R12): all unsigned, bit 0 least significant. -/

namespace Sys2Proof

/-- A byte of physical memory, and every 8-bit field. -/
abbrev Byte := BitVec 8

/-- A 16-bit field: IMM, ring indices, window lengths, cause bitmaps. -/
abbrev Half := BitVec 16

/-- A 32-bit word: command words, argument words, device registers, response values. -/
abbrev Word := BitVec 32

/-- A 64-bit physical address. -/
abbrev Addr := BitVec 64

end Sys2Proof
end

