-- ==== Sys2Proof/Config.lean ====
section
/-! DEFINITION. The implementation parameters of 00_scope.md R9 with their constraints (R10), the register offset
table DEVREG (48_device_agent.md R501), and the one free value of the model. -/

namespace Sys2Proof

/-- MAX_QUEUES (R9): the 7-bit queue field gives 128. -/
def maxQueues : Nat := 128

/-- DEVREG (48_device_agent.md R501): the offset of each device register for queue 0, and the step from one queue to the next. -/
structure DevRegs where
  ctrl   : Word
  rctl   : Word
  tctl   : Word
  rdbal  : Word
  rdbah  : Word
  rdlen  : Word
  rdh    : Word
  rdt    : Word
  tdbal  : Word
  tdbah  : Word
  tdlen  : Word
  tdh    : Word
  tdt    : Word
  stride : Word
deriving DecidableEq, Repr

/-- The default table of R501. -/
def DevRegs.e1000 : DevRegs where
  ctrl   := 0x0000
  rctl   := 0x0100
  tctl   := 0x0400
  rdbal  := 0x2800
  rdbah  := 0x2804
  rdlen  := 0x2808
  rdh    := 0x2810
  rdt    := 0x2818
  tdbal  := 0x3800
  tdbah  := 0x3804
  tdlen  := 0x3808
  tdh    := 0x3810
  tdt    := 0x3818
  stride := 0x100

/-- A range of physical addresses at which the platform has memory (20_memory.md R101, R112). -/
structure Backing where
  base : Nat
  size : Nat
deriving DecidableEq, Repr

/-- The parameters of R9, and the memory the platform admits. Plain data: a state carries them, no step writes them. -/
structure Params where
  pageSize           : Nat
  bufSize            : Nat
  txPoolMult         : Nat
  maxTxFrags         : Nat
  maxTxDescPerPkt    : Nat
  maxRxFrameLen      : Nat
  frameErrMask       : Byte
  rxWhileNegotiating : Bool
  resetPollLimit     : Nat
  parityFaultEnabled : Bool
  deviceConformant   : Bool
  devRegs            : DevRegs
  backing            : List Backing
deriving DecidableEq, Repr

/-- The value-or-default column of R9, with all of the 64-bit address space backed by memory. -/
def Params.defaults : Params where
  pageSize           := 4096
  bufSize            := 2048
  txPoolMult         := 1
  maxTxFrags         := 16
  maxTxDescPerPkt    := 8
  maxRxFrameLen      := 16384
  frameErrMask       := 0x97
  rxWhileNegotiating := false
  resetPollLimit     := 10
  parityFaultEnabled := false
  deviceConformant   := false
  devRegs            := DevRegs.e1000
  backing            := [⟨0, 2 ^ 64⟩]

/-- The constraints a configuration must meet (R10), the bound on BUF_SIZE of R9's table, and the width of RESET_POLLS
(10_state.md R38) as the bound of RESET_POLL_LIMIT. DEDUCED, safe: log 5. -/
abbrev Params.Valid (p : Params) : Prop :=
  1 ≤ p.bufSize ∧ p.bufSize ≤ p.pageSize ∧ p.bufSize ≤ 0xFFFF ∧
  1 ≤ p.txPoolMult ∧ 1 ≤ p.maxTxDescPerPkt ∧ 1 ≤ p.maxTxFrags ∧
  1 ≤ p.resetPollLimit ∧ p.resetPollLimit ≤ 255 ∧
  128 ≤ p.pageSize ∧ 2 ^ p.pageSize.log2 = p.pageSize

/-- An access to n bytes from addr lies in memory the platform has: inside the 64-bit space and inside one backed range.
DESIGN CHOICE, safe: log 7. -/
abbrev Params.Backs (p : Params) (addr n : Nat) : Prop :=
  addr + n ≤ 2 ^ 64 ∧ ∃ r ∈ p.backing, r.base ≤ addr ∧ addr + n ≤ r.base + r.size

/-- FREE VALUE. What the device agent draws for its k-th register read (48_device_agent.md R503). Nothing is known of it.
DESIGN CHOICE of its form, safe: log 9. -/
opaque Config.registerDraw : Nat → Word

end Sys2Proof
end

