-- ==== Sys2Proof/Syntax.lean ====
section
/-! DEFINITION. The commands of the block, one constructor per row of spec/opcode_table.json (30_encoding.md R156, R157),
and the pseudo-instructions of R166. -/

namespace Sys2Proof

/-- The ring select R of a command word (30_encoding.md R150). -/
inductive Ring where
  | tx
  | rx
deriving DecidableEq, Repr

/-- One source fragment of ENQUEUE (42_tx.md R300). -/
structure Frag where
  addr : Addr
  len  : Word
deriving DecidableEq, Repr

/-- A command with its operands. -/
inductive Instr where
  /-- `INIT nq, logn, base, size`: the Q field holds nq - 1. -/
  | init (nqLess1 : BitVec 7) (logn : BitVec 4) (base : Addr) (size : Word)
  /-- `STOP` -/
  | stop
  /-- `ENQUEUE q, a0:l0, a1:l1, ...`: IMM is the number of fragments. -/
  | enqueue (q : BitVec 7) (frags : List Frag)
  /-- `SERVICE_TX q, budget` -/
  | serviceTx (q : BitVec 7) (budget : Half)
  /-- `SERVICE_RX q, budget` -/
  | serviceRx (q : BitVec 7) (budget : Half)
  /-- `REFILL q` -/
  | refill (q : BitVec 7)
  /-- `RELEASE ring, q, index` -/
  | release (r : Ring) (q : BitVec 7) (index : Half)
  /-- `IRQ q, causes` -/
  | irq (q : BitVec 7) (causes : Half)
  /-- `POLL_LINK link, speed, fd` -/
  | pollLink (link : BitVec 2) (speed : BitVec 2) (fd : BitVec 1)
  /-- `TICK` -/
  | tick
  /-- `SET_ITR q, window` -/
  | setItr (q : BitVec 7) (window : Half)
  /-- `IS_EMPTY ring, q` -/
  | isEmpty (r : Ring) (q : BitVec 7)
  /-- `IS_FULL ring, q` -/
  | isFull (r : Ring) (q : BitVec 7)
  /-- `CAPACITY ring, q` -/
  | capacity (r : Ring) (q : BitVec 7)
  /-- `OCCUPANCY ring, q` -/
  | occupancy (r : Ring) (q : BitVec 7)
  /-- `READ_REG q, index` -/
  | readReg (q : BitVec 7) (index : Half)
  /-- `POOL_TAG ring, q, index` -/
  | poolTag (r : Ring) (q : BitVec 7) (index : Half)
deriving DecidableEq, Repr

/-- The pseudo-instructions of R166. They have no opcode: each stands for the commands of `Pseudo.expand`. -/
inductive Pseudo where
  | poll (q : BitVec 7)
  | restart (nqLess1 : BitVec 7) (logn : BitVec 4) (base : Addr) (size : Word)
  | ticks (n : Nat)
  | irqTx (q : BitVec 7)
  | irqRx (q : BitVec 7)
  | irqLink (q : BitVec 7)
deriving DecidableEq, Repr

/-- The exact expansion R166 gives each pseudo-instruction. -/
def Pseudo.expand : Pseudo → List Instr
  | .poll q                      => [.serviceTx q 0, .serviceRx q 0]
  | .restart nqLess1 logn base n => [.stop, .init nqLess1 logn base n]
  | .ticks n                     => List.replicate n .tick
  | .irqTx q                     => [.irq q 0x0001]
  | .irqRx q                     => [.irq q 0x0080]
  | .irqLink q                   => [.irq q 0x0004]

end Sys2Proof
end

