-- ==== Sys2Proof/Machine/State.lean ====
section
/-! DEFINITION. The state of the machine (10_state.md, 48_device_agent.md R502, 20_memory.md R121), as plain data, and the
state at power-on (10_state.md R90). -/

namespace Sys2Proof.Machine

/-! ### Names of the block -/

/-- RSTATE (10_state.md R32); the values 5 to 7 never occur. -/
inductive RState where
  | uninitialized
  | resetting
  | ringsReady
  | stopped
  | faulted
deriving DecidableEq, Repr

/-- The ownership tag of a pool buffer (10_state.md R50); the value 3 never occurs. -/
inductive Tag where
  | free
  | hw
  | pend
deriving DecidableEq, Repr

/-- The fault reasons (60_exceptions.md R556). -/
inductive Reason where
  | notPosted
  | order
  | rxLen
  | resetTimeout
  | dmaParity
deriving DecidableEq, Repr

/-- The response status codes (30_encoding.md R161). -/
inductive Status where
  | ok
  | okPending
  | backpressure
  | down
  | protocol
  | resetTimeout
  | dmaParity
  | inval
  | state
  | tooBig
  | badHandle
  | illegal
deriving DecidableEq, Repr

/-- The barrier kinds (20_memory.md R120). -/
inductive BarrierKind where
  | read
  | write
  | full
deriving DecidableEq, Repr

/-- The answer to a command (30_encoding.md R160). -/
structure Response where
  status : Status
  value  : Word
deriving DecidableEq, Repr

/-! ### Rings, pools, queues -/

/-- The cursors of one ring (10_state.md R40, R41). -/
structure Cursors where
  ntu  : Half
  ntc  : Half
  tail : Half
deriving DecidableEq, Repr

/-- SW[TX][q][s] (10_state.md R42). -/
structure TxRecord where
  handle : Half
  last   : Half
  eop    : Bool
deriving DecidableEq, Repr

/-- SW[RX][q][s] (10_state.md R43). -/
structure RxRecord where
  handle : Half
deriving DecidableEq, Repr

/-- The tags and recorded lengths of one pool (10_state.md R50, R51), by buffer index. -/
structure Pool where
  tags : List Tag
  blen : List Half
deriving DecidableEq, Repr

/-- Everything the block holds for one queue (10_state.md sections 3 to 5). -/
structure Queue where
  tx      : Cursors
  rx      : Cursors
  swTx    : List TxRecord
  swRx    : List RxRecord
  txPool  : Pool
  rxPool  : Pool
  discard : Bool
  itr     : Half
  cnt     : Half
  armed   : Bool
  acc     : Half
  rxDrops : Word
deriving DecidableEq, Repr

/-! ### Events -/

/-- The frame record of a DELIVER event (43_rx.md R358). -/
structure Frame where
  slot   : Nat
  count  : Nat
  bufs   : List (Half × Nat)
  total  : Nat
  status : Byte
  errors : Byte
deriving DecidableEq, Repr

/-- An entry of the event log (10_state.md R70). -/
inductive Event where
  | deliver (q : Nat) (frame : Frame)
  | txCapacity (q : Nat)
  | linkChanged (link : BitVec 2) (speed : BitVec 2) (fd : Bool)
  | fault (reason : Reason)
  | regWrite (off : Word) (v : Word)
  | regRead (off : Word) (v : Word)
  | barrier (kind : BarrierKind)
  | dmaWrite (addr : Nat) (bytes : List Byte)
  | dmaRead (addr : Nat) (bytes : List Byte)
deriving DecidableEq, Repr

/-! ### The device agent -/

/-- The device's registers for one ring (48_device_agent.md R502); `done` lists its slots in rising order. -/
structure DevRing where
  dbase : Addr
  dlen  : Word
  head  : Half
  tail  : Half
  done  : List Nat
deriving DecidableEq, Repr

/-- The device agent's state (48_device_agent.md R502). -/
structure Device where
  rxEn      : Bool
  txEn      : Bool
  resetting : Bool
  tx        : List DevRing
  rx        : List DevRing
deriving DecidableEq, Repr

/-- What the device draws for an RX completion (48_device_agent.md R513). -/
structure RxDraw where
  data    : List Byte
  st      : Byte
  er      : Byte
  csum    : Half
  special : Half
deriving DecidableEq, Repr

/-- The device's moves (48_device_agent.md R505, R520). -/
inductive Move where
  | txComplete (q : Nat) (x : Byte)
  | rxComplete (q : Nat) (d : RxDraw)
  | resetDone
  | txCompleteAt (q : Nat) (k : Nat) (x : Byte)
  | rxCompleteAt (q : Nat) (k : Nat) (d : RxDraw)
deriving DecidableEq, Repr

/-! ### The environment's stream -/

/-- One thing that happens next: a command at the port, a device move, or a write of host memory by its owner.
DESIGN CHOICE, safe: log 1; host writes DEDUCED, safe: log 10. -/
inductive Input where
  | command (word : Word) (args : List Word)
  | device (m : Move)
  | hostWrite (addr : Addr) (bytes : List Byte)
deriving DecidableEq, Repr

/-! ### The state -/

/-- A write the block has issued and the device cannot see yet (20_memory.md R121). -/
structure WbEntry where
  addr  : Nat
  bytes : List Byte
deriving DecidableEq, Repr

/-- The whole machine. INVENTORY.md names the rule of each field; `params`, `inputs` and `draws` are the model's own
(logs 4, 1 and 9). -/
structure State where
  params      : Params
  rstate      : RState
  lstate      : Byte
  gen         : Word
  nq          : Byte
  logn        : BitVec 4
  faultReason : Byte
  resetPolls  : Byte
  regionBase  : Addr
  regionSize  : Word
  queues      : List Queue
  events      : List Event
  wb          : List WbEntry
  mem         : List Host.Cell
  dev         : Device
  response    : Option Response
  inputs      : List Input
  draws       : Nat
deriving DecidableEq, Repr

/-! ### Stops -/

/-- Reasons the machine stops. A command's own errors are responses and the spec's faults are state (60_exceptions.md
R550, R560); none of those is here. -/
inductive Fault where
  /-- A DMA access of the block or the device to memory the platform does not have: 93_implementation_defined.md's 'stuck'.
  Raised by memRead, memWrite and the device's moves. Safe: nothing is claimed past it. -/
  | memoryNotBacked
  /-- ring_consume of no slot, or of more slots than are outstanding: 40_ring.md R207 asks for 'a fault of the model'.
  Raised by ringConsume. Safe: no rule makes such a call. -/
  | consumeOutOfRange
  /-- pool_mark_posted of a buffer that is not Free: 41_pool.md R251 asks for 'a fault of the model'.
  Raised by poolMarkPosted. Safe: no rule makes such a call. -/
  | markPostedNotFree
  /-- ENQUEUE or a refill found the ring full or the pool empty where its own test had found room (42_tx.md R302).
  Raised by stagePieces and refillLoop. Safe: the tests exclude it. -/
  | stagingRefused
deriving DecidableEq, Repr

/-- Reasons a step has no meaning. -/
inductive Refusal where
  /-- An instruction without a meaning. Raised by no arm of exec. Safe: nothing is claimed of it. -/
  | notModelled (mnemonic : String)
  /-- The parameters break a constraint of 00_scope.md R10 ('refused, not run'). Raised by step. Safe: nothing runs. -/
  | badConfiguration
deriving DecidableEq, Repr

/-! ### Power-on -/

/-- Cursors of an empty ring. -/
def Cursors.zero : Cursors := ⟨0, 0, 0⟩

/-- A queue with every register zero, for rings of n slots and a TX pool of t buffers (10_state.md R90). -/
def Queue.fresh (n t : Nat) : Queue where
  tx      := Cursors.zero
  rx      := Cursors.zero
  swTx    := List.replicate n ⟨0, 0, false⟩
  swRx    := List.replicate n ⟨0⟩
  txPool  := ⟨List.replicate t .free, List.replicate t 0⟩
  rxPool  := ⟨List.replicate n .free, List.replicate n 0⟩
  discard := false
  itr     := 0
  cnt     := 0
  armed   := false
  acc     := 0
  rxDrops := 0

/-- A device ring with every register zero (48_device_agent.md R502). -/
def DevRing.zero : DevRing := ⟨0, 0, 0, 0, []⟩

/-- The device at power-on (48_device_agent.md R502). -/
def Device.powerOn : Device where
  rxEn      := false
  txEn      := false
  resetting := false
  tx        := List.replicate maxQueues DevRing.zero
  rx        := List.replicate maxQueues DevRing.zero

/-- The machine at power-on (10_state.md R90), for any parameters. No slot and no buffer exists while LOGN = 0. -/
def State.powerOn (p : Params) : State where
  params      := p
  rstate      := .uninitialized
  lstate      := 0
  gen         := 0
  nq          := 0
  logn        := 0
  faultReason := 0
  resetPolls  := 0
  regionBase  := 0
  regionSize  := 0
  queues      := List.replicate maxQueues (Queue.fresh 0 0)
  events      := []
  wb          := []
  mem         := []
  dev         := Device.powerOn
  response    := none
  inputs      := []
  draws       := 0

/-- The machine right after power-on, with the default parameters (DESIGN CHOICE, unsafe for the OPEN ones: log 4). -/
def State.reset : State := State.powerOn Params.defaults

end Sys2Proof.Machine
end

