-- ==== Sys2Proof/Machine/Flags.lean ====
section
/-! DEFINITION. Codes and bit fields: status codes (30_encoding.md R161), fault reasons (60_exceptions.md R556), RSTATE and
tag numbers (10_state.md R32, R50), LSTATE's fields (R33), and the interrupt cause masks (60_exceptions.md R571). -/

namespace Sys2Proof.Machine

/-- The number of a status code (30_encoding.md R161). -/
def Status.code : Status → Byte
  | .ok           => 0x00
  | .okPending    => 0x01
  | .backpressure => 0x11
  | .down         => 0x13
  | .protocol     => 0x20
  | .resetTimeout => 0x21
  | .dmaParity    => 0x22
  | .inval        => 0x30
  | .state        => 0x31
  | .tooBig       => 0x32
  | .badHandle    => 0x33
  | .illegal      => 0x3F

/-- The number of a fault reason (60_exceptions.md R556). -/
def Reason.code : Reason → Byte
  | .notPosted    => 0x01
  | .order        => 0x02
  | .rxLen        => 0x03
  | .resetTimeout => 0x10
  | .dmaParity    => 0x11

/-- The status a command that faulted answers with (60_exceptions.md R556). -/
def Reason.status : Reason → Status
  | .notPosted | .order | .rxLen => .protocol
  | .resetTimeout => .resetTimeout
  | .dmaParity    => .dmaParity

/-- The number of an RSTATE value (10_state.md R32). -/
def RState.code : RState → BitVec 3
  | .uninitialized => 0
  | .resetting     => 1
  | .ringsReady    => 2
  | .stopped       => 3
  | .faulted       => 4

/-- The number of an ownership tag (10_state.md R50). -/
def Tag.code : Tag → BitVec 2
  | .free => 0
  | .hw   => 1
  | .pend => 2

/-! ### LSTATE (10_state.md R33) -/

/-- LINK, bits 1:0. -/
def lstateLink (l : Byte) : BitVec 2 := l.extractLsb' 0 2

/-- SPEED, bits 3:2. -/
def lstateSpeed (l : Byte) : BitVec 2 := l.extractLsb' 2 2

/-- FD, bit 4. -/
def lstateFd (l : Byte) : BitVec 1 := l.extractLsb' 4 1

/-- LINK, SPEED and FD put together, with LCP and bits 7:6 zero. -/
def lstateOf (link speed : BitVec 2) (fd : BitVec 1) : Byte := (fd ++ speed ++ link).setWidth 8

/-- LSTATE with LCP set (60_exceptions.md R577). -/
def lstateSetLcp (l : Byte) : Byte := l ||| 0x20

/-- LINK = Negotiating. -/
def linkNegotiating : BitVec 2 := 1

/-- LINK = Up. -/
def linkUp : BitVec 2 := 2

/-- The values LSTATE may hold (R33): LINK and SPEED never 3, SPEED and FD zero unless Up, bits 7:6 zero. -/
def lstateLegal (l : Byte) : Bool :=
  l &&& 0xC0 == 0 && lstateLink l != 3 && lstateSpeed l != 3 &&
    (lstateLink l == linkUp || (lstateSpeed l == 0 && lstateFd l == 0))

/-! ### Interrupt causes (60_exceptions.md R571) -/

/-- TX_MASK. -/
def txMask : Half := 0x0003

/-- RX_MASK. -/
def rxMask : Half := 0x00D0

/-- LINK_MASK. -/
def linkMask : Half := 0x000C

/-- CAUSE_MASK. -/
def causeMask : Half := 0x00DF

/-- The PARITY cause, bit 15. -/
def parityCause (c : Half) : Bool := c.getLsbD 15

/-! ### Descriptor status bits (20_memory.md R106, R107) -/

/-- DD, bit 0 of TX STA and of RX STATUS. -/
def ddBit (b : Byte) : Bool := b.getLsbD 0

/-- EOP, bit 1 of RX STATUS. -/
def eopBit (b : Byte) : Bool := b.getLsbD 1

end Sys2Proof.Machine
end

