-- ==== Sys2Proof/Machine/Memory.lean ====
section
/-! DEFINITION. Physical memory in canonical form and the little-endian byte order (20_memory.md R101, R103, R104). -/

namespace Sys2Proof.Machine

/-- What a byte that no entry lists reads as. DESIGN CHOICE, unsafe: log 6. -/
def Memory.unlisted : Byte := 0

/-- The canonical form: addresses strictly rising, no entry that says what an unlisted address says. -/
abbrev Memory.wf (m : List Host.Cell) : Prop :=
  m.Pairwise (fun x y => x.1 < y.1) ∧ ∀ c ∈ m, c.2 ≠ Memory.unlisted

/-- The byte at an address. -/
def Memory.byte : List Host.Cell → Nat → Byte
  | [], _     => Memory.unlisted
  | c :: m, a => if c.1 = a then c.2 else Memory.byte m a

/-- Memory with one byte written. -/
def Memory.setByte : List Host.Cell → Nat → Byte → List Host.Cell
  | [], a, b => if b = Memory.unlisted then [] else [(a, b)]
  | c :: m, a, b =>
    if a < c.1 then (if b = Memory.unlisted then c :: m else (a, b) :: c :: m)
    else if a = c.1 then (if b = Memory.unlisted then m else (a, b) :: m)
    else c :: Memory.setByte m a b

/-- Memory with the bytes of a list written from an address up. -/
def Memory.setBytes : List Host.Cell → Nat → List Byte → List Host.Cell
  | m, _, []      => m
  | m, a, b :: bs => Memory.setBytes (Memory.setByte m a b) (a + 1) bs

/-- The n bytes from an address up. -/
def Memory.bytes (m : List Host.Cell) : Nat → Nat → List Byte
  | _, 0     => []
  | a, n + 1 => Memory.byte m a :: Memory.bytes m (a + 1) n

/-! ### Byte order (R104) -/

/-- The byte of a byte array at an offset. -/
def byteAt (b : List Byte) (o : Nat) : Byte := b.getD o 0

/-- le16 of R104. -/
def le16 (b : List Byte) (o : Nat) : Nat := (byteAt b o).toNat + 256 * (byteAt b (o + 1)).toNat

/-- le32 of R104. -/
def le32 (b : List Byte) (o : Nat) : Nat := le16 b o + 65536 * le16 b (o + 2)

/-- le64 of R104. -/
def le64 (b : List Byte) (o : Nat) : Nat := le32 b o + 2 ^ 32 * le32 b (o + 4)

/-- put16 of R104. -/
def put16 (v : Nat) : List Byte := [BitVec.ofNat 8 v, BitVec.ofNat 8 (v / 256)]

/-- put32 of R104. -/
def put32 (v : Nat) : List Byte := put16 v ++ put16 (v / 65536)

/-- put64 of R104. -/
def put64 (v : Nat) : List Byte := put32 v ++ put32 (v / 2 ^ 32)

/-! ### The write buffer's view (20_memory.md R121) -/

/-- The byte a write-buffer entry holds for an address, if it holds one. -/
def WbEntry.byteFor (e : WbEntry) (a : Nat) : Option Byte :=
  if e.addr ≤ a then e.bytes[a - e.addr]? else none

/-- The byte of the newest entry that holds one for an address. Entries are listed oldest first. -/
def newestByte : List WbEntry → Nat → Option Byte
  | [], _      => none
  | e :: es, a =>
    match newestByte es a with
    | some b => some b
    | none   => e.byteFor a

/-- The byte the block reads at an address: that of the newest entry that holds one, else memory's. -/
def blockByte (m : List Host.Cell) (wb : List WbEntry) (a : Nat) : Byte := (newestByte wb a).getD (Memory.byte m a)

/-- The n bytes the block reads from an address up. -/
def blockBytes (m : List Host.Cell) (wb : List WbEntry) : Nat → Nat → List Byte
  | _, 0     => []
  | a, n + 1 => blockByte m wb a :: blockBytes m wb (a + 1) n

/-- Memory after every entry of a write buffer has moved to it, oldest first. -/
def drained : List Host.Cell → List WbEntry → List Host.Cell
  | m, []      => m
  | m, e :: es => drained (Memory.setBytes m e.addr e.bytes) es

end Sys2Proof.Machine
end

