-- ==== Sys2Proof/Machine/Operands.lean ====
section
/-! DEFINITION. Operand forms: ring arithmetic mod N (00_scope.md R13), the region layout (20_memory.md R111), descriptor
bytes (42_tx.md R301, 43_rx.md R372), budgets, and access to the per-queue state. -/

namespace Sys2Proof.Machine

/-! ### Per-queue state -/

/-- The registers of queue q. -/
def State.queue (s : State) (q : Nat) : Queue := s.queues.getD q (Queue.fresh 0 0)

/-- The state with the registers of queue q replaced. -/
def State.setQueue (s : State) (q : Nat) (x : Queue) : State := { s with queues := s.queues.set q x }

/-- The cursors of ring r. -/
def Queue.cur (x : Queue) : Ring → Cursors
  | .tx => x.tx
  | .rx => x.rx

/-- The queue with the cursors of ring r replaced. -/
def Queue.setCur (x : Queue) (r : Ring) (c : Cursors) : Queue :=
  match r with
  | .tx => { x with tx := c }
  | .rx => { x with rx := c }

/-- The pool of ring r. -/
def Queue.pool (x : Queue) : Ring → Pool
  | .tx => x.txPool
  | .rx => x.rxPool

/-- The queue with the pool of ring r replaced. -/
def Queue.setPool (x : Queue) (r : Ring) (p : Pool) : Queue :=
  match r with
  | .tx => { x with txPool := p }
  | .rx => { x with rxPool := p }

/-- A software-side record as ring_post takes it (40_ring.md R205); an RX record keeps only the handle (10_state.md R43). -/
structure SlotRecord where
  handle : Nat
  last   : Nat
  eop    : Bool
deriving DecidableEq, Repr

/-- SW[r][q][slot] written. -/
def Queue.setSw (x : Queue) (r : Ring) (slot : Nat) (w : SlotRecord) : Queue :=
  match r with
  | .tx => { x with swTx := x.swTx.set slot ⟨BitVec.ofNat 16 w.handle, BitVec.ofNat 16 w.last, w.eop⟩ }
  | .rx => { x with swRx := x.swRx.set slot ⟨BitVec.ofNat 16 w.handle⟩ }

/-- SW[TX][q][slot]. -/
def Queue.txRec (x : Queue) (slot : Nat) : TxRecord := x.swTx.getD slot ⟨0, 0, false⟩

/-- SW[RX][q][slot]. -/
def Queue.rxRec (x : Queue) (slot : Nat) : RxRecord := x.swRx.getD slot ⟨0⟩

/-- TAG[r][q][i]. -/
def Pool.tag (p : Pool) (i : Nat) : Tag := p.tags.getD i .free

/-- BLEN[r][q][i]. -/
def Pool.len (p : Pool) (i : Nat) : Half := p.blen.getD i 0

/-- TAG[r][q][i] written. -/
def Pool.setTag (p : Pool) (i : Nat) (t : Tag) : Pool := { p with tags := p.tags.set i t }

/-- BLEN[r][q][i] written. -/
def Pool.setLen (p : Pool) (i : Nat) (l : Nat) : Pool := { p with blen := p.blen.set i (BitVec.ofNat 16 l) }

/-! ### Ring arithmetic (00_scope.md R13, 40_ring.md R202 to R204) -/

/-- N = 2^LOGN. For LOGN = 0 no ring exists and no rule uses the value. DEDUCED, safe: log 18. -/
def State.n (s : State) : Nat := 2 ^ s.logn.toNat

/-- inc(i), for rings of n slots. -/
def ringInc (n i : Nat) : Nat := (i + 1) % n

/-- dist(a, b), for rings of n slots. -/
def ringDist (n a b : Nat) : Nat := (b + n - a) % n

/-- NTU[r][q] as a number. -/
def State.ntu (s : State) (r : Ring) (q : Nat) : Nat := ((s.queue q).cur r).ntu.toNat

/-- NTC[r][q] as a number. -/
def State.ntc (s : State) (r : Ring) (q : Nat) : Nat := ((s.queue q).cur r).ntc.toNat

/-- TAIL[r][q] as a number. -/
def State.tail (s : State) (r : Ring) (q : Nat) : Nat := ((s.queue q).cur r).tail.toNat

/-- ring_empty (R202). -/
def State.ringEmpty (s : State) (r : Ring) (q : Nat) : Bool := s.ntu r q == s.ntc r q

/-- ring_full (R203). -/
def State.ringFull (s : State) (r : Ring) (q : Nat) : Bool := ringInc s.n (s.ntu r q) == s.ntc r q

/-- ring_occupancy (R204). -/
def State.occupancy (s : State) (r : Ring) (q : Nat) : Nat := ringDist s.n (s.ntc r q) (s.ntu r q)

/-- ring_free (R204). -/
def State.ringFree (s : State) (r : Ring) (q : Nat) : Nat := s.n - 1 - s.occupancy r q

/-- A slot is outstanding (R204). -/
def State.outstanding (s : State) (r : Ring) (q slot : Nat) : Bool :=
  ringDist s.n (s.ntc r q) slot < s.occupancy r q

/-! ### Pools (41_pool.md R250, R254) -/

/-- TXP or RXP, for rings of n slots (00_scope.md R9). -/
def Params.poolSize (p : Params) (n : Nat) : Ring → Nat
  | .tx => p.txPoolMult * n
  | .rx => n

/-- poolsize(r). -/
def State.poolSize (s : State) (r : Ring) : Nat := Params.poolSize s.params s.n r

/-- TAG[r][q][i]. -/
def State.tag (s : State) (r : Ring) (q i : Nat) : Tag := ((s.queue q).pool r).tag i

/-- pool_count (R254). -/
def State.poolCount (s : State) (r : Ring) (q : Nat) (t : Tag) : Nat :=
  (List.range (s.poolSize r)).countP (fun i => s.tag r q i == t)

/-! ### The region layout (20_memory.md R105, R111) -/

/-- The least multiple of a not below x. -/
def roundUp (x a : Nat) : Nat := (x + a - 1) / a * a

/-- RING_AREA, for rings of n slots. -/
def Params.ringArea (p : Params) (n : Nat) : Nat := roundUp (2 * n * 16) p.pageSize

/-- QSTRIDE, for rings of n slots. -/
def Params.qStride (p : Params) (n : Nat) : Nat :=
  Params.ringArea p n + (Params.poolSize p n .tx + Params.poolSize p n .rx) * p.pageSize

/-- NEEDED, for rings of n slots and nq queues. -/
def Params.needed (p : Params) (n nq : Nat) : Nat := nq * Params.qStride p n

/-- QBASE(q). -/
def State.qBase (s : State) (q : Nat) : Nat := s.regionBase.toNat + q * Params.qStride s.params s.n

/-- RINGBASE(r, q). -/
def State.ringBase (s : State) (r : Ring) (q : Nat) : Nat :=
  match r with
  | .tx => s.qBase q
  | .rx => s.qBase q + s.n * 16

/-- DESCADDR(r, q, slot) (R105). -/
def State.descAddr (s : State) (r : Ring) (q slot : Nat) : Nat := s.ringBase r q + 16 * slot

/-- BUFADDR(r, q, i). -/
def State.bufAddr (s : State) (r : Ring) (q i : Nat) : Nat :=
  match r with
  | .tx => s.qBase q + Params.ringArea s.params s.n + i * s.params.pageSize
  | .rx => s.qBase q + Params.ringArea s.params s.n + (s.poolSize .tx + i) * s.params.pageSize

/-! ### Descriptor bytes -/

/-- tx_desc (42_tx.md R301). -/
def txDesc (addr len : Nat) (cmd : Byte) : List Byte := put64 addr ++ put16 len ++ [0, cmd, 0, 0, 0, 0]

/-- CMD of a posted TX descriptor: RS and IFCS, and EOP on the last (42_tx.md R300, R305). -/
def txCmd (eop : Bool) : Byte := if eop then 0x0B else 0x0A

/-- rx_desc (43_rx.md R372). -/
def rxDesc (addr : Nat) : List Byte := put64 addr ++ [0, 0, 0, 0, 0, 0, 0, 0]

/-! ### Budgets and packets -/

/-- Bmax of a pass: the budget in descriptors, 0 or more than N meaning N (42_tx.md R310, 43_rx.md R360). -/
def State.budget (s : State) (b : Half) : Nat := if b.toNat = 0 ∨ b.toNat > s.n then s.n else b.toNat

/-- L, the length of a packet: the sum of the fragment lengths, without wrap (42_tx.md R300). -/
def packetLength : List Frag → Nat
  | []      => 0
  | f :: fs => f.len.toNat + packetLength fs

/-- ceil(l / b), the number of pieces of a packet (42_tx.md R300). -/
def pieceCount (l b : Nat) : Nat := (l + b - 1) / b

/-- The first k pieces of b bytes of a packet, the last one shorter (42_tx.md R300). -/
def pieces (b : Nat) : Nat → List Byte → List (List Byte)
  | 0, _        => []
  | k + 1, data => data.take b :: pieces b k (data.drop b)

end Sys2Proof.Machine
end

