-- ==== Sys2Proof/Machine/Ops.lean ====
section
/-! DEFINITION. The named operations every command is built from: events, responses, DMA, barriers, device registers,
teardown, and ENTERING A FAULT (60_exceptions.md R560), once, for every command that can fault. -/

namespace Sys2Proof.Machine

/-! ### How a micro-operation ends -/

/-- A micro-operation goes on with a value, or has ended its command by fault entry (00_scope.md R14: 'the command performs
no step after it'; the state holds the response), or the machine stops. -/
inductive Res (α : Type) where
  | ok (a : α) (s : State)
  | ended (s : State)
  | stuck (f : Fault)
deriving DecidableEq, Repr

/-- One micro-operation after another. -/
def Res.bind {α β : Type} (x : Res α) (k : α → State → Res β) : Res β :=
  match x with
  | .ok a s  => k a s
  | .ended s => .ended s
  | .stuck f => .stuck f

/-- Run a micro-operation for each index of a list, in order. -/
def forEach (f : Nat → State → Res Unit) : List Nat → State → Res Unit
  | [], s      => .ok () s
  | i :: is, s => (f i s).bind fun _ s => forEach f is s

/-! ### Events and responses -/

/-- emit (00_scope.md R14). -/
def State.emit (s : State) (e : Event) : State := { s with events := s.events ++ [e] }

/-- respond (00_scope.md R14, 30_encoding.md R160). -/
def State.respond (s : State) (status : Status) (value : Word) : State := { s with response := some ⟨status, value⟩ }

/-- A command ends with a response. -/
def answer (s : State) (status : Status) (value : Word) : Host.Outcome State Fault Refusal :=
  .next (s.respond status value)

/-- The outcome of a command whose last micro-operation gives its status and value. -/
def Res.answer (x : Res (Status × Word)) : Host.Outcome State Fault Refusal :=
  match x with
  | .ok a s  => .next (s.respond a.1 a.2)
  | .ended s => .next s
  | .stuck f => .fault f

/-- RSTATE changes: GEN grows by one (10_state.md R34). -/
def State.setRState (s : State) (r : RState) : State := { s with rstate := r, gen := s.gen + 1 }

/-- LSTATE written. -/
def State.setLState (s : State) (l : Byte) : State := { s with lstate := l }

/-! ### DMA and barriers (20_memory.md R101, R120, R121) -/

/-- MemRead. -/
def memRead (addr n : Nat) (s : State) : Res (List Byte) :=
  if s.params.Backs addr n then
    let bytes := blockBytes s.mem s.wb addr n
    .ok bytes (s.emit (.dmaRead addr bytes))
  else .stuck .memoryNotBacked

/-- MemWrite: the write enters the write buffer. -/
def memWrite (addr : Nat) (bytes : List Byte) (s : State) : Res Unit :=
  if s.params.Backs addr bytes.length then
    .ok () (State.emit { s with wb := s.wb ++ [⟨addr, bytes⟩] } (.dmaWrite addr bytes))
  else .stuck .memoryNotBacked

/-- The write buffer drains to memory, oldest entry first. -/
def State.drain (s : State) : State := { s with mem := drained s.mem s.wb, wb := [] }

/-- Barrier: WRITE and FULL drain the write buffer; READ orders reads, which are in order already. -/
def State.barrier (s : State) (kind : BarrierKind) : State :=
  match kind with
  | .read  => s.emit (.barrier .read)
  | .write => (s.emit (.barrier .write)).drain
  | .full  => (s.emit (.barrier .full)).drain

/-! ### Device registers (48_device_agent.md R500 to R503, R515, R516) -/

/-- The registers the block accesses, by name. -/
inductive DevReg where
  | ctrl
  | rctl
  | tctl
  | bal (r : Ring) (q : Nat)
  | bah (r : Ring) (q : Nat)
  | dlen (r : Ring) (q : Nat)
  | head (r : Ring) (q : Nat)
  | tail (r : Ring) (q : Nat)
deriving DecidableEq, Repr

/-- The offset of a register: that of queue 0, plus q times the stride (R501). -/
def devOffset (t : DevRegs) : DevReg → Word
  | .ctrl       => t.ctrl
  | .rctl       => t.rctl
  | .tctl       => t.tctl
  | .bal .tx q  => t.tdbal + BitVec.ofNat 32 q * t.stride
  | .bal .rx q  => t.rdbal + BitVec.ofNat 32 q * t.stride
  | .bah .tx q  => t.tdbah + BitVec.ofNat 32 q * t.stride
  | .bah .rx q  => t.rdbah + BitVec.ofNat 32 q * t.stride
  | .dlen .tx q => t.tdlen + BitVec.ofNat 32 q * t.stride
  | .dlen .rx q => t.rdlen + BitVec.ofNat 32 q * t.stride
  | .head .tx q => t.tdh + BitVec.ofNat 32 q * t.stride
  | .head .rx q => t.rdh + BitVec.ofNat 32 q * t.stride
  | .tail .tx q => t.tdt + BitVec.ofNat 32 q * t.stride
  | .tail .rx q => t.rdt + BitVec.ofNat 32 q * t.stride

/-- The device's registers for ring (r, q). -/
def Device.ring (d : Device) (r : Ring) (q : Nat) : DevRing :=
  match r with
  | .tx => d.tx.getD q DevRing.zero
  | .rx => d.rx.getD q DevRing.zero

/-- The device with its registers for ring (r, q) replaced. -/
def Device.setRing (d : Device) (r : Ring) (q : Nat) (x : DevRing) : Device :=
  match r with
  | .tx => { d with tx := d.tx.set q x }
  | .rx => { d with rx := d.rx.set q x }

/-- CTRL.RST, bit 26. -/
def ctrlRst (v : Word) : Bool := v.getLsbD 26

/-- What a device reset does to a ring's registers (R515). -/
def DevRing.afterReset (x : DevRing) : DevRing := { x with head := 0, tail := 0, done := [] }

/-- A device reset starts (R515). -/
def Device.startReset (d : Device) : Device where
  rxEn      := false
  txEn      := false
  resetting := true
  tx        := d.tx.map DevRing.afterReset
  rx        := d.rx.map DevRing.afterReset

/-- The effect of a register write, by the register's name (R516; DEDUCED, unsafe where offsets overlap: log 8). -/
def Device.write (d : Device) (reg : DevReg) (v : Word) : Device :=
  match reg with
  | .ctrl => if ctrlRst v then d.startReset else d
  | .rctl => { d with rxEn := v.getLsbD 1 }
  | .tctl => { d with txEn := v.getLsbD 1 }
  | .bal r q =>
    let x := d.ring r q
    d.setRing r q { x with dbase := x.dbase.extractLsb' 32 32 ++ v }
  | .bah r q =>
    let x := d.ring r q
    d.setRing r q { x with dbase := v ++ x.dbase.extractLsb' 0 32 }
  | .dlen r q =>
    let x := d.ring r q
    d.setRing r q { x with dlen := v }
  | .head r q =>
    let x := d.ring r q
    d.setRing r q { x with head := v.setWidth 16, done := [] }
  | .tail r q =>
    let x := d.ring r q
    d.setRing r q { x with tail := v.setWidth 16 }

/-- RegWrite: the event, then the effect. -/
def State.regWrite (s : State) (reg : DevReg) (v : Word) : State :=
  let s := s.emit (.regWrite (devOffset s.params.devRegs reg) v)
  { s with dev := s.dev.write reg v }

/-- The value a register read returns: a free value, but bit 26 of CTRL is `resetting` (R503). -/
def State.regValue (s : State) (reg : DevReg) : Word :=
  let v := Config.registerDraw s.draws
  match reg with
  | .ctrl => (v &&& 0xFBFFFFFF) ||| (if s.dev.resetting then 0x04000000 else 0)
  | .rctl | .tctl | .bal _ _ | .bah _ _ | .dlen _ _ | .head _ _ | .tail _ _ => v

/-- The state after RegRead: the event, and the next free value in turn. The device's state stays. -/
def State.afterRegRead (s : State) (reg : DevReg) : State :=
  { s.emit (.regRead (devOffset s.params.devRegs reg) (s.regValue reg)) with draws := s.draws + 1 }

/-! ### Teardown and fault entry -/

/-- pool_reset and ring_reset of both rings of a queue, and DISCARD, ACC, ARMED and CNT (44_control.md R416, 41_pool.md
R255, 40_ring.md R211): the queue as new but for ITR and RX_DROPS. -/
def State.tornQueue (s : State) (x : Queue) : Queue :=
  { Queue.fresh s.n (s.poolSize .tx) with itr := x.itr, rxDrops := x.rxDrops }

/-- The queues below a count, changed by a function. -/
def mapFirst (f : Queue → Queue) : Nat → List Queue → List Queue
  | 0, xs          => xs
  | _ + 1, []      => []
  | k + 1, x :: xs => f x :: mapFirst f k xs

/-- teardown (44_control.md R416). -/
def State.teardown (s : State) : State :=
  let s := { s with queues := mapFirst s.tornQueue s.nq.toNat s.queues, lstate := 0 }
  if s.wb = [] then s else s.barrier .write

/-- device_disable (44_control.md R417). -/
def State.deviceDisable (s : State) : State := (s.regWrite .rctl 0).regWrite .tctl 0

/-- enter_fault (60_exceptions.md R560). -/
def State.enterFault (s : State) (reason : Reason) : State :=
  if s.rstate = .faulted then s
  else
    let s := if s.rstate = .ringsReady then s.deviceDisable else s
    let s := s.teardown.setRState .faulted
    { s with faultReason := reason.code }.emit (.fault reason)

/-- fault (00_scope.md R14): enter the fault and answer with its status and reason code (60_exceptions.md R556). -/
def State.faultAnswer (s : State) (reason : Reason) : State :=
  (s.enterFault reason).respond reason.status (reason.code.setWidth 32)

/-! ### The checks every per-queue command shares (30_encoding.md R163 step 4) -/

/-- A per-queue command with Q >= NQ answers E_INVAL; otherwise its own rule runs. -/
def perQueue (q : BitVec 7) (s : State) (k : Host.Outcome State Fault Refusal) : Host.Outcome State Fault Refusal :=
  if q.toNat < s.nq.toNat then k else answer s .inval 0

end Sys2Proof.Machine
end

