-- ==== Sys2Proof/Machine/Pool.lean ====
section
/-! DEFINITION. The DMA buffer pool (41_pool.md): the micro-operations, RELEASE and POOL_TAG. -/

namespace Sys2Proof.Machine

/-- pool_acquire (R250): the lowest-index Free buffer, or none for PoolExhausted. Nothing is written. -/
def poolAcquire (r : Ring) (q : Nat) (s : State) : Option Nat :=
  (List.range (s.poolSize r)).find? (fun i => s.tag r q i == .free)

/-- TAG[r][q][h] written. -/
def State.setTag (s : State) (r : Ring) (q h : Nat) (t : Tag) : State :=
  let x := s.queue q
  s.setQueue q (x.setPool r ((x.pool r).setTag h t))

/-- pool_mark_posted (R251). -/
def poolMarkPosted (r : Ring) (q h len : Nat) (s : State) : Res Unit :=
  if s.tag r q h = .free then
    let x := s.queue q
    .ok () (s.setQueue q (x.setPool r (((x.pool r).setTag h .hw).setLen h len)))
  else .stuck .markPostedNotFree

/-- pool_mark_completed (R252): the buffer's address and recorded length. -/
def poolMarkCompleted (r : Ring) (q h : Nat) (s : State) : Res (Nat × Half) :=
  if s.tag r q h = .hw then
    .ok (s.bufAddr r q h, ((s.queue q).pool r).len h) (s.setTag r q h .pend)
  else .ended (s.faultAnswer .notPosted)

/-- pool_release (R253): the state after, or none for BadHandle. -/
def poolRelease (r : Ring) (q h : Nat) (s : State) : Option State :=
  if s.tag r q h = .pend then some (s.setTag r q h .free) else none

/-- pool_mark_completed, then pool_release: HW to Pend to Free (42_tx.md R312, 43_rx.md R354). -/
def poolRecycle (r : Ring) (q h : Nat) (s : State) : Res Unit :=
  (poolMarkCompleted r q h s).bind fun _ s => .ok () ((poolRelease r q h s).getD s)

/-- RELEASE (R270). -/
def execRelease (r : Ring) (q : BitVec 7) (index : Half) (s : State) : Host.Outcome State Fault Refusal :=
  perQueue q s <|
    if index.toNat ≥ s.poolSize r then answer s .inval 0
    else
      match poolRelease r q.toNat index.toNat s with
      | none   => answer s .badHandle 0
      | some s => answer s .ok 0

/-- POOL_TAG (R275). -/
def execPoolTag (r : Ring) (q : BitVec 7) (index : Half) (s : State) : Host.Outcome State Fault Refusal :=
  perQueue q s <|
    if index.toNat ≥ s.poolSize r then answer s .inval 0
    else answer s .ok ((s.tag r q.toNat index.toNat).code.setWidth 32)

end Sys2Proof.Machine
end

