-- ==== Sys2Proof/Machine/Ring.lean ====
section
/-! DEFINITION. The descriptor ring (40_ring.md): the micro-operations and the four query commands. -/

namespace Sys2Proof.Machine

/-- ring_post (R205): the slot written, or none for RingFull. -/
def ringPost (r : Ring) (q : Nat) (desc : List Byte) (w : SlotRecord) (s : State) : Res (Option Nat) :=
  if s.ringFull r q then .ok none s
  else
    let slot := s.ntu r q
    (memWrite (s.descAddr r q slot) desc s).bind fun _ s =>
      let x := (s.queue q).setSw r slot w
      let x := x.setCur r { x.cur r with ntu := BitVec.ofNat 16 (ringInc s.n slot) }
      .ok (some slot) (s.setQueue q x)

/-- ring_peek (R206): the descriptor of a slot whose DD is set, else none. -/
def ringPeek (r : Ring) (q slot : Nat) (s : State) : Res (Option (List Byte)) :=
  (memRead (s.descAddr r q slot + 12) 1 (s.barrier .read)).bind fun st s =>
    if ddBit (byteAt st 0) then
      (memRead (s.descAddr r q slot) 16 s).bind fun d s => .ok (some d) s
    else .ok none s

/-- ring_consume (R207). -/
def ringConsume (r : Ring) (q k : Nat) (s : State) : Res Unit :=
  if 1 ≤ k ∧ k ≤ s.occupancy r q then
    let x := s.queue q
    .ok () (s.setQueue q (x.setCur r { x.cur r with ntc := BitVec.ofNat 16 ((s.ntc r q + k) % s.n) }))
  else .stuck .consumeOutOfRange

/-- ring_tail_sync (R210). -/
def ringTailSync (r : Ring) (q : Nat) (s : State) : State :=
  if s.tail r q = s.ntu r q then s
  else
    let s := s.barrier .write
    let s := s.regWrite (.tail r q) (BitVec.ofNat 32 (s.ntu r q))
    let x := s.queue q
    s.setQueue q (x.setCur r { x.cur r with tail := (x.cur r).ntu })

/-- IS_EMPTY (R220). -/
def execIsEmpty (r : Ring) (q : BitVec 7) (s : State) : Host.Outcome State Fault Refusal :=
  perQueue q s (answer s .ok (if s.ringEmpty r q.toNat then 1 else 0))

/-- IS_FULL (R221). -/
def execIsFull (r : Ring) (q : BitVec 7) (s : State) : Host.Outcome State Fault Refusal :=
  perQueue q s (answer s .ok (if s.ringFull r q.toNat then 1 else 0))

/-- CAPACITY (R222). Every ring has the same N, so R only takes part in the check of Q. -/
def execCapacity (_r : Ring) (q : BitVec 7) (s : State) : Host.Outcome State Fault Refusal :=
  perQueue q s (answer s .ok (if s.logn = 0 then 0 else BitVec.ofNat 32 s.n))

/-- OCCUPANCY (R223). -/
def execOccupancy (r : Ring) (q : BitVec 7) (s : State) : Host.Outcome State Fault Refusal :=
  perQueue q s (answer s .ok (BitVec.ofNat 32 (s.occupancy r q.toNat)))

end Sys2Proof.Machine
end

