-- ==== Sys2Proof/Machine/Rx.lean ====
section
/-! DEFINITION. RX ring servicing (43_rx.md): the frame parser, refill, SERVICE_RX and REFILL. -/

namespace Sys2Proof.Machine

/-! ### Refill -/

/-- The loop of rx_refill (R371): how many were posted, and whether the pool ran out. Each round posts one buffer, so N rounds
are enough. -/
def refillLoop (q : Nat) : Nat → Nat → State → Res (Nat × Bool)
  | 0, posted, s        => .ok (posted, false) s
  | fuel + 1, posted, s =>
    if s.ringFull .rx q then .ok (posted, false) s
    else
      match poolAcquire .rx q s with
      | none   => .ok (posted, true) s
      | some h =>
        (ringPost .rx q (rxDesc (s.bufAddr .rx q h)) ⟨h, 0, false⟩ s).bind fun slot s =>
          match slot with
          | none   => .stuck .stagingRefused
          | some _ =>
            (poolMarkPosted .rx q h s.params.bufSize s).bind fun _ s => refillLoop q fuel (posted + 1) s

/-- rx_refill (R371). -/
def rxRefill (q : Nat) (s : State) : Res (Nat × Bool) :=
  (refillLoop q s.n 0 s).bind fun done s => .ok done (ringTailSync .rx q s)

/-! ### The frame parser -/

/-- rx_reporting_allowed (R350). -/
def State.rxReporting (s : State) : Bool :=
  lstateLink s.lstate == linkUp || (lstateLink s.lstate == linkNegotiating && s.params.rxWhileNegotiating)

/-- One scanned descriptor: slot, handle, LEN, STATUS, ERRORS (R351, R352). -/
structure Scanned where
  slot   : Nat
  handle : Half
  len    : Nat
  st     : Byte
  er     : Byte
deriving DecidableEq, Repr

/-- The loop of rx_scan (R352), `left` outstanding slots to go: whether an end of packet was found, and the descriptors. -/
def rxScanLoop (q : Nat) : Nat → Nat → List Scanned → State → Res (Bool × List Scanned)
  | 0, _, recs, s        => .ok (false, recs) s
  | left + 1, j, recs, s =>
    (ringPeek .rx q j s).bind fun d s =>
      match d with
      | none      => .ok (false, recs) s
      | some desc =>
        let len := le16 desc 8
        let st := byteAt desc 12
        if len > s.params.bufSize then .ended (s.faultAnswer .rxLen)
        else
          let recs := recs ++ [⟨j, ((s.queue q).rxRec j).handle, len, st, byteAt desc 13⟩]
          if eopBit st then .ok (true, recs) s else rxScanLoop q left (ringInc s.n j) recs s

/-- rx_scan (R352). Its n is the number of descriptors. -/
def rxScan (q : Nat) (s : State) : Res (Bool × List Scanned) :=
  rxScanLoop q (s.occupancy .rx q) (s.ntc .rx q) [] s

/-- The outcomes of R353. -/
inductive RxOutcome where
  | wait
  | oversize
  | discardTail
  | dropError
  | dropLength
  | deliver
deriving DecidableEq, Repr

/-- The total length of a frame (R353). -/
def scanTotal : List Scanned → Nat
  | []      => 0
  | x :: xs => x.len + scanTotal xs

/-- The OR of a frame's error bytes (R353). -/
def scanErrors : List Scanned → Byte
  | []      => 0
  | x :: xs => x.er ||| scanErrors xs

/-- rx_classify (R353). -/
def rxClassify (q : Nat) (eop : Bool) (recs : List Scanned) (s : State) : RxOutcome :=
  if eop = false then
    if recs.length = s.occupancy .rx q ∧ s.ringFull .rx q = true then .oversize else .wait
  else if (s.queue q).discard then .discardTail
  else if scanErrors recs &&& s.params.frameErrMask ≠ 0 then .dropError
  else if scanTotal recs = 0 ∨ scanTotal recs > s.params.maxRxFrameLen then .dropLength
  else if recs.dropLast.any (fun x => x.len != s.params.bufSize) then .dropLength
  else .deliver

/-- The frame record (R358). -/
def frameOf (recs : List Scanned) : Frame where
  slot   := (recs.map (·.slot)).headD 0
  count  := recs.length
  bufs   := recs.map (fun x => (x.handle, x.len))
  total  := scanTotal recs
  status := (recs.map (·.st)).getLastD 0
  errors := scanErrors recs

/-- Every buffer of a frame completed: HW to Pend. -/
def completeAll (q : Nat) : List Scanned → State → Res Unit
  | [], s      => .ok () s
  | x :: xs, s => (poolMarkCompleted .rx q x.handle.toNat s).bind fun _ s => completeAll q xs s

/-- Every buffer of a frame recycled: HW to Pend to Free. -/
def recycleAll (q : Nat) : List Scanned → State → Res Unit
  | [], s      => .ok () s
  | x :: xs, s => (poolRecycle .rx q x.handle.toNat s).bind fun _ s => recycleAll q xs s

/-- RX_DROPS[q] grows by one, mod 2^32 (R357). -/
def State.countDrop (s : State) (q : Nat) : State :=
  let x := s.queue q
  s.setQueue q { x with rxDrops := x.rxDrops + 1 }

/-- DISCARD[q] written. -/
def State.setDiscard (s : State) (q : Nat) (b : Bool) : State :=
  let x := s.queue q
  s.setQueue q { x with discard := b }

/-- rx_apply (R354). WAIT is never passed to it; it would do nothing but the consume. -/
def rxApply (q : Nat) (o : RxOutcome) (recs : List Scanned) (s : State) : Res Unit :=
  (match o with
    | .wait => Res.ok () s
    | .deliver =>
      (completeAll q recs s).bind fun _ s => .ok () (s.emit (.deliver q (frameOf recs)))
    | .dropError | .dropLength =>
      (recycleAll q recs s).bind fun _ s => .ok () (s.countDrop q)
    | .oversize =>
      (recycleAll q recs s).bind fun _ s =>
        .ok () ((if (s.queue q).discard then s else s.countDrop q).setDiscard q true)
    | .discardTail =>
      (recycleAll q recs s).bind fun _ s => .ok () (s.setDiscard q false)).bind
    fun _ s => ringConsume .rx q recs.length s

/-! ### SERVICE_RX -/

/-- The loop of SERVICE_RX (R360): descriptors consumed and frames delivered. Each round takes an outstanding slot off the
ring, so N rounds are enough. -/
def rxLoop (q bmax : Nat) : Nat → Nat → Nat → Nat → State → Res (Nat × Nat)
  | 0, consumed, _, frames, s            => .ok (consumed, frames) s
  | fuel + 1, consumed, units, frames, s =>
    if s.ringEmpty .rx q then .ok (consumed, frames) s
    else
      (rxScan q s).bind fun scan s =>
        let o := rxClassify q scan.1 scan.2 s
        if o = .wait then .ok (consumed, frames) s
        else if units > 0 ∧ consumed + scan.2.length > bmax then .ok (consumed, frames) s
        else
          (rxApply q o scan.2 s).bind fun _ s =>
            rxLoop q bmax fuel (consumed + scan.2.length) (units + 1) (if o = .deliver then frames + 1 else frames) s

/-- The pass of SERVICE_RX (R360) without its respond: descriptors consumed and frames delivered. -/
def rxPass (q : Nat) (budget : Half) (s : State) : Res (Nat × Nat) :=
  if s.rstate ≠ .ringsReady then .ok (0, 0) s
  else
    (if s.rxReporting then rxLoop q (s.budget budget) s.n 0 0 0 s else .ok (0, 0) s).bind fun done s =>
      (rxRefill q s).bind fun _ s => .ok done s

/-- SERVICE_RX (R360). -/
def execServiceRx (q : BitVec 7) (budget : Half) (s : State) : Host.Outcome State Fault Refusal :=
  perQueue q s <| Res.answer <|
    (rxPass q.toNat budget s).bind fun done s =>
      .ok (.ok, BitVec.ofNat 32 done.2 <<< 16 ||| BitVec.ofNat 32 done.1) s

/-- REFILL (R370). -/
def execRefill (q : BitVec 7) (s : State) : Host.Outcome State Fault Refusal :=
  perQueue q s <|
    if s.rstate ≠ .ringsReady then answer s .ok 0
    else
      Res.answer <|
        (rxRefill q.toNat s).bind fun done s =>
          .ok (.ok, (if done.2 then 0x10000 else 0) ||| BitVec.ofNat 32 done.1) s

end Sys2Proof.Machine
end

