-- ==== Sys2Proof/Machine/Control.lean ====
section
/-! DEFINITION. The reset/init state machine, the link state and the register read (44_control.md): INIT, STOP, POLL_LINK,
READ_REG, the reset-acknowledge sequencer and ring activation. -/

namespace Sys2Proof.Machine

/-! ### INIT (R400) -/

/-- The configuration and every queue of an accepted INIT, and the device reset it starts. -/
def State.initialised (s : State) (nq : Nat) (logn : BitVec 4) (base : Addr) (size : Word) : State :=
  let n := 2 ^ logn.toNat
  let s := { s with
    nq := BitVec.ofNat 8 nq, logn := logn, regionBase := base, regionSize := size,
    queues := List.replicate maxQueues (Queue.fresh n (Params.poolSize s.params n .tx)),
    lstate := 0, faultReason := 0, resetPolls := 0 }
  (s.regWrite .ctrl 0x04000000).setRState .resetting

/-- INIT (R400). -/
def execInit (nqLess1 : BitVec 7) (logn : BitVec 4) (base : Addr) (size : Word) (s : State) :
    Host.Outcome State Fault Refusal :=
  let nq := nqLess1.toNat + 1
  let needed := Params.needed s.params (2 ^ logn.toNat) nq
  if logn.toNat < 1 ∨ logn.toNat > 12 then answer s .inval 0
  else if base.toNat % s.params.pageSize ≠ 0 ∨ size.toNat < needed ∨ base.toNat + size.toNat > 2 ^ 64 then answer s .inval 0
  else if s.rstate = .resetting then answer s .state 0
  else
    let s := if s.rstate = .ringsReady then s.deviceDisable.teardown else s
    answer (s.initialised nq logn base size) .okPending 0

/-! ### Reset acknowledgement and activation (R410, R411) -/

/-- The device programming of one ring: base, length, head and tail (R411). -/
def State.programRing (s : State) (r : Ring) (q : Nat) : State :=
  let s := s.regWrite (.bal r q) (BitVec.ofNat 32 (s.ringBase r q))
  let s := s.regWrite (.bah r q) (BitVec.ofNat 32 (s.ringBase r q / 2 ^ 32))
  let s := s.regWrite (.dlen r q) (BitVec.ofNat 32 (s.n * 16))
  let s := s.regWrite (.head r q) 0
  s.regWrite (.tail r q) 0

/-- The device programming of the rings of some queues, TX first (R411). -/
def programQueues : List Nat → State → State
  | [], s      => s
  | q :: qs, s => programQueues qs ((s.programRing .tx q).programRing .rx q)

/-- activate (R411). -/
def activate (s : State) : Res Unit :=
  let qs := List.range s.nq.toNat
  let s := ((programQueues qs s).regWrite .rctl 0x00000002).regWrite .tctl 0x00000002
  (forEach (fun q s => (rxRefill q s).bind fun _ s => .ok () s) qs s).bind fun _ s =>
    .ok () ((s.setRState .ringsReady).setLState 0x20)

/-- reset_poll (R410). Bit 26 of the CTRL value read is the device's `resetting` whatever the free value is (48_device_agent.md
R503, proved in Laws: ctrlRst_regValue), so the branch asks that. On TIMEOUT the TICK that runs it ends with the fault's
response. -/
def resetPoll (s : State) : Res Unit :=
  let s := { s with resetPolls := s.resetPolls + 1 }
  let s := s.afterRegRead .ctrl
  if s.dev.resetting = false then activate s
  else if s.resetPolls.toNat ≥ s.params.resetPollLimit then .ended (s.faultAnswer .resetTimeout)
  else .ok () s

/-! ### STOP (R415) -/

/-- STOP (R415). -/
def execStop (s : State) : Host.Outcome State Fault Refusal :=
  match s.rstate with
  | .uninitialized | .stopped | .faulted => answer s .ok 0
  | .resetting  => answer (s.teardown.setRState .stopped) .ok 0
  | .ringsReady => answer (s.deviceDisable.teardown.setRState .stopped) .ok 0

/-! ### POLL_LINK (R420) -/

/-- The low five bits of LSTATE that POLL_LINK stores: speed and duplex only when Up. -/
def polledLink (link speed : BitVec 2) (fd : BitVec 1) : Byte :=
  if link = linkUp then lstateOf link speed fd else lstateOf link 0 0

/-- POLL_LINK (R420). -/
def execPollLink (link speed : BitVec 2) (fd : BitVec 1) (s : State) : Host.Outcome State Fault Refusal :=
  if link = 3 ∨ speed = 3 then answer s .inval 0
  else if s.rstate ≠ .ringsReady then answer s .state 0
  else
    let new := polledLink link speed fd
    if new ≠ s.lstate &&& 0x1F then
      answer ((s.setLState new).emit (.linkChanged (lstateLink new) (lstateSpeed new) (lstateFd new = 1))) .ok 1
    else answer (s.setLState new) .ok 0

/-! ### READ_REG (R425, 10_state.md R80) -/

/-- The global registers of 10_state.md R80. -/
def State.globalReg (s : State) (index : Nat) : Option Word :=
  match index with
  | 0x000 => some (s.rstate.code.setWidth 32)
  | 0x001 => some (s.lstate.setWidth 32)
  | 0x002 => some s.gen
  | 0x003 => some (s.nq.setWidth 32)
  | 0x004 => some (s.logn.setWidth 32)
  | 0x005 => some (s.faultReason.setWidth 32)
  | 0x006 => some (s.resetPolls.setWidth 32)
  | 0x007 => some (s.regionBase.extractLsb' 0 32)
  | 0x008 => some (s.regionBase.extractLsb' 32 32)
  | 0x009 => some s.regionSize
  | _     => none

/-- The per-queue registers of 10_state.md R80. -/
def State.queueReg (s : State) (q index : Nat) : Option Word :=
  let x := s.queue q
  match index with
  | 0x100 => some (x.tx.ntu.setWidth 32)
  | 0x101 => some (x.tx.ntc.setWidth 32)
  | 0x102 => some (x.tx.tail.setWidth 32)
  | 0x103 => some (x.rx.ntu.setWidth 32)
  | 0x104 => some (x.rx.ntc.setWidth 32)
  | 0x105 => some (x.rx.tail.setWidth 32)
  | 0x106 => some (if x.discard then 1 else 0)
  | 0x107 => some (x.itr.setWidth 32)
  | 0x108 => some (x.cnt.setWidth 32)
  | 0x109 => some (if x.armed then 1 else 0)
  | 0x10A => some (x.acc.setWidth 32)
  | 0x10B => some x.rxDrops
  | 0x10C => some (BitVec.ofNat 32 (s.poolCount .tx q .free))
  | 0x10D => some (BitVec.ofNat 32 (s.poolCount .tx q .hw))
  | 0x10E => some (BitVec.ofNat 32 (s.poolCount .tx q .pend))
  | 0x10F => some (BitVec.ofNat 32 (s.poolCount .rx q .free))
  | 0x110 => some (BitVec.ofNat 32 (s.poolCount .rx q .hw))
  | 0x111 => some (BitVec.ofNat 32 (s.poolCount .rx q .pend))
  | _     => none

/-- READ_REG (R425): per-queue only for the indices 0x100 to 0x111 (30_encoding.md R157). -/
def execReadReg (q : BitVec 7) (index : Half) (s : State) : Host.Outcome State Fault Refusal :=
  match s.globalReg index.toNat with
  | some v => if q ≠ 0 then answer s .inval 0 else answer s .ok v
  | none   =>
    match s.queueReg q.toNat index.toNat with
    | some v => perQueue q s (answer s .ok v)
    | none   => answer s .inval 0

end Sys2Proof.Machine
end

