-- ==== Sys2Proof/Machine/Tx.lean ====
section
/-! DEFINITION. TX ring servicing (42_tx.md): ENQUEUE and SERVICE_TX. -/

namespace Sys2Proof.Machine

/-! ### ENQUEUE -/

/-- The packet's bytes: MemRead of each fragment in turn, skipping the empty ones (R300). -/
def readFrags : List Frag → State → Res (List Byte)
  | [], s      => .ok [] s
  | f :: fs, s =>
    if f.len = 0 then readFrags fs s
    else
      (memRead f.addr.toNat f.len.toNat s).bind fun bytes s =>
        (readFrags fs s).bind fun rest s => .ok (bytes ++ rest) s

/-- The loop of R300 over the pieces of a packet. -/
def stagePieces (q last : Nat) : List (List Byte) → State → Res Unit
  | [], s            => .ok () s
  | piece :: rest, s =>
    match poolAcquire .tx q s with
    | none   => .stuck .stagingRefused
    | some h =>
      let addr := s.bufAddr .tx q h
      let eop := rest.isEmpty
      (memWrite addr piece s).bind fun _ s =>
        (ringPost .tx q (txDesc addr piece.length (txCmd eop)) ⟨h, last, eop⟩ s).bind fun slot s =>
          match slot with
          | none   => .stuck .stagingRefused
          | some _ =>
            (poolMarkPosted .tx q h piece.length s).bind fun _ s => stagePieces q last rest s

/-- ENQUEUE (R300). -/
def execEnqueue (q : BitVec 7) (frags : List Frag) (s : State) : Host.Outcome State Fault Refusal :=
  perQueue q s <|
    let l := packetLength frags
    let k := pieceCount l s.params.bufSize
    if frags.length = 0 ∨ frags.length > s.params.maxTxFrags then answer s .inval 0
    else if s.rstate ≠ .ringsReady ∨ lstateLink s.lstate ≠ linkUp then answer s .down 0
    else if l = 0 then answer s .inval 0
    else if k > s.params.maxTxDescPerPkt ∨ k > s.n - 1 then answer s .tooBig 0
    else if s.ringFree .tx q.toNat < k ∨ s.poolCount .tx q.toNat .free < k then answer s .backpressure 0
    else
      let first := s.ntu .tx q.toNat
      let last := (first + k - 1) % s.n
      Res.answer <|
        (readFrags frags s).bind fun data s =>
          (stagePieces q.toNat last (pieces s.params.bufSize k data) s).bind fun _ s =>
            .ok (.ok, BitVec.ofNat 32 first) (ringTailSync .tx q.toNat s)

/-! ### SERVICE_TX -/

/-- The loop of tx_packet_done (R311) from index i on, `left` slots to go; `gap` says a slot before was not done. -/
def txDoneLoop (q slot : Nat) : Nat → Nat → Bool → State → Res Bool
  | 0, _, gap, s        => .ok (!gap) s
  | left + 1, i, gap, s =>
    (ringPeek .tx q ((slot + i) % s.n) s).bind fun d s =>
      match d with
      | none   => txDoneLoop q slot left (i + 1) true s
      | some _ => if gap then .ended (s.faultAnswer .order) else txDoneLoop q slot left (i + 1) gap s

/-- tx_packet_done (R311). -/
def txPacketDone (q slot k : Nat) (s : State) : Res Bool := txDoneLoop q slot k 0 false s

/-- tx_release_packet (R312). -/
def txReleasePacket (q slot k : Nat) (s : State) : Res Unit :=
  forEach (fun i s => poolRecycle .tx q ((s.queue q).txRec ((slot + i) % s.n)).handle.toNat s) (List.range k) s

/-- The loop of SERVICE_TX (R310): slots and packets freed. Each round takes an outstanding slot off the ring, so N rounds are
enough. -/
def txLoop (q bmax : Nat) : Nat → Nat → Nat → State → Res (Nat × Nat)
  | 0, slots, pkts, s        => .ok (slots, pkts) s
  | fuel + 1, slots, pkts, s =>
    if s.ringEmpty .tx q then .ok (slots, pkts) s
    else
      let slot := s.ntc .tx q
      let k := ringDist s.n slot ((s.queue q).txRec slot).last.toNat + 1
      if pkts > 0 ∧ slots + k > bmax then .ok (slots, pkts) s
      else
        (txPacketDone q slot k s).bind fun done s =>
          if done then
            (txReleasePacket q slot k s).bind fun _ s =>
              (ringConsume .tx q k s).bind fun _ s => txLoop q bmax fuel (slots + k) (pkts + 1) s
          else .ok (slots, pkts) s

/-- The pass of SERVICE_TX (R310, R313) without its respond: slots and packets freed. -/
def txPass (q : Nat) (budget : Half) (s : State) : Res (Nat × Nat) :=
  if s.rstate ≠ .ringsReady then .ok (0, 0) s
  else
    (txLoop q (s.budget budget) s.n 0 0 s).bind fun done s =>
      .ok done (if done.2 > 0 then s.emit (.txCapacity q) else s)

/-- SERVICE_TX (R310). -/
def execServiceTx (q : BitVec 7) (budget : Half) (s : State) : Host.Outcome State Fault Refusal :=
  perQueue q s <| Res.answer <|
    (txPass q.toNat budget s).bind fun done s =>
      .ok (.ok, BitVec.ofNat 32 done.2 <<< 16 ||| BitVec.ofNat 32 done.1) s

end Sys2Proof.Machine
end

