-- ==== Sys2Proof/Machine/Irq.lean ====
section
/-! DEFINITION. Interrupt commands and the moderation timer (45_irq.md, 60_exceptions.md R570 to R577): IRQ, SET_ITR, TICK. -/

namespace Sys2Proof.Machine

/-- ACC[q] taken and the window closed (60_exceptions.md R575). -/
def State.closeWindow (s : State) (q : Nat) : State :=
  s.setQueue q { s.queue q with acc := 0, armed := false, cnt := 0 }

/-- dispatch (60_exceptions.md R575): the TX pass, the RX pass, then LCP. -/
def dispatch (q : Nat) (s : State) : Res Unit :=
  let c := (s.queue q).acc
  let s := s.closeWindow q
  if s.rstate ≠ .ringsReady then .ok () s
  else
    (if c &&& txMask ≠ 0 then (txPass q 0 s).bind fun _ s => .ok () s else .ok () s).bind fun _ s =>
      (if c &&& rxMask ≠ 0 then (rxPass q 0 s).bind fun _ s => .ok () s else .ok () s).bind fun _ s =>
        .ok () (if c &&& linkMask ≠ 0 then s.setLState (lstateSetLcp s.lstate) else s)

/-- The causes of an IRQ merged into ACC[q] (45_irq.md R450). -/
def State.accumulate (s : State) (q : Nat) (c : Half) : State :=
  let x := s.queue q
  s.setQueue q { x with acc := x.acc ||| c }

/-- The coalescing window opened, if it is not open (45_irq.md R450). -/
def State.openWindow (s : State) (q : Nat) : State :=
  let x := s.queue q
  if x.armed then s else s.setQueue q { x with armed := true, cnt := x.itr }

/-- IRQ (45_irq.md R450). -/
def execIrq (q : BitVec 7) (causes : Half) (s : State) : Host.Outcome State Fault Refusal :=
  perQueue q s <|
    if parityCause causes = true ∧ s.params.parityFaultEnabled = true ∧ s.rstate ≠ .faulted then
      .next (s.faultAnswer .dmaParity)
    else if s.rstate ≠ .ringsReady then answer s .ok 0
    else
      let c := causes &&& causeMask
      if c = 0 then answer s .ok 0
      else
        let s := s.accumulate q.toNat c
        if (s.queue q.toNat).itr = 0 then
          Res.answer ((dispatch q.toNat s).bind fun _ s => .ok (.ok, 1) s)
        else answer (s.openWindow q.toNat) .ok 0

/-- SET_ITR (45_irq.md R460). -/
def execSetItr (q : BitVec 7) (window : Half) (s : State) : Host.Outcome State Fault Refusal :=
  perQueue q s (answer (s.setQueue q.toNat { s.queue q.toNat with itr := window }) .ok 0)

/-- One queue's turn in a TICK (45_irq.md R470): count an open window down, and dispatch when it closes. -/
def tickQueue (q : Nat) (d : Nat) (s : State) : Res Nat :=
  let x := s.queue q
  if x.armed then
    let s := s.setQueue q { x with cnt := x.cnt - 1 }
    if x.cnt - 1 = 0 then (dispatch q s).bind fun _ s => .ok (d + 1) s else .ok d s
  else .ok d s

/-- The queue loop of TICK, ascending (45_irq.md R470). -/
def tickLoop : List Nat → Nat → State → Res Nat
  | [], d, s      => .ok d s
  | q :: qs, d, s => (tickQueue q d s).bind fun d s => tickLoop qs d s

/-- TICK (45_irq.md R470). -/
def execTick (s : State) : Host.Outcome State Fault Refusal :=
  Res.answer <|
    (if s.rstate = .resetting then resetPoll s else .ok () s).bind fun _ s =>
      (if s.rstate = .ringsReady then tickLoop (List.range s.nq.toNat) 0 s else .ok 0 s).bind fun d s =>
        .ok (.ok, BitVec.ofNat 32 d) s

end Sys2Proof.Machine
end

