-- ==== Sys2Proof/Machine/Dispatch.lean ====
section
/-! DEFINITION. One arm per command (30_encoding.md R156). -/

namespace Sys2Proof.Machine

def exec (i : Instr) (s : State) : Host.Outcome State Fault Refusal :=
  match i with
  | .init nqLess1 logn base size => Sys2Proof.Machine.execInit nqLess1 logn base size s
  | .stop => Sys2Proof.Machine.execStop s
  | .enqueue q frags => Sys2Proof.Machine.execEnqueue q frags s
  | .serviceTx q budget => Sys2Proof.Machine.execServiceTx q budget s
  | .serviceRx q budget => Sys2Proof.Machine.execServiceRx q budget s
  | .refill q => Sys2Proof.Machine.execRefill q s
  | .release r q index => Sys2Proof.Machine.execRelease r q index s
  | .irq q causes => Sys2Proof.Machine.execIrq q causes s
  | .pollLink link speed fd => Sys2Proof.Machine.execPollLink link speed fd s
  | .tick => Sys2Proof.Machine.execTick s
  | .setItr q window => Sys2Proof.Machine.execSetItr q window s
  | .isEmpty r q => Sys2Proof.Machine.execIsEmpty r q s
  | .isFull r q => Sys2Proof.Machine.execIsFull r q s
  | .capacity r q => Sys2Proof.Machine.execCapacity r q s
  | .occupancy r q => Sys2Proof.Machine.execOccupancy r q s
  | .readReg q index => Sys2Proof.Machine.execReadReg q index s
  | .poolTag r q index => Sys2Proof.Machine.execPoolTag r q index s

end Sys2Proof.Machine
end

