-- ==== Sys2Proof/WellFormed.lean ====
section
/-! DEFINITION. Which instruction terms have a command word (30_encoding.md R150, R157): the operand types already hold
every field to its width, but the number of fragments of ENQUEUE must fit the 16-bit IMM. -/

namespace Sys2Proof

/-- The term can be written as a command word with its argument block. -/
def Instr.wellFormed : Instr → Bool
  | .init _ _ _ _    => true
  | .stop            => true
  | .enqueue _ frags => frags.length < 2 ^ 16
  | .serviceTx _ _   => true
  | .serviceRx _ _   => true
  | .refill _        => true
  | .release _ _ _   => true
  | .irq _ _         => true
  | .pollLink _ _ _  => true
  | .tick            => true
  | .setItr _ _      => true
  | .isEmpty _ _     => true
  | .isFull _ _      => true
  | .capacity _ _    => true
  | .occupancy _ _   => true
  | .readReg _ _     => true
  | .poolTag _ _ _   => true

end Sys2Proof
end

