-- ==== Sys2Proof/Decode.lean ====
section
/-! DEFINITION. Decoding a command word and its argument block (30_encoding.md R150 to R158, steps 1 to 3 of R163), and
the encoder (R165). -/

namespace Sys2Proof

/-! ### The fields of a command word (R150) -/

/-- OPC, bits 31:24. -/
def Word.opc (w : Word) : BitVec 8 := w.extractLsb' 24 8

/-- R, bit 23. -/
def Word.rbit (w : Word) : BitVec 1 := w.extractLsb' 23 1

/-- Q, bits 22:16. -/
def Word.qfield (w : Word) : BitVec 7 := w.extractLsb' 16 7

/-- IMM, bits 15:0. -/
def Word.imm (w : Word) : Half := w.extractLsb' 0 16

/-- `OPC << 24 | R << 23 | Q << 16 | IMM` (R165). -/
def Word.ofFields (opc : BitVec 8) (r : BitVec 1) (q : BitVec 7) (imm : Half) : Word :=
  opc ++ r ++ q ++ imm

/-- 0 selects TX, 1 selects RX (R150). -/
def Ring.ofBit (b : BitVec 1) : Ring := if b = 0 then .tx else .rx

/-- The R bit of a ring. -/
def Ring.bit : Ring → BitVec 1
  | .tx => 0
  | .rx => 1

/-! ### The opcode map (R156) -/

/-- The seventeen opcodes. -/
inductive Opcode where
  | init
  | stop
  | enqueue
  | serviceTx
  | serviceRx
  | refill
  | release
  | irq
  | pollLink
  | tick
  | setItr
  | isEmpty
  | isFull
  | capacity
  | occupancy
  | readReg
  | poolTag
deriving DecidableEq, Repr

/-- The number of an opcode. -/
def Opcode.code : Opcode → BitVec 8
  | .init      => 0x01
  | .stop      => 0x02
  | .enqueue   => 0x03
  | .serviceTx => 0x04
  | .serviceRx => 0x05
  | .refill    => 0x06
  | .release   => 0x07
  | .irq       => 0x08
  | .pollLink  => 0x09
  | .tick      => 0x0A
  | .setItr    => 0x0B
  | .isEmpty   => 0x0C
  | .isFull    => 0x0D
  | .capacity  => 0x0E
  | .occupancy => 0x0F
  | .readReg   => 0x10
  | .poolTag   => 0x11

/-- Every opcode, in the order of R156. -/
def Opcode.all : List Opcode :=
  [.init, .stop, .enqueue, .serviceTx, .serviceRx, .refill, .release, .irq, .pollLink, .tick, .setItr, .isEmpty, .isFull,
   .capacity, .occupancy, .readReg, .poolTag]

/-- The opcode with a number; none for the reserved numbers 0x00 and 0x12 to 0xFF (R158). -/
def Opcode.ofCode (c : BitVec 8) : Option Opcode := Opcode.all.find? (fun o => o.code == c)

/-! ### Field use (R157) -/

/-- The bits of a command word that the opcode's row of R157 says must be zero. -/
def Opcode.reservedMask : Opcode → Word
  | .init      => 0x0080FFF0
  | .stop      => 0x00FFFFFF
  | .enqueue   => 0x00800000
  | .serviceTx => 0x00800000
  | .serviceRx => 0x00800000
  | .refill    => 0x0080FFFF
  | .release   => 0x00000000
  | .irq       => 0x00800000
  | .pollLink  => 0x00FFFFE0
  | .tick      => 0x00FFFFFF
  | .setItr    => 0x00800000
  | .isEmpty   => 0x0000FFFF
  | .isFull    => 0x0000FFFF
  | .capacity  => 0x0000FFFF
  | .occupancy => 0x0000FFFF
  | .readReg   => 0x00800000
  | .poolTag   => 0x00000000

/-- The length of the argument block in words (R152, R157): a function of OPC and IMM alone (R154). ENQUEUE needs three
words a fragment for EVERY IMM, also one its own check refuses later. DEDUCED, safe: log 12. -/
def Opcode.argWords (o : Opcode) (imm : Half) : Nat :=
  match o with
  | .init    => 3
  | .enqueue => 3 * imm.toNat
  | .stop | .serviceTx | .serviceRx | .refill | .release | .irq | .pollLink | .tick | .setItr | .isEmpty | .isFull
  | .capacity | .occupancy | .readReg | .poolTag => 0

/-! ### Argument words -/

/-- A 64-bit value of two argument words, low word first (R152, R153). -/
def addrOfWords (lo hi : Word) : Addr := hi ++ lo

/-- The low word of a 64-bit value. -/
def Addr.lo (a : Addr) : Word := a.extractLsb' 0 32

/-- The high word of a 64-bit value. -/
def Addr.hi (a : Addr) : Word := a.extractLsb' 32 32

/-- The fragments of an ENQUEUE argument block: address low, address high, length, each. -/
def fragsOfWords : List Word → List Frag
  | lo :: hi :: len :: rest => ⟨addrOfWords lo hi, len⟩ :: fragsOfWords rest
  | _ => []

/-- The argument block of a list of fragments. -/
def wordsOfFrags : List Frag → List Word
  | []      => []
  | f :: fs => Addr.lo f.addr :: Addr.hi f.addr :: f.len :: wordsOfFrags fs

/-! ### The decoder -/

/-- Why a command is refused before its own checks: steps 1, 2 and 3 of R163. -/
inductive DecodeError where
  /-- Step 1: OPC is reserved. The block answers E_ILLEGAL. Safe: the answer is the spec's. -/
  | reservedOpcode
  /-- Step 2: a reserved field is not zero. The block answers E_INVAL. Safe: the answer is the spec's. -/
  | reservedField
  /-- Step 3: the argument block has another length. The block answers E_INVAL. Safe: the answer is the spec's. -/
  | argumentCount
deriving DecidableEq, Repr

/-- The operands of a command whose opcode, reserved fields and argument count are right. The second equation is never
used on such a block: INIT has three words. -/
def Opcode.operands (o : Opcode) (w : Word) (args : List Word) : Except DecodeError Instr :=
  let r := Ring.ofBit (Word.rbit w)
  let q := Word.qfield w
  let imm := Word.imm w
  match o with
  | .init =>
    match args with
    | [lo, hi, size] => .ok (.init q (imm.extractLsb' 0 4) (addrOfWords lo hi) size)
    | _ => .error .argumentCount
  | .stop      => .ok .stop
  | .enqueue   => .ok (.enqueue q (fragsOfWords args))
  | .serviceTx => .ok (.serviceTx q imm)
  | .serviceRx => .ok (.serviceRx q imm)
  | .refill    => .ok (.refill q)
  | .release   => .ok (.release r q imm)
  | .irq       => .ok (.irq q imm)
  | .pollLink  => .ok (.pollLink (imm.extractLsb' 0 2) (imm.extractLsb' 2 2) (imm.extractLsb' 4 1))
  | .tick      => .ok .tick
  | .setItr    => .ok (.setItr q imm)
  | .isEmpty   => .ok (.isEmpty r q)
  | .isFull    => .ok (.isFull r q)
  | .capacity  => .ok (.capacity r q)
  | .occupancy => .ok (.occupancy r q)
  | .readReg   => .ok (.readReg q imm)
  | .poolTag   => .ok (.poolTag r q imm)

/-- Steps 1 to 3 of R163, in that order, then the operands. Total on every word with every argument block. -/
def decode (w : Word) (args : List Word) : Except DecodeError Instr :=
  match Opcode.ofCode (Word.opc w) with
  | none => .error .reservedOpcode
  | some o =>
    if w &&& o.reservedMask ≠ 0 then .error .reservedField
    else if args.length ≠ o.argWords (Word.imm w) then .error .argumentCount
    else o.operands w args

/-! ### The encoder (R165) -/

/-- The opcode of an instruction. -/
def Instr.opcode : Instr → Opcode
  | .init _ _ _ _   => .init
  | .stop           => .stop
  | .enqueue _ _    => .enqueue
  | .serviceTx _ _  => .serviceTx
  | .serviceRx _ _  => .serviceRx
  | .refill _       => .refill
  | .release _ _ _  => .release
  | .irq _ _        => .irq
  | .pollLink _ _ _ => .pollLink
  | .tick           => .tick
  | .setItr _ _     => .setItr
  | .isEmpty _ _    => .isEmpty
  | .isFull _ _     => .isFull
  | .capacity _ _   => .capacity
  | .occupancy _ _  => .occupancy
  | .readReg _ _    => .readReg
  | .poolTag _ _ _  => .poolTag

/-- The command word of an instruction. -/
def Instr.word (i : Instr) : Word :=
  let c := i.opcode.code
  match i with
  | .init q logn _ _       => Word.ofFields c 0 q (logn.setWidth 16)
  | .stop                  => Word.ofFields c 0 0 0
  | .enqueue q frags       => Word.ofFields c 0 q (BitVec.ofNat 16 frags.length)
  | .serviceTx q budget    => Word.ofFields c 0 q budget
  | .serviceRx q budget    => Word.ofFields c 0 q budget
  | .refill q              => Word.ofFields c 0 q 0
  | .release r q index     => Word.ofFields c r.bit q index
  | .irq q causes          => Word.ofFields c 0 q causes
  | .pollLink link speed fd => Word.ofFields c 0 0 ((fd ++ speed ++ link).setWidth 16)
  | .tick                  => Word.ofFields c 0 0 0
  | .setItr q window       => Word.ofFields c 0 q window
  | .isEmpty r q           => Word.ofFields c r.bit q 0
  | .isFull r q            => Word.ofFields c r.bit q 0
  | .capacity r q          => Word.ofFields c r.bit q 0
  | .occupancy r q         => Word.ofFields c r.bit q 0
  | .readReg q index       => Word.ofFields c 0 q index
  | .poolTag r q index     => Word.ofFields c r.bit q index

/-- The argument block of an instruction. -/
def Instr.args : Instr → List Word
  | .init _ _ base size => [Addr.lo base, Addr.hi base, size]
  | .enqueue _ frags    => wordsOfFrags frags
  | .stop | .serviceTx _ _ | .serviceRx _ _ | .refill _ | .release _ _ _ | .irq _ _ | .pollLink _ _ _ | .tick
  | .setItr _ _ | .isEmpty _ _ | .isFull _ _ | .capacity _ _ | .occupancy _ _ | .readReg _ _ | .poolTag _ _ _ => []

/-- The word and argument block of an instruction. -/
def encode (i : Instr) : Word × List Word := (i.word, i.args)

/-! ### Assembler text (R165), numbers in decimal -/

/-- `tx` or `rx`. -/
def Ring.asm : Ring → String
  | .tx => "tx"
  | .rx => "rx"

/-- `down`, `neg` or `up`; the value 3 has no name. -/
def linkAsm (link : BitVec 2) : String :=
  if link = 0 then "down" else if link = 1 then "neg" else if link = 2 then "up" else "3"

/-- The rate in Mb/s; the value 3 has none. -/
def speedAsm (speed : BitVec 2) : String :=
  if speed = 0 then "10" else if speed = 1 then "100" else if speed = 2 then "1000" else "3"

/-- A mnemonic with its operands, separated by commas. -/
def asmLine (mnemonic : String) (operands : List String) : String :=
  if operands.isEmpty then mnemonic else mnemonic ++ " " ++ String.intercalate ", " operands

/-- The assembler line of an instruction. INIT shows nq, not the Q field. -/
def Instr.asm : Instr → String
  | .init q logn base size =>
    asmLine "INIT" [Nat.repr (q.toNat + 1), Nat.repr logn.toNat, Nat.repr base.toNat, Nat.repr size.toNat]
  | .stop => asmLine "STOP" []
  | .enqueue q frags =>
    asmLine "ENQUEUE" (Nat.repr q.toNat :: frags.map (fun f => Nat.repr f.addr.toNat ++ ":" ++ Nat.repr f.len.toNat))
  | .serviceTx q budget => asmLine "SERVICE_TX" [Nat.repr q.toNat, Nat.repr budget.toNat]
  | .serviceRx q budget => asmLine "SERVICE_RX" [Nat.repr q.toNat, Nat.repr budget.toNat]
  | .refill q => asmLine "REFILL" [Nat.repr q.toNat]
  | .release r q index => asmLine "RELEASE" [r.asm, Nat.repr q.toNat, Nat.repr index.toNat]
  | .irq q causes => asmLine "IRQ" [Nat.repr q.toNat, Nat.repr causes.toNat]
  | .pollLink link speed fd => asmLine "POLL_LINK" [linkAsm link, speedAsm speed, Nat.repr fd.toNat]
  | .tick => asmLine "TICK" []
  | .setItr q window => asmLine "SET_ITR" [Nat.repr q.toNat, Nat.repr window.toNat]
  | .isEmpty r q => asmLine "IS_EMPTY" [r.asm, Nat.repr q.toNat]
  | .isFull r q => asmLine "IS_FULL" [r.asm, Nat.repr q.toNat]
  | .capacity r q => asmLine "CAPACITY" [r.asm, Nat.repr q.toNat]
  | .occupancy r q => asmLine "OCCUPANCY" [r.asm, Nat.repr q.toNat]
  | .readReg q index =>
    if index.toNat < 0x100 ∧ q = 0 then asmLine "READ_REG" [Nat.repr index.toNat]
    else asmLine "READ_REG" [Nat.repr q.toNat, Nat.repr index.toNat]
  | .poolTag r q index => asmLine "POOL_TAG" [r.asm, Nat.repr q.toNat, Nat.repr index.toNat]

/-! ### The opcode table's numbering -/

/-- The n 32-bit words of a number, least significant first. -/
def wordsOfNat : Nat → Nat → List Word
  | 0, _     => []
  | n + 1, w => BitVec.ofNat 32 w :: wordsOfNat n (w / 2 ^ 32)

/-- A command word and its argument block from one number whose bits 31:0 are the command word, bits 63:32 the first
argument word, and so on. Bits at nbits and above are zero, and the argument block has the length R157 asks for. -/
def tableCommand (nbits w : Nat) : Word × List Word :=
  let v := w % 2 ^ nbits
  let word : Word := BitVec.ofNat 32 v
  let n := match Opcode.ofCode (Word.opc word) with
    | none   => 0
    | some o => o.argWords (Word.imm word)
  (word, wordsOfNat n (v / 2 ^ 32))

/-- The instruction this decoder reads from the table's numbering; none where it refuses. -/
def decodeTableWord (nbits w : Nat) : Option Instr :=
  match decode (tableCommand nbits w).1 (tableCommand nbits w).2 with
  | .ok i    => some i
  | .error _ => none

end Sys2Proof
end

