-- ==== Sys2Proof/Machine/DeviceAgent.lean ====
section
/-! DEFINITION. The device agent's moves (48_device_agent.md R505 to R520). A move that is not enabled is not taken: the state
stays (DESIGN CHOICE, safe: log 3). The device sees memory only, never the write buffer (20_memory.md R121). -/

namespace Sys2Proof.Machine

/-- The state with bytes written to memory by the device or the host; a stop where the platform has no memory (log 16). -/
def deviceWrite (addr : Nat) (bytes : List Byte) (s : State) : Res Unit :=
  if s.params.Backs addr bytes.length then .ok () { s with mem := Memory.setBytes s.mem addr bytes }
  else .stuck .memoryNotBacked

/-- The state with the device's registers for ring (r, q) replaced. -/
def State.setDevRing (s : State) (r : Ring) (q : Nat) (x : DevRing) : State := { s with dev := s.dev.setRing r q x }

/-- The device may complete a descriptor of ring (r, q) (R512, R513). -/
def State.completionEnabled (s : State) (r : Ring) (q : Nat) : Bool :=
  (match r with
    | .tx => s.dev.txEn
    | .rx => s.dev.rxEn) && !s.dev.resetting && (s.dev.ring r q).head != (s.dev.ring r q).tail

/-- The address of the descriptor the device knows for a slot (R512). -/
def DevRing.slotAddr (x : DevRing) (slot : Nat) : Nat := x.dbase.toNat + 16 * slot

/-- The writeback of a TX completion (R512). -/
def txWriteback (q slot : Nat) (x : Byte) (s : State) : Res Unit :=
  deviceWrite ((s.dev.ring .tx q).slotAddr slot + 12) [0x01 ||| (x &&& 0x0E)] s

/-- Bytes 8 to 15 of an RX descriptor after its completion (R513). -/
def rxStatusBytes (d : RxDraw) : List Byte :=
  put16 d.data.length ++ put16 d.csum.toNat ++ [0x01 ||| (d.st &&& 0xEE), d.er] ++ put16 d.special.toNat

/-- The writeback of an RX completion: at most BUF_SIZE bytes of data, then the descriptor (R513, R520). -/
def rxWriteback (q slot : Nat) (d : RxDraw) (s : State) : Res Unit :=
  let a := (s.dev.ring .rx q).slotAddr slot
  let b := le64 (Memory.bytes s.mem a 8) 0
  (deviceWrite b (d.data.take s.params.bufSize) s).bind fun _ s => deviceWrite (a + 8) (rxStatusBytes d) s

/-- A slot put into a set of slots listed in rising order. -/
def insertSlot (x : Nat) : List Nat → List Nat
  | []      => [x]
  | y :: ys => if x < y then x :: y :: ys else if x = y then y :: ys else y :: insertSlot x ys

/-- The head moves on by one slot (R511). N is the block's, the same for every ring (DEDUCED, safe: log 17). -/
def State.advanceHead (s : State) (r : Ring) (q : Nat) : State :=
  let x := s.dev.ring r q
  s.setDevRing r q { x with head := BitVec.ofNat 16 (ringInc s.n x.head.toNat), done := x.done.erase x.head.toNat }

/-- The slot the device's head is at. -/
def State.headSlot (s : State) (r : Ring) (q : Nat) : Nat := (s.dev.ring r q).head.toNat

/-- A completion at the head: the writeback, which a slot already in `done` skips (R520), then the head moves. -/
def completeHead (r : Ring) (q : Nat) (writeback : State → Res Unit) (s : State) : Res Unit :=
  (if s.headSlot r q ∈ (s.dev.ring r q).done then .ok () s else writeback s).bind fun _ s => .ok () (s.advanceHead r q)

/-- The slots the device's window holds: dist(head, tail). -/
def State.windowSize (s : State) (r : Ring) (q : Nat) : Nat :=
  ringDist s.n (s.dev.ring r q).head.toNat (s.dev.ring r q).tail.toNat

/-- A non-conformant completion k slots past the head: the writeback, and the slot joins `done`; the head stays (R520). -/
def completeAt (r : Ring) (q slot : Nat) (writeback : State → Res Unit) (s : State) : Res Unit :=
  (writeback s).bind fun _ s =>
    let x := s.dev.ring r q
    .ok () (s.setDevRing r q { x with done := insertSlot slot x.done })

/-- The device may complete an RX descriptor at the head with what it drew. A conformant device fills the buffer on every
descriptor but the last of a frame (R513); one that is not may stop short, or name up to 0xFFFF bytes (R520). -/
def Params.admitsDraw (p : Params) (d : RxDraw) : Bool :=
  if p.deviceConformant then d.data.length == p.bufSize || (eopBit d.st && d.data.length < p.bufSize)
  else d.data.length ≤ 0xFFFF

/-- A completion away from the head, k slots past it, is one the device may make: it is not conformant (R520), and the slot
is in its window and not completed yet (R510). -/
def State.completionAtEnabled (s : State) (r : Ring) (q k : Nat) : Bool :=
  !s.params.deviceConformant && s.completionEnabled r q && 0 < k && k < s.windowSize r q &&
    !(s.dev.ring r q).done.contains ((s.headSlot r q + k) % s.n)

/-- One move of the device agent. -/
def deviceMove (m : Move) (s : State) : Res Unit :=
  match m with
  | .txComplete q x =>
    if s.completionEnabled .tx q then completeHead .tx q (txWriteback q (s.headSlot .tx q) x) s else .ok () s
  | .rxComplete q d =>
    if s.completionEnabled .rx q && Params.admitsDraw s.params d then
      completeHead .rx q (rxWriteback q (s.headSlot .rx q) d) s
    else .ok () s
  | .resetDone =>
    if s.dev.resetting then .ok () { s with dev := { s.dev with resetting := false } } else .ok () s
  | .txCompleteAt q k x =>
    let slot := (s.headSlot .tx q + k) % s.n
    if s.completionAtEnabled .tx q k then completeAt .tx q slot (txWriteback q slot x) s
    else .ok () s
  | .rxCompleteAt q k d =>
    let slot := (s.headSlot .rx q + k) % s.n
    if s.completionAtEnabled .rx q k && d.data.length ≤ s.params.bufSize then
      completeAt .rx q slot (rxWriteback q slot d) s
    else .ok () s

/-- The owner of host memory changes bytes of it outside the DMA region (70_reset_and_hazards.md R610(g); DEDUCED, safe:
log 10). A write that touches the region or memory the platform lacks is not taken. -/
def hostWrite (addr : Addr) (bytes : List Byte) (s : State) : State :=
  if s.params.Backs addr.toNat bytes.length ∧
      (addr.toNat + bytes.length ≤ s.regionBase.toNat ∨ s.regionBase.toNat + s.regionSize.toNat ≤ addr.toNat) then
    { s with mem := Memory.setBytes s.mem addr.toNat bytes }
  else s

end Sys2Proof.Machine
end

