-- ==== Sys2Proof/Machine/Port.lean ====
section
/-! DEFINITION. The command port (30_encoding.md R150 to R163): what a command word and its argument block ask for, and the
answers of the checks that come before every command. -/

namespace Sys2Proof.Machine

/-- The status of a command that fails step 1, 2 or 3 of R163. -/
def errorStatus : DecodeError → Status
  | .reservedOpcode => .illegal
  | .reservedField  => .inval
  | .argumentCount  => .inval

/-- The response of a command that fails step 1, 2 or 3 of R163: value 0, no state change, no event. -/
def refuseCommand (e : DecodeError) (s : State) : State := s.respond (errorStatus e) 0

/-- The state with what happens next taken off the stream. -/
def State.withInputs (s : State) (rest : List Input) : State := { s with inputs := rest }

/-- The outcome of a move of the device. -/
def moveOutcome (x : Res Unit) : Host.Outcome State Fault Refusal :=
  match x with
  | .ok _ s  => .next s
  | .ended s => .next s
  | .stuck f => .fault f

/-- The stream with the command of the opcode table's numbering put in front. -/
def tableInputs (nbits w : Nat) (rest : List Input) : List Input :=
  .command (tableCommand nbits w).1 (tableCommand nbits w).2 :: rest

end Sys2Proof.Machine
end

