-- ==== Sys2Proof/Machine/Step.lean ====
section
/-! DEFINITION. One step of the machine: what stands first in the stream of inputs happens (00_scope.md R7, 30_encoding.md
R151). -/

namespace Sys2Proof.Machine

/-- One step: a command, whole; or a device move; or a host write; or, when nothing is to happen, nothing (60_exceptions.md
R585). A configuration that breaks R10 of 00_scope.md is refused, not run. -/
def step (s : State) : Host.Outcome State Fault Refusal :=
  if s.params.Valid then
    match s.inputs with
    | [] => .next s
    | .command word args :: rest =>
      match decode word args with
      | .ok i    => exec i (s.withInputs rest)
      | .error e => .next (refuseCommand e (s.withInputs rest))
    | .device m :: rest => moveOutcome (deviceMove m (s.withInputs rest))
    | .hostWrite addr bytes :: rest => .next (hostWrite addr bytes (s.withInputs rest))
  else .refused .badConfiguration

/-- The state with the instruction of the opcode table's numbering as the next thing to happen. -/
def State.withFetchWord (s : State) (nbits w : Nat) : State := s.withInputs (tableInputs nbits w s.inputs)

end Sys2Proof.Machine
end

