-- ==== Sys2Proof/Safety.lean ====
section
/-! DEFINITION. The terms the claims are stated in: the invariants of the block at a command boundary (10_state.md R32 to R57,
20_memory.md R121, 40_ring.md R201, 41_pool.md R249, 70_reset_and_hazards.md R600), frames, and packet and frame shapes. -/

namespace Sys2Proof.Machine

/-! ### Shape and configuration -/

/-- The slots of a ring: none while LOGN = 0 (10_state.md R36). -/
def State.slots (s : State) : Nat := if s.logn = 0 then 0 else s.n

/-- A queue has a record for each of n slots, and a tag and a length for each of t TX and n RX buffers. -/
abbrev Queue.SizedFor (x : Queue) (n t : Nat) : Prop :=
  x.swTx.length = n ∧ x.swRx.length = n ∧ x.txPool.tags.length = t ∧ x.txPool.blen.length = t ∧
  x.rxPool.tags.length = n ∧ x.rxPool.blen.length = n

/-- Every per-queue list has the length the configuration gives it (10_state.md R35, R36, R42, R43, R50, R51). -/
abbrev State.Sized (s : State) : Prop :=
  s.queues.length = maxQueues ∧ s.dev.tx.length = maxQueues ∧ s.dev.rx.length = maxQueues ∧
  (∀ x ∈ s.queues, x.SizedFor s.slots (s.params.txPoolMult * s.slots)) ∧
  s.nq.toNat ≤ maxQueues ∧ s.logn.toNat ≤ 12 ∧ (s.nq = 0 ↔ s.logn = 0)

/-- The region of the last accepted INIT is aligned, large enough and below the top of memory (20_memory.md R110, 44_control.md
R400). -/
abbrev State.RegionFits (s : State) : Prop :=
  s.nq = 0 ∨
    (s.regionBase.toNat % s.params.pageSize = 0 ∧ Params.needed s.params s.n s.nq.toNat ≤ s.regionSize.toNat ∧
      s.regionBase.toNat + s.regionSize.toNat ≤ 2 ^ 64)

/-- The platform has memory for the whole layout of the region (93_implementation_defined.md: the region's backing). -/
abbrev State.RegionBacked (s : State) : Prop :=
  s.params.Backs s.regionBase.toNat (Params.needed s.params s.n s.nq.toNat)

/-- The global registers hold legal values (10_state.md R32, R33, R35, R37, R38). -/
abbrev State.RegsOk (s : State) : Prop :=
  lstateLegal s.lstate = true ∧ (s.rstate = .uninitialized ↔ s.nq = 0) ∧ (s.faultReason ≠ 0 ↔ s.rstate = .faulted) ∧
  s.resetPolls.toNat ≤ s.params.resetPollLimit ∧
  (s.rstate = .resetting → s.resetPolls.toNat < s.params.resetPollLimit)

/-- A queue in which nothing is live: as new but for ITR and RX_DROPS (44_control.md R416). -/
abbrev Queue.Idle (x : Queue) (n t : Nat) : Prop := x = { Queue.fresh n t with itr := x.itr, rxDrops := x.rxDrops }

/-- Outside RingsReady nothing is live, and at no time in a queue that is not configured (44_control.md R401, R418,
60_exceptions.md R561, 70_reset_and_hazards.md R600). -/
abbrev State.Quiet (s : State) : Prop :=
  (s.rstate ≠ .ringsReady → s.lstate = 0 ∧ ∀ x ∈ s.queues, x.Idle s.slots (s.params.txPoolMult * s.slots)) ∧
  ∀ x ∈ s.queues.drop s.nq.toNat, x.Idle s.slots (s.params.txPoolMult * s.slots)

/-- The configuration half of the invariant. -/
structure State.ConfigInv (s : State) : Prop where
  valid  : s.params.Valid
  sized  : s.Sized
  region : s.RegionFits
  regs   : s.RegsOk
  quiet  : s.Quiet

/-! ### Rings, pools, packets -/

/-- Ring indices are below N and TAIL = NTU (10_state.md R40, R41). -/
abbrev Cursors.Ok (c : Cursors) (n : Nat) : Prop := c.ntu.toNat < n ∧ c.ntc.toNat < n ∧ c.tail = c.ntu

/-- Every ring's cursors are as R40 and R41 of 10_state.md say. -/
abbrev State.CursorsOk (s : State) : Prop := ∀ x ∈ s.queues, x.tx.Ok s.n ∧ x.rx.Ok s.n

/-- SW[r][q][slot].handle. -/
def State.handle (s : State) (r : Ring) (q slot : Nat) : Nat :=
  match r with
  | .tx => ((s.queue q).txRec slot).handle.toNat
  | .rx => ((s.queue q).rxRec slot).handle.toNat

/-- SW[TX][q][slot].last. -/
def State.lastOf (s : State) (q slot : Nat) : Nat := ((s.queue q).txRec slot).last.toNat

/-- The handles of the outstanding slots are pairwise distinct and are exactly the buffers tagged HW (41_pool.md R249(b)). -/
abbrev State.PoolOk (s : State) (r : Ring) (q : Nat) : Prop :=
  (∀ slot < s.n, s.outstanding r q slot = true → s.tag r q (s.handle r q slot) = .hw) ∧
  (∀ slot < s.n, ∀ slot' < s.n, s.outstanding r q slot = true → s.outstanding r q slot' = true →
    s.handle r q slot = s.handle r q slot' → slot = slot') ∧
  (∀ h < s.poolSize r, s.tag r q h = .hw → ∃ slot < s.n, s.outstanding r q slot = true ∧ s.handle r q slot = h)

/-- No TX buffer is pending delivery (41_pool.md R249(d)). -/
abbrev State.NoTxPend (s : State) (q : Nat) : Prop := ∀ h < s.poolSize .tx, s.tag .tx q h ≠ .pend

/-- The outstanding TX slots are a run of whole packets: a slot's `last` is outstanding and not before it, the slots up to it
have the same `last`, and `eop` marks it (10_state.md R42, 42_tx.md R302). -/
abbrev State.PacketsOk (s : State) (q : Nat) : Prop :=
  ∀ slot < s.n, s.outstanding .tx q slot = true →
    s.lastOf q slot < s.n ∧ s.outstanding .tx q (s.lastOf q slot) = true ∧
    ringDist s.n (s.ntc .tx q) slot ≤ ringDist s.n (s.ntc .tx q) (s.lastOf q slot) ∧
    (s.lastOf q slot ≠ slot → s.lastOf q (ringInc s.n slot) = s.lastOf q slot) ∧
    (((s.queue q).txRec slot).eop = true ↔ s.lastOf q slot = slot)

/-- The invariant of the block at a command boundary. -/
structure State.Inv (s : State) : Prop where
  config  : s.ConfigInv
  canon   : Memory.wf s.mem
  noWb    : s.wb = []
  cursors : s.CursorsOk
  pools   : ∀ q < maxQueues, s.PoolOk .tx q ∧ s.PoolOk .rx q ∧ s.NoTxPend q
  packets : ∀ q < maxQueues, s.PacketsOk q

/-- A window is open exactly while its count is not zero, and only an open window has causes (60_exceptions.md R570). -/
abbrev State.WindowsOk (s : State) : Prop :=
  ∀ x ∈ s.queues, (x.armed = true → x.cnt ≠ 0) ∧ (x.armed = false → x.cnt = 0 ∧ x.acc = 0)

/-- A pool as the source wants it after a stop: every buffer Free, and the ring empty (44_control.md R418). -/
abbrev State.AllFree (s : State) (q : Nat) : Prop :=
  ∀ r, s.ringEmpty r q = true ∧ ∀ h < s.poolSize r, s.tag r q h = .free

/-! ### Frames -/

/-- The registers and hidden state outside queues, LSTATE, events, memory, device and response are the same. -/
abbrev State.SameGlobals (s t : State) : Prop :=
  t.params = s.params ∧ t.rstate = s.rstate ∧ t.gen = s.gen ∧ t.nq = s.nq ∧ t.logn = s.logn ∧
  t.faultReason = s.faultReason ∧ t.resetPolls = s.resetPolls ∧ t.regionBase = s.regionBase ∧
  t.regionSize = s.regionSize ∧ t.inputs = s.inputs ∧ t.draws = s.draws

/-- Every queue but q is the same. -/
abbrev State.SameOtherQueues (s t : State) (q : Nat) : Prop := ∀ p, p ≠ q → t.queue p = s.queue p

/-- The RX side and the moderation registers of a queue are the same. -/
abbrev Queue.SameButTx (x y : Queue) : Prop :=
  y.rx = x.rx ∧ y.swRx = x.swRx ∧ y.rxPool = x.rxPool ∧ y.discard = x.discard ∧ y.itr = x.itr ∧ y.cnt = x.cnt ∧
  y.armed = x.armed ∧ y.acc = x.acc ∧ y.rxDrops = x.rxDrops

/-- The TX side and the moderation registers of a queue are the same. -/
abbrev Queue.SameButRx (x y : Queue) : Prop :=
  y.tx = x.tx ∧ y.swTx = x.swTx ∧ y.txPool = x.txPool ∧ y.itr = x.itr ∧ y.cnt = x.cnt ∧ y.armed = x.armed ∧
  y.acc = x.acc

/-- An address lies among the n bytes from a base up. -/
abbrev Within (a base n : Nat) : Prop := base ≤ a ∧ a < base + n

/-! ### A dispatch, in terms of the service commands (60_exceptions.md R575) -/

/-- One part of a dispatch, then the next unless the first left RingsReady: a fault ends the command with its own response. -/
def andThen (x : Host.Outcome State Fault Refusal) (k : State → Host.Outcome State Fault Refusal) :
    Host.Outcome State Fault Refusal :=
  match x with
  | .next t    => if t.rstate = .ringsReady then k t else .next t
  | .fault f   => .fault f
  | .refused r => .refused r

/-- The causes c of a queue served: SERVICE_TX with budget 0 for a TX cause, then SERVICE_RX with budget 0 for an RX cause,
then LCP for a link cause (60_exceptions.md R571, R575 to R577). -/
def serveCauses (q : BitVec 7) (c : Half) (s : State) : Host.Outcome State Fault Refusal :=
  andThen (if c &&& 0x0003 ≠ 0 then exec (.serviceTx q 0) s else .next s) fun s =>
    andThen (if c &&& 0x00D0 ≠ 0 then exec (.serviceRx q 0) s else .next s) fun s =>
      .next (if c &&& 0x000C ≠ 0 then { s with lstate := s.lstate ||| 0x20 } else s)

/-- The windows of some queues in turn, d of them closed before: a count of one closes the window and serves its causes, a
larger one goes down by one, and the answer is the number closed (45_irq.md R470). -/
def tickWindows : List Nat → Nat → State → Host.Outcome State Fault Refusal
  | [], d, s      => .next { s with response := some ⟨.ok, BitVec.ofNat 32 d⟩ }
  | q :: qs, d, s =>
    let x := s.queue q
    if x.armed = false then tickWindows qs d s
    else if x.cnt = 1 then
      andThen (serveCauses (BitVec.ofNat 7 q) x.acc
        { s with queues := s.queues.set q { x with acc := 0, armed := false, cnt := 0 } }) (tickWindows qs (d + 1))
    else tickWindows qs d { s with queues := s.queues.set q { x with cnt := x.cnt - 1 } }

/-! ### What commands name and check -/

/-- The queue a per-queue command names (30_encoding.md R157): READ_REG only for the indices 0x100 to 0x111. -/
def perQueueOf : Instr → Option (BitVec 7)
  | .init _ _ _ _    => none
  | .stop            => none
  | .enqueue q _     => some q
  | .serviceTx q _   => some q
  | .serviceRx q _   => some q
  | .refill q        => some q
  | .release _ q _   => some q
  | .irq q _         => some q
  | .pollLink _ _ _  => none
  | .tick            => none
  | .setItr q _      => some q
  | .isEmpty _ q     => some q
  | .isFull _ q      => some q
  | .capacity _ q    => some q
  | .occupancy _ q   => some q
  | .readReg q index => if 0x100 ≤ index.toNat ∧ index.toNat ≤ 0x111 then some q else none
  | .poolTag _ q _   => some q

/-- A per-queue command may run its own rule for queue q in RingsReady. -/
abbrev State.Live (s : State) (q : BitVec 7) : Prop := q.toNat < s.nq.toNat ∧ s.rstate = .ringsReady

/-- The Free buffers of a pool, lowest first: what successive acquires return (41_pool.md R250). -/
def State.freeBuffers (s : State) (r : Ring) (q : Nat) : List Nat :=
  (List.range (s.poolSize r)).filter (fun i => s.tag r q i == .free)

/-- The status byte of a slot in memory: STA of a TX descriptor, STATUS of an RX descriptor. -/
def State.statusByte (s : State) (r : Ring) (q slot : Nat) : Byte := Memory.byte s.mem (s.descAddr r q slot + 12)

/-- The 16 descriptor bytes of a slot in memory. -/
def State.descBytes (s : State) (r : Ring) (q slot : Nat) : List Byte := Memory.bytes s.mem (s.descAddr r q slot) 16

/-- The packet at NTC: how many slots it has (42_tx.md R310). -/
def State.headPacketSize (s : State) (q : Nat) : Nat :=
  ringDist s.n (s.ntc .tx q) (s.lastOf q (s.ntc .tx q)) + 1

/-- The slot i places past NTC. -/
def State.slotAt (s : State) (r : Ring) (q i : Nat) : Nat := (s.ntc r q + i) % s.n

/-- The i-th descriptor past NTC of an RX ring, as memory holds it. -/
def State.rxDescAt (s : State) (q i : Nat) : List Byte := s.descBytes .rx q (s.slotAt .rx q i)

/-- LEN of the i-th descriptor past NTC (20_memory.md R107). -/
def State.rxLenAt (s : State) (q i : Nat) : Nat := le16 (s.rxDescAt q i) 8

/-- ERRORS of the i-th descriptor past NTC (20_memory.md R107). -/
def State.rxErrorsAt (s : State) (q i : Nat) : Byte := byteAt (s.rxDescAt q i) 13

/-- One whole frame of k descriptors lies at NTC, each done and of a legal length, only the last one marked EOP, with nothing
done behind it (43_rx.md R352, R355). -/
abbrev State.FrameAtHead (s : State) (q k : Nat) : Prop :=
  1 ≤ k ∧ k ≤ s.occupancy .rx q ∧
  (∀ i < k, (byteAt (s.rxDescAt q i) 12).getLsbD 0 = true ∧
    ((byteAt (s.rxDescAt q i) 12).getLsbD 1 = true ↔ i = k - 1) ∧ s.rxLenAt q i ≤ s.params.bufSize) ∧
  (k = s.occupancy .rx q ∨ (s.statusByte .rx q (s.slotAt .rx q k)).getLsbD 0 = false)

/-- The total length of the first k descriptors past NTC (43_rx.md R353). -/
def State.rxTotal (s : State) (q k : Nat) : Nat := ((List.range k).map (s.rxLenAt q)).sum

/-- The first n bytes of a packet's fragments in memory, in order (42_tx.md R300). -/
def packetBytes (m : List Host.Cell) : List Frag → List Byte
  | []      => []
  | f :: fs => Memory.bytes m f.addr.toNat f.len.toNat ++ packetBytes m fs

/-- The events that capacity, delivery and link changes leave in the log. -/
def Event.isCapacity : Event → Bool
  | .txCapacity _ => true
  | .deliver _ _ | .linkChanged _ _ _ | .fault _ | .regWrite _ _ | .regRead _ _ | .barrier _ | .dmaWrite _ _
  | .dmaRead _ _ => false

/-- A DELIVER event. -/
def Event.isDeliver : Event → Bool
  | .deliver _ _ => true
  | .txCapacity _ | .linkChanged _ _ _ | .fault _ | .regWrite _ _ | .regRead _ _ | .barrier _ | .dmaWrite _ _
  | .dmaRead _ _ => false

/-- A REGWRITE event. -/
def Event.isRegWrite : Event → Bool
  | .regWrite _ _ => true
  | .txCapacity _ | .linkChanged _ _ _ | .fault _ | .deliver _ _ | .regRead _ _ | .barrier _ | .dmaWrite _ _
  | .dmaRead _ _ => false

end Sys2Proof.Machine
end

