-- ==== Sys2Proof/Certificates/Slice0/Obligations.lean ====
section
/-! DEFINITION. The statements for the provers. Each docstring names the rule of spec/ it formalises, or says what it is derived
from. -/

open Sys2Proof Sys2Proof.Machine

/-! ### Encoding and the command port -/

/-- Every well-formed instruction is read back from its own word and argument block (30_encoding.md R150 to R157). -/
def Obligations.DecodeOfEncode : Prop :=
  ∀ i : Instr, i.wellFormed = true → decode (encode i).1 (encode i).2 = .ok i

/-- Every word and argument block the decoder accepts is the encoding of what it reads: no bit is dropped (R150 to R158). -/
def Obligations.EncodeOfDecode : Prop :=
  ∀ (w : Word) (args : List Word) (i : Instr), decode w args = .ok i → i.wellFormed = true ∧ encode i = (w, args)

/-- The worked encodings of R165 and of 95_test_vectors.md, one for each family. -/
def Obligations.WorkedWordsDecode : Prop :=
  decode 0x01000003 [0x00100000, 0x00000000, 0x00011000] = .ok (.init 0 3 0x100000 0x11000) ∧
  decode 0x07800005 [] = .ok (.release .rx 0 5) ∧
  decode 0x0900001A [] = .ok (.pollLink 2 2 1) ∧
  decode 0x03000002 [0x00200000, 0, 0x7D0, 0x00300000, 0, 0x64]
    = .ok (.enqueue 0 [⟨0x200000, 2000⟩, ⟨0x300000, 100⟩]) ∧
  decode 0x05000001 [] = .ok (.serviceRx 0 1) ∧
  decode 0x08000080 [] = .ok (.irq 0 0x0080) ∧
  decode 0x0D800000 [] = .ok (.isFull .rx 0) ∧
  decode 0x1000010F [] = .ok (.readReg 0 0x10F)

/-- R158, R152 and steps 1 to 3 of R163: a reserved opcode answers E_ILLEGAL, a reserved field that is not zero answers E_INVAL, and an
argument block of another length than the opcode's row of R157 asks for answers E_INVAL, all with value 0, no state change and no event.
The reserved bits of each opcode are the table Opcode.reservedMask, R157's; the length for ENQUEUE is read as 3 * IMM (log 12). -/
def Obligations.DecodeChecksAreAnswered : Prop :=
  ∀ (s : State) (w : Word) (args : List Word) (rest : List Input), s.params.Valid →
    s.inputs = .command w args :: rest →
    ((w.toNat / 2 ^ 24 = 0 ∨ 0x12 ≤ w.toNat / 2 ^ 24) →
      step s = .next { s with inputs := rest, response := some ⟨.illegal, 0⟩ }) ∧
    (∀ o : Opcode, w.toNat / 2 ^ 24 = o.code.toNat → w &&& o.reservedMask ≠ 0 →
      step s = .next { s with inputs := rest, response := some ⟨.inval, 0⟩ }) ∧
    (∀ o : Opcode, w.toNat / 2 ^ 24 = o.code.toNat → w &&& o.reservedMask = 0 →
      args.length ≠ (if o = .init then 3 else if o = .enqueue then 3 * (w.toNat % 2 ^ 16) else 0) →
      step s = .next { s with inputs := rest, response := some ⟨.inval, 0⟩ })

/-- Step 4 of R163: a per-queue command with Q >= NQ answers E_INVAL and changes nothing. -/
def Obligations.QueueOutOfRangeIsAnswered : Prop :=
  ∀ (i : Instr) (q : BitVec 7) (s : State), perQueueOf i = some q → s.nq.toNat ≤ q.toNat →
    exec i s = .next { s with response := some ⟨.inval, 0⟩ }

/-- A step runs the decoded instruction, whole, on the state without that command (R151); a device move or a host write is a step of its own;
with nothing to come it changes nothing (60_exceptions.md R585). The stream that says which comes next is the model's (logs 1, 2, 10). -/
def Obligations.StepRunsDecodedInstruction : Prop :=
  ∀ s : State, s.params.Valid →
    (s.inputs = [] → step s = .next s) ∧
    (∀ w args rest i, s.inputs = .command w args :: rest → decode w args = .ok i →
      step s = exec i { s with inputs := rest }) ∧
    (∀ m rest, s.inputs = .device m :: rest →
      step s = (match deviceMove m { s with inputs := rest } with
        | .ok _ t  => .next t
        | .ended t => .next t
        | .stuck f => .fault f)) ∧
    (∀ a bs rest, s.inputs = .hostWrite a bs :: rest → step s = .next (hostWrite a bs { s with inputs := rest }))

/-- R10: a configuration that breaks a constraint is refused, not run. -/
def Obligations.InvalidConfigurationIsRefused : Prop :=
  ∀ s : State,
    (s.params.bufSize > s.params.pageSize ∨ s.params.bufSize < 1 ∨ s.params.txPoolMult < 1 ∨
      s.params.maxTxDescPerPkt < 1 ∨ s.params.maxTxFrags < 1 ∨ s.params.resetPollLimit < 1 ∨
      s.params.pageSize < 128 ∨ (∀ k, s.params.pageSize ≠ 2 ^ k)) →
    step s = .refused .badConfiguration

/-! ### Ring queries -/

/-- R220 with R202: IS_EMPTY, opcode 0x0C with IMM zero, answers whether NTU = NTC, and changes nothing else. -/
def Obligations.IsEmptyAnswers : Prop :=
  ∀ (r : Ring) (q : BitVec 7) (s : State),
    encode (.isEmpty r q) = (Word.ofFields 0x0C r.bit q 0, []) ∧
    exec (.isEmpty r q) s = .next { s with response := some (
      if q.toNat < s.nq.toNat then
        ⟨.ok, if ((s.queue q.toNat).cur r).ntu = ((s.queue q.toNat).cur r).ntc then 1 else 0⟩
      else ⟨.inval, 0⟩) }

/-- R221 with R203: IS_FULL, opcode 0x0D with IMM zero, answers whether NTU + 1 = NTC mod N, and changes nothing else. -/
def Obligations.IsFullAnswers : Prop :=
  ∀ (r : Ring) (q : BitVec 7) (s : State),
    encode (.isFull r q) = (Word.ofFields 0x0D r.bit q 0, []) ∧
    exec (.isFull r q) s = .next { s with response := some (
      if q.toNat < s.nq.toNat then
        ⟨.ok, if (((s.queue q.toNat).cur r).ntu.toNat + 1) % 2 ^ s.logn.toNat = ((s.queue q.toNat).cur r).ntc.toNat
              then 1 else 0⟩
      else ⟨.inval, 0⟩) }

/-- R222: CAPACITY, opcode 0x0E with IMM zero, answers N, the slot count, and changes nothing else. -/
def Obligations.CapacityAnswers : Prop :=
  ∀ (r : Ring) (q : BitVec 7) (s : State),
    encode (.capacity r q) = (Word.ofFields 0x0E r.bit q 0, []) ∧
    exec (.capacity r q) s = .next { s with response := some (
      if q.toNat < s.nq.toNat then ⟨.ok, if s.logn = 0 then 0 else BitVec.ofNat 32 (2 ^ s.logn.toNat)⟩
      else ⟨.inval, 0⟩) }

/-- R223: in a state whose cursors are below N, OCCUPANCY answers the number of slots from NTC up to NTU, at most N - 1, and
changes nothing else. -/
def Obligations.OccupancyAnswers : Prop :=
  ∀ (r : Ring) (q : BitVec 7) (s : State), s.Inv → q.toNat < s.nq.toNat →
    ∃ k, k ≤ 2 ^ s.logn.toNat - 1 ∧
      (((s.queue q.toNat).cur r).ntc.toNat + k) % 2 ^ s.logn.toNat = ((s.queue q.toNat).cur r).ntu.toNat ∧
      exec (.occupancy r q) s = .next { s with response := some ⟨.ok, BitVec.ofNat 32 k⟩ }

/-! ### Pool commands -/

/-- R270 with R253: RELEASE, opcode 0x07 with the index in IMM, frees a buffer that is pending delivery, refuses any other with E_BADHANDLE and an index past the pool
with E_INVAL, and changes nothing else. -/
def Obligations.ReleaseFreesOnlyPending : Prop :=
  ∀ (r : Ring) (q : BitVec 7) (h : Half) (s : State),
    encode (.release r q h) = (Word.ofFields 0x07 r.bit q h, []) ∧
    exec (.release r q h) s = .next (
      if s.nq.toNat ≤ q.toNat then { s with response := some ⟨.inval, 0⟩ }
      else if s.poolSize r ≤ h.toNat then { s with response := some ⟨.inval, 0⟩ }
      else if s.tag r q.toNat h.toNat = .pend then
        { s with
          queues := s.queues.set q.toNat ((s.queue q.toNat).setPool r
            { ((s.queue q.toNat).pool r) with tags := ((s.queue q.toNat).pool r).tags.set h.toNat .free }),
          response := some ⟨.ok, 0⟩ }
      else { s with response := some ⟨.badHandle, 0⟩ })

/-- R275: POOL_TAG, opcode 0x11 with the index in IMM, answers the tag of a buffer, 0 Free, 1 HW, 2 Pend, and changes nothing else. -/
def Obligations.PoolTagAnswers : Prop :=
  ∀ (r : Ring) (q : BitVec 7) (h : Half) (s : State),
    encode (.poolTag r q h) = (Word.ofFields 0x11 r.bit q h, []) ∧
    exec (.poolTag r q h) s = .next { s with response := some (
      if s.nq.toNat ≤ q.toNat then ⟨.inval, 0⟩
      else if s.poolSize r ≤ h.toNat then ⟨.inval, 0⟩
      else ⟨.ok, match s.tag r q.toNat h.toNat with
        | .free => 0
        | .hw   => 1
        | .pend => 2⟩) }

/-! ### READ_REG and SET_ITR -/

/-- R425 with the index map of 10_state.md R80: READ_REG, opcode 0x10 with R zero and the index in IMM, answers the register of the index, refuses Q not 0 for a global index, Q >= NQ
for a per-queue index, and every other index, and changes nothing else. -/
def Obligations.ReadRegAnswers : Prop :=
  ∀ (q : BitVec 7) (index : Half) (s : State),
    let x := s.queue q.toNat
    let count := fun (r : Ring) (t : Tag) =>
      BitVec.ofNat 32 ((List.range (s.poolSize r)).countP (fun i => s.tag r q.toNat i == t))
    let globals : List (Nat × Word) := [(0x000, s.rstate.code.setWidth 32), (0x001, s.lstate.setWidth 32),
      (0x002, s.gen), (0x003, s.nq.setWidth 32), (0x004, s.logn.setWidth 32), (0x005, s.faultReason.setWidth 32),
      (0x006, s.resetPolls.setWidth 32), (0x007, s.regionBase.setWidth 32), (0x008, (s.regionBase >>> 32).setWidth 32),
      (0x009, s.regionSize)]
    let perQueue : List (Nat × Word) := [(0x100, x.tx.ntu.setWidth 32), (0x101, x.tx.ntc.setWidth 32),
      (0x102, x.tx.tail.setWidth 32), (0x103, x.rx.ntu.setWidth 32), (0x104, x.rx.ntc.setWidth 32),
      (0x105, x.rx.tail.setWidth 32), (0x106, if x.discard then 1 else 0), (0x107, x.itr.setWidth 32),
      (0x108, x.cnt.setWidth 32), (0x109, if x.armed then 1 else 0), (0x10A, x.acc.setWidth 32), (0x10B, x.rxDrops),
      (0x10C, count .tx .free), (0x10D, count .tx .hw), (0x10E, count .tx .pend), (0x10F, count .rx .free),
      (0x110, count .rx .hw), (0x111, count .rx .pend)]
    encode (.readReg q index) = (Word.ofFields 0x10 0 q index, []) ∧
    (∀ v, (index.toNat, v) ∈ globals →
      exec (.readReg q index) s = .next { s with response := some (if q = 0 then ⟨.ok, v⟩ else ⟨.inval, 0⟩) }) ∧
    (∀ v, (index.toNat, v) ∈ perQueue →
      exec (.readReg q index) s =
        .next { s with response := some (if q.toNat < s.nq.toNat then ⟨.ok, v⟩ else ⟨.inval, 0⟩) }) ∧
    ((∀ v, (index.toNat, v) ∉ globals) → (∀ v, (index.toNat, v) ∉ perQueue) →
      exec (.readReg q index) s = .next { s with response := some ⟨.inval, 0⟩ })

/-- R460: SET_ITR, opcode 0x0B with R zero and the length in IMM, writes ITR[q] and nothing else; an open window keeps CNT, ARMED and ACC. -/
def Obligations.SetItrWritesWindowLength : Prop :=
  ∀ (q : BitVec 7) (w : Half) (s : State),
    encode (.setItr q w) = (Word.ofFields 0x0B 0 q w, []) ∧
    exec (.setItr q w) s = .next (
      if q.toNat < s.nq.toNat then
        { s with queues := s.queues.set q.toNat { s.queue q.toNat with itr := w }, response := some ⟨.ok, 0⟩ }
      else { s with response := some ⟨.inval, 0⟩ })

/-! ### Interrupts and the timer -/

/-- R450: with ITR not 0 an IRQ merges its causes into ACC and opens the window if none is open, and does nothing else; causes
outside CAUSE_MASK are dropped. -/
def Obligations.IrqMergesIntoWindow : Prop :=
  ∀ (q : BitVec 7) (c : Half) (s : State), s.Live q → (c.getLsbD 15 = false ∨ s.params.parityFaultEnabled = false) →
    (c &&& 0x00DF = 0 → exec (.irq q c) s = .next { s with response := some ⟨.ok, 0⟩ }) ∧
    (c &&& 0x00DF ≠ 0 → q.toNat < s.queues.length → (s.queue q.toNat).itr ≠ 0 →
      exec (.irq q c) s = .next { s with
        queues := s.queues.set q.toNat { s.queue q.toNat with
          acc := (s.queue q.toNat).acc ||| (c &&& 0x00DF),
          armed := true,
          cnt := if (s.queue q.toNat).armed then (s.queue q.toNat).cnt else (s.queue q.toNat).itr },
        response := some ⟨.ok, 0⟩ })

/-- R450, R575 and R577: with ITR = 0 an IRQ whose causes, with those already in ACC, are link causes only sets LSTATE.LCP and runs
no pass. -/
def Obligations.IrqLinkCauseSetsLcp : Prop :=
  ∀ (q : BitVec 7) (c : Half) (s : State), s.Live q → q.toNat < s.queues.length →
    (c.getLsbD 15 = false ∨ s.params.parityFaultEnabled = false) → c &&& 0x00DF ≠ 0 → (s.queue q.toNat).itr = 0 →
    ((s.queue q.toNat).acc ||| (c &&& 0x00DF)) &&& 0x00D3 = 0 →
    ((s.queue q.toNat).acc ||| (c &&& 0x00DF)) &&& 0x000C ≠ 0 →
    exec (.irq q c) s = .next { s with
      queues := s.queues.set q.toNat { s.queue q.toNat with acc := 0, armed := false, cnt := 0 },
      lstate := s.lstate ||| 0x20,
      response := some ⟨.ok, 1⟩ }

/-- R450, R575, R576 and R577: an IRQ with ITR = 0 dispatches at once: in the state whose window is closed it does what SERVICE_TX with
budget 0 does if ACC, with its causes merged, has a TX cause, then what SERVICE_RX with budget 0 does if it has an RX cause, then sets
LCP if it has a link cause; a pass that faults ends it with the fault's answer, and otherwise the answer is OK, 1. -/
def Obligations.DispatchIsTheServicePass : Prop :=
  ∀ (q : BitVec 7) (c : Half) (s : State), s.Live q → q.toNat < s.queues.length →
    (c.getLsbD 15 = false ∨ s.params.parityFaultEnabled = false) → c &&& 0x00DF ≠ 0 → (s.queue q.toNat).itr = 0 →
    exec (.irq q c) s =
      andThen (serveCauses q ((s.queue q.toNat).acc ||| (c &&& 0x00DF))
        { s with queues := s.queues.set q.toNat { s.queue q.toNat with acc := 0, armed := false, cnt := 0 } })
        fun t => .next { t with response := some ⟨.ok, 1⟩ }

/-- R450 and R560: a parity cause, when parity faults are enabled, enters the fault from any state but Faulted: the device is disabled if
it was running, every queue is torn down, and RSTATE, GEN, FAULT_REASON, the FAULT event and the answer say so. -/
def Obligations.ParityCauseEntersFault : Prop :=
  ∀ (q : BitVec 7) (c : Half) (s : State), q.toNat < s.nq.toNat → s.wb = [] → c.getLsbD 15 = true →
    s.params.parityFaultEnabled = true → s.rstate ≠ .faulted →
    exec (.irq q c) s = .next { s with
      queues := s.queues.mapIdx (fun i x =>
        if i < s.nq.toNat then
          { Queue.fresh s.n (s.poolSize .tx) with itr := x.itr, rxDrops := x.rxDrops } else x),
      lstate := 0,
      rstate := .faulted,
      gen := s.gen + 1,
      faultReason := 0x11,
      dev := if s.rstate = .ringsReady then { s.dev with rxEn := false, txEn := false } else s.dev,
      events := s.events ++
        (if s.rstate = .ringsReady then
          [.regWrite s.params.devRegs.rctl 0, .regWrite s.params.devRegs.tctl 0] else []) ++ [.fault .dmaParity],
      response := some ⟨.dmaParity, 0x11⟩ }

/-- R470: in RingsReady a TICK that closes no window takes one from the count of every open window and does nothing else. -/
def Obligations.TickCountsOpenWindowsDown : Prop :=
  ∀ s : State, s.rstate = .ringsReady → s.nq.toNat ≤ s.queues.length →
    (∀ q < s.nq.toNat, (s.queue q).armed = true → (s.queue q).cnt ≠ 1) →
    exec .tick s = .next { s with
      queues := s.queues.mapIdx (fun i x =>
        if i < s.nq.toNat ∧ x.armed = true then { x with cnt := x.cnt - 1 } else x),
      response := some ⟨.ok, 0⟩ }

/-- R470 and R575: in RingsReady a TICK takes the configured queues in ascending order; an open window whose count is one closes and its
causes are served as in a dispatch (the TX pass, the RX pass, LCP), a larger count goes down by one, a closed window stays; a pass that
faults ends the TICK with the fault's answer, and otherwise the answer is OK with the number of windows closed. -/
def Obligations.TickClosingWindowDispatches : Prop :=
  ∀ s : State, s.rstate = .ringsReady → s.nq.toNat ≤ 128 → exec .tick s = tickWindows (List.range s.nq.toNat) 0 s

/-- R410: a TICK in Resetting whose poll reads CTRL.RST = 1 before the poll budget is spent counts the poll, logs the read, and waits. The
value read is a free value but for bit 26 (48_device_agent.md R503), and the statement holds for every such value. -/
def Obligations.TickPollsReset : Prop :=
  ∀ s : State, s.rstate = .resetting → s.dev.resetting = true →
    (s.resetPolls + 1).toNat < s.params.resetPollLimit →
    ∃ v : Word, v.getLsbD 26 = true ∧
      exec .tick s = .next { s with
        resetPolls := s.resetPolls + 1,
        draws := s.draws + 1,
        events := s.events ++ [.regRead s.params.devRegs.ctrl v],
        response := some ⟨.ok, 0⟩ }

/-- R410 and R560: the TICK that makes the last allowed poll without acknowledgement enters the fault with RESET_TIMEOUT and writes no
device register. -/
def Obligations.TickTimesResetOut : Prop :=
  ∀ s : State, s.rstate = .resetting → s.dev.resetting = true → s.wb = [] →
    s.params.resetPollLimit ≤ (s.resetPolls + 1).toNat →
    ∃ v : Word, v.getLsbD 26 = true ∧
      exec .tick s = .next { s with
        resetPolls := s.resetPolls + 1,
        draws := s.draws + 1,
        queues := s.queues.mapIdx (fun i x =>
          if i < s.nq.toNat then
            { Queue.fresh s.n (s.poolSize .tx) with itr := x.itr, rxDrops := x.rxDrops } else x),
        lstate := 0,
        rstate := .faulted,
        gen := s.gen + 1,
        faultReason := 0x10,
        events := s.events ++ [.regRead s.params.devRegs.ctrl v, .fault .resetTimeout],
        response := some ⟨.resetTimeout, 0x10⟩ }

/-- R410, R411 and the ACT column of 70_reset_and_hazards.md R600: the TICK whose poll reads CTRL.RST = 0 brings the rings up: every RX
ring full with buffers 0 to N-2 in slots 0 to N-2, every TX ring empty, the device programmed and enabled. The device's registers are
those written by name (log 8). -/
def Obligations.TickActivatesRings : Prop :=
  ∀ s : State, s.Inv → s.rstate = .resetting → s.dev.resetting = false → s.RegionBacked →
    ∃ t, exec .tick s = .next t ∧ t.response = some ⟨.ok, 0⟩ ∧ t.rstate = .ringsReady ∧ t.gen = s.gen + 1 ∧
      t.lstate = 0x20 ∧ t.resetPolls = s.resetPolls + 1 ∧ t.faultReason = 0 ∧ t.nq = s.nq ∧ t.logn = s.logn ∧
      t.regionBase = s.regionBase ∧ t.regionSize = s.regionSize ∧ t.params = s.params ∧ t.wb = [] ∧
      t.dev.rxEn = true ∧ t.dev.txEn = true ∧ t.dev.resetting = false ∧
      (∀ q < s.nq.toNat,
        (t.queue q).tx = ⟨0, 0, 0⟩ ∧
        (t.queue q).rx = ⟨BitVec.ofNat 16 (s.n - 1), 0, BitVec.ofNat 16 (s.n - 1)⟩ ∧
        (∀ h < s.poolSize .tx, t.tag .tx q h = .free) ∧
        (∀ h < s.n, t.tag .rx q h = if h < s.n - 1 then .hw else .free) ∧
        (∀ i < s.n - 1, t.handle .rx q i = i ∧ (((t.queue q).pool .rx).len i).toNat = s.params.bufSize) ∧
        (t.queue q).itr = (s.queue q).itr ∧ (t.queue q).rxDrops = (s.queue q).rxDrops ∧
        (t.queue q).discard = false ∧ (t.queue q).armed = false ∧ (t.queue q).cnt = 0 ∧ (t.queue q).acc = 0 ∧
        (∀ r, (t.dev.ring r q).dbase.toNat = s.ringBase r q ∧ (t.dev.ring r q).dlen.toNat = s.n * 16 ∧
          (t.dev.ring r q).head = 0 ∧ (t.dev.ring r q).tail = ((t.queue q).cur r).ntu)) ∧
      (∀ q, s.nq.toNat ≤ q → t.queue q = s.queue q) ∧
      (∀ q < s.nq.toNat, ∀ i < s.n - 1, t.descBytes .rx q i = put64 (s.bufAddr .rx q i) ++ List.replicate 8 0) ∧
      (∀ a, (∀ q < s.nq.toNat, ∀ i < s.n - 1, ¬ Within a (s.descAddr .rx q i) 16) →
        Memory.byte t.mem a = Memory.byte s.mem a)

/-! ### INIT, STOP, POLL_LINK -/

/-- R400: an accepted INIT stores the configuration, makes every queue new, starts the device reset and enters Resetting; from RingsReady
it disables the device first. -/
def Obligations.InitStartsReset : Prop :=
  ∀ (q : BitVec 7) (logn : BitVec 4) (base : Addr) (size : Word) (s : State), s.wb = [] →
    1 ≤ logn.toNat → logn.toNat ≤ 12 → base.toNat % s.params.pageSize = 0 →
    Params.needed s.params (2 ^ logn.toNat) (q.toNat + 1) ≤ size.toNat → base.toNat + size.toNat ≤ 2 ^ 64 →
    s.rstate ≠ .resetting →
    exec (.init q logn base size) s = .next { s with
      nq := BitVec.ofNat 8 (q.toNat + 1),
      logn := logn,
      regionBase := base,
      regionSize := size,
      queues := List.replicate 128 (Queue.fresh (2 ^ logn.toNat) (s.params.txPoolMult * 2 ^ logn.toNat)),
      lstate := 0,
      faultReason := 0,
      resetPolls := 0,
      rstate := .resetting,
      gen := s.gen + 1,
      dev := {
        rxEn := false, txEn := false, resetting := true,
        tx := s.dev.tx.map (fun x => { x with head := 0, tail := 0, done := [] }),
        rx := s.dev.rx.map (fun x => { x with head := 0, tail := 0, done := [] }) },
      events := s.events ++
        (if s.rstate = .ringsReady then
          [.regWrite s.params.devRegs.rctl 0, .regWrite s.params.devRegs.tctl 0] else []) ++
        [.regWrite s.params.devRegs.ctrl 0x04000000],
      response := some ⟨.okPending, 0⟩ }

/-- R400's errors: a ring size out of range or a region misaligned, too small or past the top of memory answers E_INVAL; otherwise a
reset in progress answers E_STATE; nothing changes. -/
def Obligations.InitRefusesWithoutChange : Prop :=
  ∀ (q : BitVec 7) (logn : BitVec 4) (base : Addr) (size : Word) (s : State),
    ((logn.toNat < 1 ∨ 12 < logn.toNat ∨ base.toNat % s.params.pageSize ≠ 0 ∨
        size.toNat < Params.needed s.params (2 ^ logn.toNat) (q.toNat + 1) ∨ 2 ^ 64 < base.toNat + size.toNat) →
      exec (.init q logn base size) s = .next { s with response := some ⟨.inval, 0⟩ }) ∧
    (¬ (logn.toNat < 1 ∨ 12 < logn.toNat ∨ base.toNat % s.params.pageSize ≠ 0 ∨
        size.toNat < Params.needed s.params (2 ^ logn.toNat) (q.toNat + 1) ∨ 2 ^ 64 < base.toNat + size.toNat) →
      s.rstate = .resetting → exec (.init q logn base size) s = .next { s with response := some ⟨.state, 0⟩ })

/-- R415 with R416 and R417: STOP is a no-op in Uninitialized, Stopped and Faulted; in Resetting and RingsReady it tears every queue down
and enters Stopped, disabling the device only in RingsReady. -/
def Obligations.StopTearsDown : Prop :=
  ∀ s : State, s.wb = [] →
    exec .stop s = .next (
      if s.rstate = .resetting ∨ s.rstate = .ringsReady then
        { s with
          queues := s.queues.mapIdx (fun i x =>
            if i < s.nq.toNat then
              { Queue.fresh s.n (s.poolSize .tx) with itr := x.itr, rxDrops := x.rxDrops } else x),
          lstate := 0,
          rstate := .stopped,
          gen := s.gen + 1,
          dev := if s.rstate = .ringsReady then { s.dev with rxEn := false, txEn := false } else s.dev,
          events := s.events ++
            (if s.rstate = .ringsReady then
              [.regWrite s.params.devRegs.rctl 0, .regWrite s.params.devRegs.tctl 0] else []),
          response := some ⟨.ok, 0⟩ }
      else { s with response := some ⟨.ok, 0⟩ })

/-- R418: after any STOP every buffer is Free, every ring is empty and RSTATE is Stopped, Faulted or Uninitialized, no DELIVER and no
TX_CAPACITY is logged for what was reclaimed, and a second STOP changes nothing. -/
def Obligations.StopLeavesAllFree : Prop :=
  ∀ s t : State, s.ConfigInv → exec .stop s = .next t →
    (∀ q < t.nq.toNat, t.AllFree q) ∧ (t.rstate = .stopped ∨ t.rstate = .faulted ∨ t.rstate = .uninitialized) ∧
    (s.rstate = .ringsReady → t.rstate = .stopped) ∧
    (∃ es, t.events = s.events ++ es ∧ ∀ e ∈ es, e.isDeliver = false ∧ e.isCapacity = false) ∧
    t.response = some ⟨.ok, 0⟩ ∧ exec .stop t = .next t

/-- R420: POLL_LINK, opcode 0x09 with link, speed and duplex in IMM bits 1:0, 3:2 and 4, stores the link, with speed and duplex only when it is Up, clears LCP, and logs a LINK_CHANGED when the five low
bits change; a value 3 answers E_INVAL, and outside RingsReady it answers E_STATE. -/
def Obligations.PollLinkStoresLink : Prop :=
  ∀ (link speed : BitVec 2) (fd : BitVec 1) (s : State),
    let new : Byte :=
      if link = 2 then BitVec.ofNat 8 (link.toNat + 4 * speed.toNat + 16 * fd.toNat) else BitVec.ofNat 8 link.toNat
    encode (.pollLink link speed fd) = (Word.ofFields 0x09 0 0
      (BitVec.ofNat 16 (link.toNat + 4 * speed.toNat + 16 * fd.toNat)), []) ∧
    exec (.pollLink link speed fd) s = .next (
      if link = 3 ∨ speed = 3 then { s with response := some ⟨.inval, 0⟩ }
      else if s.rstate ≠ .ringsReady then { s with response := some ⟨.state, 0⟩ }
      else if new.toNat ≠ s.lstate.toNat % 32 then
        { s with
          lstate := new,
          events := s.events ++ [.linkChanged link (if link = 2 then speed else 0) (link = 2 ∧ fd = 1)],
          response := some ⟨.ok, 1⟩ }
      else { s with lstate := new, response := some ⟨.ok, 0⟩ })

/-! ### Commands with nothing to do -/

/-- Outside RingsReady the passes, REFILL and an IRQ that takes no parity fault answer OK, 0 and change nothing, as does a TICK outside
Resetting; ENQUEUE with an admissible fragment count answers E_DOWN (42_tx.md R310, 43_rx.md R360, R370, 45_irq.md R450, R470,
44_control.md R423). -/
def Obligations.NothingRunsOutsideRingsReady : Prop :=
  ∀ (q : BitVec 7) (b c : Half) (frags : List Frag) (s : State), s.rstate ≠ .ringsReady → q.toNat < s.nq.toNat →
    exec (.serviceTx q b) s = .next { s with response := some ⟨.ok, 0⟩ } ∧
    exec (.serviceRx q b) s = .next { s with response := some ⟨.ok, 0⟩ } ∧
    exec (.refill q) s = .next { s with response := some ⟨.ok, 0⟩ } ∧
    ((c.getLsbD 15 = false ∨ s.params.parityFaultEnabled = false ∨ s.rstate = .faulted) →
      exec (.irq q c) s = .next { s with response := some ⟨.ok, 0⟩ }) ∧
    (s.rstate ≠ .resetting → exec .tick s = .next { s with response := some ⟨.ok, 0⟩ }) ∧
    (1 ≤ frags.length → frags.length ≤ s.params.maxTxFrags →
      exec (.enqueue q frags) s = .next { s with response := some ⟨.down, 0⟩ })

/-! ### ENQUEUE -/

/-- R300's errors, in order, each without any change: a fragment count out of range, transmission not allowed, an empty packet, a packet
that can never fit, a lack of free slots or buffers. -/
def Obligations.EnqueueRefusesWithoutChange : Prop :=
  ∀ (q : BitVec 7) (frags : List Frag) (s : State), q.toNat < s.nq.toNat →
    let l := (frags.map (fun f => f.len.toNat)).sum
    let k := (l + s.params.bufSize - 1) / s.params.bufSize
    let badCount := frags.length = 0 ∨ s.params.maxTxFrags < frags.length
    let down := s.rstate ≠ .ringsReady ∨ lstateLink s.lstate ≠ 2
    let tooBig := s.params.maxTxDescPerPkt < k ∨ s.n - 1 < k
    let noRoom := s.ringFree .tx q.toNat < k ∨ s.poolCount .tx q.toNat .free < k
    (badCount → exec (.enqueue q frags) s = .next { s with response := some ⟨.inval, 0⟩ }) ∧
    (¬ badCount → down → exec (.enqueue q frags) s = .next { s with response := some ⟨.down, 0⟩ }) ∧
    (¬ badCount → ¬ down → l = 0 → exec (.enqueue q frags) s = .next { s with response := some ⟨.inval, 0⟩ }) ∧
    (¬ badCount → ¬ down → l ≠ 0 → tooBig →
      exec (.enqueue q frags) s = .next { s with response := some ⟨.tooBig, 0⟩ }) ∧
    (¬ badCount → ¬ down → l ≠ 0 → ¬ tooBig → noRoom →
      exec (.enqueue q frags) s = .next { s with response := some ⟨.backpressure, 0⟩ })

/-- R302 and R303: an ENQUEUE that completes either answers OK or has changed nothing but the response. -/
def Obligations.EnqueueIsAllOrNothing : Prop :=
  ∀ (q : BitVec 7) (frags : List Frag) (s t : State), exec (.enqueue q frags) s = .next t →
    (∃ v, t.response = some ⟨.ok, v⟩) ∨ (∃ st, t = { s with response := some ⟨st, 0⟩ })

/-- R300, the registers: ENQUEUE posts the packet's k pieces in the k slots from NTU on, one Free buffer each, lowest first, and writes the
tail register once; nothing else changes. The device's tail is that of the register written by name (log 8). -/
def Obligations.EnqueuePostsPacket : Prop :=
  ∀ (q : BitVec 7) (frags : List Frag) (s : State), s.Inv → s.Live q → lstateLink s.lstate = 2 →
    1 ≤ frags.length → frags.length ≤ s.params.maxTxFrags →
    let l := packetLength frags
    let b := s.params.bufSize
    let k := (l + b - 1) / b
    let p := q.toNat
    let free := s.freeBuffers .tx p
    let slot := fun j => (s.ntu .tx p + j) % s.n
    1 ≤ l → k ≤ s.params.maxTxDescPerPkt → k ≤ s.ringFree .tx p → k ≤ s.poolCount .tx p .free →
    (∀ f ∈ frags, f.len ≠ 0 → s.params.Backs f.addr.toNat f.len.toNat) → s.RegionBacked →
    ∃ t, exec (.enqueue q frags) s = .next t ∧
      t.response = some ⟨.ok, BitVec.ofNat 32 (s.ntu .tx p)⟩ ∧
      ((t.queue p).tx = ⟨BitVec.ofNat 16 (slot k), (s.queue p).tx.ntc, BitVec.ofNat 16 (slot k)⟩) ∧
      (∀ h < s.poolSize .tx, t.tag .tx p h = if h ∈ free.take k then .hw else s.tag .tx p h) ∧
      (∀ j < k, (t.queue p).txRec (slot j) =
        ⟨BitVec.ofNat 16 (free.getD j 0), BitVec.ofNat 16 (slot (k - 1)), decide (j = k - 1)⟩) ∧
      (∀ i < s.n, (∀ j < k, i ≠ slot j) → (t.queue p).txRec i = (s.queue p).txRec i) ∧
      (∀ j < k, ((t.queue p).txPool.len (free.getD j 0)).toNat = min b (l - j * b)) ∧
      (∀ h < s.poolSize .tx, h ∉ free.take k → (t.queue p).txPool.len h = (s.queue p).txPool.len h) ∧
      (∃ es, t.events = s.events ++ es ++
          [.barrier .write, .regWrite (devOffset s.params.devRegs (.tail .tx p)) (BitVec.ofNat 32 (slot k))] ∧
        ∀ e ∈ es, e.isRegWrite = false) ∧
      t.dev = s.dev.setRing .tx p { s.dev.ring .tx p with tail := BitVec.ofNat 16 (slot k) } ∧
      s.SameGlobals t ∧ t.lstate = s.lstate ∧ t.wb = [] ∧ s.SameOtherQueues t p ∧
      Queue.SameButTx (s.queue p) (t.queue p)

/-- R300 and R301, memory: each piece of the packet lies in its buffer, its descriptor in its slot with DD clear, and every other byte of
memory is as before. -/
def Obligations.EnqueueStoresPacket : Prop :=
  ∀ (q : BitVec 7) (frags : List Frag) (s t : State), s.Inv → exec (.enqueue q frags) s = .next t →
    (∃ v, t.response = some ⟨.ok, v⟩) →
    let l := packetLength frags
    let b := s.params.bufSize
    let k := (l + b - 1) / b
    let p := q.toNat
    let buf := fun j => (s.freeBuffers .tx p).getD j 0
    let slot := fun j => (s.ntu .tx p + j) % s.n
    (∀ j < k, Memory.bytes t.mem (s.bufAddr .tx p (buf j)) (min b (l - j * b)) =
      ((packetBytes s.mem frags).drop (j * b)).take b) ∧
    (∀ j < k, t.descBytes .tx p (slot j) =
      put64 (s.bufAddr .tx p (buf j)) ++ put16 (min b (l - j * b)) ++
        [0, if j = k - 1 then 0x0B else 0x0A, 0, 0, 0, 0]) ∧
    (∀ a, (∀ j < k, ¬ Within a (s.bufAddr .tx p (buf j)) (min b (l - j * b)) ∧
        ¬ Within a (s.descAddr .tx p (slot j)) 16) →
      Memory.byte t.mem a = Memory.byte s.mem a)

/-- 93_implementation_defined.md with R101: an ENQUEUE that passes its checks and whose first non-empty fragment is where the platform has
no memory leaves the machine stuck. -/
def Obligations.EnqueueWithoutMemoryIsStuck : Prop :=
  ∀ (q : BitVec 7) (f : Frag) (rest : List Frag) (s : State), s.Live q → lstateLink s.lstate = 2 →
    rest.length + 1 ≤ s.params.maxTxFrags → 1 ≤ f.len.toNat →
    (packetLength (f :: rest) + s.params.bufSize - 1) / s.params.bufSize ≤ s.params.maxTxDescPerPkt →
    (packetLength (f :: rest) + s.params.bufSize - 1) / s.params.bufSize ≤ s.ringFree .tx q.toNat →
    (packetLength (f :: rest) + s.params.bufSize - 1) / s.params.bufSize ≤ s.poolCount .tx q.toNat .free →
    ¬ s.params.Backs f.addr.toNat f.len.toNat →
    exec (.enqueue q (f :: rest)) s = .fault .memoryNotBacked

/-! ### SERVICE_TX -/

/-- R310 to R313: SERVICE_TX with budget 1 takes the packet at NTC whole when every descriptor of it is done, however long it is: its
buffers become Free, NTC passes it, and exactly one TX_CAPACITY is logged, last; nothing else changes. -/
def Obligations.ServiceTxFreesHeadPacket : Prop :=
  ∀ (q : BitVec 7) (s : State), s.Inv → s.Live q → s.RegionBacked →
    let p := q.toNat
    let k := s.headPacketSize p
    s.ringEmpty .tx p = false → (∀ i < k, (s.statusByte .tx p (s.slotAt .tx p i)).getLsbD 0 = true) →
    ∃ t, exec (.serviceTx q 1) s = .next t ∧ t.response = some ⟨.ok, BitVec.ofNat 32 (65536 + k)⟩ ∧
      (t.queue p).tx = { (s.queue p).tx with ntc := BitVec.ofNat 16 ((s.ntc .tx p + k) % s.n) } ∧
      (∀ h < s.poolSize .tx, t.tag .tx p h =
        if ∃ i < k, s.handle .tx p (s.slotAt .tx p i) = h then .free else s.tag .tx p h) ∧
      (t.queue p).swTx = (s.queue p).swTx ∧ (t.queue p).txPool.blen = (s.queue p).txPool.blen ∧
      (∃ es, t.events = s.events ++ es ++ [.txCapacity p] ∧ ∀ e ∈ es, e.isCapacity = false) ∧
      s.SameGlobals t ∧ t.lstate = s.lstate ∧ t.mem = s.mem ∧ t.wb = s.wb ∧ t.dev = s.dev ∧ s.SameOtherQueues t p ∧
      Queue.SameButTx (s.queue p) (t.queue p)

/-- R310, R311: when the packet at NTC is not finished, its first j descriptors done and the others not, SERVICE_TX inspects every one of
them, behind a read barrier each, reads the done ones whole, frees nothing and logs no TX_CAPACITY. -/
def Obligations.ServiceTxWaitsForPacket : Prop :=
  ∀ (q : BitVec 7) (b : Half) (s : State) (j : Nat), s.Inv → s.Live q → s.RegionBacked →
    let p := q.toNat
    let addr := fun i => s.descAddr .tx p (s.slotAt .tx p i)
    let sta := fun i => s.statusByte .tx p (s.slotAt .tx p i)
    s.ringEmpty .tx p = false → j < s.headPacketSize p →
    (∀ i < j, (sta i).getLsbD 0 = true) → (∀ i < s.headPacketSize p, j ≤ i → (sta i).getLsbD 0 = false) →
    exec (.serviceTx q b) s = .next { s with
      events := s.events ++ ((List.range (s.headPacketSize p)).map (fun i =>
        [Event.barrier .read, .dmaRead (addr i + 12) [sta i]] ++
          (if i < j then [.dmaRead (addr i) (s.descBytes .tx p (s.slotAt .tx p i))] else []))).flatten,
      response := some ⟨.ok, 0⟩ }

/-- R311: a descriptor of the packet at NTC that is done after one that is not faults the block with PROTO_ORDER. -/
def Obligations.ServiceTxGapFaults : Prop :=
  ∀ (q : BitVec 7) (b : Half) (s : State) (i j : Nat), s.Inv → s.Live q → s.RegionBacked →
    let p := q.toNat
    s.ringEmpty .tx p = false → i < j → j < s.headPacketSize p →
    (s.statusByte .tx p (s.slotAt .tx p i)).getLsbD 0 = false →
    (s.statusByte .tx p (s.slotAt .tx p j)).getLsbD 0 = true →
    ∃ t, exec (.serviceTx q b) s = .next t ∧ t.response = some ⟨.protocol, 2⟩ ∧ t.rstate = .faulted ∧
      t.gen = s.gen + 1 ∧ t.faultReason = 2 ∧ t.events.getLast? = some (.fault .order) ∧
      t.dev.rxEn = false ∧ t.dev.txEn = false ∧ ∀ q < t.nq.toNat, t.AllFree q

/-- The frame of SERVICE_TX, any budget: unless it faults it writes no memory and no device register, and changes only the queue's TX NTC
and TX tags, the events and the response (R310). -/
def Obligations.ServiceTxFrame : Prop :=
  ∀ (q : BitVec 7) (b : Half) (s t : State), exec (.serviceTx q b) s = .next t → t.rstate = s.rstate →
    s.SameGlobals t ∧ t.lstate = s.lstate ∧ t.mem = s.mem ∧ t.wb = s.wb ∧ t.dev = s.dev ∧
    s.SameOtherQueues t q.toNat ∧ Queue.SameButTx (s.queue q.toNat) (t.queue q.toNat) ∧
    (t.queue q.toNat).swTx = (s.queue q.toNat).swTx ∧
    (t.queue q.toNat).txPool.blen = (s.queue q.toNat).txPool.blen ∧
    (t.queue q.toNat).tx.ntu = (s.queue q.toNat).tx.ntu ∧ (t.queue q.toNat).tx.tail = (s.queue q.toNat).tx.tail

/-! ### SERVICE_RX and REFILL -/

/-- R351 to R360, V-X3: a clean frame of k descriptors at NTC, with nothing done behind it, is delivered once, as one frame record with the
k buffers, whatever the budget: its buffers become Pend, and the refill that follows leaves the ring full or the pool without a Free
buffer (R374). -/
def Obligations.ServiceRxDeliversCleanFrame : Prop :=
  ∀ (q : BitVec 7) (b : Half) (s : State) (k : Nat), s.Inv → s.Live q → s.RegionBacked → s.rxReporting = true →
    let p := q.toNat
    (s.queue p).discard = false → s.FrameAtHead p k →
    (∀ i < k, s.rxErrorsAt p i &&& s.params.frameErrMask = 0) → (∀ i < k - 1, s.rxLenAt p i = s.params.bufSize) →
    1 ≤ s.rxTotal p k → s.rxTotal p k ≤ s.params.maxRxFrameLen →
    ∃ t, exec (.serviceRx q b) s = .next t ∧ t.response = some ⟨.ok, BitVec.ofNat 32 (65536 + k)⟩ ∧
      t.ntc .rx p = (s.ntc .rx p + k) % s.n ∧ (∀ i < k, t.tag .rx p (s.handle .rx p (s.slotAt .rx p i)) = .pend) ∧
      (t.queue p).rxDrops = (s.queue p).rxDrops ∧ (t.queue p).discard = false ∧
      (∃ es es', t.events = s.events ++ es ++ [.deliver p {
            slot := s.ntc .rx p, count := k,
            bufs := (List.range k).map (fun i => (BitVec.ofNat 16 (s.handle .rx p (s.slotAt .rx p i)), s.rxLenAt p i)),
            total := s.rxTotal p k, status := byteAt (s.rxDescAt p (k - 1)) 12,
            errors := ((List.range k).map (s.rxErrorsAt p)).foldr (· ||| ·) 0 }] ++ es' ∧
        ∀ e ∈ es ++ es', e.isDeliver = false) ∧
      (t.ringFull .rx p = true ∨ ∀ i < s.n, t.tag .rx p i ≠ .free)

/-- R353, R354, R356, R357, V-X6: a frame of k descriptors at NTC is dropped and counted when it has an error bit in FRAME_ERR_MASK, length 0
or above MAX_RX_FRAME_LEN in all, or a descriptor before the last that does not fill its buffer; with DISCARD set any frame is the tail
of one dropped before: it is dropped uncounted and DISCARD is cleared. Nothing is delivered and no buffer of it is pending. -/
def Obligations.ServiceRxDropsBadFrame : Prop :=
  ∀ (q : BitVec 7) (b : Half) (s : State) (k : Nat), s.Inv → s.Live q → s.RegionBacked → s.rxReporting = true →
    let p := q.toNat
    s.FrameAtHead p k →
    ((s.queue p).discard = true ∨ (∃ i < k, s.rxErrorsAt p i &&& s.params.frameErrMask ≠ 0) ∨ s.rxTotal p k = 0 ∨
      s.params.maxRxFrameLen < s.rxTotal p k ∨ ∃ i < k - 1, s.rxLenAt p i ≠ s.params.bufSize) →
    ∃ t, exec (.serviceRx q b) s = .next t ∧ t.response = some ⟨.ok, BitVec.ofNat 32 k⟩ ∧
      t.ntc .rx p = (s.ntc .rx p + k) % s.n ∧ (∀ i < k, t.tag .rx p (s.handle .rx p (s.slotAt .rx p i)) ≠ .pend) ∧
      (t.queue p).rxDrops = (s.queue p).rxDrops + (if (s.queue p).discard then 0 else 1) ∧ (t.queue p).discard = false ∧
      (∃ es, t.events = s.events ++ es ∧ ∀ e ∈ es, e.isDeliver = false) ∧
      (t.ringFull .rx p = true ∨ ∀ i < s.n, t.tag .rx p i ≠ .free)

/-- R356: when every slot of a full ring is done and none ends the frame, SERVICE_RX drops them all, counts one drop unless it is
discarding already, and sets DISCARD; nothing is delivered. -/
def Obligations.ServiceRxDropsOverflowingFrame : Prop :=
  ∀ (q : BitVec 7) (b : Half) (s : State), s.Inv → s.Live q → s.RegionBacked → s.rxReporting = true →
    let p := q.toNat
    s.ringFull .rx p = true →
    (∀ i < s.n - 1,
      let d := s.descBytes .rx p (s.slotAt .rx p i)
      (byteAt d 12).getLsbD 0 = true ∧ (byteAt d 12).getLsbD 1 = false ∧ le16 d 8 ≤ s.params.bufSize) →
    ∃ t, exec (.serviceRx q b) s = .next t ∧ t.response = some ⟨.ok, BitVec.ofNat 32 (s.n - 1)⟩ ∧
      t.ntc .rx p = s.ntu .rx p ∧ (t.queue p).discard = true ∧
      (t.queue p).rxDrops = (s.queue p).rxDrops + (if (s.queue p).discard then 0 else 1) ∧
      (∀ h < s.n, t.tag .rx p h = .pend → s.tag .rx p h = .pend) ∧
      (∃ es, t.events = s.events ++ es ∧ ∀ e ∈ es, e.isDeliver = false)

/-- R352: a done descriptor at NTC whose LEN is above BUF_SIZE faults the block with PROTO_RX_LEN. -/
def Obligations.ServiceRxLengthFaults : Prop :=
  ∀ (q : BitVec 7) (b : Half) (s : State), s.Inv → s.Live q → s.RegionBacked → s.rxReporting = true →
    let p := q.toNat
    let d := s.descBytes .rx p (s.ntc .rx p)
    s.ringEmpty .rx p = false → (byteAt d 12).getLsbD 0 = true → s.params.bufSize < le16 d 8 →
    ∃ t, exec (.serviceRx q b) s = .next t ∧ t.response = some ⟨.protocol, 3⟩ ∧ t.rstate = .faulted ∧
      t.gen = s.gen + 1 ∧ t.faultReason = 3 ∧ t.events.getLast? = some (.fault .rxLen) ∧
      t.dev.rxEn = false ∧ t.dev.txEn = false ∧ ∀ q < t.nq.toNat, t.AllFree q

/-- R350, R360 and R373: with the reporting gate closed SERVICE_RX consumes nothing but still refills: it does what REFILL does, and
answers OK, 0. -/
def Obligations.ClosedGateOnlyRefills : Prop :=
  ∀ (q : BitVec 7) (b : Half) (s : State), s.Live q →
    (lstateLink s.lstate ≠ 2 ∧ (lstateLink s.lstate ≠ 1 ∨ s.params.rxWhileNegotiating = false)) →
    exec (.serviceRx q b) s =
      (match exec (.refill q) s with
      | .next t    => .next { t with response := some ⟨.ok, 0⟩ }
      | .fault f   => .fault f
      | .refused r => .refused r)

/-- R370, R371: REFILL posts the Free buffers, lowest first, until the ring is full or none is left, with one tail write if it posted any;
its value holds the number posted and whether the pool ran out; nothing else changes. The device's tail is that of the register
written by name (log 8). -/
def Obligations.RefillPostsFreeBuffers : Prop :=
  ∀ (q : BitVec 7) (s : State), s.Inv → s.Live q → s.RegionBacked →
    let p := q.toNat
    let free := s.freeBuffers .rx p
    let k := min (s.ringFree .rx p) free.length
    let slot := fun j => (s.ntu .rx p + j) % s.n
    ∃ t, exec (.refill q) s = .next t ∧
      t.response = some ⟨.ok, BitVec.ofNat 32 ((if free.length < s.ringFree .rx p then 65536 else 0) + k)⟩ ∧
      (t.queue p).rx = ⟨BitVec.ofNat 16 (slot k), (s.queue p).rx.ntc, BitVec.ofNat 16 (slot k)⟩ ∧
      (∀ h < s.n, t.tag .rx p h = if h ∈ free.take k then .hw else s.tag .rx p h) ∧
      (∀ j < k, t.handle .rx p (slot j) = free.getD j 0 ∧
        ((t.queue p).rxPool.len (free.getD j 0)).toNat = s.params.bufSize) ∧
      (∀ i < s.n, (∀ j < k, i ≠ slot j) → (t.queue p).rxRec i = (s.queue p).rxRec i) ∧
      (∀ h < s.n, h ∉ free.take k → (t.queue p).rxPool.len h = (s.queue p).rxPool.len h) ∧
      (∀ j < k, t.descBytes .rx p (slot j) = put64 (s.bufAddr .rx p (free.getD j 0)) ++ List.replicate 8 0) ∧
      (∀ a, (∀ j < k, ¬ Within a (s.descAddr .rx p (slot j)) 16) → Memory.byte t.mem a = Memory.byte s.mem a) ∧
      (∃ es, (∀ e ∈ es, e.isRegWrite = false) ∧ t.events = s.events ++ es ++
        (if k = 0 then [] else
          [.barrier .write, .regWrite (devOffset s.params.devRegs (.tail .rx p)) (BitVec.ofNat 32 (slot k))])) ∧
      t.dev = (if k = 0 then s.dev
        else s.dev.setRing .rx p { s.dev.ring .rx p with tail := BitVec.ofNat 16 (slot k) }) ∧
      (t.ringFull .rx p = true ∨ ∀ h < s.n, t.tag .rx p h ≠ .free) ∧
      s.SameGlobals t ∧ t.lstate = s.lstate ∧ t.wb = [] ∧ s.SameOtherQueues t p ∧
      Queue.SameButRx (s.queue p) (t.queue p) ∧ (t.queue p).discard = (s.queue p).discard ∧
      (t.queue p).rxDrops = (s.queue p).rxDrops

/-- The frame of SERVICE_RX and REFILL: unless they fault they store only in the descriptors of the queue's RX ring, write no device
register but the queue's RX tail, taken by name (log 8), and change only the queue's RX side, DISCARD and RX_DROPS, the events and the
response (R360, R370). -/
def Obligations.RxServiceFrame : Prop :=
  ∀ (i : Instr) (q : BitVec 7) (b : Half) (s t : State), s.Inv → (i = .serviceRx q b ∨ i = .refill q) →
    exec i s = .next t → t.rstate = s.rstate →
    s.SameGlobals t ∧ t.lstate = s.lstate ∧ t.wb = s.wb ∧ s.SameOtherQueues t q.toNat ∧
    Queue.SameButRx (s.queue q.toNat) (t.queue q.toNat) ∧
    (∀ a, (∀ slot < s.n, ¬ Within a (s.descAddr .rx q.toNat slot) 16) → Memory.byte t.mem a = Memory.byte s.mem a) ∧
    (∃ v, t.dev = s.dev.setRing .rx q.toNat { s.dev.ring .rx q.toNat with tail := v })

/-! ### The device -/

/-- A device move changes nothing of the block: only memory and the device's own registers (48_device_agent.md R505); and with the device
disabled or in reset it writes no memory (R514, R515). -/
def Obligations.DeviceMovesLeaveTheBlockAlone : Prop :=
  ∀ (m : Move) (rest : List Input) (s t : State), s.inputs = .device m :: rest → step s = .next t →
    t = { s with inputs := rest, mem := t.mem, dev := t.dev } ∧
    ((s.dev.rxEn = false ∧ s.dev.txEn = false) ∨ s.dev.resetting = true → t.mem = s.mem) ∧
    t.dev.rxEn = s.dev.rxEn ∧ t.dev.txEn = s.dev.txEn ∧ (t.dev.resetting = true → s.dev.resetting = true) ∧
    ∀ r q, (t.dev.ring r q).tail = (s.dev.ring r q).tail ∧ (t.dev.ring r q).dbase = (s.dev.ring r q).dbase

/-- R512: a TX completion at the head sets DD in the slot's STA byte, keeps EC, LC and TU as drawn, writes no other byte, and moves the
head on by one slot. -/
def Obligations.TxCompletionWritesBack : Prop :=
  ∀ (q : Nat) (x : Byte) (rest : List Input) (s : State), s.params.Valid → s.Sized → Memory.wf s.mem →
    s.inputs = .device (.txComplete q x) :: rest → q < maxQueues →
    s.dev.txEn = true → s.dev.resetting = false → (s.dev.ring .tx q).head ≠ (s.dev.ring .tx q).tail →
    (s.dev.ring .tx q).head.toNat ∉ (s.dev.ring .tx q).done →
    let a := (s.dev.ring .tx q).dbase.toNat + 16 * (s.dev.ring .tx q).head.toNat + 12
    s.params.Backs a 1 →
    ∃ t, step s = .next t ∧ Memory.byte t.mem a = 0x01 ||| (x &&& 0x0E) ∧
      (∀ a', a' ≠ a → Memory.byte t.mem a' = Memory.byte s.mem a') ∧
      (t.dev.ring .tx q).head = BitVec.ofNat 16 (((s.dev.ring .tx q).head.toNat + 1) % s.n)

/-- R513 and R520: an RX completion at the head writes its data, at most BUF_SIZE bytes of it, at the buffer the descriptor names, and
bytes 8 to 15 of the descriptor, with DD set and bit 4 of STATUS clear, and moves the head on by one slot; no other byte is written.
A conformant device fills the buffer on a descriptor that does not end its frame, and never names more than BUF_SIZE bytes. -/
def Obligations.RxCompletionWritesBack : Prop :=
  ∀ (q : Nat) (d : RxDraw) (rest : List Input) (s : State), s.params.Valid → s.Sized → Memory.wf s.mem →
    s.inputs = .device (.rxComplete q d) :: rest → q < maxQueues →
    s.dev.rxEn = true → s.dev.resetting = false → (s.dev.ring .rx q).head ≠ (s.dev.ring .rx q).tail →
    (s.dev.ring .rx q).head.toNat ∉ (s.dev.ring .rx q).done →
    let len := d.data.length
    let room := s.params.bufSize
    (len ≤ room ∨ (s.params.deviceConformant = false ∧ len ≤ 0xFFFF)) →
    (len = room ∨ d.st.getLsbD 1 = true ∨ s.params.deviceConformant = false) →
    let a := (s.dev.ring .rx q).dbase.toNat + 16 * (s.dev.ring .rx q).head.toNat
    let buf := le64 (Memory.bytes s.mem a 8) 0
    let n := min len room
    s.params.Backs (a + 8) 8 → s.params.Backs buf n → (a + 16 ≤ buf ∨ buf + n ≤ a) →
    ∃ t, step s = .next t ∧
      Memory.bytes t.mem buf n = d.data.take room ∧
      Memory.bytes t.mem (a + 8) 8 =
        [BitVec.ofNat 8 len, BitVec.ofNat 8 (len / 256), d.csum.setWidth 8, (d.csum >>> 8).setWidth 8,
         0x01 ||| (d.st &&& 0xEE), d.er, d.special.setWidth 8, (d.special >>> 8).setWidth 8] ∧
      (∀ a', ¬ Within a' buf n → ¬ Within a' (a + 8) 8 → Memory.byte t.mem a' = Memory.byte s.mem a') ∧
      (t.dev.ring .rx q).head = BitVec.ofNat 16 (((s.dev.ring .rx q).head.toNat + 1) % s.n)

/-! ### Whole-machine rules -/

/-- 10_state.md R90, for every configuration: the values at power-on. (Unlisted memory, the response, the stream and the counter of draws
are the model's choices, logs 6, 11, 1 and 9, and no clause states them.) -/
def Obligations.PowerOnValues : Prop :=
  ∀ p : Params,
    let s := State.powerOn p
    s.rstate = .uninitialized ∧ s.lstate = 0 ∧ s.gen = 0 ∧ s.nq = 0 ∧ s.logn = 0 ∧ s.faultReason = 0 ∧
    s.resetPolls = 0 ∧ s.regionBase = 0 ∧ s.regionSize = 0 ∧ s.events = [] ∧ s.wb = [] ∧
    (∀ q < 128,
      (s.queue q).tx = ⟨0, 0, 0⟩ ∧ (s.queue q).rx = ⟨0, 0, 0⟩ ∧ (∀ i, (s.queue q).txRec i = ⟨0, 0, false⟩) ∧
      (∀ i, (s.queue q).rxRec i = ⟨0⟩) ∧ (∀ r i, s.tag r q i = .free ∧ ((s.queue q).pool r).len i = 0) ∧
      (s.queue q).discard = false ∧ (s.queue q).itr = 0 ∧ (s.queue q).cnt = 0 ∧ (s.queue q).armed = false ∧
      (s.queue q).acc = 0 ∧ (s.queue q).rxDrops = 0)

/-- The invariants hold at power-on, for every valid configuration, and the device is disabled with every register zero
(48_device_agent.md R502). -/
def Obligations.PowerOnMeetsInvariants : Prop :=
  ∀ p : Params, p.Valid →
    (State.powerOn p).Inv ∧ (State.powerOn p).WindowsOk ∧ Memory.wf (State.powerOn p).mem ∧
    (State.powerOn p).dev.rxEn = false ∧ (State.powerOn p).dev.txEn = false ∧ (State.powerOn p).dev.resetting = false ∧
    ∀ r q, (State.powerOn p).dev.ring r q = ⟨0, 0, 0, 0, []⟩

/-- Every step keeps memory in its canonical form, from every state that has it. -/
def Obligations.MemoryStaysCanonical : Prop :=
  ∀ s t : State, Memory.wf s.mem → step s = .next t → Memory.wf t.mem

/-- Every step keeps the configuration half of the invariant: sizes, region, legal register values, and nothing live outside RingsReady (44_control.md R401, R418, 60_exceptions.md R561). -/
def Obligations.ConfigurationInvariantKept : Prop :=
  ∀ s t : State, s.ConfigInv → step s = .next t → t.ConfigInv

/-- Every step keeps the whole invariant: the cursors (40_ring.md R201, 10_state.md R40, R41), the pools (41_pool.md R249), the packets of
the TX rings (42_tx.md R302), memory in canonical form, and the write buffer empty at the command boundary (20_memory.md R121). -/
def Obligations.RingAndPoolInvariantKept : Prop :=
  ∀ s t : State, s.Inv → step s = .next t → t.Inv

/-- From a state that meets the invariant no step makes a call the spec rules out (40_ring.md R207, 41_pool.md R251, 42_tx.md R302), nor
enters the fault PROTO_NOT_POSTED (41_pool.md R252): the only stop is memory the platform lacks. -/
def Obligations.OnlyMissingMemoryStops : Prop :=
  ∀ s : State, s.Inv →
    (∃ t, step s = .next t ∧ (t.faultReason = 0x01 → s.faultReason = 0x01)) ∨ step s = .fault .memoryNotBacked

/-- 44_control.md R421 with 10_state.md R34: GEN grows by one exactly when RSTATE changes, and RSTATE changes only as the table of R421
says. -/
def Obligations.RStateChangesAsTabled : Prop :=
  ∀ s t : State, s.ConfigInv → step s = .next t →
    (t.rstate = s.rstate ∧ t.gen = s.gen) ∨
    (t.gen = s.gen + 1 ∧ ∃ w args rest i, s.inputs = .command w args :: rest ∧ decode w args = .ok i ∧
      ((s.rstate ≠ .resetting ∧ t.rstate = .resetting ∧ ∃ q logn base size, i = .init q logn base size) ∨
       (s.rstate = .resetting ∧ t.rstate = .ringsReady ∧ i = .tick ∧ s.dev.resetting = false) ∨
       ((s.rstate = .resetting ∨ s.rstate = .ringsReady) ∧ t.rstate = .stopped ∧ i = .stop) ∨
       ((s.rstate = .resetting ∨ s.rstate = .ringsReady ∨ s.rstate = .stopped) ∧ t.rstate = .faulted ∧
         ∃ r, t.events.getLast? = some (.fault r) ∧ t.faultReason = r.code)))

/-- Every step only appends to the event log (10_state.md R70). That it takes one input from the stream (log 1) and leaves the parameters as
they are (log 4) is said of the model's own fields. -/
def Obligations.EventsAreOnlyAppended : Prop :=
  ∀ s t : State, step s = .next t →
    (∃ es, t.events = s.events ++ es) ∧ t.inputs = s.inputs.tail ∧ t.params = s.params

/-- A window is open exactly while its count is not zero (60_exceptions.md R570), at every command boundary. -/
def Obligations.WindowInvariantKept : Prop :=
  ∀ s t : State, s.ConfigInv → s.WindowsOk → step s = .next t → t.WindowsOk

/-- 60_exceptions.md R583: a per-queue command that does not fault touches no other queue. -/
def Obligations.CommandsTouchOnlyTheirQueue : Prop :=
  ∀ (i : Instr) (q : BitVec 7) (s t : State) (p : Nat), perQueueOf i = some q → exec i s = .next t →
    t.rstate = s.rstate → p ≠ q.toNat → t.queue p = s.queue p

/-- In RingsReady the device's tail register of every configured ring equals the block's copy, and that equals NTU (48_device_agent.md R522,
10_state.md R41): every step keeps it, with the register writes taken by name (log 8). -/
def Obligations.DeviceTailAgreesWithBlock : Prop :=
  ∀ s t : State, s.Inv → step s = .next t →
    (s.rstate = .ringsReady → ∀ q < s.nq.toNat, ∀ r, (s.dev.ring r q).tail = ((s.queue q).cur r).tail) →
    (t.rstate = .ringsReady → ∀ q < t.nq.toNat, ∀ r, (t.dev.ring r q).tail = ((t.queue q).cur r).tail ∧
      ((t.queue q).cur r).tail = ((t.queue q).cur r).ntu)
end

