-- ==== Sys2Proof/Laws/Memory.lean ====
section
/-! SUPPORT. The laws of memory: every operation keeps the canonical form, a read after a write gives what was written, and a write leaves
every other byte alone. -/

namespace Sys2Proof.Machine

/-! ### One byte -/

theorem Memory.mem_setByte (m : List Host.Cell) (a : Nat) (b : Byte) (c : Host.Cell) (h : c ∈ Memory.setByte m a b) :
    c ∈ m ∨ (c = (a, b) ∧ b ≠ Memory.unlisted) := by
  induction m with
  | nil =>
    unfold Memory.setByte at h
    split at h
    · cases h
    · next hb => simp only [List.mem_singleton] at h; exact .inr ⟨h, hb⟩
  | cons x m ih =>
    unfold Memory.setByte at h
    split at h
    · split at h
      · exact .inl h
      · next hb =>
        rcases List.mem_cons.1 h with h | h
        · exact .inr ⟨h, hb⟩
        · exact .inl h
    · split at h
      · split at h
        · exact .inl (List.mem_cons_of_mem _ h)
        · next hb =>
          rcases List.mem_cons.1 h with h | h
          · exact .inr ⟨h, hb⟩
          · exact .inl (List.mem_cons_of_mem _ h)
      · rcases List.mem_cons.1 h with h | h
        · exact .inl (h ▸ List.mem_cons_self)
        · exact (ih h).imp (List.mem_cons_of_mem _) id

theorem Memory.wf_setByte (m : List Host.Cell) (a : Nat) (b : Byte) (h : Memory.wf m) : Memory.wf (Memory.setByte m a b) := by
  refine ⟨?_, fun c hc => ?_⟩
  · induction m with
    | nil => unfold Memory.setByte; split <;> simp
    | cons x m ih =>
      obtain ⟨hs, hv⟩ := h
      rw [List.pairwise_cons] at hs
      have ih := ih ⟨hs.2, fun c hc => hv c (List.mem_cons_of_mem _ hc)⟩
      unfold Memory.setByte
      split
      · next ha =>
        split
        · exact List.pairwise_cons.2 hs
        · refine List.pairwise_cons.2 ⟨fun c hc => ?_, List.pairwise_cons.2 hs⟩
          rcases List.mem_cons.1 hc with rfl | hc
          · exact ha
          · exact Nat.lt_trans ha (hs.1 c hc)
      · split
        · next ha =>
          split
          · exact hs.2
          · exact List.pairwise_cons.2 ⟨fun c hc => ha ▸ hs.1 c hc, hs.2⟩
        · next ha hne =>
          refine List.pairwise_cons.2 ⟨fun c hc => ?_, ih⟩
          rcases Memory.mem_setByte m a b c hc with hc | ⟨rfl, -⟩
          · exact hs.1 c hc
          · exact Nat.lt_of_le_of_ne (Nat.le_of_not_lt ha) (Ne.symm hne)
  · rcases Memory.mem_setByte m a b c hc with hc | ⟨rfl, hb⟩
    · exact h.2 c hc
    · exact hb

/-- Below the first listed address memory reads as unlisted. -/
theorem Memory.byte_of_lt (m : List Host.Cell) (a : Nat) (h : ∀ c ∈ m, a < c.1) : Memory.byte m a = Memory.unlisted := by
  induction m with
  | nil => rfl
  | cons x m ih =>
    have hx := h x List.mem_cons_self
    rw [Memory.byte, if_neg (by omega), ih (fun c hc => h c (List.mem_cons_of_mem _ hc))]

/-- A read after a one-byte write. -/
theorem Memory.byte_setByte (m : List Host.Cell) (a : Nat) (b : Byte) (h : Memory.wf m) (a' : Nat) :
    Memory.byte (Memory.setByte m a b) a' = if a' = a then b else Memory.byte m a' := by
  induction m with
  | nil =>
    by_cases hb : b = Memory.unlisted <;> by_cases ha : a' = a <;>
      simp [Memory.setByte, Memory.byte, hb, ha, Ne.symm]
  | cons x m ih =>
    obtain ⟨hs, hv⟩ := h
    rw [List.pairwise_cons] at hs
    have ih := ih ⟨hs.2, fun c hc => hv c (List.mem_cons_of_mem _ hc)⟩
    unfold Memory.setByte
    split
    · next hlt =>
      split
      · next hb =>
        split
        · next ha =>
          subst ha
          rw [hb]
          refine Memory.byte_of_lt _ _ fun c hc => ?_
          rcases List.mem_cons.1 hc with rfl | hc
          · exact hlt
          · exact Nat.lt_trans hlt (hs.1 c hc)
        · rfl
      · by_cases ha : a' = a
        · simp [Memory.byte, ha]
        · rw [Memory.byte, if_neg (Ne.symm ha), if_neg ha]
    · split
      · next _ heq =>
        by_cases ha : a' = a
        · subst ha
          split
          · next hb => rw [hb, if_pos rfl]; exact Memory.byte_of_lt _ _ fun c hc => heq ▸ hs.1 c hc
          · simp [Memory.byte]
        · split <;> simp [Memory.byte, Ne.symm ha, ← heq]
      · next _ hne =>
        rw [Memory.byte, ih, Memory.byte]
        by_cases hx : x.1 = a'
        · rw [if_pos hx, if_pos hx, if_neg (fun e => hne (e.symm.trans hx.symm))]
        · rw [if_neg hx, if_neg hx]

/-! ### Runs of bytes -/

theorem Memory.wf_setBytes (bs : List Byte) (m : List Host.Cell) (a : Nat) (h : Memory.wf m) :
    Memory.wf (Memory.setBytes m a bs) := by
  induction bs generalizing m a with
  | nil => exact h
  | cons b bs ih => exact ih _ _ (Memory.wf_setByte m a b h)

/-- A read after a write of a run of bytes. -/
theorem Memory.byte_setBytes (bs : List Byte) (m : List Host.Cell) (a : Nat) (h : Memory.wf m) (a' : Nat) :
    Memory.byte (Memory.setBytes m a bs) a' =
      if a ≤ a' ∧ a' < a + bs.length then bs.getD (a' - a) 0 else Memory.byte m a' := by
  induction bs generalizing m a with
  | nil => rw [Memory.setBytes, if_neg (by simp only [List.length_nil]; omega)]
  | cons b bs ih =>
    rw [Memory.setBytes, ih _ _ (Memory.wf_setByte m a b h), Memory.byte_setByte m a b h]
    simp only [List.length_cons]
    by_cases h1 : a' = a
    · subst h1
      rw [if_neg (by omega), if_pos rfl, if_pos (by omega)]
      simp
    · rw [if_neg h1]
      by_cases h2 : a + 1 ≤ a' ∧ a' < a + 1 + bs.length
      · rw [if_pos h2, if_pos (by omega), show a' - a = (a' - (a + 1)) + 1 by omega]
        simp
      · rw [if_neg h2, if_neg (by omega)]

/-- A write leaves every byte outside it alone. -/
theorem Memory.byte_setBytes_of_not_within (bs : List Byte) (m : List Host.Cell) (a : Nat) (h : Memory.wf m) (a' : Nat)
    (ha : ¬ (a ≤ a' ∧ a' < a + bs.length)) : Memory.byte (Memory.setBytes m a bs) a' = Memory.byte m a' := by
  rw [Memory.byte_setBytes bs m a h, if_neg ha]

@[simp] theorem Memory.length_bytes (m : List Host.Cell) (n a : Nat) : (Memory.bytes m a n).length = n := by
  induction n generalizing a with
  | zero => rfl
  | succ n ih => simp [Memory.bytes, ih]

theorem Memory.getElem?_bytes (m : List Host.Cell) (n a i : Nat) :
    (Memory.bytes m a n)[i]? = if i < n then some (Memory.byte m (a + i)) else none := by
  induction n generalizing a i with
  | zero => simp [Memory.bytes]
  | succ n ih =>
    cases i with
    | zero => simp [Memory.bytes]
    | succ i => simp [Memory.bytes, ih, show a + 1 + i = a + (i + 1) by omega]

/-- Two memories that agree on a range read alike there. -/
theorem Memory.bytes_congr (m m' : List Host.Cell) (n a : Nat)
    (h : ∀ a', a ≤ a' → a' < a + n → Memory.byte m a' = Memory.byte m' a') : Memory.bytes m a n = Memory.bytes m' a n := by
  induction n generalizing a with
  | zero => rfl
  | succ n ih =>
    rw [Memory.bytes, Memory.bytes, h a (Nat.le_refl _) (by omega), ih (a + 1) fun a' h1 h2 => h a' (by omega) (by omega)]

/-- What was written is read back. -/
theorem Memory.bytes_setBytes (bs : List Byte) (m : List Host.Cell) (a : Nat) (h : Memory.wf m) :
    Memory.bytes (Memory.setBytes m a bs) a bs.length = bs := by
  apply List.ext_getElem?
  intro i
  rw [Memory.getElem?_bytes, Memory.byte_setBytes bs m a h]
  by_cases hi : i < bs.length
  · rw [if_pos hi, if_pos (by omega), show a + i - a = i by omega]
    simp [List.getD_eq_getElem?_getD, List.getElem?_eq_getElem hi]
  · rw [if_neg hi, List.getElem?_eq_none (by omega)]

/-! ### The write buffer -/

/-- Draining keeps the canonical form. -/
theorem wf_drained (wb : List WbEntry) (m : List Host.Cell) (h : Memory.wf m) : Memory.wf (drained m wb) := by
  induction wb generalizing m with
  | nil => exact h
  | cons e es ih => exact ih _ (Memory.wf_setBytes e.bytes m e.addr h)

theorem drained_append (m : List Host.Cell) (wb wb' : List WbEntry) :
    drained m (wb ++ wb') = drained (drained m wb) wb' := by
  induction wb generalizing m with
  | nil => rfl
  | cons e es ih => exact ih _

@[simp] theorem blockByte_nil (m : List Host.Cell) (a : Nat) : blockByte m [] a = Memory.byte m a := rfl

/-- With the write buffer empty the block reads memory. -/
@[simp] theorem blockBytes_nil (m : List Host.Cell) (n a : Nat) : blockBytes m [] a n = Memory.bytes m a n := by
  induction n generalizing a with
  | zero => rfl
  | succ n ih => rw [blockBytes, Memory.bytes, ih, blockByte_nil]

/-- The block reads what memory will hold once the write buffer has drained (20_memory.md R121). -/
theorem byte_drained (wb : List WbEntry) (m : List Host.Cell) (h : Memory.wf m) (a : Nat) :
    Memory.byte (drained m wb) a = blockByte m wb a := by
  induction wb generalizing m with
  | nil => rfl
  | cons e es ih =>
    rw [drained, ih _ (Memory.wf_setBytes e.bytes m e.addr h)]
    simp only [blockByte, newestByte]
    cases newestByte es a with
    | some b => rfl
    | none =>
      simp only [Option.getD_none, Memory.byte_setBytes e.bytes m e.addr h, WbEntry.byteFor]
      by_cases h1 : e.addr ≤ a
      · by_cases h2 : a < e.addr + e.bytes.length
        · rw [if_pos ⟨h1, h2⟩, if_pos h1, List.getElem?_eq_getElem (by omega)]
          simp [List.getD_eq_getElem?_getD, List.getElem?_eq_getElem (show a - e.addr < e.bytes.length by omega)]
        · rw [if_neg (by omega), if_pos h1, List.getElem?_eq_none (by omega)]
          rfl
      · rw [if_neg (by omega), if_neg h1]
        rfl

/-! ### The state's memory -/

theorem wf_reset : Memory.wf State.reset.mem := by decide

theorem wf_drain (s : State) (h : Memory.wf s.mem) : Memory.wf s.drain.mem := wf_drained s.wb s.mem h

theorem wf_barrier (s : State) (k : BarrierKind) (h : Memory.wf s.mem) : Memory.wf (s.barrier k).mem := by
  cases k
  · exact h
  · exact wf_drained s.wb s.mem h
  · exact wf_drained s.wb s.mem h

theorem wf_hostWrite (addr : Addr) (bytes : List Byte) (s : State) (h : Memory.wf s.mem) :
    Memory.wf (hostWrite addr bytes s).mem := by
  unfold hostWrite
  split
  · exact Memory.wf_setBytes bytes s.mem addr.toNat h
  · exact h

/-! ### Byte order (20_memory.md R104) -/

@[simp] theorem length_put16 (v : Nat) : (put16 v).length = 2 := rfl
@[simp] theorem length_put32 (v : Nat) : (put32 v).length = 4 := rfl
@[simp] theorem length_put64 (v : Nat) : (put64 v).length = 8 := rfl
@[simp] theorem length_txDesc (a l : Nat) (c : Byte) : (txDesc a l c).length = 16 := rfl
@[simp] theorem length_rxDesc (a : Nat) : (rxDesc a).length = 16 := rfl

/-- A 16-bit value is read back from its bytes. -/
theorem le16_put16 (v : Nat) (bs : List Byte) : le16 (put16 v ++ bs) 0 = v % 2 ^ 16 := by
  simp only [le16, put16, byteAt, List.cons_append, List.nil_append, List.getD_cons_zero, List.getD_cons_succ,
    BitVec.toNat_ofNat]
  omega

/-- A 64-bit value is read back from its bytes. -/
theorem le64_put64 (v : Nat) (bs : List Byte) : le64 (put64 v ++ bs) 0 = v % 2 ^ 64 := by
  simp only [le64, le32, le16, put64, put32, put16, byteAt, List.cons_append, List.nil_append, List.getD_cons_zero,
    List.getD_cons_succ, BitVec.toNat_ofNat, Nat.zero_add, Nat.reduceAdd]
  omega

end Sys2Proof.Machine
end

