-- ==== Sys2Proof/Laws/State.lean ====
section
/-! SUPPORT. What each update of the state does to each field, and that it keeps the layout: one small lemma each, so that no proof
unfolds a record update. -/

namespace Sys2Proof.Machine

/-! ### Updates of one kind of field -/

/-! #### emit -/

@[simp] theorem State.emit_params (s : State) (e : Event) : (s.emit e).params = s.params := rfl
@[simp] theorem State.emit_rstate (s : State) (e : Event) : (s.emit e).rstate = s.rstate := rfl
@[simp] theorem State.emit_lstate (s : State) (e : Event) : (s.emit e).lstate = s.lstate := rfl
@[simp] theorem State.emit_gen (s : State) (e : Event) : (s.emit e).gen = s.gen := rfl
@[simp] theorem State.emit_nq (s : State) (e : Event) : (s.emit e).nq = s.nq := rfl
@[simp] theorem State.emit_logn (s : State) (e : Event) : (s.emit e).logn = s.logn := rfl
@[simp] theorem State.emit_faultReason (s : State) (e : Event) : (s.emit e).faultReason = s.faultReason := rfl
@[simp] theorem State.emit_resetPolls (s : State) (e : Event) : (s.emit e).resetPolls = s.resetPolls := rfl
@[simp] theorem State.emit_regionBase (s : State) (e : Event) : (s.emit e).regionBase = s.regionBase := rfl
@[simp] theorem State.emit_regionSize (s : State) (e : Event) : (s.emit e).regionSize = s.regionSize := rfl
@[simp] theorem State.emit_queues (s : State) (e : Event) : (s.emit e).queues = s.queues := rfl
@[simp] theorem State.emit_events (s : State) (e : Event) : (s.emit e).events = s.events ++ [e] := rfl
@[simp] theorem State.emit_wb (s : State) (e : Event) : (s.emit e).wb = s.wb := rfl
@[simp] theorem State.emit_mem (s : State) (e : Event) : (s.emit e).mem = s.mem := rfl
@[simp] theorem State.emit_dev (s : State) (e : Event) : (s.emit e).dev = s.dev := rfl
@[simp] theorem State.emit_response (s : State) (e : Event) : (s.emit e).response = s.response := rfl
@[simp] theorem State.emit_inputs (s : State) (e : Event) : (s.emit e).inputs = s.inputs := rfl
@[simp] theorem State.emit_draws (s : State) (e : Event) : (s.emit e).draws = s.draws := rfl
@[simp] theorem State.queue_emit (s : State) (e : Event) (p : Nat) : (s.emit e).queue p = s.queue p := rfl
@[simp] theorem State.n_emit (s : State) (e : Event) : (s.emit e).n = s.n := rfl
@[simp] theorem State.slots_emit (s : State) (e : Event) : (s.emit e).slots = s.slots := rfl
@[simp] theorem State.poolSize_emit (s : State) (e : Event) (r' : Ring) :
    (s.emit e).poolSize r' = s.poolSize r' := rfl
@[simp] theorem State.qBase_emit (s : State) (e : Event) (p : Nat) : (s.emit e).qBase p = s.qBase p := rfl
@[simp] theorem State.ringBase_emit (s : State) (e : Event) (r' : Ring) (p : Nat) :
    (s.emit e).ringBase r' p = s.ringBase r' p := rfl
@[simp] theorem State.descAddr_emit (s : State) (e : Event) (r' : Ring) (p i : Nat) :
    (s.emit e).descAddr r' p i = s.descAddr r' p i := rfl
@[simp] theorem State.bufAddr_emit (s : State) (e : Event) (r' : Ring) (p i : Nat) :
    (s.emit e).bufAddr r' p i = s.bufAddr r' p i := rfl

/-! #### respond -/

@[simp] theorem State.respond_params (s : State) (st : Status) (v : Word) : (s.respond st v).params = s.params := rfl
@[simp] theorem State.respond_rstate (s : State) (st : Status) (v : Word) : (s.respond st v).rstate = s.rstate := rfl
@[simp] theorem State.respond_lstate (s : State) (st : Status) (v : Word) : (s.respond st v).lstate = s.lstate := rfl
@[simp] theorem State.respond_gen (s : State) (st : Status) (v : Word) : (s.respond st v).gen = s.gen := rfl
@[simp] theorem State.respond_nq (s : State) (st : Status) (v : Word) : (s.respond st v).nq = s.nq := rfl
@[simp] theorem State.respond_logn (s : State) (st : Status) (v : Word) : (s.respond st v).logn = s.logn := rfl
@[simp] theorem State.respond_faultReason (s : State) (st : Status) (v : Word) :
    (s.respond st v).faultReason = s.faultReason := rfl
@[simp] theorem State.respond_resetPolls (s : State) (st : Status) (v : Word) :
    (s.respond st v).resetPolls = s.resetPolls := rfl
@[simp] theorem State.respond_regionBase (s : State) (st : Status) (v : Word) :
    (s.respond st v).regionBase = s.regionBase := rfl
@[simp] theorem State.respond_regionSize (s : State) (st : Status) (v : Word) :
    (s.respond st v).regionSize = s.regionSize := rfl
@[simp] theorem State.respond_queues (s : State) (st : Status) (v : Word) : (s.respond st v).queues = s.queues := rfl
@[simp] theorem State.respond_events (s : State) (st : Status) (v : Word) : (s.respond st v).events = s.events := rfl
@[simp] theorem State.respond_wb (s : State) (st : Status) (v : Word) : (s.respond st v).wb = s.wb := rfl
@[simp] theorem State.respond_mem (s : State) (st : Status) (v : Word) : (s.respond st v).mem = s.mem := rfl
@[simp] theorem State.respond_dev (s : State) (st : Status) (v : Word) : (s.respond st v).dev = s.dev := rfl
@[simp] theorem State.respond_response (s : State) (st : Status) (v : Word) :
    (s.respond st v).response = some ⟨st, v⟩ := rfl
@[simp] theorem State.respond_inputs (s : State) (st : Status) (v : Word) : (s.respond st v).inputs = s.inputs := rfl
@[simp] theorem State.respond_draws (s : State) (st : Status) (v : Word) : (s.respond st v).draws = s.draws := rfl
@[simp] theorem State.queue_respond (s : State) (st : Status) (v : Word) (p : Nat) :
    (s.respond st v).queue p = s.queue p := rfl
@[simp] theorem State.n_respond (s : State) (st : Status) (v : Word) : (s.respond st v).n = s.n := rfl
@[simp] theorem State.slots_respond (s : State) (st : Status) (v : Word) : (s.respond st v).slots = s.slots := rfl
@[simp] theorem State.poolSize_respond (s : State) (st : Status) (v : Word) (r' : Ring) :
    (s.respond st v).poolSize r' = s.poolSize r' := rfl
@[simp] theorem State.qBase_respond (s : State) (st : Status) (v : Word) (p : Nat) :
    (s.respond st v).qBase p = s.qBase p := rfl
@[simp] theorem State.ringBase_respond (s : State) (st : Status) (v : Word) (r' : Ring) (p : Nat) :
    (s.respond st v).ringBase r' p = s.ringBase r' p := rfl
@[simp] theorem State.descAddr_respond (s : State) (st : Status) (v : Word) (r' : Ring) (p i : Nat) :
    (s.respond st v).descAddr r' p i = s.descAddr r' p i := rfl
@[simp] theorem State.bufAddr_respond (s : State) (st : Status) (v : Word) (r' : Ring) (p i : Nat) :
    (s.respond st v).bufAddr r' p i = s.bufAddr r' p i := rfl

/-! #### setRState -/

@[simp] theorem State.setRState_params (s : State) (r : RState) : (s.setRState r).params = s.params := rfl
@[simp] theorem State.setRState_rstate (s : State) (r : RState) : (s.setRState r).rstate = r := rfl
@[simp] theorem State.setRState_lstate (s : State) (r : RState) : (s.setRState r).lstate = s.lstate := rfl
@[simp] theorem State.setRState_gen (s : State) (r : RState) : (s.setRState r).gen = s.gen + 1 := rfl
@[simp] theorem State.setRState_nq (s : State) (r : RState) : (s.setRState r).nq = s.nq := rfl
@[simp] theorem State.setRState_logn (s : State) (r : RState) : (s.setRState r).logn = s.logn := rfl
@[simp] theorem State.setRState_faultReason (s : State) (r : RState) :
    (s.setRState r).faultReason = s.faultReason := rfl
@[simp] theorem State.setRState_resetPolls (s : State) (r : RState) : (s.setRState r).resetPolls = s.resetPolls := rfl
@[simp] theorem State.setRState_regionBase (s : State) (r : RState) : (s.setRState r).regionBase = s.regionBase := rfl
@[simp] theorem State.setRState_regionSize (s : State) (r : RState) : (s.setRState r).regionSize = s.regionSize := rfl
@[simp] theorem State.setRState_queues (s : State) (r : RState) : (s.setRState r).queues = s.queues := rfl
@[simp] theorem State.setRState_events (s : State) (r : RState) : (s.setRState r).events = s.events := rfl
@[simp] theorem State.setRState_wb (s : State) (r : RState) : (s.setRState r).wb = s.wb := rfl
@[simp] theorem State.setRState_mem (s : State) (r : RState) : (s.setRState r).mem = s.mem := rfl
@[simp] theorem State.setRState_dev (s : State) (r : RState) : (s.setRState r).dev = s.dev := rfl
@[simp] theorem State.setRState_response (s : State) (r : RState) : (s.setRState r).response = s.response := rfl
@[simp] theorem State.setRState_inputs (s : State) (r : RState) : (s.setRState r).inputs = s.inputs := rfl
@[simp] theorem State.setRState_draws (s : State) (r : RState) : (s.setRState r).draws = s.draws := rfl
@[simp] theorem State.queue_setRState (s : State) (r : RState) (p : Nat) : (s.setRState r).queue p = s.queue p := rfl
@[simp] theorem State.n_setRState (s : State) (r : RState) : (s.setRState r).n = s.n := rfl
@[simp] theorem State.slots_setRState (s : State) (r : RState) : (s.setRState r).slots = s.slots := rfl
@[simp] theorem State.poolSize_setRState (s : State) (r : RState) (r' : Ring) :
    (s.setRState r).poolSize r' = s.poolSize r' := rfl
@[simp] theorem State.qBase_setRState (s : State) (r : RState) (p : Nat) : (s.setRState r).qBase p = s.qBase p := rfl
@[simp] theorem State.ringBase_setRState (s : State) (r : RState) (r' : Ring) (p : Nat) :
    (s.setRState r).ringBase r' p = s.ringBase r' p := rfl
@[simp] theorem State.descAddr_setRState (s : State) (r : RState) (r' : Ring) (p i : Nat) :
    (s.setRState r).descAddr r' p i = s.descAddr r' p i := rfl
@[simp] theorem State.bufAddr_setRState (s : State) (r : RState) (r' : Ring) (p i : Nat) :
    (s.setRState r).bufAddr r' p i = s.bufAddr r' p i := rfl

/-! #### setLState -/

@[simp] theorem State.setLState_params (s : State) (l : Byte) : (s.setLState l).params = s.params := rfl
@[simp] theorem State.setLState_rstate (s : State) (l : Byte) : (s.setLState l).rstate = s.rstate := rfl
@[simp] theorem State.setLState_lstate (s : State) (l : Byte) : (s.setLState l).lstate = l := rfl
@[simp] theorem State.setLState_gen (s : State) (l : Byte) : (s.setLState l).gen = s.gen := rfl
@[simp] theorem State.setLState_nq (s : State) (l : Byte) : (s.setLState l).nq = s.nq := rfl
@[simp] theorem State.setLState_logn (s : State) (l : Byte) : (s.setLState l).logn = s.logn := rfl
@[simp] theorem State.setLState_faultReason (s : State) (l : Byte) :
    (s.setLState l).faultReason = s.faultReason := rfl
@[simp] theorem State.setLState_resetPolls (s : State) (l : Byte) : (s.setLState l).resetPolls = s.resetPolls := rfl
@[simp] theorem State.setLState_regionBase (s : State) (l : Byte) : (s.setLState l).regionBase = s.regionBase := rfl
@[simp] theorem State.setLState_regionSize (s : State) (l : Byte) : (s.setLState l).regionSize = s.regionSize := rfl
@[simp] theorem State.setLState_queues (s : State) (l : Byte) : (s.setLState l).queues = s.queues := rfl
@[simp] theorem State.setLState_events (s : State) (l : Byte) : (s.setLState l).events = s.events := rfl
@[simp] theorem State.setLState_wb (s : State) (l : Byte) : (s.setLState l).wb = s.wb := rfl
@[simp] theorem State.setLState_mem (s : State) (l : Byte) : (s.setLState l).mem = s.mem := rfl
@[simp] theorem State.setLState_dev (s : State) (l : Byte) : (s.setLState l).dev = s.dev := rfl
@[simp] theorem State.setLState_response (s : State) (l : Byte) : (s.setLState l).response = s.response := rfl
@[simp] theorem State.setLState_inputs (s : State) (l : Byte) : (s.setLState l).inputs = s.inputs := rfl
@[simp] theorem State.setLState_draws (s : State) (l : Byte) : (s.setLState l).draws = s.draws := rfl
@[simp] theorem State.queue_setLState (s : State) (l : Byte) (p : Nat) : (s.setLState l).queue p = s.queue p := rfl
@[simp] theorem State.n_setLState (s : State) (l : Byte) : (s.setLState l).n = s.n := rfl
@[simp] theorem State.slots_setLState (s : State) (l : Byte) : (s.setLState l).slots = s.slots := rfl
@[simp] theorem State.poolSize_setLState (s : State) (l : Byte) (r' : Ring) :
    (s.setLState l).poolSize r' = s.poolSize r' := rfl
@[simp] theorem State.qBase_setLState (s : State) (l : Byte) (p : Nat) : (s.setLState l).qBase p = s.qBase p := rfl
@[simp] theorem State.ringBase_setLState (s : State) (l : Byte) (r' : Ring) (p : Nat) :
    (s.setLState l).ringBase r' p = s.ringBase r' p := rfl
@[simp] theorem State.descAddr_setLState (s : State) (l : Byte) (r' : Ring) (p i : Nat) :
    (s.setLState l).descAddr r' p i = s.descAddr r' p i := rfl
@[simp] theorem State.bufAddr_setLState (s : State) (l : Byte) (r' : Ring) (p i : Nat) :
    (s.setLState l).bufAddr r' p i = s.bufAddr r' p i := rfl

/-! #### setQueue -/

@[simp] theorem State.setQueue_params (s : State) (q : Nat) (x : Queue) : (s.setQueue q x).params = s.params := rfl
@[simp] theorem State.setQueue_rstate (s : State) (q : Nat) (x : Queue) : (s.setQueue q x).rstate = s.rstate := rfl
@[simp] theorem State.setQueue_lstate (s : State) (q : Nat) (x : Queue) : (s.setQueue q x).lstate = s.lstate := rfl
@[simp] theorem State.setQueue_gen (s : State) (q : Nat) (x : Queue) : (s.setQueue q x).gen = s.gen := rfl
@[simp] theorem State.setQueue_nq (s : State) (q : Nat) (x : Queue) : (s.setQueue q x).nq = s.nq := rfl
@[simp] theorem State.setQueue_logn (s : State) (q : Nat) (x : Queue) : (s.setQueue q x).logn = s.logn := rfl
@[simp] theorem State.setQueue_faultReason (s : State) (q : Nat) (x : Queue) :
    (s.setQueue q x).faultReason = s.faultReason := rfl
@[simp] theorem State.setQueue_resetPolls (s : State) (q : Nat) (x : Queue) :
    (s.setQueue q x).resetPolls = s.resetPolls := rfl
@[simp] theorem State.setQueue_regionBase (s : State) (q : Nat) (x : Queue) :
    (s.setQueue q x).regionBase = s.regionBase := rfl
@[simp] theorem State.setQueue_regionSize (s : State) (q : Nat) (x : Queue) :
    (s.setQueue q x).regionSize = s.regionSize := rfl
@[simp] theorem State.setQueue_queues (s : State) (q : Nat) (x : Queue) :
    (s.setQueue q x).queues = s.queues.set q x := rfl
@[simp] theorem State.setQueue_events (s : State) (q : Nat) (x : Queue) : (s.setQueue q x).events = s.events := rfl
@[simp] theorem State.setQueue_wb (s : State) (q : Nat) (x : Queue) : (s.setQueue q x).wb = s.wb := rfl
@[simp] theorem State.setQueue_mem (s : State) (q : Nat) (x : Queue) : (s.setQueue q x).mem = s.mem := rfl
@[simp] theorem State.setQueue_dev (s : State) (q : Nat) (x : Queue) : (s.setQueue q x).dev = s.dev := rfl
@[simp] theorem State.setQueue_response (s : State) (q : Nat) (x : Queue) :
    (s.setQueue q x).response = s.response := rfl
@[simp] theorem State.setQueue_inputs (s : State) (q : Nat) (x : Queue) : (s.setQueue q x).inputs = s.inputs := rfl
@[simp] theorem State.setQueue_draws (s : State) (q : Nat) (x : Queue) : (s.setQueue q x).draws = s.draws := rfl
@[simp] theorem State.n_setQueue (s : State) (q : Nat) (x : Queue) : (s.setQueue q x).n = s.n := rfl
@[simp] theorem State.slots_setQueue (s : State) (q : Nat) (x : Queue) : (s.setQueue q x).slots = s.slots := rfl
@[simp] theorem State.poolSize_setQueue (s : State) (q : Nat) (x : Queue) (r' : Ring) :
    (s.setQueue q x).poolSize r' = s.poolSize r' := rfl
@[simp] theorem State.qBase_setQueue (s : State) (q : Nat) (x : Queue) (p : Nat) :
    (s.setQueue q x).qBase p = s.qBase p := rfl
@[simp] theorem State.ringBase_setQueue (s : State) (q : Nat) (x : Queue) (r' : Ring) (p : Nat) :
    (s.setQueue q x).ringBase r' p = s.ringBase r' p := rfl
@[simp] theorem State.descAddr_setQueue (s : State) (q : Nat) (x : Queue) (r' : Ring) (p i : Nat) :
    (s.setQueue q x).descAddr r' p i = s.descAddr r' p i := rfl
@[simp] theorem State.bufAddr_setQueue (s : State) (q : Nat) (x : Queue) (r' : Ring) (p i : Nat) :
    (s.setQueue q x).bufAddr r' p i = s.bufAddr r' p i := rfl

/-! #### drain -/

@[simp] theorem State.drain_params (s : State) : (s.drain).params = s.params := rfl
@[simp] theorem State.drain_rstate (s : State) : (s.drain).rstate = s.rstate := rfl
@[simp] theorem State.drain_lstate (s : State) : (s.drain).lstate = s.lstate := rfl
@[simp] theorem State.drain_gen (s : State) : (s.drain).gen = s.gen := rfl
@[simp] theorem State.drain_nq (s : State) : (s.drain).nq = s.nq := rfl
@[simp] theorem State.drain_logn (s : State) : (s.drain).logn = s.logn := rfl
@[simp] theorem State.drain_faultReason (s : State) : (s.drain).faultReason = s.faultReason := rfl
@[simp] theorem State.drain_resetPolls (s : State) : (s.drain).resetPolls = s.resetPolls := rfl
@[simp] theorem State.drain_regionBase (s : State) : (s.drain).regionBase = s.regionBase := rfl
@[simp] theorem State.drain_regionSize (s : State) : (s.drain).regionSize = s.regionSize := rfl
@[simp] theorem State.drain_queues (s : State) : (s.drain).queues = s.queues := rfl
@[simp] theorem State.drain_events (s : State) : (s.drain).events = s.events := rfl
@[simp] theorem State.drain_wb (s : State) : (s.drain).wb = [] := rfl
@[simp] theorem State.drain_mem (s : State) : (s.drain).mem = drained s.mem s.wb := rfl
@[simp] theorem State.drain_dev (s : State) : (s.drain).dev = s.dev := rfl
@[simp] theorem State.drain_response (s : State) : (s.drain).response = s.response := rfl
@[simp] theorem State.drain_inputs (s : State) : (s.drain).inputs = s.inputs := rfl
@[simp] theorem State.drain_draws (s : State) : (s.drain).draws = s.draws := rfl
@[simp] theorem State.queue_drain (s : State) (p : Nat) : (s.drain).queue p = s.queue p := rfl
@[simp] theorem State.n_drain (s : State) : (s.drain).n = s.n := rfl
@[simp] theorem State.slots_drain (s : State) : (s.drain).slots = s.slots := rfl
@[simp] theorem State.poolSize_drain (s : State) (r' : Ring) : (s.drain).poolSize r' = s.poolSize r' := rfl
@[simp] theorem State.qBase_drain (s : State) (p : Nat) : (s.drain).qBase p = s.qBase p := rfl
@[simp] theorem State.ringBase_drain (s : State) (r' : Ring) (p : Nat) :
    (s.drain).ringBase r' p = s.ringBase r' p := rfl
@[simp] theorem State.descAddr_drain (s : State) (r' : Ring) (p i : Nat) :
    (s.drain).descAddr r' p i = s.descAddr r' p i := rfl
@[simp] theorem State.bufAddr_drain (s : State) (r' : Ring) (p i : Nat) :
    (s.drain).bufAddr r' p i = s.bufAddr r' p i := rfl

/-! #### barrier -/

@[simp] theorem State.barrier_params (s : State) (k : BarrierKind) :
    (s.barrier k).params = s.params := by cases k <;> rfl
@[simp] theorem State.barrier_rstate (s : State) (k : BarrierKind) :
    (s.barrier k).rstate = s.rstate := by cases k <;> rfl
@[simp] theorem State.barrier_lstate (s : State) (k : BarrierKind) :
    (s.barrier k).lstate = s.lstate := by cases k <;> rfl
@[simp] theorem State.barrier_gen (s : State) (k : BarrierKind) : (s.barrier k).gen = s.gen := by cases k <;> rfl
@[simp] theorem State.barrier_nq (s : State) (k : BarrierKind) : (s.barrier k).nq = s.nq := by cases k <;> rfl
@[simp] theorem State.barrier_logn (s : State) (k : BarrierKind) : (s.barrier k).logn = s.logn := by cases k <;> rfl
@[simp] theorem State.barrier_faultReason (s : State) (k : BarrierKind) :
    (s.barrier k).faultReason = s.faultReason := by cases k <;> rfl
@[simp] theorem State.barrier_resetPolls (s : State) (k : BarrierKind) :
    (s.barrier k).resetPolls = s.resetPolls := by cases k <;> rfl
@[simp] theorem State.barrier_regionBase (s : State) (k : BarrierKind) :
    (s.barrier k).regionBase = s.regionBase := by cases k <;> rfl
@[simp] theorem State.barrier_regionSize (s : State) (k : BarrierKind) :
    (s.barrier k).regionSize = s.regionSize := by cases k <;> rfl
@[simp] theorem State.barrier_queues (s : State) (k : BarrierKind) :
    (s.barrier k).queues = s.queues := by cases k <;> rfl
@[simp] theorem State.barrier_events (s : State) (k : BarrierKind) :
    (s.barrier k).events = s.events ++ [.barrier k] := by cases k <;> rfl
@[simp] theorem State.barrier_dev (s : State) (k : BarrierKind) : (s.barrier k).dev = s.dev := by cases k <;> rfl
@[simp] theorem State.barrier_response (s : State) (k : BarrierKind) :
    (s.barrier k).response = s.response := by cases k <;> rfl
@[simp] theorem State.barrier_inputs (s : State) (k : BarrierKind) :
    (s.barrier k).inputs = s.inputs := by cases k <;> rfl
@[simp] theorem State.barrier_draws (s : State) (k : BarrierKind) :
    (s.barrier k).draws = s.draws := by cases k <;> rfl
@[simp] theorem State.queue_barrier (s : State) (k : BarrierKind) (p : Nat) :
    (s.barrier k).queue p = s.queue p := by cases k <;> rfl
@[simp] theorem State.n_barrier (s : State) (k : BarrierKind) : (s.barrier k).n = s.n := by cases k <;> rfl
@[simp] theorem State.slots_barrier (s : State) (k : BarrierKind) :
    (s.barrier k).slots = s.slots := by cases k <;> rfl
@[simp] theorem State.poolSize_barrier (s : State) (k : BarrierKind) (r' : Ring) :
    (s.barrier k).poolSize r' = s.poolSize r' := by cases k <;> rfl
@[simp] theorem State.qBase_barrier (s : State) (k : BarrierKind) (p : Nat) :
    (s.barrier k).qBase p = s.qBase p := by cases k <;> rfl
@[simp] theorem State.ringBase_barrier (s : State) (k : BarrierKind) (r' : Ring) (p : Nat) :
    (s.barrier k).ringBase r' p = s.ringBase r' p := by cases k <;> rfl
@[simp] theorem State.descAddr_barrier (s : State) (k : BarrierKind) (r' : Ring) (p i : Nat) :
    (s.barrier k).descAddr r' p i = s.descAddr r' p i := by cases k <;> rfl
@[simp] theorem State.bufAddr_barrier (s : State) (k : BarrierKind) (r' : Ring) (p i : Nat) :
    (s.barrier k).bufAddr r' p i = s.bufAddr r' p i := by cases k <;> rfl

/-! #### regWrite -/

@[simp] theorem State.regWrite_params (s : State) (reg : DevReg) (v : Word) :
    (s.regWrite reg v).params = s.params := rfl
@[simp] theorem State.regWrite_rstate (s : State) (reg : DevReg) (v : Word) :
    (s.regWrite reg v).rstate = s.rstate := rfl
@[simp] theorem State.regWrite_lstate (s : State) (reg : DevReg) (v : Word) :
    (s.regWrite reg v).lstate = s.lstate := rfl
@[simp] theorem State.regWrite_gen (s : State) (reg : DevReg) (v : Word) : (s.regWrite reg v).gen = s.gen := rfl
@[simp] theorem State.regWrite_nq (s : State) (reg : DevReg) (v : Word) : (s.regWrite reg v).nq = s.nq := rfl
@[simp] theorem State.regWrite_logn (s : State) (reg : DevReg) (v : Word) : (s.regWrite reg v).logn = s.logn := rfl
@[simp] theorem State.regWrite_faultReason (s : State) (reg : DevReg) (v : Word) :
    (s.regWrite reg v).faultReason = s.faultReason := rfl
@[simp] theorem State.regWrite_resetPolls (s : State) (reg : DevReg) (v : Word) :
    (s.regWrite reg v).resetPolls = s.resetPolls := rfl
@[simp] theorem State.regWrite_regionBase (s : State) (reg : DevReg) (v : Word) :
    (s.regWrite reg v).regionBase = s.regionBase := rfl
@[simp] theorem State.regWrite_regionSize (s : State) (reg : DevReg) (v : Word) :
    (s.regWrite reg v).regionSize = s.regionSize := rfl
@[simp] theorem State.regWrite_queues (s : State) (reg : DevReg) (v : Word) :
    (s.regWrite reg v).queues = s.queues := rfl
@[simp] theorem State.regWrite_events (s : State) (reg : DevReg) (v : Word) :
    (s.regWrite reg v).events = s.events ++ [.regWrite (devOffset s.params.devRegs reg) v] := rfl
@[simp] theorem State.regWrite_wb (s : State) (reg : DevReg) (v : Word) : (s.regWrite reg v).wb = s.wb := rfl
@[simp] theorem State.regWrite_mem (s : State) (reg : DevReg) (v : Word) : (s.regWrite reg v).mem = s.mem := rfl
@[simp] theorem State.regWrite_dev (s : State) (reg : DevReg) (v : Word) :
    (s.regWrite reg v).dev = s.dev.write reg v := rfl
@[simp] theorem State.regWrite_response (s : State) (reg : DevReg) (v : Word) :
    (s.regWrite reg v).response = s.response := rfl
@[simp] theorem State.regWrite_inputs (s : State) (reg : DevReg) (v : Word) :
    (s.regWrite reg v).inputs = s.inputs := rfl
@[simp] theorem State.regWrite_draws (s : State) (reg : DevReg) (v : Word) : (s.regWrite reg v).draws = s.draws := rfl
@[simp] theorem State.queue_regWrite (s : State) (reg : DevReg) (v : Word) (p : Nat) :
    (s.regWrite reg v).queue p = s.queue p := rfl
@[simp] theorem State.n_regWrite (s : State) (reg : DevReg) (v : Word) : (s.regWrite reg v).n = s.n := rfl
@[simp] theorem State.slots_regWrite (s : State) (reg : DevReg) (v : Word) : (s.regWrite reg v).slots = s.slots := rfl
@[simp] theorem State.poolSize_regWrite (s : State) (reg : DevReg) (v : Word) (r' : Ring) :
    (s.regWrite reg v).poolSize r' = s.poolSize r' := rfl
@[simp] theorem State.qBase_regWrite (s : State) (reg : DevReg) (v : Word) (p : Nat) :
    (s.regWrite reg v).qBase p = s.qBase p := rfl
@[simp] theorem State.ringBase_regWrite (s : State) (reg : DevReg) (v : Word) (r' : Ring) (p : Nat) :
    (s.regWrite reg v).ringBase r' p = s.ringBase r' p := rfl
@[simp] theorem State.descAddr_regWrite (s : State) (reg : DevReg) (v : Word) (r' : Ring) (p i : Nat) :
    (s.regWrite reg v).descAddr r' p i = s.descAddr r' p i := rfl
@[simp] theorem State.bufAddr_regWrite (s : State) (reg : DevReg) (v : Word) (r' : Ring) (p i : Nat) :
    (s.regWrite reg v).bufAddr r' p i = s.bufAddr r' p i := rfl

/-! #### afterRegRead -/

@[simp] theorem State.afterRegRead_params (s : State) (reg : DevReg) : (s.afterRegRead reg).params = s.params := rfl
@[simp] theorem State.afterRegRead_rstate (s : State) (reg : DevReg) : (s.afterRegRead reg).rstate = s.rstate := rfl
@[simp] theorem State.afterRegRead_lstate (s : State) (reg : DevReg) : (s.afterRegRead reg).lstate = s.lstate := rfl
@[simp] theorem State.afterRegRead_gen (s : State) (reg : DevReg) : (s.afterRegRead reg).gen = s.gen := rfl
@[simp] theorem State.afterRegRead_nq (s : State) (reg : DevReg) : (s.afterRegRead reg).nq = s.nq := rfl
@[simp] theorem State.afterRegRead_logn (s : State) (reg : DevReg) : (s.afterRegRead reg).logn = s.logn := rfl
@[simp] theorem State.afterRegRead_faultReason (s : State) (reg : DevReg) :
    (s.afterRegRead reg).faultReason = s.faultReason := rfl
@[simp] theorem State.afterRegRead_resetPolls (s : State) (reg : DevReg) :
    (s.afterRegRead reg).resetPolls = s.resetPolls := rfl
@[simp] theorem State.afterRegRead_regionBase (s : State) (reg : DevReg) :
    (s.afterRegRead reg).regionBase = s.regionBase := rfl
@[simp] theorem State.afterRegRead_regionSize (s : State) (reg : DevReg) :
    (s.afterRegRead reg).regionSize = s.regionSize := rfl
@[simp] theorem State.afterRegRead_queues (s : State) (reg : DevReg) : (s.afterRegRead reg).queues = s.queues := rfl
@[simp] theorem State.afterRegRead_events (s : State) (reg : DevReg) :
    (s.afterRegRead reg).events = s.events ++ [.regRead (devOffset s.params.devRegs reg) (s.regValue reg)] := rfl
@[simp] theorem State.afterRegRead_wb (s : State) (reg : DevReg) : (s.afterRegRead reg).wb = s.wb := rfl
@[simp] theorem State.afterRegRead_mem (s : State) (reg : DevReg) : (s.afterRegRead reg).mem = s.mem := rfl
@[simp] theorem State.afterRegRead_dev (s : State) (reg : DevReg) : (s.afterRegRead reg).dev = s.dev := rfl
@[simp] theorem State.afterRegRead_response (s : State) (reg : DevReg) :
    (s.afterRegRead reg).response = s.response := rfl
@[simp] theorem State.afterRegRead_inputs (s : State) (reg : DevReg) : (s.afterRegRead reg).inputs = s.inputs := rfl
@[simp] theorem State.afterRegRead_draws (s : State) (reg : DevReg) : (s.afterRegRead reg).draws = s.draws + 1 := rfl
@[simp] theorem State.queue_afterRegRead (s : State) (reg : DevReg) (p : Nat) :
    (s.afterRegRead reg).queue p = s.queue p := rfl
@[simp] theorem State.n_afterRegRead (s : State) (reg : DevReg) : (s.afterRegRead reg).n = s.n := rfl
@[simp] theorem State.slots_afterRegRead (s : State) (reg : DevReg) : (s.afterRegRead reg).slots = s.slots := rfl
@[simp] theorem State.poolSize_afterRegRead (s : State) (reg : DevReg) (r' : Ring) :
    (s.afterRegRead reg).poolSize r' = s.poolSize r' := rfl
@[simp] theorem State.qBase_afterRegRead (s : State) (reg : DevReg) (p : Nat) :
    (s.afterRegRead reg).qBase p = s.qBase p := rfl
@[simp] theorem State.ringBase_afterRegRead (s : State) (reg : DevReg) (r' : Ring) (p : Nat) :
    (s.afterRegRead reg).ringBase r' p = s.ringBase r' p := rfl
@[simp] theorem State.descAddr_afterRegRead (s : State) (reg : DevReg) (r' : Ring) (p i : Nat) :
    (s.afterRegRead reg).descAddr r' p i = s.descAddr r' p i := rfl
@[simp] theorem State.bufAddr_afterRegRead (s : State) (reg : DevReg) (r' : Ring) (p i : Nat) :
    (s.afterRegRead reg).bufAddr r' p i = s.bufAddr r' p i := rfl

/-! #### withInputs -/

@[simp] theorem State.withInputs_params (s : State) (rest : List Input) : (s.withInputs rest).params = s.params := rfl
@[simp] theorem State.withInputs_rstate (s : State) (rest : List Input) : (s.withInputs rest).rstate = s.rstate := rfl
@[simp] theorem State.withInputs_lstate (s : State) (rest : List Input) : (s.withInputs rest).lstate = s.lstate := rfl
@[simp] theorem State.withInputs_gen (s : State) (rest : List Input) : (s.withInputs rest).gen = s.gen := rfl
@[simp] theorem State.withInputs_nq (s : State) (rest : List Input) : (s.withInputs rest).nq = s.nq := rfl
@[simp] theorem State.withInputs_logn (s : State) (rest : List Input) : (s.withInputs rest).logn = s.logn := rfl
@[simp] theorem State.withInputs_faultReason (s : State) (rest : List Input) :
    (s.withInputs rest).faultReason = s.faultReason := rfl
@[simp] theorem State.withInputs_resetPolls (s : State) (rest : List Input) :
    (s.withInputs rest).resetPolls = s.resetPolls := rfl
@[simp] theorem State.withInputs_regionBase (s : State) (rest : List Input) :
    (s.withInputs rest).regionBase = s.regionBase := rfl
@[simp] theorem State.withInputs_regionSize (s : State) (rest : List Input) :
    (s.withInputs rest).regionSize = s.regionSize := rfl
@[simp] theorem State.withInputs_queues (s : State) (rest : List Input) : (s.withInputs rest).queues = s.queues := rfl
@[simp] theorem State.withInputs_events (s : State) (rest : List Input) : (s.withInputs rest).events = s.events := rfl
@[simp] theorem State.withInputs_wb (s : State) (rest : List Input) : (s.withInputs rest).wb = s.wb := rfl
@[simp] theorem State.withInputs_mem (s : State) (rest : List Input) : (s.withInputs rest).mem = s.mem := rfl
@[simp] theorem State.withInputs_dev (s : State) (rest : List Input) : (s.withInputs rest).dev = s.dev := rfl
@[simp] theorem State.withInputs_response (s : State) (rest : List Input) :
    (s.withInputs rest).response = s.response := rfl
@[simp] theorem State.withInputs_inputs (s : State) (rest : List Input) : (s.withInputs rest).inputs = rest := rfl
@[simp] theorem State.withInputs_draws (s : State) (rest : List Input) : (s.withInputs rest).draws = s.draws := rfl
@[simp] theorem State.queue_withInputs (s : State) (rest : List Input) (p : Nat) :
    (s.withInputs rest).queue p = s.queue p := rfl
@[simp] theorem State.n_withInputs (s : State) (rest : List Input) : (s.withInputs rest).n = s.n := rfl
@[simp] theorem State.slots_withInputs (s : State) (rest : List Input) : (s.withInputs rest).slots = s.slots := rfl
@[simp] theorem State.poolSize_withInputs (s : State) (rest : List Input) (r' : Ring) :
    (s.withInputs rest).poolSize r' = s.poolSize r' := rfl
@[simp] theorem State.qBase_withInputs (s : State) (rest : List Input) (p : Nat) :
    (s.withInputs rest).qBase p = s.qBase p := rfl
@[simp] theorem State.ringBase_withInputs (s : State) (rest : List Input) (r' : Ring) (p : Nat) :
    (s.withInputs rest).ringBase r' p = s.ringBase r' p := rfl
@[simp] theorem State.descAddr_withInputs (s : State) (rest : List Input) (r' : Ring) (p i : Nat) :
    (s.withInputs rest).descAddr r' p i = s.descAddr r' p i := rfl
@[simp] theorem State.bufAddr_withInputs (s : State) (rest : List Input) (r' : Ring) (p i : Nat) :
    (s.withInputs rest).bufAddr r' p i = s.bufAddr r' p i := rfl

/-! #### setDevRing -/

@[simp] theorem State.setDevRing_params (s : State) (r : Ring) (q : Nat) (x : DevRing) :
    (s.setDevRing r q x).params = s.params := rfl
@[simp] theorem State.setDevRing_rstate (s : State) (r : Ring) (q : Nat) (x : DevRing) :
    (s.setDevRing r q x).rstate = s.rstate := rfl
@[simp] theorem State.setDevRing_lstate (s : State) (r : Ring) (q : Nat) (x : DevRing) :
    (s.setDevRing r q x).lstate = s.lstate := rfl
@[simp] theorem State.setDevRing_gen (s : State) (r : Ring) (q : Nat) (x : DevRing) :
    (s.setDevRing r q x).gen = s.gen := rfl
@[simp] theorem State.setDevRing_nq (s : State) (r : Ring) (q : Nat) (x : DevRing) :
    (s.setDevRing r q x).nq = s.nq := rfl
@[simp] theorem State.setDevRing_logn (s : State) (r : Ring) (q : Nat) (x : DevRing) :
    (s.setDevRing r q x).logn = s.logn := rfl
@[simp] theorem State.setDevRing_faultReason (s : State) (r : Ring) (q : Nat) (x : DevRing) :
    (s.setDevRing r q x).faultReason = s.faultReason := rfl
@[simp] theorem State.setDevRing_resetPolls (s : State) (r : Ring) (q : Nat) (x : DevRing) :
    (s.setDevRing r q x).resetPolls = s.resetPolls := rfl
@[simp] theorem State.setDevRing_regionBase (s : State) (r : Ring) (q : Nat) (x : DevRing) :
    (s.setDevRing r q x).regionBase = s.regionBase := rfl
@[simp] theorem State.setDevRing_regionSize (s : State) (r : Ring) (q : Nat) (x : DevRing) :
    (s.setDevRing r q x).regionSize = s.regionSize := rfl
@[simp] theorem State.setDevRing_queues (s : State) (r : Ring) (q : Nat) (x : DevRing) :
    (s.setDevRing r q x).queues = s.queues := rfl
@[simp] theorem State.setDevRing_events (s : State) (r : Ring) (q : Nat) (x : DevRing) :
    (s.setDevRing r q x).events = s.events := rfl
@[simp] theorem State.setDevRing_wb (s : State) (r : Ring) (q : Nat) (x : DevRing) :
    (s.setDevRing r q x).wb = s.wb := rfl
@[simp] theorem State.setDevRing_mem (s : State) (r : Ring) (q : Nat) (x : DevRing) :
    (s.setDevRing r q x).mem = s.mem := rfl
@[simp] theorem State.setDevRing_dev (s : State) (r : Ring) (q : Nat) (x : DevRing) :
    (s.setDevRing r q x).dev = s.dev.setRing r q x := rfl
@[simp] theorem State.setDevRing_response (s : State) (r : Ring) (q : Nat) (x : DevRing) :
    (s.setDevRing r q x).response = s.response := rfl
@[simp] theorem State.setDevRing_inputs (s : State) (r : Ring) (q : Nat) (x : DevRing) :
    (s.setDevRing r q x).inputs = s.inputs := rfl
@[simp] theorem State.setDevRing_draws (s : State) (r : Ring) (q : Nat) (x : DevRing) :
    (s.setDevRing r q x).draws = s.draws := rfl
@[simp] theorem State.queue_setDevRing (s : State) (r : Ring) (q : Nat) (x : DevRing) (p : Nat) :
    (s.setDevRing r q x).queue p = s.queue p := rfl
@[simp] theorem State.n_setDevRing (s : State) (r : Ring) (q : Nat) (x : DevRing) :
    (s.setDevRing r q x).n = s.n := rfl
@[simp] theorem State.slots_setDevRing (s : State) (r : Ring) (q : Nat) (x : DevRing) :
    (s.setDevRing r q x).slots = s.slots := rfl
@[simp] theorem State.poolSize_setDevRing (s : State) (r : Ring) (q : Nat) (x : DevRing) (r' : Ring) :
    (s.setDevRing r q x).poolSize r' = s.poolSize r' := rfl
@[simp] theorem State.qBase_setDevRing (s : State) (r : Ring) (q : Nat) (x : DevRing) (p : Nat) :
    (s.setDevRing r q x).qBase p = s.qBase p := rfl
@[simp] theorem State.ringBase_setDevRing (s : State) (r : Ring) (q : Nat) (x : DevRing) (r' : Ring) (p : Nat) :
    (s.setDevRing r q x).ringBase r' p = s.ringBase r' p := rfl
@[simp] theorem State.descAddr_setDevRing (s : State) (r : Ring) (q : Nat) (x : DevRing) (r' : Ring) (p i : Nat) :
    (s.setDevRing r q x).descAddr r' p i = s.descAddr r' p i := rfl
@[simp] theorem State.bufAddr_setDevRing (s : State) (r : Ring) (q : Nat) (x : DevRing) (r' : Ring) (p i : Nat) :
    (s.setDevRing r q x).bufAddr r' p i = s.bufAddr r' p i := rfl

/-! ### Updates built from them -/

/-! #### setTag -/

@[simp] theorem State.setTag_params (s : State) (r : Ring) (q h : Nat) (t : Tag) :
    (s.setTag r q h t).params = s.params := rfl
@[simp] theorem State.setTag_rstate (s : State) (r : Ring) (q h : Nat) (t : Tag) :
    (s.setTag r q h t).rstate = s.rstate := rfl
@[simp] theorem State.setTag_lstate (s : State) (r : Ring) (q h : Nat) (t : Tag) :
    (s.setTag r q h t).lstate = s.lstate := rfl
@[simp] theorem State.setTag_gen (s : State) (r : Ring) (q h : Nat) (t : Tag) : (s.setTag r q h t).gen = s.gen := rfl
@[simp] theorem State.setTag_nq (s : State) (r : Ring) (q h : Nat) (t : Tag) : (s.setTag r q h t).nq = s.nq := rfl
@[simp] theorem State.setTag_logn (s : State) (r : Ring) (q h : Nat) (t : Tag) :
    (s.setTag r q h t).logn = s.logn := rfl
@[simp] theorem State.setTag_faultReason (s : State) (r : Ring) (q h : Nat) (t : Tag) :
    (s.setTag r q h t).faultReason = s.faultReason := rfl
@[simp] theorem State.setTag_resetPolls (s : State) (r : Ring) (q h : Nat) (t : Tag) :
    (s.setTag r q h t).resetPolls = s.resetPolls := rfl
@[simp] theorem State.setTag_regionBase (s : State) (r : Ring) (q h : Nat) (t : Tag) :
    (s.setTag r q h t).regionBase = s.regionBase := rfl
@[simp] theorem State.setTag_regionSize (s : State) (r : Ring) (q h : Nat) (t : Tag) :
    (s.setTag r q h t).regionSize = s.regionSize := rfl
@[simp] theorem State.setTag_events (s : State) (r : Ring) (q h : Nat) (t : Tag) :
    (s.setTag r q h t).events = s.events := rfl
@[simp] theorem State.setTag_wb (s : State) (r : Ring) (q h : Nat) (t : Tag) : (s.setTag r q h t).wb = s.wb := rfl
@[simp] theorem State.setTag_mem (s : State) (r : Ring) (q h : Nat) (t : Tag) : (s.setTag r q h t).mem = s.mem := rfl
@[simp] theorem State.setTag_dev (s : State) (r : Ring) (q h : Nat) (t : Tag) : (s.setTag r q h t).dev = s.dev := rfl
@[simp] theorem State.setTag_response (s : State) (r : Ring) (q h : Nat) (t : Tag) :
    (s.setTag r q h t).response = s.response := rfl
@[simp] theorem State.setTag_inputs (s : State) (r : Ring) (q h : Nat) (t : Tag) :
    (s.setTag r q h t).inputs = s.inputs := rfl
@[simp] theorem State.setTag_draws (s : State) (r : Ring) (q h : Nat) (t : Tag) :
    (s.setTag r q h t).draws = s.draws := rfl
@[simp] theorem State.n_setTag (s : State) (r : Ring) (q h : Nat) (t : Tag) : (s.setTag r q h t).n = s.n := rfl
@[simp] theorem State.slots_setTag (s : State) (r : Ring) (q h : Nat) (t : Tag) :
    (s.setTag r q h t).slots = s.slots := rfl
@[simp] theorem State.poolSize_setTag (s : State) (r : Ring) (q h : Nat) (t : Tag) (r' : Ring) :
    (s.setTag r q h t).poolSize r' = s.poolSize r' := rfl
@[simp] theorem State.qBase_setTag (s : State) (r : Ring) (q h : Nat) (t : Tag) (p : Nat) :
    (s.setTag r q h t).qBase p = s.qBase p := rfl
@[simp] theorem State.ringBase_setTag (s : State) (r : Ring) (q h : Nat) (t : Tag) (r' : Ring) (p : Nat) :
    (s.setTag r q h t).ringBase r' p = s.ringBase r' p := rfl
@[simp] theorem State.descAddr_setTag (s : State) (r : Ring) (q h : Nat) (t : Tag) (r' : Ring) (p i : Nat) :
    (s.setTag r q h t).descAddr r' p i = s.descAddr r' p i := rfl
@[simp] theorem State.bufAddr_setTag (s : State) (r : Ring) (q h : Nat) (t : Tag) (r' : Ring) (p i : Nat) :
    (s.setTag r q h t).bufAddr r' p i = s.bufAddr r' p i := rfl

/-! #### countDrop -/

@[simp] theorem State.countDrop_params (s : State) (q : Nat) : (s.countDrop q).params = s.params := rfl
@[simp] theorem State.countDrop_rstate (s : State) (q : Nat) : (s.countDrop q).rstate = s.rstate := rfl
@[simp] theorem State.countDrop_lstate (s : State) (q : Nat) : (s.countDrop q).lstate = s.lstate := rfl
@[simp] theorem State.countDrop_gen (s : State) (q : Nat) : (s.countDrop q).gen = s.gen := rfl
@[simp] theorem State.countDrop_nq (s : State) (q : Nat) : (s.countDrop q).nq = s.nq := rfl
@[simp] theorem State.countDrop_logn (s : State) (q : Nat) : (s.countDrop q).logn = s.logn := rfl
@[simp] theorem State.countDrop_faultReason (s : State) (q : Nat) : (s.countDrop q).faultReason = s.faultReason := rfl
@[simp] theorem State.countDrop_resetPolls (s : State) (q : Nat) : (s.countDrop q).resetPolls = s.resetPolls := rfl
@[simp] theorem State.countDrop_regionBase (s : State) (q : Nat) : (s.countDrop q).regionBase = s.regionBase := rfl
@[simp] theorem State.countDrop_regionSize (s : State) (q : Nat) : (s.countDrop q).regionSize = s.regionSize := rfl
@[simp] theorem State.countDrop_events (s : State) (q : Nat) : (s.countDrop q).events = s.events := rfl
@[simp] theorem State.countDrop_wb (s : State) (q : Nat) : (s.countDrop q).wb = s.wb := rfl
@[simp] theorem State.countDrop_mem (s : State) (q : Nat) : (s.countDrop q).mem = s.mem := rfl
@[simp] theorem State.countDrop_dev (s : State) (q : Nat) : (s.countDrop q).dev = s.dev := rfl
@[simp] theorem State.countDrop_response (s : State) (q : Nat) : (s.countDrop q).response = s.response := rfl
@[simp] theorem State.countDrop_inputs (s : State) (q : Nat) : (s.countDrop q).inputs = s.inputs := rfl
@[simp] theorem State.countDrop_draws (s : State) (q : Nat) : (s.countDrop q).draws = s.draws := rfl
@[simp] theorem State.n_countDrop (s : State) (q : Nat) : (s.countDrop q).n = s.n := rfl
@[simp] theorem State.slots_countDrop (s : State) (q : Nat) : (s.countDrop q).slots = s.slots := rfl
@[simp] theorem State.poolSize_countDrop (s : State) (q : Nat) (r' : Ring) :
    (s.countDrop q).poolSize r' = s.poolSize r' := rfl
@[simp] theorem State.qBase_countDrop (s : State) (q : Nat) (p : Nat) : (s.countDrop q).qBase p = s.qBase p := rfl
@[simp] theorem State.ringBase_countDrop (s : State) (q : Nat) (r' : Ring) (p : Nat) :
    (s.countDrop q).ringBase r' p = s.ringBase r' p := rfl
@[simp] theorem State.descAddr_countDrop (s : State) (q : Nat) (r' : Ring) (p i : Nat) :
    (s.countDrop q).descAddr r' p i = s.descAddr r' p i := rfl
@[simp] theorem State.bufAddr_countDrop (s : State) (q : Nat) (r' : Ring) (p i : Nat) :
    (s.countDrop q).bufAddr r' p i = s.bufAddr r' p i := rfl

/-! #### setDiscard -/

@[simp] theorem State.setDiscard_params (s : State) (q : Nat) (b : Bool) : (s.setDiscard q b).params = s.params := rfl
@[simp] theorem State.setDiscard_rstate (s : State) (q : Nat) (b : Bool) : (s.setDiscard q b).rstate = s.rstate := rfl
@[simp] theorem State.setDiscard_lstate (s : State) (q : Nat) (b : Bool) : (s.setDiscard q b).lstate = s.lstate := rfl
@[simp] theorem State.setDiscard_gen (s : State) (q : Nat) (b : Bool) : (s.setDiscard q b).gen = s.gen := rfl
@[simp] theorem State.setDiscard_nq (s : State) (q : Nat) (b : Bool) : (s.setDiscard q b).nq = s.nq := rfl
@[simp] theorem State.setDiscard_logn (s : State) (q : Nat) (b : Bool) : (s.setDiscard q b).logn = s.logn := rfl
@[simp] theorem State.setDiscard_faultReason (s : State) (q : Nat) (b : Bool) :
    (s.setDiscard q b).faultReason = s.faultReason := rfl
@[simp] theorem State.setDiscard_resetPolls (s : State) (q : Nat) (b : Bool) :
    (s.setDiscard q b).resetPolls = s.resetPolls := rfl
@[simp] theorem State.setDiscard_regionBase (s : State) (q : Nat) (b : Bool) :
    (s.setDiscard q b).regionBase = s.regionBase := rfl
@[simp] theorem State.setDiscard_regionSize (s : State) (q : Nat) (b : Bool) :
    (s.setDiscard q b).regionSize = s.regionSize := rfl
@[simp] theorem State.setDiscard_events (s : State) (q : Nat) (b : Bool) : (s.setDiscard q b).events = s.events := rfl
@[simp] theorem State.setDiscard_wb (s : State) (q : Nat) (b : Bool) : (s.setDiscard q b).wb = s.wb := rfl
@[simp] theorem State.setDiscard_mem (s : State) (q : Nat) (b : Bool) : (s.setDiscard q b).mem = s.mem := rfl
@[simp] theorem State.setDiscard_dev (s : State) (q : Nat) (b : Bool) : (s.setDiscard q b).dev = s.dev := rfl
@[simp] theorem State.setDiscard_response (s : State) (q : Nat) (b : Bool) :
    (s.setDiscard q b).response = s.response := rfl
@[simp] theorem State.setDiscard_inputs (s : State) (q : Nat) (b : Bool) : (s.setDiscard q b).inputs = s.inputs := rfl
@[simp] theorem State.setDiscard_draws (s : State) (q : Nat) (b : Bool) : (s.setDiscard q b).draws = s.draws := rfl
@[simp] theorem State.n_setDiscard (s : State) (q : Nat) (b : Bool) : (s.setDiscard q b).n = s.n := rfl
@[simp] theorem State.slots_setDiscard (s : State) (q : Nat) (b : Bool) : (s.setDiscard q b).slots = s.slots := rfl
@[simp] theorem State.poolSize_setDiscard (s : State) (q : Nat) (b : Bool) (r' : Ring) :
    (s.setDiscard q b).poolSize r' = s.poolSize r' := rfl
@[simp] theorem State.qBase_setDiscard (s : State) (q : Nat) (b : Bool) (p : Nat) :
    (s.setDiscard q b).qBase p = s.qBase p := rfl
@[simp] theorem State.ringBase_setDiscard (s : State) (q : Nat) (b : Bool) (r' : Ring) (p : Nat) :
    (s.setDiscard q b).ringBase r' p = s.ringBase r' p := rfl
@[simp] theorem State.descAddr_setDiscard (s : State) (q : Nat) (b : Bool) (r' : Ring) (p i : Nat) :
    (s.setDiscard q b).descAddr r' p i = s.descAddr r' p i := rfl
@[simp] theorem State.bufAddr_setDiscard (s : State) (q : Nat) (b : Bool) (r' : Ring) (p i : Nat) :
    (s.setDiscard q b).bufAddr r' p i = s.bufAddr r' p i := rfl

/-! #### closeWindow -/

@[simp] theorem State.closeWindow_params (s : State) (q : Nat) : (s.closeWindow q).params = s.params := rfl
@[simp] theorem State.closeWindow_rstate (s : State) (q : Nat) : (s.closeWindow q).rstate = s.rstate := rfl
@[simp] theorem State.closeWindow_lstate (s : State) (q : Nat) : (s.closeWindow q).lstate = s.lstate := rfl
@[simp] theorem State.closeWindow_gen (s : State) (q : Nat) : (s.closeWindow q).gen = s.gen := rfl
@[simp] theorem State.closeWindow_nq (s : State) (q : Nat) : (s.closeWindow q).nq = s.nq := rfl
@[simp] theorem State.closeWindow_logn (s : State) (q : Nat) : (s.closeWindow q).logn = s.logn := rfl
@[simp] theorem State.closeWindow_faultReason (s : State) (q : Nat) :
    (s.closeWindow q).faultReason = s.faultReason := rfl
@[simp] theorem State.closeWindow_resetPolls (s : State) (q : Nat) :
    (s.closeWindow q).resetPolls = s.resetPolls := rfl
@[simp] theorem State.closeWindow_regionBase (s : State) (q : Nat) :
    (s.closeWindow q).regionBase = s.regionBase := rfl
@[simp] theorem State.closeWindow_regionSize (s : State) (q : Nat) :
    (s.closeWindow q).regionSize = s.regionSize := rfl
@[simp] theorem State.closeWindow_events (s : State) (q : Nat) : (s.closeWindow q).events = s.events := rfl
@[simp] theorem State.closeWindow_wb (s : State) (q : Nat) : (s.closeWindow q).wb = s.wb := rfl
@[simp] theorem State.closeWindow_mem (s : State) (q : Nat) : (s.closeWindow q).mem = s.mem := rfl
@[simp] theorem State.closeWindow_dev (s : State) (q : Nat) : (s.closeWindow q).dev = s.dev := rfl
@[simp] theorem State.closeWindow_response (s : State) (q : Nat) : (s.closeWindow q).response = s.response := rfl
@[simp] theorem State.closeWindow_inputs (s : State) (q : Nat) : (s.closeWindow q).inputs = s.inputs := rfl
@[simp] theorem State.closeWindow_draws (s : State) (q : Nat) : (s.closeWindow q).draws = s.draws := rfl
@[simp] theorem State.n_closeWindow (s : State) (q : Nat) : (s.closeWindow q).n = s.n := rfl
@[simp] theorem State.slots_closeWindow (s : State) (q : Nat) : (s.closeWindow q).slots = s.slots := rfl
@[simp] theorem State.poolSize_closeWindow (s : State) (q : Nat) (r' : Ring) :
    (s.closeWindow q).poolSize r' = s.poolSize r' := rfl
@[simp] theorem State.qBase_closeWindow (s : State) (q : Nat) (p : Nat) : (s.closeWindow q).qBase p = s.qBase p := rfl
@[simp] theorem State.ringBase_closeWindow (s : State) (q : Nat) (r' : Ring) (p : Nat) :
    (s.closeWindow q).ringBase r' p = s.ringBase r' p := rfl
@[simp] theorem State.descAddr_closeWindow (s : State) (q : Nat) (r' : Ring) (p i : Nat) :
    (s.closeWindow q).descAddr r' p i = s.descAddr r' p i := rfl
@[simp] theorem State.bufAddr_closeWindow (s : State) (q : Nat) (r' : Ring) (p i : Nat) :
    (s.closeWindow q).bufAddr r' p i = s.bufAddr r' p i := rfl

/-! #### accumulate -/

@[simp] theorem State.accumulate_params (s : State) (q : Nat) (c : Half) : (s.accumulate q c).params = s.params := rfl
@[simp] theorem State.accumulate_rstate (s : State) (q : Nat) (c : Half) : (s.accumulate q c).rstate = s.rstate := rfl
@[simp] theorem State.accumulate_lstate (s : State) (q : Nat) (c : Half) : (s.accumulate q c).lstate = s.lstate := rfl
@[simp] theorem State.accumulate_gen (s : State) (q : Nat) (c : Half) : (s.accumulate q c).gen = s.gen := rfl
@[simp] theorem State.accumulate_nq (s : State) (q : Nat) (c : Half) : (s.accumulate q c).nq = s.nq := rfl
@[simp] theorem State.accumulate_logn (s : State) (q : Nat) (c : Half) : (s.accumulate q c).logn = s.logn := rfl
@[simp] theorem State.accumulate_faultReason (s : State) (q : Nat) (c : Half) :
    (s.accumulate q c).faultReason = s.faultReason := rfl
@[simp] theorem State.accumulate_resetPolls (s : State) (q : Nat) (c : Half) :
    (s.accumulate q c).resetPolls = s.resetPolls := rfl
@[simp] theorem State.accumulate_regionBase (s : State) (q : Nat) (c : Half) :
    (s.accumulate q c).regionBase = s.regionBase := rfl
@[simp] theorem State.accumulate_regionSize (s : State) (q : Nat) (c : Half) :
    (s.accumulate q c).regionSize = s.regionSize := rfl
@[simp] theorem State.accumulate_events (s : State) (q : Nat) (c : Half) : (s.accumulate q c).events = s.events := rfl
@[simp] theorem State.accumulate_wb (s : State) (q : Nat) (c : Half) : (s.accumulate q c).wb = s.wb := rfl
@[simp] theorem State.accumulate_mem (s : State) (q : Nat) (c : Half) : (s.accumulate q c).mem = s.mem := rfl
@[simp] theorem State.accumulate_dev (s : State) (q : Nat) (c : Half) : (s.accumulate q c).dev = s.dev := rfl
@[simp] theorem State.accumulate_response (s : State) (q : Nat) (c : Half) :
    (s.accumulate q c).response = s.response := rfl
@[simp] theorem State.accumulate_inputs (s : State) (q : Nat) (c : Half) : (s.accumulate q c).inputs = s.inputs := rfl
@[simp] theorem State.accumulate_draws (s : State) (q : Nat) (c : Half) : (s.accumulate q c).draws = s.draws := rfl
@[simp] theorem State.n_accumulate (s : State) (q : Nat) (c : Half) : (s.accumulate q c).n = s.n := rfl
@[simp] theorem State.slots_accumulate (s : State) (q : Nat) (c : Half) : (s.accumulate q c).slots = s.slots := rfl
@[simp] theorem State.poolSize_accumulate (s : State) (q : Nat) (c : Half) (r' : Ring) :
    (s.accumulate q c).poolSize r' = s.poolSize r' := rfl
@[simp] theorem State.qBase_accumulate (s : State) (q : Nat) (c : Half) (p : Nat) :
    (s.accumulate q c).qBase p = s.qBase p := rfl
@[simp] theorem State.ringBase_accumulate (s : State) (q : Nat) (c : Half) (r' : Ring) (p : Nat) :
    (s.accumulate q c).ringBase r' p = s.ringBase r' p := rfl
@[simp] theorem State.descAddr_accumulate (s : State) (q : Nat) (c : Half) (r' : Ring) (p i : Nat) :
    (s.accumulate q c).descAddr r' p i = s.descAddr r' p i := rfl
@[simp] theorem State.bufAddr_accumulate (s : State) (q : Nat) (c : Half) (r' : Ring) (p i : Nat) :
    (s.accumulate q c).bufAddr r' p i = s.bufAddr r' p i := rfl

/-! #### openWindow -/

@[simp] theorem State.openWindow_params (s : State) (q : Nat) :
    (s.openWindow q).params = s.params := by unfold State.openWindow; dsimp only; split <;> rfl
@[simp] theorem State.openWindow_rstate (s : State) (q : Nat) :
    (s.openWindow q).rstate = s.rstate := by unfold State.openWindow; dsimp only; split <;> rfl
@[simp] theorem State.openWindow_lstate (s : State) (q : Nat) :
    (s.openWindow q).lstate = s.lstate := by unfold State.openWindow; dsimp only; split <;> rfl
@[simp] theorem State.openWindow_gen (s : State) (q : Nat) :
    (s.openWindow q).gen = s.gen := by unfold State.openWindow; dsimp only; split <;> rfl
@[simp] theorem State.openWindow_nq (s : State) (q : Nat) :
    (s.openWindow q).nq = s.nq := by unfold State.openWindow; dsimp only; split <;> rfl
@[simp] theorem State.openWindow_logn (s : State) (q : Nat) :
    (s.openWindow q).logn = s.logn := by unfold State.openWindow; dsimp only; split <;> rfl
@[simp] theorem State.openWindow_faultReason (s : State) (q : Nat) :
    (s.openWindow q).faultReason = s.faultReason := by unfold State.openWindow; dsimp only; split <;> rfl
@[simp] theorem State.openWindow_resetPolls (s : State) (q : Nat) :
    (s.openWindow q).resetPolls = s.resetPolls := by unfold State.openWindow; dsimp only; split <;> rfl
@[simp] theorem State.openWindow_regionBase (s : State) (q : Nat) :
    (s.openWindow q).regionBase = s.regionBase := by unfold State.openWindow; dsimp only; split <;> rfl
@[simp] theorem State.openWindow_regionSize (s : State) (q : Nat) :
    (s.openWindow q).regionSize = s.regionSize := by unfold State.openWindow; dsimp only; split <;> rfl
@[simp] theorem State.openWindow_events (s : State) (q : Nat) :
    (s.openWindow q).events = s.events := by unfold State.openWindow; dsimp only; split <;> rfl
@[simp] theorem State.openWindow_wb (s : State) (q : Nat) :
    (s.openWindow q).wb = s.wb := by unfold State.openWindow; dsimp only; split <;> rfl
@[simp] theorem State.openWindow_mem (s : State) (q : Nat) :
    (s.openWindow q).mem = s.mem := by unfold State.openWindow; dsimp only; split <;> rfl
@[simp] theorem State.openWindow_dev (s : State) (q : Nat) :
    (s.openWindow q).dev = s.dev := by unfold State.openWindow; dsimp only; split <;> rfl
@[simp] theorem State.openWindow_response (s : State) (q : Nat) :
    (s.openWindow q).response = s.response := by unfold State.openWindow; dsimp only; split <;> rfl
@[simp] theorem State.openWindow_inputs (s : State) (q : Nat) :
    (s.openWindow q).inputs = s.inputs := by unfold State.openWindow; dsimp only; split <;> rfl
@[simp] theorem State.openWindow_draws (s : State) (q : Nat) :
    (s.openWindow q).draws = s.draws := by unfold State.openWindow; dsimp only; split <;> rfl
@[simp] theorem State.n_openWindow (s : State) (q : Nat) :
    (s.openWindow q).n = s.n := by unfold State.openWindow; dsimp only; split <;> rfl
@[simp] theorem State.slots_openWindow (s : State) (q : Nat) :
    (s.openWindow q).slots = s.slots := by unfold State.openWindow; dsimp only; split <;> rfl
@[simp] theorem State.poolSize_openWindow (s : State) (q : Nat) (r' : Ring) :
    (s.openWindow q).poolSize r' = s.poolSize r' := by unfold State.openWindow; dsimp only; split <;> rfl
@[simp] theorem State.qBase_openWindow (s : State) (q : Nat) (p : Nat) :
    (s.openWindow q).qBase p = s.qBase p := by unfold State.openWindow; dsimp only; split <;> rfl
@[simp] theorem State.ringBase_openWindow (s : State) (q : Nat) (r' : Ring) (p : Nat) :
    (s.openWindow q).ringBase r' p = s.ringBase r' p := by unfold State.openWindow; dsimp only; split <;> rfl
@[simp] theorem State.descAddr_openWindow (s : State) (q : Nat) (r' : Ring) (p i : Nat) :
    (s.openWindow q).descAddr r' p i = s.descAddr r' p i := by unfold State.openWindow; dsimp only; split <;> rfl
@[simp] theorem State.bufAddr_openWindow (s : State) (q : Nat) (r' : Ring) (p i : Nat) :
    (s.openWindow q).bufAddr r' p i = s.bufAddr r' p i := by unfold State.openWindow; dsimp only; split <;> rfl

/-! #### advanceHead -/

@[simp] theorem State.advanceHead_params (s : State) (r : Ring) (q : Nat) :
    (s.advanceHead r q).params = s.params := rfl
@[simp] theorem State.advanceHead_rstate (s : State) (r : Ring) (q : Nat) :
    (s.advanceHead r q).rstate = s.rstate := rfl
@[simp] theorem State.advanceHead_lstate (s : State) (r : Ring) (q : Nat) :
    (s.advanceHead r q).lstate = s.lstate := rfl
@[simp] theorem State.advanceHead_gen (s : State) (r : Ring) (q : Nat) : (s.advanceHead r q).gen = s.gen := rfl
@[simp] theorem State.advanceHead_nq (s : State) (r : Ring) (q : Nat) : (s.advanceHead r q).nq = s.nq := rfl
@[simp] theorem State.advanceHead_logn (s : State) (r : Ring) (q : Nat) : (s.advanceHead r q).logn = s.logn := rfl
@[simp] theorem State.advanceHead_faultReason (s : State) (r : Ring) (q : Nat) :
    (s.advanceHead r q).faultReason = s.faultReason := rfl
@[simp] theorem State.advanceHead_resetPolls (s : State) (r : Ring) (q : Nat) :
    (s.advanceHead r q).resetPolls = s.resetPolls := rfl
@[simp] theorem State.advanceHead_regionBase (s : State) (r : Ring) (q : Nat) :
    (s.advanceHead r q).regionBase = s.regionBase := rfl
@[simp] theorem State.advanceHead_regionSize (s : State) (r : Ring) (q : Nat) :
    (s.advanceHead r q).regionSize = s.regionSize := rfl
@[simp] theorem State.advanceHead_queues (s : State) (r : Ring) (q : Nat) :
    (s.advanceHead r q).queues = s.queues := rfl
@[simp] theorem State.advanceHead_events (s : State) (r : Ring) (q : Nat) :
    (s.advanceHead r q).events = s.events := rfl
@[simp] theorem State.advanceHead_wb (s : State) (r : Ring) (q : Nat) : (s.advanceHead r q).wb = s.wb := rfl
@[simp] theorem State.advanceHead_mem (s : State) (r : Ring) (q : Nat) : (s.advanceHead r q).mem = s.mem := rfl
@[simp] theorem State.advanceHead_response (s : State) (r : Ring) (q : Nat) :
    (s.advanceHead r q).response = s.response := rfl
@[simp] theorem State.advanceHead_inputs (s : State) (r : Ring) (q : Nat) :
    (s.advanceHead r q).inputs = s.inputs := rfl
@[simp] theorem State.advanceHead_draws (s : State) (r : Ring) (q : Nat) : (s.advanceHead r q).draws = s.draws := rfl
@[simp] theorem State.queue_advanceHead (s : State) (r : Ring) (q : Nat) (p : Nat) :
    (s.advanceHead r q).queue p = s.queue p := rfl
@[simp] theorem State.n_advanceHead (s : State) (r : Ring) (q : Nat) : (s.advanceHead r q).n = s.n := rfl
@[simp] theorem State.slots_advanceHead (s : State) (r : Ring) (q : Nat) : (s.advanceHead r q).slots = s.slots := rfl
@[simp] theorem State.poolSize_advanceHead (s : State) (r : Ring) (q : Nat) (r' : Ring) :
    (s.advanceHead r q).poolSize r' = s.poolSize r' := rfl
@[simp] theorem State.qBase_advanceHead (s : State) (r : Ring) (q : Nat) (p : Nat) :
    (s.advanceHead r q).qBase p = s.qBase p := rfl
@[simp] theorem State.ringBase_advanceHead (s : State) (r : Ring) (q : Nat) (r' : Ring) (p : Nat) :
    (s.advanceHead r q).ringBase r' p = s.ringBase r' p := rfl
@[simp] theorem State.descAddr_advanceHead (s : State) (r : Ring) (q : Nat) (r' : Ring) (p i : Nat) :
    (s.advanceHead r q).descAddr r' p i = s.descAddr r' p i := rfl
@[simp] theorem State.bufAddr_advanceHead (s : State) (r : Ring) (q : Nat) (r' : Ring) (p i : Nat) :
    (s.advanceHead r q).bufAddr r' p i = s.bufAddr r' p i := rfl

/-! #### deviceDisable -/

@[simp] theorem State.deviceDisable_params (s : State) : (s.deviceDisable).params = s.params := rfl
@[simp] theorem State.deviceDisable_rstate (s : State) : (s.deviceDisable).rstate = s.rstate := rfl
@[simp] theorem State.deviceDisable_lstate (s : State) : (s.deviceDisable).lstate = s.lstate := rfl
@[simp] theorem State.deviceDisable_gen (s : State) : (s.deviceDisable).gen = s.gen := rfl
@[simp] theorem State.deviceDisable_nq (s : State) : (s.deviceDisable).nq = s.nq := rfl
@[simp] theorem State.deviceDisable_logn (s : State) : (s.deviceDisable).logn = s.logn := rfl
@[simp] theorem State.deviceDisable_faultReason (s : State) : (s.deviceDisable).faultReason = s.faultReason := rfl
@[simp] theorem State.deviceDisable_resetPolls (s : State) : (s.deviceDisable).resetPolls = s.resetPolls := rfl
@[simp] theorem State.deviceDisable_regionBase (s : State) : (s.deviceDisable).regionBase = s.regionBase := rfl
@[simp] theorem State.deviceDisable_regionSize (s : State) : (s.deviceDisable).regionSize = s.regionSize := rfl
@[simp] theorem State.deviceDisable_queues (s : State) : (s.deviceDisable).queues = s.queues := rfl
@[simp] theorem State.deviceDisable_wb (s : State) : (s.deviceDisable).wb = s.wb := rfl
@[simp] theorem State.deviceDisable_mem (s : State) : (s.deviceDisable).mem = s.mem := rfl
@[simp] theorem State.deviceDisable_response (s : State) : (s.deviceDisable).response = s.response := rfl
@[simp] theorem State.deviceDisable_inputs (s : State) : (s.deviceDisable).inputs = s.inputs := rfl
@[simp] theorem State.deviceDisable_draws (s : State) : (s.deviceDisable).draws = s.draws := rfl
@[simp] theorem State.queue_deviceDisable (s : State) (p : Nat) : (s.deviceDisable).queue p = s.queue p := rfl
@[simp] theorem State.n_deviceDisable (s : State) : (s.deviceDisable).n = s.n := rfl
@[simp] theorem State.slots_deviceDisable (s : State) : (s.deviceDisable).slots = s.slots := rfl
@[simp] theorem State.poolSize_deviceDisable (s : State) (r' : Ring) :
    (s.deviceDisable).poolSize r' = s.poolSize r' := rfl
@[simp] theorem State.qBase_deviceDisable (s : State) (p : Nat) : (s.deviceDisable).qBase p = s.qBase p := rfl
@[simp] theorem State.ringBase_deviceDisable (s : State) (r' : Ring) (p : Nat) :
    (s.deviceDisable).ringBase r' p = s.ringBase r' p := rfl
@[simp] theorem State.descAddr_deviceDisable (s : State) (r' : Ring) (p i : Nat) :
    (s.deviceDisable).descAddr r' p i = s.descAddr r' p i := rfl
@[simp] theorem State.bufAddr_deviceDisable (s : State) (r' : Ring) (p i : Nat) :
    (s.deviceDisable).bufAddr r' p i = s.bufAddr r' p i := rfl

/-! #### teardown -/

@[simp] theorem State.teardown_params (s : State) :
    (s.teardown).params = s.params := by unfold State.teardown; dsimp only; split <;> rfl
@[simp] theorem State.teardown_rstate (s : State) :
    (s.teardown).rstate = s.rstate := by unfold State.teardown; dsimp only; split <;> rfl
@[simp] theorem State.teardown_lstate (s : State) :
    (s.teardown).lstate = 0 := by unfold State.teardown; dsimp only; split <;> rfl
@[simp] theorem State.teardown_gen (s : State) :
    (s.teardown).gen = s.gen := by unfold State.teardown; dsimp only; split <;> rfl
@[simp] theorem State.teardown_nq (s : State) :
    (s.teardown).nq = s.nq := by unfold State.teardown; dsimp only; split <;> rfl
@[simp] theorem State.teardown_logn (s : State) :
    (s.teardown).logn = s.logn := by unfold State.teardown; dsimp only; split <;> rfl
@[simp] theorem State.teardown_faultReason (s : State) :
    (s.teardown).faultReason = s.faultReason := by unfold State.teardown; dsimp only; split <;> rfl
@[simp] theorem State.teardown_resetPolls (s : State) :
    (s.teardown).resetPolls = s.resetPolls := by unfold State.teardown; dsimp only; split <;> rfl
@[simp] theorem State.teardown_regionBase (s : State) :
    (s.teardown).regionBase = s.regionBase := by unfold State.teardown; dsimp only; split <;> rfl
@[simp] theorem State.teardown_regionSize (s : State) :
    (s.teardown).regionSize = s.regionSize := by unfold State.teardown; dsimp only; split <;> rfl
@[simp] theorem State.teardown_queues (s : State) :
    (s.teardown).queues = mapFirst s.tornQueue s.nq.toNat s.queues := by unfold State.teardown; dsimp only; split <;> rfl
@[simp] theorem State.teardown_wb (s : State) :
    (s.teardown).wb = [] := by unfold State.teardown; dsimp only; split <;> first | assumption | rfl
@[simp] theorem State.teardown_dev (s : State) :
    (s.teardown).dev = s.dev := by unfold State.teardown; dsimp only; split <;> rfl
@[simp] theorem State.teardown_response (s : State) :
    (s.teardown).response = s.response := by unfold State.teardown; dsimp only; split <;> rfl
@[simp] theorem State.teardown_inputs (s : State) :
    (s.teardown).inputs = s.inputs := by unfold State.teardown; dsimp only; split <;> rfl
@[simp] theorem State.teardown_draws (s : State) :
    (s.teardown).draws = s.draws := by unfold State.teardown; dsimp only; split <;> rfl
@[simp] theorem State.n_teardown (s : State) :
    (s.teardown).n = s.n := by unfold State.teardown; dsimp only; split <;> rfl
@[simp] theorem State.slots_teardown (s : State) :
    (s.teardown).slots = s.slots := by unfold State.teardown; dsimp only; split <;> rfl
@[simp] theorem State.poolSize_teardown (s : State) (r' : Ring) :
    (s.teardown).poolSize r' = s.poolSize r' := by unfold State.teardown; dsimp only; split <;> rfl
@[simp] theorem State.qBase_teardown (s : State) (p : Nat) :
    (s.teardown).qBase p = s.qBase p := by unfold State.teardown; dsimp only; split <;> rfl
@[simp] theorem State.ringBase_teardown (s : State) (r' : Ring) (p : Nat) :
    (s.teardown).ringBase r' p = s.ringBase r' p := by unfold State.teardown; dsimp only; split <;> rfl
@[simp] theorem State.descAddr_teardown (s : State) (r' : Ring) (p i : Nat) :
    (s.teardown).descAddr r' p i = s.descAddr r' p i := by unfold State.teardown; dsimp only; split <;> rfl
@[simp] theorem State.bufAddr_teardown (s : State) (r' : Ring) (p i : Nat) :
    (s.teardown).bufAddr r' p i = s.bufAddr r' p i := by unfold State.teardown; dsimp only; split <;> rfl

/-! ### Queues -/

theorem State.queue_setQueue (s : State) (q p : Nat) (x : Queue) :
    (s.setQueue q x).queue p = if q = p ∧ p < s.queues.length then x else s.queue p := by
  simp only [State.queue, State.setQueue, List.getD_eq_getElem?_getD, List.getElem?_set]
  by_cases h : q = p
  · subst h
    by_cases h' : q < s.queues.length <;> simp [h']
  · simp [h]

theorem State.queue_setQueue_same (s : State) (q : Nat) (x : Queue) (h : q < s.queues.length) :
    (s.setQueue q x).queue q = x := by simp [State.queue_setQueue, h]

theorem State.queue_setQueue_ne (s : State) (q p : Nat) (x : Queue) (h : p ≠ q) :
    (s.setQueue q x).queue p = s.queue p := by simp [State.queue_setQueue, Ne.symm h]

theorem State.setQueue_setQueue (s : State) (q : Nat) (x y : Queue) :
    (s.setQueue q x).setQueue q y = s.setQueue q y := by simp [State.setQueue]

@[simp] theorem Queue.cur_setCur_same (x : Queue) (r : Ring) (c : Cursors) : (x.setCur r c).cur r = c := by
  cases r <;> rfl

@[simp] theorem Queue.pool_setPool_same (x : Queue) (r : Ring) (p : Pool) : (x.setPool r p).pool r = p := by
  cases r <;> rfl

@[simp] theorem Queue.pool_setCur (x : Queue) (r r' : Ring) (c : Cursors) : (x.setCur r c).pool r' = x.pool r' := by
  cases r <;> cases r' <;> rfl

@[simp] theorem Queue.cur_setPool (x : Queue) (r r' : Ring) (p : Pool) : (x.setPool r p).cur r' = x.cur r' := by
  cases r <;> cases r' <;> rfl

@[simp] theorem Queue.cur_setSw (x : Queue) (r r' : Ring) (i : Nat) (w : SlotRecord) : (x.setSw r i w).cur r' = x.cur r' := by
  cases r <;> cases r' <;> rfl

@[simp] theorem Queue.pool_setSw (x : Queue) (r r' : Ring) (i : Nat) (w : SlotRecord) :
    (x.setSw r i w).pool r' = x.pool r' := by cases r <;> cases r' <;> rfl

theorem Queue.cur_setCur_ne (x : Queue) (r r' : Ring) (c : Cursors) (h : r' ≠ r) : (x.setCur r c).cur r' = x.cur r' := by
  cases r <;> cases r' <;> first | rfl | exact absurd rfl h

theorem Queue.pool_setPool_ne (x : Queue) (r r' : Ring) (p : Pool) (h : r' ≠ r) : (x.setPool r p).pool r' = x.pool r' := by
  cases r <;> cases r' <;> first | rfl | exact absurd rfl h

/-- Writing back what a queue holds changes nothing. -/
@[simp] theorem State.setQueue_queue (s : State) (q : Nat) : s.setQueue q (s.queue q) = s := by
  have h : s.queues.set q (s.queue q) = s.queues := by
    apply List.ext_getElem? ; intro i
    simp only [List.getElem?_set, State.queue, List.getD_eq_getElem?_getD]
    by_cases hq : q = i
    · subst hq; by_cases hl : q < s.queues.length <;> simp [hl]
    · simp [hq]
  simp [State.setQueue, h]

/-! ### Tags -/

theorem Pool.tag_setTag (p : Pool) (i j : Nat) (t : Tag) :
    (p.setTag i t).tag j = if i = j ∧ j < p.tags.length then t else p.tag j := by
  simp only [Pool.tag, Pool.setTag, List.getD_eq_getElem?_getD, List.getElem?_set]
  by_cases h : i = j
  · subst h
    by_cases h' : i < p.tags.length <;> simp [h']
  · simp [h]

@[simp] theorem Pool.tag_setLen (p : Pool) (i j l : Nat) : (p.setLen i l).tag j = p.tag j := rfl

@[simp] theorem Pool.len_setTag (p : Pool) (i j : Nat) (t : Tag) : (p.setTag i t).len j = p.len j := rfl

/-- setTag writes one tag of one pool of one queue. -/
theorem State.tag_setTag (s : State) (r r' : Ring) (q p h i : Nat) (t : Tag) :
    (s.setTag r q h t).tag r' p i =
      if r' = r ∧ p = q ∧ i = h ∧ q < s.queues.length ∧ i < ((s.queue q).pool r).tags.length then t else s.tag r' p i := by
  unfold State.tag State.setTag
  simp only [State.queue_setQueue]
  by_cases hp : q = p
  · subst hp
    by_cases hq : q < s.queues.length
    · by_cases hr : r' = r
      · subst hr
        simp only [hq, and_self, if_true, Queue.pool_setPool_same, Pool.tag_setTag, true_and]
        by_cases hi : h = i <;> simp [hi, eq_comm]
      · simp [hq, hr, Queue.pool_setPool_ne]
    · simp [hq]
  · simp [hp, Ne.symm hp]

end Sys2Proof.Machine
end

