-- ==== Sys2Proof/Laws/Ops.lean ====
section
/-! SUPPORT. One lemma for each shared operation that says everything it can do: callers cite it and do not unfold the operation. -/

namespace Sys2Proof.Machine

/-! ### Res -/

@[simp] theorem Res.bind_ok {α β : Type} (a : α) (s : State) (k : α → State → Res β) : (Res.ok a s).bind k = k a s := rfl
@[simp] theorem Res.bind_ended {α β : Type} (s : State) (k : α → State → Res β) : (Res.ended s).bind k = .ended s := rfl
@[simp] theorem Res.bind_stuck {α β : Type} (f : Fault) (k : α → State → Res β) : (Res.stuck f).bind k = .stuck f := rfl

theorem Res.bind_eq_ok {α β : Type} {x : Res α} {k : α → State → Res β} {b : β} {t : State} :
    x.bind k = .ok b t ↔ ∃ a s, x = .ok a s ∧ k a s = .ok b t := by
  cases x <;> simp [Res.bind]

theorem Res.bind_eq_ended {α β : Type} {x : Res α} {k : α → State → Res β} {t : State} :
    x.bind k = .ended t ↔ x = .ended t ∨ ∃ a s, x = .ok a s ∧ k a s = .ended t := by
  cases x <;> simp [Res.bind]

theorem Res.bind_eq_stuck {α β : Type} {x : Res α} {k : α → State → Res β} {f : Fault} :
    x.bind k = .stuck f ↔ x = .stuck f ∨ ∃ a s, x = .ok a s ∧ k a s = .stuck f := by
  cases x <;> simp [Res.bind]

theorem Res.bind_assoc {α β γ : Type} (x : Res α) (k : α → State → Res β) (l : β → State → Res γ) :
    (x.bind k).bind l = x.bind fun a s => (k a s).bind l := by
  cases x <;> rfl

theorem Res.answer_eq_next {x : Res (Status × Word)} {t : State} :
    x.answer = .next t ↔ (∃ a s, x = .ok a s ∧ t = s.respond a.1 a.2) ∨ x = .ended t := by
  cases x <;> simp [Res.answer, eq_comm]

theorem Res.answer_eq_fault {x : Res (Status × Word)} {f : Fault} : x.answer = .fault f ↔ x = .stuck f := by
  cases x <;> simp [Res.answer]

/-- What holds of every way a micro-operation can end: P of a value and a state, E of a state in which a fault ended the command, S of a
stop. -/
def Res.Ends {α : Type} (x : Res α) (P : α → State → Prop) (E : State → Prop) (S : Fault → Prop) : Prop :=
  match x with
  | .ok a s  => P a s
  | .ended s => E s
  | .stuck f => S f

/-- The rule of sequence: what the first part ensures is what the second needs. -/
theorem Res.Ends.bind {α β : Type} {x : Res α} {k : α → State → Res β} {P : α → State → Prop} {Q : β → State → Prop}
    {E : State → Prop} {S : Fault → Prop} (hx : x.Ends P E S) (hk : ∀ a s, P a s → (k a s).Ends Q E S) :
    (x.bind k).Ends Q E S := by
  cases x with
  | ok a s => exact hk a s hx
  | ended s => exact hx
  | stuck f => exact hx

theorem Res.Ends.mono {α : Type} {x : Res α} {P P' : α → State → Prop} {E E' : State → Prop} {S S' : Fault → Prop}
    (hx : x.Ends P E S) (hP : ∀ a s, P a s → P' a s) (hE : ∀ s, E s → E' s) (hS : ∀ f, S f → S' f) : x.Ends P' E' S' := by
  cases x with
  | ok a s => exact hP a s hx
  | ended s => exact hE s hx
  | stuck f => exact hS f hx

/-- A loop over indices keeps what each round keeps. -/
theorem forEach_ends {f : Nat → State → Res Unit} {I : State → Prop} {E : State → Prop} {S : Fault → Prop} (is : List Nat)
    (hf : ∀ i ∈ is, ∀ s, I s → (f i s).Ends (fun _ t => I t) E S) (s : State) (hs : I s) :
    (forEach f is s).Ends (fun _ t => I t) E S := by
  induction is generalizing s with
  | nil => exact hs
  | cons i is ih =>
    exact (hf i List.mem_cons_self s hs).bind fun _ t ht => ih (fun j hj => hf j (List.mem_cons_of_mem _ hj)) t ht

/-! ### Answers and the queue check -/

theorem answer_eq_next {s t : State} {st : Status} {v : Word} : answer s st v = .next t ↔ t = s.respond st v := by
  simp [answer, eq_comm]

theorem perQueue_of_lt {q : BitVec 7} {s : State} {k : Host.Outcome State Fault Refusal} (h : q.toNat < s.nq.toNat) :
    perQueue q s k = k := if_pos h

theorem perQueue_of_ge {q : BitVec 7} {s : State} {k : Host.Outcome State Fault Refusal} (h : s.nq.toNat ≤ q.toNat) :
    perQueue q s k = .next (s.respond .inval 0) := if_neg (Nat.not_lt.2 h)

theorem perQueue_eq_next {q : BitVec 7} {s t : State} {k : Host.Outcome State Fault Refusal} (h : perQueue q s k = .next t) :
    (q.toNat < s.nq.toNat ∧ k = .next t) ∨ (s.nq.toNat ≤ q.toNat ∧ t = s.respond .inval 0) := by
  unfold perQueue at h
  split at h
  · next hq => exact .inl ⟨hq, h⟩
  · next hq => exact .inr ⟨Nat.le_of_not_lt hq, answer_eq_next.1 h⟩

/-! ### DMA -/

theorem memRead_of_backs {addr n : Nat} {s : State} (h : s.params.Backs addr n) :
    memRead addr n s = .ok (blockBytes s.mem s.wb addr n) (s.emit (.dmaRead addr (blockBytes s.mem s.wb addr n))) := if_pos h

theorem memRead_of_not_backs {addr n : Nat} {s : State} (h : ¬ s.params.Backs addr n) :
    memRead addr n s = .stuck .memoryNotBacked := if_neg h

theorem memRead_ends (addr n : Nat) (s : State) :
    (memRead addr n s).Ends
      (fun b t => s.params.Backs addr n ∧ b = blockBytes s.mem s.wb addr n ∧ t = s.emit (.dmaRead addr b))
      (fun _ => False) (fun f => f = .memoryNotBacked ∧ ¬ s.params.Backs addr n) := by
  unfold memRead
  split
  · next h => exact ⟨h, rfl, rfl⟩
  · next h => exact ⟨rfl, h⟩

theorem memWrite_of_backs {addr : Nat} {bytes : List Byte} {s : State} (h : s.params.Backs addr bytes.length) :
    memWrite addr bytes s = .ok () (State.emit { s with wb := s.wb ++ [⟨addr, bytes⟩] } (.dmaWrite addr bytes)) := if_pos h

theorem memWrite_of_not_backs {addr : Nat} {bytes : List Byte} {s : State} (h : ¬ s.params.Backs addr bytes.length) :
    memWrite addr bytes s = .stuck .memoryNotBacked := if_neg h

theorem memWrite_ends (addr : Nat) (bytes : List Byte) (s : State) :
    (memWrite addr bytes s).Ends
      (fun _ t => s.params.Backs addr bytes.length ∧
        t = State.emit { s with wb := s.wb ++ [⟨addr, bytes⟩] } (.dmaWrite addr bytes))
      (fun _ => False) (fun f => f = .memoryNotBacked ∧ ¬ s.params.Backs addr bytes.length) := by
  unfold memWrite
  split
  · next h => exact ⟨h, rfl⟩
  · next h => exact ⟨rfl, h⟩

/-! ### Barriers and registers -/

theorem State.barrier_write_eq (s : State) : s.barrier .write = (s.emit (.barrier .write)).drain := rfl

theorem State.barrier_read_eq (s : State) : s.barrier .read = s.emit (.barrier .read) := rfl

/-- Bit 26 of a CTRL read says whether the device is in reset, whatever the free value is (48_device_agent.md R503). -/
theorem ctrlRst_regValue (s : State) : ctrlRst (s.regValue .ctrl) = s.dev.resetting := by
  simp only [State.regValue, ctrlRst]
  cases s.dev.resetting
  · generalize Config.registerDraw s.draws = v
    simp
  · generalize Config.registerDraw s.draws = v
    simp

theorem getD_set_eq {α : Type} (l : List α) (q p : Nat) (x d : α) :
    (l.set q x).getD p d = if q = p ∧ p < l.length then x else l.getD p d := by
  simp only [List.getD_eq_getElem?_getD, List.getElem?_set]
  by_cases h : q = p
  · subst h
    by_cases h' : q < l.length <;> simp [h']
  · simp [h]

/-- setRing writes the registers of one ring. -/
theorem Device.ring_setRing (d : Device) (r r' : Ring) (q p : Nat) (x : DevRing) :
    (d.setRing r q x).ring r' p =
      if r' = r ∧ q = p ∧ p < (match r with | .tx => d.tx | .rx => d.rx).length then x else d.ring r' p := by
  cases r <;> cases r' <;> simp only [Device.setRing, Device.ring, getD_set_eq] <;> simp

@[simp] theorem Device.rxEn_setRing (d : Device) (r : Ring) (q : Nat) (x : DevRing) : (d.setRing r q x).rxEn = d.rxEn := by
  cases r <;> rfl
@[simp] theorem Device.txEn_setRing (d : Device) (r : Ring) (q : Nat) (x : DevRing) : (d.setRing r q x).txEn = d.txEn := by
  cases r <;> rfl
@[simp] theorem Device.resetting_setRing (d : Device) (r : Ring) (q : Nat) (x : DevRing) :
    (d.setRing r q x).resetting = d.resetting := by cases r <;> rfl
@[simp] theorem Device.tx_length_setRing (d : Device) (r : Ring) (q : Nat) (x : DevRing) :
    (d.setRing r q x).tx.length = d.tx.length := by cases r <;> simp [Device.setRing]
@[simp] theorem Device.rx_length_setRing (d : Device) (r : Ring) (q : Nat) (x : DevRing) :
    (d.setRing r q x).rx.length = d.rx.length := by cases r <;> simp [Device.setRing]

/-- A register write never changes how many rings the device has. -/
@[simp] theorem Device.tx_length_write (d : Device) (reg : DevReg) (v : Word) : (d.write reg v).tx.length = d.tx.length := by
  cases reg <;> simp [Device.write]
  split <;> simp [Device.startReset]

@[simp] theorem Device.rx_length_write (d : Device) (reg : DevReg) (v : Word) : (d.write reg v).rx.length = d.rx.length := by
  cases reg <;> simp [Device.write]
  split <;> simp [Device.startReset]

@[simp] theorem State.dev_deviceDisable (s : State) : s.deviceDisable.dev = { s.dev with rxEn := false, txEn := false } := by
  simp [State.deviceDisable, Device.write]

@[simp] theorem State.events_deviceDisable (s : State) :
    s.deviceDisable.events = s.events ++ [.regWrite s.params.devRegs.rctl 0, .regWrite s.params.devRegs.tctl 0] := by
  simp [State.deviceDisable, devOffset]

/-! ### Teardown and fault entry -/

/-- mapFirst changes the elements below the count. -/
theorem mapFirst_eq_mapIdx (f : Queue → Queue) (k : Nat) (xs : List Queue) :
    mapFirst f k xs = xs.mapIdx (fun i x => if i < k then f x else x) := by
  induction xs generalizing k with
  | nil => cases k <;> rfl
  | cons x xs ih =>
    cases k with
    | zero => exact List.ext_getElem? fun i => by cases i <;> simp [mapFirst, List.getElem?_mapIdx]
    | succ k => simp [mapFirst, ih, List.mapIdx_cons]

@[simp] theorem length_mapFirst (f : Queue → Queue) (k : Nat) (xs : List Queue) : (mapFirst f k xs).length = xs.length := by
  simp [mapFirst_eq_mapIdx]

theorem State.queue_teardown (s : State) (q : Nat) (h : q < s.queues.length) :
    s.teardown.queue q = if q < s.nq.toNat then s.tornQueue (s.queue q) else s.queue q := by
  simp only [State.queue, State.teardown_queues, mapFirst_eq_mapIdx, List.getD_eq_getElem?_getD, List.getElem?_mapIdx,
    List.getElem?_eq_getElem h, Option.map_some, Option.getD_some]

/-- With the write buffer empty a teardown writes no memory and logs nothing. -/
theorem State.teardown_of_wb_nil (s : State) (h : s.wb = []) :
    s.teardown = { s with queues := mapFirst s.tornQueue s.nq.toNat s.queues, lstate := 0 } := by
  simp [State.teardown, h]

theorem wf_teardown (s : State) (h : Memory.wf s.mem) : Memory.wf s.teardown.mem := by
  unfold State.teardown
  dsimp only
  split
  · exact h
  · exact wf_barrier _ _ h

theorem State.enterFault_of_faulted (s : State) (r : Reason) (h : s.rstate = .faulted) : s.enterFault r = s := if_pos h

/-- Every field after a fault is entered from a state that is not Faulted. -/
theorem State.enterFault_of_not_faulted (s : State) (r : Reason) (h : s.rstate ≠ .faulted) :
    s.enterFault r = State.emit { ((if s.rstate = .ringsReady then s.deviceDisable else s).teardown.setRState .faulted) with
      faultReason := r.code } (.fault r) := if_neg h

@[simp] theorem State.enterFault_rstate (s : State) (r : Reason) : (s.enterFault r).rstate = .faulted := by
  unfold State.enterFault
  split
  · assumption
  · rfl

@[simp] theorem State.enterFault_params (s : State) (r : Reason) : (s.enterFault r).params = s.params := by
  unfold State.enterFault; dsimp only; split <;> try split
  all_goals simp

@[simp] theorem State.enterFault_inputs (s : State) (r : Reason) : (s.enterFault r).inputs = s.inputs := by
  unfold State.enterFault; dsimp only; split <;> try split
  all_goals simp

@[simp] theorem State.enterFault_nq (s : State) (r : Reason) : (s.enterFault r).nq = s.nq := by
  unfold State.enterFault; dsimp only; split <;> try split
  all_goals simp

@[simp] theorem State.enterFault_logn (s : State) (r : Reason) : (s.enterFault r).logn = s.logn := by
  unfold State.enterFault; dsimp only; split <;> try split
  all_goals simp

theorem wf_enterFault (s : State) (r : Reason) (h : Memory.wf s.mem) : Memory.wf (s.enterFault r).mem := by
  unfold State.enterFault
  dsimp only
  split
  · exact h
  · split
    · exact wf_teardown _ h
    · exact wf_teardown _ h

end Sys2Proof.Machine
end

