-- ==== Sys2Proof/Laws/Pool.lean ====
section
/-! SUPPORT. The laws of the buffer pool: everything each pool operation can do (41_pool.md). -/

namespace Sys2Proof.Machine

/-- An acquired buffer is Free, and none below it is (41_pool.md R250). -/
theorem poolAcquire_eq_some {r : Ring} {q h : Nat} {s : State} (ha : poolAcquire r q s = some h) :
    h < s.poolSize r ∧ s.tag r q h = .free ∧ ∀ i < h, s.tag r q i ≠ .free := by
  unfold poolAcquire at ha
  obtain ⟨hp, as, bs, hl, hb⟩ := List.find?_eq_some_iff_append.1 ha
  have hlen : as.length < s.poolSize r := by
    have := congrArg List.length hl
    simp at this; omega
  have hget : ∀ i (hi : i < s.poolSize r), (as ++ h :: bs)[i]? = some i := by
    intro i hi
    rw [← hl, List.getElem?_range hi]
  have hh : h = as.length := by
    have := hget as.length hlen
    simpa using this
  refine ⟨hh ▸ hlen, by simpa using hp, fun i hi => ?_⟩
  have hi' : i < as.length := hh ▸ hi
  have h1 := hget i (by omega)
  rw [List.getElem?_append_left hi'] at h1
  have := hb i (List.mem_of_getElem? h1)
  simpa using this

/-- No buffer is Free where acquiring fails. -/
theorem poolAcquire_eq_none {r : Ring} {q : Nat} {s : State} (ha : poolAcquire r q s = none) :
    ∀ i < s.poolSize r, s.tag r q i ≠ .free := by
  intro i hi
  have := List.find?_eq_none.1 ha i (List.mem_range.2 hi)
  simpa using this

/-- The first of the Free buffers is the one acquired next. -/
theorem poolAcquire_eq_head (r : Ring) (q : Nat) (s : State) : poolAcquire r q s = (s.freeBuffers r q).head? := by
  unfold poolAcquire State.freeBuffers
  rw [List.head?_filter]

theorem length_freeBuffers (r : Ring) (q : Nat) (s : State) : (s.freeBuffers r q).length = s.poolCount r q .free := by
  unfold State.freeBuffers State.poolCount
  rw [List.countP_eq_length_filter]

/-- The state after pool_mark_posted. -/
def State.markedPosted (s : State) (r : Ring) (q h len : Nat) : State :=
  s.setQueue q ((s.queue q).setPool r ((((s.queue q).pool r).setTag h .hw).setLen h len))

/-- Everything pool_mark_posted can do (41_pool.md R251). -/
theorem poolMarkPosted_ends (r : Ring) (q h len : Nat) (s : State) :
    (poolMarkPosted r q h len s).Ends (fun _ t => s.tag r q h = .free ∧ t = s.markedPosted r q h len)
      (fun _ => False) (fun f => f = .markPostedNotFree ∧ s.tag r q h ≠ .free) := by
  unfold poolMarkPosted
  split
  · next hf => exact ⟨hf, rfl⟩
  · next hf => exact ⟨rfl, hf⟩

theorem poolMarkPosted_of_free {r : Ring} {q h len : Nat} {s : State} (hf : s.tag r q h = .free) :
    poolMarkPosted r q h len s = .ok () (s.markedPosted r q h len) := if_pos hf

/-- Everything pool_mark_completed can do (41_pool.md R252). -/
theorem poolMarkCompleted_ends (r : Ring) (q h : Nat) (s : State) :
    (poolMarkCompleted r q h s).Ends
      (fun a t => s.tag r q h = .hw ∧ a = (s.bufAddr r q h, ((s.queue q).pool r).len h) ∧ t = s.setTag r q h .pend)
      (fun t => s.tag r q h ≠ .hw ∧ t = s.faultAnswer .notPosted) (fun _ => False) := by
  unfold poolMarkCompleted
  split
  · next hf => exact ⟨hf, rfl, rfl⟩
  · next hf => exact ⟨hf, rfl⟩

theorem poolMarkCompleted_of_hw {r : Ring} {q h : Nat} {s : State} (hf : s.tag r q h = .hw) :
    poolMarkCompleted r q h s = .ok (s.bufAddr r q h, ((s.queue q).pool r).len h) (s.setTag r q h .pend) := if_pos hf

/-- Everything pool_release can do (41_pool.md R253). -/
theorem poolRelease_eq_some {r : Ring} {q h : Nat} {s t : State} :
    poolRelease r q h s = some t ↔ s.tag r q h = .pend ∧ t = s.setTag r q h .free := by
  unfold poolRelease
  split <;> simp_all [eq_comm]

theorem poolRelease_of_pend {r : Ring} {q h : Nat} {s : State} (hp : s.tag r q h = .pend) :
    poolRelease r q h s = some (s.setTag r q h .free) := if_pos hp

/-- A second tag write to the same buffer overwrites the first. -/
theorem State.setTag_setTag (s : State) (r : Ring) (q h : Nat) (t t' : Tag) :
    (s.setTag r q h t).setTag r q h t' = s.setTag r q h t' := by
  by_cases hq : q < s.queues.length
  · unfold State.setTag
    dsimp only
    rw [State.queue_setQueue_same _ _ _ hq, State.setQueue_setQueue]
    congr 1
    cases r <;> simp [Queue.setPool, Queue.pool, Pool.setTag]
  · simp [State.setTag, State.setQueue, State.queue, List.set_eq_of_length_le (Nat.le_of_not_lt hq),
      List.getElem?_eq_none (Nat.le_of_not_lt hq)]

end Sys2Proof.Machine
end

