-- ==== Sys2Proof/Laws/Ring.lean ====
section
/-! SUPPORT. The laws of the descriptor ring: arithmetic mod N, and everything each ring operation can do (40_ring.md). -/

namespace Sys2Proof.Machine

/-! ### Arithmetic mod N -/

theorem ringInc_lt {n i : Nat} (h : 0 < n) : ringInc n i < n := Nat.mod_lt _ h

theorem ringDist_lt {n a b : Nat} (h : 0 < n) : ringDist n a b < n := Nat.mod_lt _ h

/-- dist(a, b) without the remainder, for slots of the ring. -/
theorem ringDist_eq {n a b : Nat} (ha : a < n) (hb : b < n) : ringDist n a b = if a ≤ b then b - a else b + n - a := by
  unfold ringDist
  split
  · next h => rw [show b + n - a = (b - a) + n by omega, Nat.add_mod_right, Nat.mod_eq_of_lt (by omega)]
  · next h => rw [Nat.mod_eq_of_lt (by omega)]

theorem ringInc_eq {n i : Nat} (h : i < n) : ringInc n i = if i + 1 = n then 0 else i + 1 := by
  unfold ringInc
  split
  · next h' => rw [h', Nat.mod_self]
  · next h' => rw [Nat.mod_eq_of_lt (by omega)]

/-- Going dist(a, b) on from a leads to b. -/
theorem add_ringDist {n a b : Nat} (ha : a < n) (hb : b < n) : (a + ringDist n a b) % n = b := by
  rw [ringDist_eq ha hb]
  split
  · next h => rw [show a + (b - a) = b by omega, Nat.mod_eq_of_lt hb]
  · next h => rw [show a + (b + n - a) = b + n by omega, Nat.add_mod_right, Nat.mod_eq_of_lt hb]

/-- The slot k places on is k places away. -/
theorem ringDist_add {n a k : Nat} (ha : a < n) (hk : k < n) : ringDist n a ((a + k) % n) = k := by
  by_cases h : a + k < n
  · rw [Nat.mod_eq_of_lt h, ringDist_eq ha h, if_pos (by omega)]; omega
  · rw [Nat.mod_eq_sub_mod (by omega), Nat.mod_eq_of_lt (by omega), ringDist_eq ha (by omega), if_neg (by omega)]; omega

theorem ringDist_self {n a : Nat} (ha : a < n) : ringDist n a a = 0 := by
  rw [ringDist_eq ha ha, if_pos (Nat.le_refl a), Nat.sub_self]

/-- Equal distances from one slot are equal slots. -/
theorem ringDist_inj {n a b c : Nat} (ha : a < n) (hb : b < n) (hc : c < n) (h : ringDist n a b = ringDist n a c) : b = c := by
  rw [← add_ringDist ha hb, ← add_ringDist ha hc, h]

theorem State.n_pos (s : State) : 0 < s.n := Nat.two_pow_pos _

theorem State.n_le (s : State) : s.n ≤ 2 ^ 15 := Nat.pow_le_pow_right (by decide) (by have := s.logn.isLt; omega)

theorem State.occupancy_lt (s : State) (r : Ring) (q : Nat) : s.occupancy r q < s.n := ringDist_lt s.n_pos

theorem State.ringEmpty_iff (s : State) (r : Ring) (q : Nat) : s.ringEmpty r q = true ↔ s.ntu r q = s.ntc r q := by
  simp [State.ringEmpty]

theorem State.ringFull_iff (s : State) (r : Ring) (q : Nat) : s.ringFull r q = true ↔ ringInc s.n (s.ntu r q) = s.ntc r q := by
  simp [State.ringFull]

/-- A ring whose cursors are slots is empty when nothing is outstanding (40_ring.md R201, R204). -/
theorem State.occupancy_eq_zero_iff (s : State) (r : Ring) (q : Nat) (hu : s.ntu r q < s.n) (hc : s.ntc r q < s.n) :
    s.occupancy r q = 0 ↔ s.ringEmpty r q = true := by
  rw [State.ringEmpty_iff, State.occupancy, ringDist_eq hc hu]
  split <;> omega

/-- A ring whose cursors are slots is full when N - 1 slots are outstanding (40_ring.md R201, R203). -/
theorem State.occupancy_eq_max_iff (s : State) (r : Ring) (q : Nat) (hu : s.ntu r q < s.n) (hc : s.ntc r q < s.n) :
    s.occupancy r q = s.n - 1 ↔ s.ringFull r q = true := by
  rw [State.ringFull_iff, State.occupancy, ringDist_eq hc hu, ringInc_eq hu]
  split <;> split <;> omega

/-- A slot is outstanding when it is less than the occupancy past NTC. -/
theorem State.outstanding_iff (s : State) (r : Ring) (q slot : Nat) :
    s.outstanding r q slot = true ↔ ringDist s.n (s.ntc r q) slot < s.occupancy r q := by
  simp [State.outstanding]

/-- The slots past NTC, up to the occupancy, are the outstanding ones. -/
theorem State.outstanding_slotAt (s : State) (r : Ring) (q i : Nat) (hc : s.ntc r q < s.n) (hi : i < s.occupancy r q) :
    s.outstanding r q ((s.ntc r q + i) % s.n) = true := by
  rw [State.outstanding_iff, ringDist_add hc (Nat.lt_trans hi (s.occupancy_lt r q))]
  exact hi

/-! ### The operations -/

/-- The state after a post into slot NTU, before its tail write (40_ring.md R205). -/
def State.posted (s : State) (r : Ring) (q : Nat) (desc : List Byte) (w : SlotRecord) : State :=
  let a := s.descAddr r q (s.ntu r q)
  let x := (s.queue q).setSw r (s.ntu r q) w
  (State.emit { s with wb := s.wb ++ [⟨a, desc⟩] } (.dmaWrite a desc)).setQueue q
    (x.setCur r { x.cur r with ntu := BitVec.ofNat 16 (ringInc s.n (s.ntu r q)) })

/-- Everything ring_post can do. -/
theorem ringPost_ends (r : Ring) (q : Nat) (desc : List Byte) (w : SlotRecord) (s : State) :
    (ringPost r q desc w s).Ends
      (fun slot t => (s.ringFull r q = true ∧ slot = none ∧ t = s) ∨
        (s.ringFull r q = false ∧ slot = some (s.ntu r q) ∧ t = s.posted r q desc w))
      (fun _ => False) (fun f => f = .memoryNotBacked ∧ s.ringFull r q = false) := by
  unfold ringPost
  split
  · next h => exact .inl ⟨h, rfl, rfl⟩
  · next h =>
    have h : s.ringFull r q = false := by simpa using h
    exact ((memWrite_ends (s.descAddr r q (s.ntu r q)) desc s).mono (fun _ _ hp => hp.2) (fun _ => id)
      (fun f hf => ⟨hf.1, h⟩)).bind fun _ t ht => by subst ht; exact .inr ⟨h, rfl, rfl⟩

/-- Where the ring has room and the platform memory, ring_post posts. -/
theorem ringPost_of_room {r : Ring} {q : Nat} {desc : List Byte} {w : SlotRecord} {s : State} (h : s.ringFull r q = false)
    (hb : s.params.Backs (s.descAddr r q (s.ntu r q)) desc.length) :
    ringPost r q desc w s = .ok (some (s.ntu r q)) (s.posted r q desc w) := by
  simp only [ringPost, h, Bool.false_eq_true, if_false, memWrite_of_backs hb, Res.bind_ok]
  rfl

/-- Everything ring_peek can do: it logs, and answers the descriptor only of a slot whose DD is set (40_ring.md R206). -/
theorem ringPeek_ends (r : Ring) (q slot : Nat) (s : State) :
    (ringPeek r q slot s).Ends
      (fun d t => (∃ es, t = { s with events := s.events ++ es } ∧ ∀ e ∈ es, e.isRegWrite = false ∧ e.isDeliver = false ∧
          e.isCapacity = false) ∧
        (if ddBit (blockByte s.mem s.wb (s.descAddr r q slot + 12)) = true then
          d = some (blockBytes s.mem s.wb (s.descAddr r q slot) 16) else d = none))
      (fun _ => False) (fun f => f = .memoryNotBacked) := by
  have hb : byteAt (blockBytes s.mem s.wb (s.descAddr r q slot + 12) 1) 0 = blockByte s.mem s.wb (s.descAddr r q slot + 12) := rfl
  unfold ringPeek
  refine ((memRead_ends _ _ (s.barrier .read)).mono (P' := fun b t => b = blockBytes s.mem s.wb (s.descAddr r q slot + 12) 1 ∧
    t = (s.barrier .read).emit (.dmaRead (s.descAddr r q slot + 12) b)) (fun _ _ hp => ⟨hp.2.1, hp.2.2⟩) (fun _ => id)
    (fun f hf => hf.1)).bind ?_
  rintro b t ⟨rfl, rfl⟩
  rw [hb]
  split
  · next hd =>
    refine ((memRead_ends _ _ _).mono (fun _ _ hp => hp.2) (fun _ => id) (fun f hf => hf.1)).bind ?_
    rintro b t ⟨rfl, rfl⟩
    refine ⟨⟨[.barrier .read, .dmaRead (s.descAddr r q slot + 12) (blockBytes s.mem s.wb (s.descAddr r q slot + 12) 1),
      .dmaRead (s.descAddr r q slot) (blockBytes s.mem s.wb (s.descAddr r q slot) 16)], ?_, ?_⟩, ?_⟩
    · simp only [State.barrier_read_eq, State.emit, List.append_assoc, List.cons_append, List.nil_append]
      rfl
    · simp [Event.isRegWrite, Event.isDeliver, Event.isCapacity]
    · rfl
  · next hd =>
    refine ⟨⟨[.barrier .read, .dmaRead (s.descAddr r q slot + 12) (blockBytes s.mem s.wb (s.descAddr r q slot + 12) 1)],
      ?_, ?_⟩, rfl⟩
    · simp only [State.barrier_read_eq, State.emit, List.append_assoc, List.cons_append, List.nil_append]
    · simp [Event.isRegWrite, Event.isDeliver, Event.isCapacity]

/-- Everything ring_consume can do (40_ring.md R207). -/
theorem ringConsume_ends (r : Ring) (q k : Nat) (s : State) :
    (ringConsume r q k s).Ends
      (fun _ t => 1 ≤ k ∧ k ≤ s.occupancy r q ∧ t = s.setQueue q ((s.queue q).setCur r
        { (s.queue q).cur r with ntc := BitVec.ofNat 16 ((s.ntc r q + k) % s.n) }))
      (fun _ => False) (fun f => f = .consumeOutOfRange ∧ ¬ (1 ≤ k ∧ k ≤ s.occupancy r q)) := by
  unfold ringConsume
  split
  · next h => exact ⟨h.1, h.2, rfl⟩
  · next h => exact ⟨rfl, h⟩

theorem ringConsume_of_le {r : Ring} {q k : Nat} {s : State} (h1 : 1 ≤ k) (h2 : k ≤ s.occupancy r q) :
    ringConsume r q k s = .ok () (s.setQueue q ((s.queue q).setCur r
      { (s.queue q).cur r with ntc := BitVec.ofNat 16 ((s.ntc r q + k) % s.n) })) := if_pos ⟨h1, h2⟩

theorem ringTailSync_of_eq {r : Ring} {q : Nat} {s : State} (h : s.tail r q = s.ntu r q) : ringTailSync r q s = s := if_pos h

/-- A tail write: the barrier drains the write buffer, then the register, then the block's own copy (40_ring.md R210). -/
theorem ringTailSync_of_ne {r : Ring} {q : Nat} {s : State} (h : s.tail r q ≠ s.ntu r q) :
    ringTailSync r q s =
      ((s.barrier .write).regWrite (.tail r q) (BitVec.ofNat 32 (s.ntu r q))).setQueue q
        ((s.queue q).setCur r { (s.queue q).cur r with tail := ((s.queue q).cur r).ntu }) := by
  rw [ringTailSync, if_neg h]
  rfl

theorem wf_ringTailSync (r : Ring) (q : Nat) (s : State) (h : Memory.wf s.mem) : Memory.wf (ringTailSync r q s).mem := by
  by_cases hn : s.tail r q = s.ntu r q
  · rw [ringTailSync_of_eq hn]; exact h
  · rw [ringTailSync_of_ne hn]; exact wf_barrier s .write h

end Sys2Proof.Machine
end

