-- ==== Sys2Proof/Laws/Closure.lean ====
section
/-! SUPPORT. What every command keeps: a relation between states that is kept by each elementary update is kept by every command. The
first part is about the operations of one queue, the second about all commands. -/

namespace Sys2Proof.Machine

/-! ### The operations of one queue -/

/-- A relation kept by every elementary update the operations of queue q make. -/
structure KeptBy (q : Nat) (R : State → State → Prop) : Prop where
  refl     : ∀ s, R s s
  trans    : ∀ {s t u}, R s t → R t u → R s u
  emit     : ∀ s e, R s (s.emit e)
  setQueue : ∀ s x, R s (s.setQueue q x)
  store    : ∀ s a bs, R s { s with wb := s.wb ++ [⟨a, bs⟩] }
  drain    : ∀ s, R s s.drain
  dev      : ∀ s d, R s { s with dev := d }

/-- An operation goes on in a related state, or ended by fault entry from a related state, or stops. -/
abbrev Keeps {α : Type} (R : State → State → Prop) (s : State) (x : Res α) : Prop :=
  x.Ends (fun _ t => R s t) (fun t => ∃ u r, R s u ∧ t = u.faultAnswer r) (fun _ => True)

namespace KeptBy

variable {q : Nat} {R : State → State → Prop} (K : KeptBy q R)

include K

theorem bind {α β : Type} {s : State} {x : Res α} {k : α → State → Res β} (hx : Keeps R s x)
    (hk : ∀ a t, R s t → Keeps R t (k a t)) : Keeps R s (x.bind k) :=
  Res.Ends.bind hx fun a t ht => (hk a t ht).mono (fun _ _ h => K.trans ht h)
    (fun _ ⟨u, r, hu, e⟩ => ⟨u, r, K.trans ht hu, e⟩) (fun _ _ => trivial)

/-- What keeps the relation from a related state keeps it. -/
theorem lift {α : Type} {s u : State} {x : Res α} (h : R s u) (hx : Keeps R u x) : Keeps R s x :=
  Res.Ends.mono hx (fun _ _ h' => K.trans h h') (fun _ ⟨v, r, hv, e⟩ => ⟨v, r, K.trans h hv, e⟩) (fun _ _ => trivial)

theorem pure {α : Type} (s : State) (a : α) : Keeps R s (.ok a s) := K.refl s

theorem fault {α : Type} (s : State) (r : Reason) : Keeps (α := α) R s (.ended (s.faultAnswer r)) := ⟨s, r, K.refl s, rfl⟩

theorem barrier (s : State) (k : BarrierKind) : R s (s.barrier k) := by
  cases k
  · exact K.emit s _
  · exact K.trans (K.emit s _) (K.drain _)
  · exact K.trans (K.emit s _) (K.drain _)

theorem regWrite (s : State) (reg : DevReg) (v : Word) : R s (s.regWrite reg v) := K.trans (K.emit s _) (K.dev _ _)

theorem memRead (addr n : Nat) (s : State) : Keeps R s (memRead addr n s) := by
  unfold Machine.memRead; split
  · exact K.emit s _
  · trivial

theorem memWrite (addr : Nat) (bs : List Byte) (s : State) : Keeps R s (memWrite addr bs s) := by
  unfold Machine.memWrite; split
  · exact K.trans (K.store s addr bs) (K.emit _ _)
  · trivial

theorem ringPost (r : Ring) (desc : List Byte) (w : SlotRecord) (s : State) : Keeps R s (ringPost r q desc w s) := by
  unfold Machine.ringPost; split
  · exact K.refl s
  · exact K.bind (K.memWrite _ _ s) fun _ t _ => K.setQueue t _

theorem ringPeek (r : Ring) (slot : Nat) (s : State) : Keeps R s (ringPeek r q slot s) := by
  unfold Machine.ringPeek
  refine K.lift (K.barrier s .read) (K.bind (K.memRead _ _ (s.barrier .read)) fun st t _ => ?_)
  split
  · exact K.bind (K.memRead _ _ t) fun _ u _ => K.refl u
  · exact K.refl t

theorem ringConsume (r : Ring) (k : Nat) (s : State) : Keeps R s (ringConsume r q k s) := by
  unfold Machine.ringConsume; split
  · exact K.setQueue s _
  · trivial

theorem ringTailSync (r : Ring) (s : State) : R s (ringTailSync r q s) := by
  unfold Machine.ringTailSync; split
  · exact K.refl s
  · exact K.trans (K.trans (K.barrier s .write) (K.regWrite _ _ _)) (K.setQueue _ _)

theorem setTag (r : Ring) (h : Nat) (t : Tag) (s : State) : R s (s.setTag r q h t) := K.setQueue s _

theorem poolMarkPosted (r : Ring) (h len : Nat) (s : State) : Keeps R s (poolMarkPosted r q h len s) := by
  unfold Machine.poolMarkPosted; split
  · exact K.setQueue s _
  · trivial

theorem poolMarkCompleted (r : Ring) (h : Nat) (s : State) : Keeps R s (poolMarkCompleted r q h s) := by
  unfold Machine.poolMarkCompleted; split
  · exact K.setTag r h .pend s
  · exact K.fault s _

theorem poolRecycle (r : Ring) (h : Nat) (s : State) : Keeps R s (poolRecycle r q h s) := by
  unfold Machine.poolRecycle
  refine K.bind (K.poolMarkCompleted r h s) fun _ t _ => ?_
  unfold poolRelease
  split
  · exact K.setTag r h .free t
  · exact K.refl t

theorem readFrags (fs : List Frag) (s : State) : Keeps R s (readFrags fs s) := by
  induction fs generalizing s with
  | nil => exact K.refl s
  | cons f fs ih =>
    unfold Machine.readFrags; split
    · exact ih s
    · exact K.bind (K.memRead _ _ s) fun _ t _ => K.bind (ih t) fun _ u _ => K.refl u

theorem stagePieces (last : Nat) (ps : List (List Byte)) (s : State) : Keeps R s (stagePieces q last ps s) := by
  induction ps generalizing s with
  | nil => exact K.refl s
  | cons p ps ih =>
    unfold Machine.stagePieces; split
    · trivial
    · refine K.bind (K.memWrite _ _ s) fun _ t _ => K.bind (K.ringPost _ _ _ t) fun slot u _ => ?_
      cases slot with
      | none => trivial
      | some _ => exact K.bind (K.poolMarkPosted _ _ _ u) fun _ v _ => ih v

theorem txDoneLoop (slot left i : Nat) (gap : Bool) (s : State) : Keeps R s (txDoneLoop q slot left i gap s) := by
  induction left generalizing i gap s with
  | zero => exact K.refl s
  | succ left ih =>
    unfold Machine.txDoneLoop
    refine K.bind (K.ringPeek _ _ s) fun d t _ => ?_
    cases d with
    | none => exact ih _ _ t
    | some _ =>
      dsimp only; split
      · exact K.fault t _
      · exact ih _ _ t

theorem forEach {f : Nat → State → Res Unit} (hf : ∀ i s, Keeps R s (f i s)) (is : List Nat) (s : State) :
    Keeps R s (forEach f is s) := by
  induction is generalizing s with
  | nil => exact K.refl s
  | cons i is ih => exact K.bind (hf i s) fun _ t _ => ih t

theorem txLoop (bmax fuel slots pkts : Nat) (s : State) : Keeps R s (txLoop q bmax fuel slots pkts s) := by
  induction fuel generalizing slots pkts s with
  | zero => exact K.refl s
  | succ fuel ih =>
    unfold Machine.txLoop; split
    · exact K.refl s
    · dsimp only; split
      · exact K.refl s
      · refine K.bind (K.txDoneLoop _ _ _ _ s) fun done t _ => ?_
        split
        · exact K.bind (K.forEach (fun i u => K.poolRecycle _ _ u) _ t) fun _ u _ =>
            K.bind (K.ringConsume _ _ u) fun _ v _ => ih _ _ v
        · exact K.refl t

theorem txPass (b : Half) (s : State) : Keeps R s (txPass q b s) := by
  unfold Machine.txPass; split
  · exact K.refl s
  · refine K.bind (K.txLoop _ _ _ _ s) fun done t _ => ?_
    show R t _
    split
    · exact K.emit t _
    · exact K.refl t

theorem refillLoop (fuel posted : Nat) (s : State) : Keeps R s (refillLoop q fuel posted s) := by
  induction fuel generalizing posted s with
  | zero => exact K.refl s
  | succ fuel ih =>
    unfold Machine.refillLoop; split
    · exact K.refl s
    · split
      · exact K.refl s
      · refine K.bind (K.ringPost _ _ _ s) fun slot t _ => ?_
        cases slot with
        | none => trivial
        | some _ => exact K.bind (K.poolMarkPosted _ _ _ t) fun _ u _ => ih _ u

theorem rxRefill (s : State) : Keeps R s (rxRefill q s) :=
  K.bind (K.refillLoop _ _ s) fun _ t _ => K.ringTailSync .rx t

theorem rxScanLoop (left j : Nat) (recs : List Scanned) (s : State) : Keeps R s (rxScanLoop q left j recs s) := by
  induction left generalizing j recs s with
  | zero => exact K.refl s
  | succ left ih =>
    unfold Machine.rxScanLoop
    refine K.bind (K.ringPeek _ _ s) fun d t _ => ?_
    cases d with
    | none => exact K.refl t
    | some _ =>
      dsimp only; split
      · exact K.fault t _
      · split
        · exact K.refl t
        · exact ih _ _ t

theorem completeAll (recs : List Scanned) (s : State) : Keeps R s (completeAll q recs s) := by
  induction recs generalizing s with
  | nil => exact K.refl s
  | cons x xs ih => exact K.bind (K.poolMarkCompleted _ _ s) fun _ t _ => ih t

theorem recycleAll (recs : List Scanned) (s : State) : Keeps R s (recycleAll q recs s) := by
  induction recs generalizing s with
  | nil => exact K.refl s
  | cons x xs ih => exact K.bind (K.poolRecycle _ _ s) fun _ t _ => ih t

theorem rxApply (o : RxOutcome) (recs : List Scanned) (s : State) : Keeps R s (rxApply q o recs s) := by
  unfold Machine.rxApply
  refine K.bind ?_ fun _ t _ => K.ringConsume _ _ t
  cases o with
  | wait => exact K.refl s
  | deliver => exact K.bind (K.completeAll _ s) fun _ t _ => K.emit t _
  | dropError => exact K.bind (K.recycleAll _ s) fun _ t _ => K.setQueue t _
  | dropLength => exact K.bind (K.recycleAll _ s) fun _ t _ => K.setQueue t _
  | oversize =>
    refine K.bind (K.recycleAll _ s) fun _ t _ => ?_
    show R t _
    split
    · exact K.setQueue t _
    · exact K.trans (K.setQueue t _) (K.setQueue _ _)
  | discardTail => exact K.bind (K.recycleAll _ s) fun _ t _ => K.setQueue t _

theorem rxLoop (bmax fuel consumed units frames : Nat) (s : State) :
    Keeps R s (rxLoop q bmax fuel consumed units frames s) := by
  induction fuel generalizing consumed units frames s with
  | zero => exact K.refl s
  | succ fuel ih =>
    unfold Machine.rxLoop; split
    · exact K.refl s
    · refine K.bind (K.rxScanLoop _ _ _ s) fun scan t _ => ?_
      dsimp only; split
      · exact K.refl t
      · split
        · exact K.refl t
        · exact K.bind (K.rxApply _ _ t) fun _ u _ => ih _ _ _ u

theorem rxPass (b : Half) (s : State) : Keeps R s (rxPass q b s) := by
  unfold Machine.rxPass; split
  · exact K.refl s
  · refine K.bind ?_ fun _ t _ => K.bind (K.rxRefill t) fun _ u _ => K.refl u
    split
    · exact K.rxLoop _ _ _ _ _ s
    · exact K.refl s

end KeptBy

/-! ### Every command -/

/-- A relation kept by every elementary update any command makes. -/
structure Kept (R : State → State → Prop) : Prop where
  queue      : ∀ q, KeptBy q R
  respond    : ∀ s st v, R s (s.respond st v)
  lstate     : ∀ s l, R s { s with lstate := l }
  setRState  : ∀ s r, R s (s.setRState r)
  reason     : ∀ s b, R s { s with faultReason := b }
  polls      : ∀ s b, R s { s with resetPolls := b }
  draws      : ∀ s k, R s { s with draws := k }
  allQueues  : ∀ s qs, R s { s with queues := qs }
  configured : ∀ s nq logn base size, R s { s with nq := nq, logn := logn, regionBase := base, regionSize := size }

namespace Kept

variable {R : State → State → Prop} (K : Kept R)

include K

theorem refl (s : State) : R s s := (K.queue 0).refl s

theorem trans {s t u : State} (h : R s t) (h' : R t u) : R s u := (K.queue 0).trans h h'

theorem regWrite (s : State) (reg : DevReg) (v : Word) : R s (s.regWrite reg v) := (K.queue 0).regWrite s reg v

theorem deviceDisable (s : State) : R s s.deviceDisable := K.trans (K.regWrite s _ _) (K.regWrite _ _ _)

theorem teardown (s : State) : R s s.teardown := by
  unfold State.teardown
  have h : R s { s with queues := mapFirst s.tornQueue s.nq.toNat s.queues, lstate := 0 } :=
    K.trans (K.allQueues s (mapFirst s.tornQueue s.nq.toNat s.queues))
      (K.lstate { s with queues := mapFirst s.tornQueue s.nq.toNat s.queues } 0)
  dsimp only; split
  · exact h
  · exact K.trans h ((K.queue 0).barrier _ _)

theorem enterFault (s : State) (r : Reason) : R s (s.enterFault r) := by
  unfold State.enterFault
  dsimp only; split
  · exact K.refl s
  · refine K.trans ?_ ((K.queue 0).emit _ _)
    refine K.trans ?_ (K.reason _ _)
    refine K.trans ?_ (K.setRState _ _)
    refine K.trans ?_ (K.teardown _)
    split
    · exact K.deviceDisable s
    · exact K.refl s

theorem faultAnswer (s : State) (r : Reason) : R s (s.faultAnswer r) := K.trans (K.enterFault s r) (K.respond _ _ _)

/-- The operations of a queue keep the relation however they end. -/
theorem ends {α : Type} {s : State} {x : Res α} (hx : Keeps R s x) :
    x.Ends (fun _ t => R s t) (fun t => R s t) (fun _ => True) :=
  hx.mono (fun _ _ => id) (fun _ ⟨u, r, hu, e⟩ => e ▸ K.trans hu (K.faultAnswer u r)) (fun _ _ => trivial)

theorem answer {s : State} {x : Res (Status × Word)} (hx : Keeps R s x) {t : State} (h : x.answer = .next t) : R s t := by
  have := K.ends hx
  rcases Res.answer_eq_next.1 h with ⟨a, u, rfl, rfl⟩ | rfl
  · exact K.trans this (K.respond _ _ _)
  · exact this

theorem perQueue {q : BitVec 7} {s t : State} {k : Host.Outcome State Fault Refusal} (hk : k = .next t → R s t)
    (h : perQueue q s k = .next t) : R s t := by
  rcases perQueue_eq_next h with ⟨-, h⟩ | ⟨-, rfl⟩
  · exact hk h
  · exact K.respond _ _ _

theorem answered {s t u : State} {st : Status} {v : Word} (hu : R s u) (h : Machine.answer u st v = .next t) : R s t := by
  rw [answer_eq_next.1 h]
  exact K.trans hu (K.respond _ _ _)

theorem closeWindow (q : Nat) (s : State) : R s (s.closeWindow q) := (K.queue q).setQueue s _

theorem dispatch (q : Nat) (s : State) : Keeps R s (dispatch q s) := by
  unfold Machine.dispatch
  have hc := K.closeWindow q s
  dsimp only; split
  · exact (K.queue q).lift hc (K.refl _)
  · refine (K.queue q).lift hc ((K.queue q).bind ?_ fun _ t _ => (K.queue q).bind ?_ fun _ u _ => ?_)
    · split
      · exact (K.queue q).bind ((K.queue q).txPass _ _) fun _ t _ => K.refl t
      · exact K.refl _
    · split
      · exact (K.queue q).bind ((K.queue q).rxPass _ _) fun _ t _ => K.refl t
      · exact K.refl _
    · show R u _
      split
      · exact K.lstate u _
      · exact K.refl u

theorem tickLoop (qs : List Nat) (d : Nat) (s : State) : Keeps R s (tickLoop qs d s) := by
  induction qs generalizing d s with
  | nil => exact K.refl s
  | cons q qs ih =>
    refine (K.queue q).bind ?_ fun _ t _ => ih _ t
    unfold tickQueue
    have hq : ∀ x, R s (s.setQueue q x) := (K.queue q).setQueue s
    dsimp only; split
    · split
      · exact (K.queue q).lift (hq _) ((K.queue q).bind (K.dispatch q _) fun _ u _ => K.refl u)
      · exact hq _
    · exact K.refl s

theorem programRing (r : Ring) (q : Nat) (s : State) : R s (s.programRing r q) :=
  K.trans (K.trans (K.trans (K.trans (K.regWrite s _ _) (K.regWrite _ _ _)) (K.regWrite _ _ _)) (K.regWrite _ _ _))
    (K.regWrite _ _ _)

theorem programQueues (qs : List Nat) (s : State) : R s (programQueues qs s) := by
  induction qs generalizing s with
  | nil => exact K.refl s
  | cons q qs ih => exact K.trans (K.trans (K.programRing .tx q s) (K.programRing .rx q _)) (ih _)

theorem activate (s : State) : Keeps R s (activate s) := by
  unfold Machine.activate
  dsimp only
  have h := K.trans (K.trans (K.programQueues (List.range s.nq.toNat) s) (K.regWrite _ .rctl 0x00000002))
    (K.regWrite _ .tctl 0x00000002)
  refine (K.queue 0).lift h ?_
  refine (K.queue 0).bind ((K.queue 0).forEach (fun q u => ?_) _ _) fun _ u _ => ?_
  · exact (K.queue q).bind ((K.queue q).rxRefill u) fun _ v _ => K.refl v
  · exact K.trans (K.setRState u .ringsReady) (K.lstate (u.setRState .ringsReady) 0x20)

theorem afterRegRead (s : State) (reg : DevReg) : R s (s.afterRegRead reg) :=
  K.trans ((K.queue 0).emit s _) (K.draws _ _)

theorem resetPoll (s : State) : Keeps R s (resetPoll s) := by
  unfold Machine.resetPoll
  dsimp only
  have h := K.trans (K.polls s (s.resetPolls + 1)) (K.afterRegRead _ .ctrl)
  split
  · exact (K.queue 0).lift h (K.activate _)
  · split
    · exact ⟨_, _, h, rfl⟩
    · exact h

/-- Every command keeps the relation. -/
theorem exec (i : Instr) (s t : State) (h : exec i s = .next t) : R s t := by
  cases i with
  | init nqLess1 logn base size =>
    simp only [Machine.exec, execInit] at h
    iterate 3
      split at h
      · exact K.answered (K.refl s) h
    · refine K.answered ?_ h
      refine K.trans (?_ : R s (if s.rstate = .ringsReady then s.deviceDisable.teardown else s)) ?_
      · split
        · exact K.trans (K.deviceDisable s) (K.teardown _)
        · exact K.refl s
      · generalize (if s.rstate = .ringsReady then s.deviceDisable.teardown else s) = u
        unfold State.initialised
        dsimp only
        refine K.trans ?_ (K.setRState _ _)
        refine K.trans ?_ (K.regWrite _ _ _)
        let n := 2 ^ logn.toNat
        let u1 : State := { u with
          nq := BitVec.ofNat 8 (nqLess1.toNat + 1), logn := logn, regionBase := base, regionSize := size }
        let u2 : State := { u1 with
          queues := List.replicate maxQueues (Queue.fresh n (Params.poolSize u.params n .tx)) }
        have h1 : R u u1 := K.configured u _ _ _ _
        have h2 : R u1 u2 := K.allQueues u1 _
        have h3 : R u2 { u2 with lstate := 0 } := K.lstate u2 0
        have h4 := K.reason { u2 with lstate := 0 } 0
        have h5 := K.polls { u2 with lstate := 0, faultReason := 0 } 0
        exact K.trans (K.trans (K.trans (K.trans h1 h2) h3) h4) h5
  | stop =>
    simp only [Machine.exec, execStop] at h
    split at h
    · exact K.answered (K.refl s) h
    · exact K.answered (K.refl s) h
    · exact K.answered (K.refl s) h
    · exact K.answered (K.trans (K.teardown s) (K.setRState _ _)) h
    · exact K.answered (K.trans (K.trans (K.deviceDisable s) (K.teardown _)) (K.setRState _ _)) h
  | enqueue q frags =>
    refine K.perQueue (fun h => ?_) h
    dsimp only at h
    iterate 5
      split at h
      · exact K.answered (K.refl s) h
    · have Q := K.queue q.toNat
      refine K.answer (Q.bind (Q.readFrags frags s) fun data u _ => Q.bind (Q.stagePieces _ _ u) fun _ v _ => ?_) h
      exact Q.ringTailSync .tx v
  | serviceTx q b =>
    refine K.perQueue (fun h => ?_) h
    refine K.answer ?_ h
    exact (K.queue q.toNat).bind ((K.queue q.toNat).txPass b s) fun _ u _ => K.refl u
  | serviceRx q b =>
    refine K.perQueue (fun h => ?_) h
    refine K.answer ?_ h
    exact (K.queue q.toNat).bind ((K.queue q.toNat).rxPass b s) fun _ u _ => K.refl u
  | refill q =>
    refine K.perQueue (fun h => ?_) h
    split at h
    · exact K.answered (K.refl s) h
    · refine K.answer ?_ h
      exact (K.queue q.toNat).bind ((K.queue q.toNat).rxRefill s) fun _ u _ => K.refl u
  | release r q index =>
    refine K.perQueue (fun h => ?_) h
    split at h
    · exact K.answered (K.refl s) h
    · split at h
      · exact K.answered (K.refl s) h
      · next hp => exact K.answered ((poolRelease_eq_some.1 hp).2 ▸ (K.queue q.toNat).setTag _ _ _ s) h
  | irq q causes =>
    refine K.perQueue (fun h => ?_) h
    split at h
    · cases h; exact K.faultAnswer s _
    split at h
    · exact K.answered (K.refl s) h
    dsimp only at h
    split at h
    · exact K.answered (K.refl s) h
    · have ha : R s (s.accumulate q.toNat (causes &&& causeMask)) := (K.queue q.toNat).setQueue s _
      split at h
      · refine K.trans ha (K.answer ?_ h)
        exact (K.queue q.toNat).bind (K.dispatch q.toNat _) fun _ u _ => K.refl u
      · refine K.answered (K.trans ha ?_) h
        unfold State.openWindow
        dsimp only; split
        · exact K.refl _
        · exact (K.queue q.toNat).setQueue _ _
  | pollLink link speed fd =>
    simp only [Machine.exec, execPollLink] at h
    split at h
    · exact K.answered (K.refl s) h
    split at h
    · exact K.answered (K.refl s) h
    split at h
    · exact K.answered (K.trans (K.lstate s _) ((K.queue 0).emit _ _)) h
    · exact K.answered (K.lstate s _) h
  | tick =>
    simp only [Machine.exec, execTick] at h
    refine K.answer ?_ h
    refine (K.queue 0).bind ?_ fun _ u _ => (K.queue 0).bind ?_ fun _ v _ => K.refl v
    · split
      · exact K.resetPoll s
      · exact K.refl s
    · split
      · exact K.tickLoop _ _ u
      · exact K.refl u
  | setItr q w => exact K.perQueue (fun h => K.answered ((K.queue q.toNat).setQueue s _) h) h
  | isEmpty r q => exact K.perQueue (fun h => K.answered (K.refl s) h) h
  | isFull r q => exact K.perQueue (fun h => K.answered (K.refl s) h) h
  | capacity r q => exact K.perQueue (fun h => K.answered (K.refl s) h) h
  | occupancy r q => exact K.perQueue (fun h => K.answered (K.refl s) h) h
  | readReg q index =>
    simp only [Machine.exec, execReadReg] at h
    split at h
    · split at h
      · exact K.answered (K.refl s) h
      · exact K.answered (K.refl s) h
    · split at h
      · exact K.perQueue (fun h => K.answered (K.refl s) h) h
      · exact K.answered (K.refl s) h
  | poolTag r q index =>
    refine K.perQueue (fun h => ?_) h
    split at h
    · exact K.answered (K.refl s) h
    · exact K.answered (K.refl s) h

end Kept

/-! ### Two uses -/

/-- No command writes the parameters or touches the stream of inputs. -/
theorem exec_params_inputs {i : Instr} {s t : State} (h : exec i s = .next t) : t.params = s.params ∧ t.inputs = s.inputs := by
  have K : Kept (fun s t => t.params = s.params ∧ t.inputs = s.inputs) := by
    refine ⟨fun q => ⟨fun _ => ⟨rfl, rfl⟩, fun h h' => ⟨h'.1.trans h.1, h'.2.trans h.2⟩, ?_, ?_, ?_, ?_, ?_⟩,
      ?_, ?_, ?_, ?_, ?_, ?_, ?_, ?_⟩ <;> intros <;> exact ⟨rfl, rfl⟩
  exact K.exec i s t h

/-- A command writes memory only by draining its write buffer, which keeps the canonical form. -/
theorem exec_wf {i : Instr} {s t : State} (h : exec i s = .next t) (hw : Memory.wf s.mem) : Memory.wf t.mem := by
  have K : Kept (fun s t => Memory.wf s.mem → Memory.wf t.mem) := by
    refine ⟨fun q => ⟨fun _ => id, fun h h' => h' ∘ h, fun _ _ => id, fun _ _ => id, fun _ _ _ => id, wf_drain,
      fun _ _ => id⟩, ?_, ?_, ?_, ?_, ?_, ?_, ?_, ?_⟩ <;> intros <;> assumption
  exact K.exec i s t h hw

end Sys2Proof.Machine
end

