-- ==== Sys2Proof/Laws/PerInstr.lean ====
section
/-! SUPPORT. A statement made of every instruction, one lemma for each: the block's first three checks (30_encoding.md R163) accept the
command that the encoder writes. -/

namespace Sys2Proof.Laws.EncodesLegally

/-- The word has the opcode of the instruction (R156), its reserved fields are zero and its argument block has the length that the
opcode's row of R157 asks for. -/
def Statement (i : Instr) : Prop :=
  i.wellFormed = true →
    Opcode.ofCode (Word.opc i.word) = some i.opcode ∧ i.word &&& i.opcode.reservedMask = 0 ∧
    i.args.length = i.opcode.argWords (Word.imm i.word)

/-- The fields of a word put together are read back from it. -/
theorem opc_ofFields (c : BitVec 8) (r : BitVec 1) (q : BitVec 7) (v : Half) : Word.opc (Word.ofFields c r q v) = c := by
  apply BitVec.eq_of_getLsbD_eq
  intro i hi
  simp only [Word.opc, Word.ofFields, BitVec.getLsbD_extractLsb', BitVec.getLsbD_append]
  simp (disch := omega) only [hi, decide_true, Bool.true_and, show ¬ (24 + i < 16) by omega,
    show ¬ (24 + i - 16 < 7) by omega, show ¬ (24 + i - 16 - 7 < 1) by omega, if_false]
  congr 1
  omega

theorem imm_ofFields (c : BitVec 8) (r : BitVec 1) (q : BitVec 7) (v : Half) : Word.imm (Word.ofFields c r q v) = v := by
  apply BitVec.eq_of_getLsbD_eq
  intro i hi
  simp only [Word.imm, Word.ofFields, BitVec.getLsbD_extractLsb', BitVec.getLsbD_append]
  simp [hi]

theorem ofFields_and (c c' : BitVec 8) (r r' : BitVec 1) (q q' : BitVec 7) (v v' : Half) :
    Word.ofFields c r q v &&& Word.ofFields c' r' q' v' = Word.ofFields (c &&& c') (r &&& r') (q &&& q') (v &&& v') := by
  apply BitVec.eq_of_getLsbD_eq
  intro i hi
  simp only [Word.ofFields, BitVec.getLsbD_append, BitVec.getLsbD_and]
  split
  · rfl
  · split
    · rfl
    · split <;> rfl

/-- The opcode map finds every opcode by its number. -/
theorem ofCode_code (o : Opcode) : Opcode.ofCode o.code = some o := by cases o <;> decide

/-- What is left to show of an instruction: that its own fields meet its row's reserved bits nowhere, and the argument count. -/
theorem of_fields {i : Instr} (r r' : BitVec 1) (q q' : BitVec 7) (v v' : Half)
    (hw : i.word = Word.ofFields i.opcode.code r q v) (hm : i.opcode.reservedMask = Word.ofFields 0 r' q' v')
    (hr : r &&& r' = 0) (hq : q &&& q' = 0) (hv : v &&& v' = 0) (ha : i.wellFormed = true → i.args.length = i.opcode.argWords v) :
    Statement i := by
  intro hwf
  refine ⟨?_, ?_, ?_⟩
  · rw [hw, opc_ofFields, ofCode_code]
  · rw [hw, hm, ofFields_and, hr, hq, hv, show i.opcode.code &&& 0 = 0 from BitVec.and_zero]
    decide
  · rw [hw, imm_ofFields, ha hwf]

theorem length_wordsOfFrags (fs : List Frag) : (wordsOfFrags fs).length = 3 * fs.length := by
  induction fs with
  | nil => rfl
  | cons f fs ih => simp only [wordsOfFrags, List.length_cons, ih]; omega

theorem init (q : BitVec 7) (logn : BitVec 4) (base : Addr) (size : Word) : Statement (.init q logn base size) :=
  of_fields 0 1 q 0 (logn.setWidth 16) 0xFFF0 rfl (show _ = _ by dsimp only [Instr.opcode, Opcode.reservedMask]; decide) (by decide) BitVec.and_zero (by revert logn; decide) (fun _ => rfl)

theorem stop  : Statement (.stop) :=
  of_fields 0 1 0 0x7F 0 0xFFFF rfl (show _ = _ by dsimp only [Instr.opcode, Opcode.reservedMask]; decide) (by decide) (by decide) (by decide) (fun _ => rfl)

theorem enqueue (q : BitVec 7) (frags : List Frag) : Statement (.enqueue q frags) :=
  of_fields 0 1 q 0 (BitVec.ofNat 16 frags.length) 0 rfl (show _ = _ by dsimp only [Instr.opcode, Opcode.reservedMask]; decide) (by decide) BitVec.and_zero BitVec.and_zero fun hwf => by
    simp only [Instr.wellFormed, decide_eq_true_eq] at hwf
    simp only [Instr.args, Instr.opcode, Opcode.argWords, length_wordsOfFrags, BitVec.toNat_ofNat, Nat.mod_eq_of_lt hwf]

theorem serviceTx (q : BitVec 7) (b : Half) : Statement (.serviceTx q b) :=
  of_fields 0 1 q 0 b 0 rfl (show _ = _ by dsimp only [Instr.opcode, Opcode.reservedMask]; decide) (by decide) BitVec.and_zero BitVec.and_zero (fun _ => rfl)

theorem serviceRx (q : BitVec 7) (b : Half) : Statement (.serviceRx q b) :=
  of_fields 0 1 q 0 b 0 rfl (show _ = _ by dsimp only [Instr.opcode, Opcode.reservedMask]; decide) (by decide) BitVec.and_zero BitVec.and_zero (fun _ => rfl)

theorem refill (q : BitVec 7) : Statement (.refill q) :=
  of_fields 0 1 q 0 0 0xFFFF rfl (show _ = _ by dsimp only [Instr.opcode, Opcode.reservedMask]; decide) (by decide) BitVec.and_zero (by decide) (fun _ => rfl)

theorem release (r : Ring) (q : BitVec 7) (h : Half) : Statement (.release r q h) :=
  of_fields r.bit 0 q 0 h 0 rfl (show _ = _ by dsimp only [Instr.opcode, Opcode.reservedMask]; decide) BitVec.and_zero BitVec.and_zero BitVec.and_zero (fun _ => rfl)

theorem irq (q : BitVec 7) (c : Half) : Statement (.irq q c) :=
  of_fields 0 1 q 0 c 0 rfl (show _ = _ by dsimp only [Instr.opcode, Opcode.reservedMask]; decide) (by decide) BitVec.and_zero BitVec.and_zero (fun _ => rfl)

theorem pollLink (link speed : BitVec 2) (fd : BitVec 1) : Statement (.pollLink link speed fd) :=
  of_fields 0 1 0 0x7F ((fd ++ speed ++ link).setWidth 16) 0xFFE0 rfl (show _ = _ by dsimp only [Instr.opcode, Opcode.reservedMask]; decide) (by decide) (by decide) (by revert link speed fd; decide) (fun _ => rfl)

theorem tick  : Statement (.tick) :=
  of_fields 0 1 0 0x7F 0 0xFFFF rfl (show _ = _ by dsimp only [Instr.opcode, Opcode.reservedMask]; decide) (by decide) (by decide) (by decide) (fun _ => rfl)

theorem setItr (q : BitVec 7) (w : Half) : Statement (.setItr q w) :=
  of_fields 0 1 q 0 w 0 rfl (show _ = _ by dsimp only [Instr.opcode, Opcode.reservedMask]; decide) (by decide) BitVec.and_zero BitVec.and_zero (fun _ => rfl)

theorem isEmpty (r : Ring) (q : BitVec 7) : Statement (.isEmpty r q) :=
  of_fields r.bit 0 q 0 0 0xFFFF rfl (show _ = _ by dsimp only [Instr.opcode, Opcode.reservedMask]; decide) BitVec.and_zero BitVec.and_zero (by decide) (fun _ => rfl)

theorem isFull (r : Ring) (q : BitVec 7) : Statement (.isFull r q) :=
  of_fields r.bit 0 q 0 0 0xFFFF rfl (show _ = _ by dsimp only [Instr.opcode, Opcode.reservedMask]; decide) BitVec.and_zero BitVec.and_zero (by decide) (fun _ => rfl)

theorem capacity (r : Ring) (q : BitVec 7) : Statement (.capacity r q) :=
  of_fields r.bit 0 q 0 0 0xFFFF rfl (show _ = _ by dsimp only [Instr.opcode, Opcode.reservedMask]; decide) BitVec.and_zero BitVec.and_zero (by decide) (fun _ => rfl)

theorem occupancy (r : Ring) (q : BitVec 7) : Statement (.occupancy r q) :=
  of_fields r.bit 0 q 0 0 0xFFFF rfl (show _ = _ by dsimp only [Instr.opcode, Opcode.reservedMask]; decide) BitVec.and_zero BitVec.and_zero (by decide) (fun _ => rfl)

theorem readReg (q : BitVec 7) (i : Half) : Statement (.readReg q i) :=
  of_fields 0 1 q 0 i 0 rfl (show _ = _ by dsimp only [Instr.opcode, Opcode.reservedMask]; decide) (by decide) BitVec.and_zero BitVec.and_zero (fun _ => rfl)

theorem poolTag (r : Ring) (q : BitVec 7) (h : Half) : Statement (.poolTag r q h) :=
  of_fields r.bit 0 q 0 h 0 rfl (show _ = _ by dsimp only [Instr.opcode, Opcode.reservedMask]; decide) BitVec.and_zero BitVec.and_zero BitVec.and_zero (fun _ => rfl)

end Sys2Proof.Laws.EncodesLegally
end

