-- ==== Sys2Proof/Laws/Step.lean ====
section
/-! SUPPORT. Everything a step can do, what a device move does to memory, and the parts of a dispatch. -/

namespace Sys2Proof.Machine

/-- A step that goes on: nothing was to come, or a command ran or was refused, or the device moved, or host memory was written. -/
theorem step_cases {s t : State} (h : step s = .next t) : s.params.Valid ∧
    ((s.inputs = [] ∧ t = s) ∨
     (∃ w args rest i, s.inputs = .command w args :: rest ∧ decode w args = .ok i ∧ exec i (s.withInputs rest) = .next t) ∨
     (∃ w args rest e, s.inputs = .command w args :: rest ∧ decode w args = .error e ∧
       t = refuseCommand e (s.withInputs rest)) ∨
     (∃ m rest, s.inputs = .device m :: rest ∧ moveOutcome (deviceMove m (s.withInputs rest)) = .next t) ∨
     (∃ addr bytes rest, s.inputs = .hostWrite addr bytes :: rest ∧ t = hostWrite addr bytes (s.withInputs rest))) := by
  unfold step at h
  split at h
  · next hv =>
    refine ⟨hv, ?_⟩
    split at h
    · next hi => cases h; exact .inl ⟨hi, rfl⟩
    · next w args rest hi =>
      split at h
      · next i hd => exact .inr (.inl ⟨w, args, rest, i, hi, hd, h⟩)
      · next e hd => cases h; exact .inr (.inr (.inl ⟨w, args, rest, e, hi, hd, rfl⟩))
    · next m rest hi => exact .inr (.inr (.inr (.inl ⟨m, rest, hi, h⟩)))
    · next addr bytes rest hi => cases h; exact .inr (.inr (.inr (.inr ⟨addr, bytes, rest, hi, rfl⟩)))
  · cases h

theorem moveOutcome_eq_next {x : Res Unit} {t : State} : moveOutcome x = .next t ↔ x = .ok () t ∨ x = .ended t := by
  cases x <;> simp [moveOutcome]

/-- Everything a device write can do. -/
theorem deviceWrite_ends (addr : Nat) (bytes : List Byte) (s : State) :
    (deviceWrite addr bytes s).Ends
      (fun _ t => s.params.Backs addr bytes.length ∧ t = { s with mem := Memory.setBytes s.mem addr bytes })
      (fun _ => False) (fun f => f = .memoryNotBacked) := by
  unfold deviceWrite
  split
  · next h => exact ⟨h, rfl⟩
  · exact rfl

/-- What a device's writeback keeps: the canonical form. -/
theorem wf_deviceWrite (addr : Nat) (bytes : List Byte) (s : State) (h : Memory.wf s.mem) :
    (deviceWrite addr bytes s).Ends (fun _ t => Memory.wf t.mem) (fun _ => False) (fun _ => True) :=
  (deviceWrite_ends addr bytes s).mono (fun _ _ hp => hp.2 ▸ Memory.wf_setBytes bytes s.mem addr h) (fun _ => id)
    (fun _ _ => trivial)

theorem wf_rxWriteback (q slot : Nat) (d : RxDraw) (s : State) (h : Memory.wf s.mem) :
    (rxWriteback q slot d s).Ends (fun _ t => Memory.wf t.mem) (fun _ => False) (fun _ => True) :=
  (wf_deviceWrite _ _ s h).bind fun _ t ht => wf_deviceWrite _ _ t ht

/-- Every device move keeps the canonical form of memory. -/
theorem wf_deviceMove (m : Move) (s : State) (h : Memory.wf s.mem) :
    (deviceMove m s).Ends (fun _ t => Memory.wf t.mem) (fun _ => False) (fun _ => True) := by
  have head : ∀ r q (w : State → Res Unit), (w s).Ends (fun _ t => Memory.wf t.mem) (fun _ => False) (fun _ => True) →
      (completeHead r q w s).Ends (fun _ t => Memory.wf t.mem) (fun _ => False) (fun _ => True) := by
    intro r q w hw
    refine Res.Ends.bind (P := fun _ t => Memory.wf t.mem) ?_ fun _ t ht => ht
    split
    · exact h
    · exact hw
  have past : ∀ r q slot (w : State → Res Unit), (w s).Ends (fun _ t => Memory.wf t.mem) (fun _ => False) (fun _ => True) →
      (completeAt r q slot w s).Ends (fun _ t => Memory.wf t.mem) (fun _ => False) (fun _ => True) :=
    fun r q slot w hw => Res.Ends.bind hw fun _ t ht => ht
  cases m with
  | txComplete q x =>
    unfold deviceMove; dsimp only; split
    · exact head .tx q _ (wf_deviceWrite _ _ s h)
    · exact h
  | rxComplete q d =>
    unfold deviceMove; dsimp only; split
    · exact head .rx q _ (wf_rxWriteback _ _ d s h)
    · exact h
  | resetDone =>
    unfold deviceMove; dsimp only; split
    · exact h
    · exact h
  | txCompleteAt q k x =>
    unfold deviceMove; dsimp only; split
    · exact past .tx q _ _ (wf_deviceWrite _ _ s h)
    · exact h
  | rxCompleteAt q k d =>
    unfold deviceMove; dsimp only; split
    · exact past .rx q _ _ (wf_rxWriteback _ _ d s h)
    · exact h

/-- When a completion away from the head may be made (48_device_agent.md R510, R520). -/
theorem completionAtEnabled_iff {s : State} {r : Ring} {q k : Nat} : s.completionAtEnabled r q k = true ↔
    s.params.deviceConformant = false ∧ s.completionEnabled r q = true ∧ 0 < k ∧ k < s.windowSize r q ∧
      (s.headSlot r q + k) % s.n ∉ (s.dev.ring r q).done := by
  simp [State.completionAtEnabled, and_assoc]

/-- The data a device may draw for the descriptor at its head (48_device_agent.md R513, R520). -/
theorem admitsDraw_iff {p : Params} {d : RxDraw} : Params.admitsDraw p d = true ↔
    if p.deviceConformant then d.data.length = p.bufSize ∨ (eopBit d.st = true ∧ d.data.length < p.bufSize)
    else d.data.length ≤ 0xFFFF := by
  unfold Params.admitsDraw
  split <;> simp

/-- A part that ends in RingsReady goes on with the next one. -/
@[simp] theorem andThen_ready {t : State} (h : t.rstate = .ringsReady) (k : State → Host.Outcome State Fault Refusal) :
    andThen (.next t) k = k t := if_pos h
/-- A part that ends outside RingsReady, a fault entered, ends the dispatch. -/
@[simp] theorem andThen_left {t : State} (h : t.rstate ≠ .ringsReady) (k : State → Host.Outcome State Fault Refusal) :
    andThen (.next t) k = .next t := if_neg h
@[simp] theorem andThen_fault (f : Fault) (k : State → Host.Outcome State Fault Refusal) : andThen (.fault f) k = .fault f := rfl
@[simp] theorem andThen_refused (r : Refusal) (k : State → Host.Outcome State Fault Refusal) :
    andThen (.refused r) k = .refused r := rfl

/-- How a dispatch goes on, said from its end: through the part, or because the part ended it. -/
theorem andThen_cases {x : Host.Outcome State Fault Refusal} {k : State → Host.Outcome State Fault Refusal} {t : State}
    (h : andThen x k = .next t) :
    (∃ u, x = .next u ∧ u.rstate = .ringsReady ∧ k u = .next t) ∨ (x = .next t ∧ t.rstate ≠ .ringsReady) := by
  cases x with
  | next u =>
    by_cases hu : u.rstate = .ringsReady
    · exact .inl ⟨u, rfl, hu, by rwa [andThen_ready hu] at h⟩
    · rw [andThen_left hu] at h; cases h; exact .inr ⟨rfl, hu⟩
  | fault f => cases h
  | refused r => cases h

end Sys2Proof.Machine
end

