-- ==== Sys2Proof/Tests/Slice0.lean ====
section
/-! SUPPORT. Tests by hand calculation from spec/, and a witness for the hypotheses of each obligation. -/

namespace Sys2Proof.Tests

open Sys2Proof Sys2Proof.Machine

set_option Elab.async false

/-! ### Well-formedness -/

theorem test_wellFormed_refuses_long_enqueue : Instr.wellFormed (.enqueue 0 (List.replicate 65536 ⟨0, 0⟩)) = false := by
  rw [Instr.wellFormed, List.length_replicate]; decide

theorem test_wellFormed_takes_longest_enqueue : Instr.wellFormed (.enqueue 0 (List.replicate 65535 ⟨0, 0⟩)) = true := by
  rw [Instr.wellFormed, List.length_replicate]; decide

/-! ### Decoding: OPC | R | Q | IMM written out bit by bit (30_encoding.md R150, R156, R157) -/

theorem test_decode_init : decode 0b00000001_0_0000001_000000000000_0010#32 [0x100000, 1, 0x9000]
    = .ok (.init 1 2 0x100100000 0x9000) := by decide
theorem test_decode_stop : decode 0b00000010_0_0000000_0000000000000000#32 [] = .ok .stop := by decide
theorem test_decode_enqueue : decode 0b00000011_0_0000001_0000000000000001#32 [0x200000, 2, 60]
    = .ok (.enqueue 1 [⟨0x200200000, 60⟩]) := by decide
theorem test_decode_serviceTx : decode 0b00000100_0_0000000_0000000000000001#32 [] = .ok (.serviceTx 0 1) := by decide
theorem test_decode_serviceRx : decode 0b00000101_0_0000000_0000000000000001#32 [] = .ok (.serviceRx 0 1) := by decide
theorem test_decode_refill : decode 0b00000110_0_1111111_0000000000000000#32 [] = .ok (.refill 127) := by decide
theorem test_decode_release : decode 0b00000111_1_0000000_0000000000000101#32 [] = .ok (.release .rx 0 5) := by decide
theorem test_decode_irq : decode 0b00001000_0_0000000_1000000010000000#32 [] = .ok (.irq 0 0x8080) := by decide
theorem test_decode_pollLink : decode 0b00001001_0_0000000_00000000000_1_10_01#32 [] = .ok (.pollLink 1 2 1) := by decide
theorem test_decode_tick : decode 0b00001010_0_0000000_0000000000000000#32 [] = .ok .tick := by decide
theorem test_decode_setItr : decode 0b00001011_0_0000010_0000000000000011#32 [] = .ok (.setItr 2 3) := by decide
theorem test_decode_isEmpty : decode 0b00001100_0_0000001_0000000000000000#32 [] = .ok (.isEmpty .tx 1) := by decide
theorem test_decode_isFull : decode 0b00001101_1_0000000_0000000000000000#32 [] = .ok (.isFull .rx 0) := by decide
theorem test_decode_capacity : decode 0b00001110_0_0000000_0000000000000000#32 [] = .ok (.capacity .tx 0) := by decide
theorem test_decode_occupancy : decode 0b00001111_1_0000011_0000000000000000#32 [] = .ok (.occupancy .rx 3) := by decide
theorem test_decode_readReg : decode 0b00010000_0_0000000_0000000100001111#32 [] = .ok (.readReg 0 0x10F) := by decide
theorem test_decode_poolTag : decode 0b00010001_1_0000000_0000000000000011#32 [] = .ok (.poolTag .rx 0 3) := by decide

/-- R158: opcodes 0x00 and 0x12 are reserved. -/
theorem test_decode_reserved_opcodes : decode 0 [] = .error .reservedOpcode ∧ decode 0x12000000 [] = .error .reservedOpcode ∧
    decode 0xFF7FFFFF [] = .error .reservedOpcode := by decide
/-- 95_test_vectors.md E4, E10: a reserved bit of STOP; an argument word too many for TICK. -/
theorem test_decode_reserved_field : decode 0x02000001 [] = .error .reservedField ∧ decode 0x0A000000 [1] = .error .argumentCount := by
  decide
/-- The order of R163: a reserved field is found before a wrong argument count. -/
theorem test_decode_field_before_count : decode 0x03800001 [1, 2, 3] = .error .reservedField := by decide

/-- R165: the worked assembler line of INIT. -/
theorem test_asm_init : (Instr.init 0 3 0x100000 0x11000).asm = "INIT 1, 3, 1048576, 69632" := by decide +kernel

/-- The opcode table's numbering: bits above nbits are zero, an argument block of zeros is supplied. -/
theorem test_table_enqueue : decodeTableWord 32 0x03000001 = some (.enqueue 0 [⟨0, 0⟩]) := by decide
theorem test_table_init : decodeTableWord 128 0x00009000000000000010000001000002 = some (.init 0 2 0x100000 0x9000) := by decide

/-! ### Small states -/

/-- What an outcome's next state satisfies, as a Bool. -/
def nextSat (x : Host.Outcome State Fault Refusal) (p : State → Bool) : Bool :=
  match x with
  | .next t    => p t
  | .fault _   => false
  | .refused _ => false

theorem exists_of_nextSat {x : Host.Outcome State Fault Refusal} {p : State → Bool} (h : nextSat x p = true) :
    ∃ t, x = .next t ∧ p t = true := by
  cases x with
  | next t => exact ⟨t, rfl, h⟩
  | fault f => cases h
  | refused r => cases h

/-- An answer OK (or another status) with a value. -/
def answers (t : State) (st : Status) (v : Word) : Bool := t.response == some ⟨st, v⟩

/-- One queue of rings of two slots, RX slot 0 posted with buffer 0. -/
def liveQueue : Queue := { Queue.fresh 2 2 with rx := ⟨1, 0, 1⟩, rxPool := ⟨[.hw, .free], [2048, 0]⟩ }

/-- The queues of a configuration of one queue. -/
def oneQueue (x : Queue) : List Queue := x :: List.replicate 127 (Queue.fresh 2 2)

/-- RingsReady with one queue, N = 2, the region at 0x100000, the link up. -/
def live : State := { State.reset with
  rstate := .ringsReady, lstate := 0x1A, gen := 2, nq := 1, logn := 1, resetPolls := 1,
  regionBase := 0x100000, regionSize := 0x5000, queues := oneQueue liveQueue,
  dev := { Device.powerOn with
    rxEn := true, txEn := true,
    tx := ⟨0x100000, 32, 0, 0, []⟩ :: List.replicate 127 DevRing.zero,
    rx := ⟨0x100020, 32, 0, 1, []⟩ :: List.replicate 127 DevRing.zero } }

/-- live with another first queue. -/
def liveWith (x : Queue) : State := { live with queues := oneQueue x }

/-- live with bytes in memory. -/
def withBytes (s : State) (a : Nat) (bs : List Byte) : State := { s with mem := Memory.setBytes [] a bs }

/-- A queue whose TX slot 0 holds a packet of one descriptor, buffer 0. -/
def sentQueue : Queue := { liveQueue with
  tx := ⟨1, 0, 1⟩, swTx := [⟨0, 0, true⟩, ⟨0, 0, false⟩], txPool := ⟨[.hw, .free], [60, 0]⟩ }

/-- live with a packet sent, its descriptor's STA byte as given. -/
def sent (sta : Byte) : State := withBytes { liveWith sentQueue with
  dev := { live.dev with tx := ⟨0x100000, 32, 0, 1, []⟩ :: List.replicate 127 DevRing.zero } } 0x10000C [sta]

/-- live with an RX writeback in slot 0: bytes 8 to 15 of its descriptor. -/
def received (len : Nat) (st er : Byte) : State := withBytes live 0x100028 (put16 len ++ [0, 0, st, er, 0, 0])

/-- A queue of rings of four slots with one packet of two descriptors in TX slots 0 and 1. -/
def gapQueue : Queue := { Queue.fresh 4 4 with
  tx := ⟨2, 0, 2⟩, swTx := [⟨0, 1, false⟩, ⟨1, 1, true⟩, ⟨0, 0, false⟩, ⟨0, 0, false⟩],
  txPool := ⟨[.hw, .hw, .free, .free], [2048, 52, 0, 0]⟩ }

/-- RingsReady with N = 4 and that packet, slot 1 done and slot 0 not. -/
def gap : State := withBytes { live with
  logn := 2, regionSize := 0x9000, queues := gapQueue :: List.replicate 127 (Queue.fresh 4 4) } 0x10001C [1]

/-- The same packet, slot 0 done and slot 1 not. -/
def halfSent : State := { gap with mem := Memory.setBytes [] 0x10000C [1] }

/-- RingsReady with N = 4 and the given number of RX slots posted, a frame of two descriptors in the first two: the first names len
bytes and has error bits er, the second 52 bytes. -/
def twoReceived (posted : Nat) (len : Nat) (er : Byte) : State := { live with
  logn := 2, regionSize := 0x9000,
  queues := { Queue.fresh 4 4 with
    rx := ⟨BitVec.ofNat 16 posted, 0, BitVec.ofNat 16 posted⟩,
    swRx := (List.range 4).map (fun i => ⟨BitVec.ofNat 16 i⟩),
    rxPool := ⟨(List.range 4).map (fun i => if i < posted then .hw else .free), [2048, 2048, 2048, 0]⟩ } ::
    List.replicate 127 (Queue.fresh 4 4),
  mem := Memory.setBytes (Memory.setBytes [] 0x100048 (put16 len ++ [0, 0, 1, er])) 0x100058 [52, 0, 0, 0, 3] }

/-- Resetting, waiting for the device. -/
def resetting : State := { State.reset with
  rstate := .resetting, gen := 1, nq := 1, logn := 1, regionBase := 0x100000, regionSize := 0x5000,
  queues := List.replicate 128 (Queue.fresh 2 2), dev := { Device.powerOn with resetting := true } }

/-- Resetting, the device's reset acknowledged. -/
def acknowledged : State := { resetting with dev := Device.powerOn }

/-- Stopped after that configuration. -/
def stopped : State := { resetting with rstate := .stopped, gen := 3, dev := Device.powerOn }

/-- live with all of the RX pool Free. -/
def unfilled : State := { live with queues := oneQueue (Queue.fresh 2 2), dev := { live.dev with
  rx := ⟨0x100020, 32, 0, 0, []⟩ :: List.replicate 127 DevRing.zero } }

/-! ### One step of each command -/

/-- INIT (R400): the worked size of R111 for N = 2, one queue: 0x1000 + 4 * 0x1000. -/
theorem test_init_starts_reset : nextSat (exec (.init 0 1 0x100000 0x5000) State.reset) (fun t =>
    answers t .okPending 0 && t.rstate == .resetting && t.nq == 1 && t.gen == 1 &&
    t.events == [.regWrite 0x0000 0x04000000]) = true := by decide +kernel
theorem test_init_needs_whole_region : nextSat (exec (.init 0 1 0x100000 0x4FFF) State.reset) (fun t =>
    answers t .inval 0 && t.rstate == .uninitialized) = true := by decide +kernel

/-- STOP (R415, R416): the posted buffer is Free again. -/
theorem test_stop_tears_down : nextSat (exec .stop live) (fun t =>
    answers t .ok 0 && t.rstate == .stopped && t.gen == 3 && t.tag .rx 0 0 == .free && !t.dev.rxEn) = true := by decide +kernel

/-- ENQUEUE (R300, R301): the descriptor in slot 0 names buffer 0 at 0x101000, LEN 60, CMD 0x0B. -/
theorem test_enqueue_writes_descriptor : nextSat (exec (.enqueue 0 [⟨0x200000, 60⟩]) live) (fun t =>
    answers t .ok 0 && Memory.bytes t.mem 0x100000 16 == [0x00, 0x10, 0x10, 0, 0, 0, 0, 0, 60, 0, 0, 0x0B, 0, 0, 0, 0] &&
    (t.dev.ring .tx 0).tail == 1 && t.tag .tx 0 0 == .hw) = true := by decide +kernel
theorem test_enqueue_ring_full : nextSat (exec (.enqueue 0 [⟨0x200000, 60⟩]) (sent 0)) (fun t =>
    answers t .backpressure 0) = true := by decide +kernel

/-- SERVICE_TX (R310): one packet of one slot done; or not done. -/
theorem test_serviceTx_frees : nextSat (exec (.serviceTx 0 0) (sent 1)) (fun t =>
    answers t .ok 0x00010001 && t.tag .tx 0 0 == .free && t.ntc .tx 0 == 1 &&
    t.events.getLast? == some (.txCapacity 0)) = true := by decide +kernel
theorem test_serviceTx_order : nextSat (exec (.serviceTx 0 0) gap) (fun t =>
    answers t .protocol 2 && t.rstate == .faulted && t.faultReason == 2) = true := by decide +kernel

/-- SERVICE_RX (R353, R358): a frame of 64 bytes delivered; a frame with a CRC error dropped and counted. -/
theorem test_serviceRx_delivers : nextSat (exec (.serviceRx 0 0) (received 64 3 0)) (fun t =>
    answers t .ok 0x00010001 && t.tag .rx 0 0 == .pend && t.tag .rx 0 1 == .hw &&
    t.events.contains (.deliver 0 ⟨0, 1, [(0, 64)], 64, 3, 0⟩)) = true := by decide +kernel
theorem test_serviceRx_drops : nextSat (exec (.serviceRx 0 0) (received 64 3 1)) (fun t =>
    answers t .ok 0x00000001 && (t.queue 0).rxDrops == 1 && t.tag .rx 0 0 == .hw) = true := by decide +kernel

/-- REFILL (R370, R371): one buffer fits a ring of two slots; the tail register follows. -/
theorem test_refill_posts : nextSat (exec (.refill 0) unfilled) (fun t =>
    answers t .ok 1 && t.tag .rx 0 0 == .hw && (t.dev.ring .rx 0).tail == 1 &&
    Memory.bytes t.mem 0x100020 16 == [0x00, 0x30, 0x10, 0, 0, 0, 0, 0, 0, 0, 0, 0, 0, 0, 0, 0]) = true := by decide +kernel

/-- RELEASE (R270): the hardware's buffer is refused; one pending delivery is freed. -/
theorem test_release_refuses_hw : nextSat (exec (.release .rx 0 0) live) (fun t =>
    answers t .badHandle 0 && t.tag .rx 0 0 == .hw) = true := by decide +kernel
theorem test_release_frees_pend : nextSat (exec (.release .rx 0 1)
    (liveWith { liveQueue with rxPool := ⟨[.hw, .pend], [2048, 2048]⟩ })) (fun t =>
    answers t .ok 0 && t.tag .rx 0 1 == .free) = true := by decide +kernel

/-- IRQ (R450): a link cause with no window sets LCP; with a window it waits. -/
theorem test_irq_sets_lcp : nextSat (exec (.irq 0 4) live) (fun t => answers t .ok 1 && t.lstate == 0x3A) = true := by
  decide +kernel
theorem test_irq_opens_window : nextSat (exec (.irq 0 1) (liveWith { liveQueue with itr := 3 })) (fun t =>
    answers t .ok 0 && (t.queue 0).armed && (t.queue 0).cnt == 3 && (t.queue 0).acc == 1) = true := by decide +kernel

/-- POLL_LINK (R420): speed and duplex are kept only when the link is up. -/
theorem test_pollLink_down : nextSat (exec (.pollLink 0 2 1) live) (fun t =>
    answers t .ok 1 && t.lstate == 0 && t.events == [.linkChanged 0 0 false]) = true := by decide +kernel
theorem test_pollLink_reserved_value : nextSat (exec (.pollLink 3 0 0) live) (fun t => answers t .inval 0) = true := by
  decide +kernel

/-- TICK (R410, R411, R470): an acknowledged reset brings the rings up, LCP set; a closing window is counted. -/
theorem test_tick_activates : nextSat (exec .tick acknowledged) (fun t =>
    answers t .ok 0 && t.rstate == .ringsReady && t.lstate == 0x20 && t.ntu .rx 0 == 1 && (t.dev.ring .rx 0).tail == 1) = true := by
  decide +kernel
theorem test_tick_closes_window : nextSat (exec .tick (liveWith { liveQueue with armed := true, cnt := 1, acc := 4 })) (fun t =>
    answers t .ok 1 && !(t.queue 0).armed && (t.queue 0).acc == 0 && t.lstate == 0x3A) = true := by decide +kernel

/-- SET_ITR (R460): an open window keeps its count. -/
theorem test_setItr_keeps_count : nextSat (exec (.setItr 0 9) (liveWith { liveQueue with armed := true, cnt := 2 })) (fun t =>
    answers t .ok 0 && (t.queue 0).itr == 9 && (t.queue 0).cnt == 2) = true := by decide +kernel

/-- The queries (R220 to R223, R275): TX empty; RX full with its one usable slot; N = 2; one outstanding; buffer 0 with the hardware. -/
theorem test_isEmpty : nextSat (exec (.isEmpty .tx 0) live) (fun t => answers t .ok 1) = true := by decide +kernel
theorem test_isFull : nextSat (exec (.isFull .rx 0) live) (fun t => answers t .ok 1) = true := by decide +kernel
theorem test_capacity : nextSat (exec (.capacity .tx 0) live) (fun t => answers t .ok 2) = true := by decide +kernel
theorem test_occupancy : nextSat (exec (.occupancy .rx 0) live) (fun t => answers t .ok 1) = true := by decide +kernel
theorem test_poolTag : nextSat (exec (.poolTag .rx 0 0) live) (fun t => answers t .ok 1) = true := by decide +kernel
theorem test_poolTag_past_pool : nextSat (exec (.poolTag .rx 0 2) live) (fun t => answers t .inval 0) = true := by decide +kernel

/-- READ_REG (10_state.md R80): the ends of both ranges, and the gaps beside them. -/
theorem test_readReg_ranges :
    nextSat (exec (.readReg 0 0x000) live) (fun t => answers t .ok 2) = true ∧
    nextSat (exec (.readReg 0 0x009) live) (fun t => answers t .ok 0x5000) = true ∧
    nextSat (exec (.readReg 0 0x00A) live) (fun t => answers t .inval 0) = true ∧
    nextSat (exec (.readReg 0 0x0FF) live) (fun t => answers t .inval 0) = true ∧
    nextSat (exec (.readReg 0 0x100) live) (fun t => answers t .ok 0) = true ∧
    nextSat (exec (.readReg 0 0x111) live) (fun t => answers t .ok 0) = true ∧
    nextSat (exec (.readReg 0 0x112) live) (fun t => answers t .inval 0) = true := by decide +kernel
theorem test_readReg_queue_of_global : nextSat (exec (.readReg 1 0x001) live) (fun t => answers t .inval 0) = true := by
  decide +kernel

/-- The first instruction from reset (30_encoding.md R151). -/
theorem test_step_runs_first_command : nextSat (step (State.reset.withFetchWord 32 0x02000000)) (fun t => answers t .ok 0) = true ∧
    nextSat (step (State.reset.withFetchWord 32 0x12000000)) (fun t => answers t .illegal 0) = true ∧
    nextSat (step (State.reset.withFetchWord 32 0x01000001)) (fun t => answers t .inval 0) = true := by decide +kernel

/-- The device (R512, R513): DD is set in STA, the head moves on. -/
theorem test_device_completes_tx : nextSat (step { sent 0 with inputs := [.device (.txComplete 0 0xFF)] }) (fun t =>
    Memory.byte t.mem 0x10000C == 0x0F && (t.dev.ring .tx 0).head == 1) = true := by decide +kernel
theorem test_device_not_enabled : nextSat (step { live with inputs := [.device (.txComplete 0 0)] }) (fun t =>
    t == { live with inputs := [] }) = true := by decide +kernel

/-- R510: a slot the device has completed is completed no second time. The window is slots 0 to 2; slot 1 may be, slot 2 is done. -/
theorem test_device_completes_once :
    let s := { gap with
      params := { Params.defaults with deviceConformant := false },
      dev := { gap.dev with tx := ⟨0x100000, 64, 0, 3, [2]⟩ :: List.replicate 127 DevRing.zero } }
    nextSat (step { s with inputs := [.device (.txCompleteAt 0 1 0)] }) (fun t => (t.dev.ring .tx 0).done == [1, 2]) = true ∧
    nextSat (step { s with inputs := [.device (.txCompleteAt 0 2 0xFF)] }) (fun t => t == s) = true := by decide +kernel
/-- R513: a conformant device does not stop short in the middle of a frame. -/
theorem test_device_fills_buffers :
    let s := { live with params := { Params.defaults with deviceConformant := true } }
    nextSat (step { s with inputs := [.device (.rxComplete 0 ⟨[1], 0x01, 0, 0, 0⟩)] }) (fun t => t == s) = true ∧
    nextSat (step { s with inputs := [.device (.rxComplete 0 ⟨[1], 0x02, 0, 0, 0⟩)] }) (fun t =>
      (t.dev.ring .rx 0).head == 1) = true := by decide +kernel

/-- Memory (20_memory.md R104): little-endian, and writing the unlisted value removes the entry. -/
theorem test_memory_canonical : Memory.setBytes [(5, 1)] 5 [0, 2] = [(6, 2)] ∧ put32 0x01020304 = [4, 3, 2, 1] ∧
    le16 [0x34, 0x12] 0 = 0x1234 := by decide

/-! ### Witnesses: a state and operands that meet the hypotheses of each obligation together -/

/-- The configuration half of the invariant, decided. -/
def configCheck (s : State) : Bool :=
  decide s.params.Valid && decide s.Sized && decide s.RegionFits && decide s.RegsOk && decide s.Quiet

theorem configInv_of_check {s : State} (h : configCheck s = true) : s.ConfigInv := by
  simp only [configCheck, Bool.and_eq_true, decide_eq_true_eq] at h
  exact ⟨h.1.1.1.1, h.1.1.1.2, h.1.1.2, h.1.2, h.2⟩

/-- The rings, pools and packets of one queue, decided. -/
def queueCheck (s : State) (q : Nat) : Bool :=
  decide (s.PoolOk .tx q) && decide (s.PoolOk .rx q) && decide (s.NoTxPend q) && decide (s.PacketsOk q)

/-- The invariant, decided. -/
def invCheck (s : State) : Bool :=
  configCheck s && decide (Memory.wf s.mem) && decide (s.wb = []) && decide s.CursorsOk &&
    (List.range maxQueues).all (queueCheck s)

theorem inv_of_check {s : State} (h : invCheck s = true) : s.Inv := by
  simp only [invCheck, queueCheck, Bool.and_eq_true, decide_eq_true_eq, List.all_eq_true, List.mem_range] at h
  obtain ⟨⟨⟨⟨hc, hm⟩, hw⟩, hu⟩, hq⟩ := h
  exact ⟨configInv_of_check hc, hm, hw, hu, fun q h => ⟨(hq q h).1.1.1, (hq q h).1.1.2, (hq q h).1.2⟩, fun q h => (hq q h).2⟩

theorem live_inv : live.Inv := inv_of_check (by decide +kernel)
theorem live_config : live.ConfigInv := live_inv.config
theorem sent_inv (sta : Byte) (h : sta = 0 ∨ sta = 1) : (sent sta).Inv := by
  rcases h with rfl | rfl <;> exact inv_of_check (by decide +kernel)
theorem gap_inv : gap.Inv := inv_of_check (by decide +kernel)
theorem halfSent_inv : halfSent.Inv := inv_of_check (by decide +kernel)
theorem unfilled_inv : unfilled.Inv := inv_of_check (by decide +kernel)
theorem acknowledged_inv : acknowledged.Inv := inv_of_check (by decide +kernel)

/-- A received frame's state meets the invariant: only memory differs from live. -/
theorem received_inv (len : Nat) (st er : Byte) (h : Memory.wf (received len st er).mem) : (received len st er).Inv :=
  ⟨⟨live_config.valid, live_config.sized, live_config.region, live_config.regs, live_config.quiet⟩, h, rfl, live_inv.cursors,
    live_inv.pools, live_inv.packets⟩

theorem witness_DecodeOfEncode : Instr.wellFormed (.enqueue 127 [⟨0, 0⟩]) = true := by decide

theorem witness_EncodeOfDecode : decode 0x02000000 [] = .ok .stop := by decide

/-- Each clause: opcodes 0x00 and 0x12; a reserved bit of STOP; an argument word too few for INIT. -/
theorem witness_DecodeChecksAreAnswered : State.reset.params.Valid ∧
    { State.reset with inputs := [.command 0 []] }.inputs = .command 0 [] :: [] ∧
    (0 : Word).toNat / 2 ^ 24 = 0 ∧ 0x12 ≤ (0x12000000 : Word).toNat / 2 ^ 24 ∧
    ((0x02000001 : Word).toNat / 2 ^ 24 = Opcode.stop.code.toNat ∧ (0x02000001 : Word) &&& Opcode.stop.reservedMask ≠ 0) ∧
    ((0x01000003 : Word).toNat / 2 ^ 24 = Opcode.init.code.toNat ∧ (0x01000003 : Word) &&& Opcode.init.reservedMask = 0 ∧
      [(0x100000 : Word), 0].length ≠ 3) := by decide +kernel

/-- The boundary: NQ = 1 and Q = 1; and READ_REG of a per-queue index. -/
theorem witness_QueueOutOfRangeIsAnswered : perQueueOf (.isEmpty .tx 1) = some 1 ∧ live.nq.toNat ≤ (1 : BitVec 7).toNat ∧
    perQueueOf (.readReg 1 0x111) = some 1 := by decide +kernel

theorem witness_StepRunsDecodedInstruction : live.params.Valid ∧ live.inputs = [] ∧
    { live with inputs := [.command 0x02000000 []] }.inputs = .command 0x02000000 [] :: [] ∧ decode 0x02000000 [] = .ok .stop ∧
    { live with inputs := [.device .resetDone] }.inputs = .device .resetDone :: [] ∧
    { live with inputs := [.hostWrite 0x200000 [1]] }.inputs = .hostWrite 0x200000 [1] :: [] := by decide +kernel

/-- A configuration for each constraint, just outside it. -/
theorem witness_InvalidConfigurationIsRefused :
    { Params.defaults with bufSize := 4097 }.bufSize > Params.defaults.pageSize ∧ { Params.defaults with bufSize := 0 }.bufSize < 1 ∧
    { Params.defaults with txPoolMult := 0 }.txPoolMult < 1 ∧ { Params.defaults with maxTxDescPerPkt := 0 }.maxTxDescPerPkt < 1 ∧
    { Params.defaults with maxTxFrags := 0 }.maxTxFrags < 1 ∧ { Params.defaults with resetPollLimit := 0 }.resetPollLimit < 1 ∧
    { Params.defaults with pageSize := 64 }.pageSize < 128 ∧ ∀ k, { Params.defaults with pageSize := 129 }.pageSize ≠ 2 ^ k := by
  refine ⟨by decide, by decide, by decide, by decide, by decide, by decide, by decide, fun k hk => ?_⟩
  cases k with
  | zero => cases hk
  | succ k =>
    have : 129 = 2 ^ k * 2 := hk.trans (Nat.pow_succ ..)
    omega

theorem witness_OccupancyAnswers : live.Inv ∧ (0 : BitVec 7).toNat < live.nq.toNat := ⟨live_inv, by decide +kernel⟩

/-- No cause in CAUSE_MASK (0x20), and the one cause 0x01 with a window length. -/
theorem witness_IrqMergesIntoWindow :
    let s := liveWith { liveQueue with itr := 3 }
    s.Live 0 ∧ ((1 : Half).getLsbD 15 = false ∨ s.params.parityFaultEnabled = false) ∧ (0x20 : Half) &&& 0x00DF = 0 ∧
    (1 : Half) &&& 0x00DF ≠ 0 ∧ (0 : BitVec 7).toNat < s.queues.length ∧ (s.queue 0).itr ≠ 0 := by decide +kernel

theorem witness_IrqLinkCauseSetsLcp : live.Live 0 ∧ (0 : BitVec 7).toNat < live.queues.length ∧
    ((4 : Half).getLsbD 15 = false ∨ live.params.parityFaultEnabled = false) ∧ (4 : Half) &&& 0x00DF ≠ 0 ∧
    (live.queue 0).itr = 0 ∧ ((live.queue 0).acc ||| ((4 : Half) &&& 0x00DF)) &&& 0x00D3 = 0 ∧
    ((live.queue 0).acc ||| ((4 : Half) &&& 0x00DF)) &&& 0x000C ≠ 0 := by decide +kernel

/-- Causes of all three kinds at once. -/
theorem witness_DispatchIsTheServicePass : live.Live 0 ∧ (0 : BitVec 7).toNat < live.queues.length ∧
    ((0x85 : Half).getLsbD 15 = false ∨ live.params.parityFaultEnabled = false) ∧ (0x85 : Half) &&& 0x00DF ≠ 0 ∧
    (live.queue 0).itr = 0 := by decide +kernel

theorem witness_ParityCauseEntersFault :
    let s := { live with params := { Params.defaults with parityFaultEnabled := true } }
    (0 : BitVec 7).toNat < s.nq.toNat ∧ s.wb = [] ∧ (0x8000 : Half).getLsbD 15 = true ∧
    s.params.parityFaultEnabled = true ∧ s.rstate ≠ .faulted := by decide +kernel

theorem witness_TickCountsOpenWindowsDown :
    let s := liveWith { liveQueue with armed := true, cnt := 2 }
    s.rstate = .ringsReady ∧ s.nq.toNat ≤ s.queues.length ∧ (s.queue 0).armed = true ∧
    ∀ q < s.nq.toNat, (s.queue q).armed = true → (s.queue q).cnt ≠ 1 := by decide +kernel

/-- Two queues whose windows close, the first with all three kinds of cause; and as many queues as there are. -/
theorem witness_TickClosingWindowDispatches :
    let x := { liveQueue with armed := true, cnt := 1 }
    let s := { live with nq := 2, queues := { x with acc := 0x85 } :: x :: List.replicate 126 (Queue.fresh 2 2) }
    s.rstate = .ringsReady ∧ s.nq.toNat ≤ 128 ∧ (∀ q < s.nq.toNat, (s.queue q).armed = true ∧ (s.queue q).cnt = 1) ∧
    { live with nq := 128 }.nq.toNat ≤ 128 := by decide +kernel

/-- The last poll that may still wait: the ninth of ten. -/
theorem witness_TickPollsReset :
    let s := { resetting with resetPolls := 8 }
    s.rstate = .resetting ∧ s.dev.resetting = true ∧ (s.resetPolls + 1).toNat < s.params.resetPollLimit := by decide +kernel

/-- The tenth poll of ten. -/
theorem witness_TickTimesResetOut :
    let s := { resetting with resetPolls := 9 }
    s.rstate = .resetting ∧ s.dev.resetting = true ∧ s.wb = [] ∧ s.params.resetPollLimit ≤ (s.resetPolls + 1).toNat := by
  decide +kernel

theorem witness_TickActivatesRings : acknowledged.Inv ∧ acknowledged.rstate = .resetting ∧ acknowledged.dev.resetting = false ∧
    acknowledged.RegionBacked := ⟨acknowledged_inv, by decide +kernel⟩

/-- The smallest ring and the smallest region that holds it, from RingsReady and from power-on. -/
theorem witness_InitStartsReset : live.wb = [] ∧ State.reset.wb = [] ∧ 1 ≤ (1 : BitVec 4).toNat ∧ (1 : BitVec 4).toNat ≤ 12 ∧
    (0x100000 : Addr).toNat % live.params.pageSize = 0 ∧
    Params.needed live.params (2 ^ (1 : BitVec 4).toNat) ((0 : BitVec 7).toNat + 1) ≤ (0x5000 : Word).toNat ∧
    (0x100000 : Addr).toNat + (0x5000 : Word).toNat ≤ 2 ^ 64 ∧ live.rstate ≠ .resetting ∧ State.reset.rstate ≠ .resetting := by
  decide +kernel

/-- Each error of INIT just past its bound, and E_STATE with none of them. -/
theorem witness_InitRefusesWithoutChange : (0 : BitVec 4).toNat < 1 ∧ 12 < (13 : BitVec 4).toNat ∧
    (0x100800 : Addr).toNat % resetting.params.pageSize ≠ 0 ∧
    (0x4FFF : Word).toNat < Params.needed resetting.params (2 ^ (1 : BitVec 4).toNat) ((0 : BitVec 7).toNat + 1) ∧
    2 ^ 64 < (0xFFFFFFFFFFFFC000 : Addr).toNat + (0x5000 : Word).toNat ∧
    ¬ ((1 : BitVec 4).toNat < 1 ∨ 12 < (1 : BitVec 4).toNat ∨ (0x100000 : Addr).toNat % resetting.params.pageSize ≠ 0 ∨
      (0x5000 : Word).toNat < Params.needed resetting.params (2 ^ (1 : BitVec 4).toNat) ((0 : BitVec 7).toNat + 1) ∨
      2 ^ 64 < (0x100000 : Addr).toNat + (0x5000 : Word).toNat) ∧ resetting.rstate = .resetting := by decide +kernel

theorem witness_StopTearsDown : live.wb = [] ∧ resetting.wb = [] ∧ State.reset.wb = [] := by decide

theorem witness_StopLeavesAllFree : live.ConfigInv ∧ ∃ t, exec .stop live = .next t :=
  ⟨live_config, (exists_of_nextSat test_stop_tears_down).imp fun _ h => h.1⟩

/-- Stopped, every clause: an IRQ with no parity fault; not Resetting; one fragment and as many as are allowed. -/
theorem witness_NothingRunsOutsideRingsReady : stopped.rstate ≠ .ringsReady ∧ (0 : BitVec 7).toNat < stopped.nq.toNat ∧
    (1 : Half).getLsbD 15 = false ∧ stopped.rstate ≠ .resetting ∧ 1 ≤ [Frag.mk 0 0].length ∧
    (List.replicate 16 (Frag.mk 0 0)).length ≤ stopped.params.maxTxFrags := by decide +kernel

/-- Each error of ENQUEUE with none of those before it: no fragment and seventeen; the link down; no byte; 8 * 2048 + 1 bytes,
and two pieces on a ring of two slots; a ring that is full. -/
theorem witness_EnqueueRefusesWithoutChange : (0 : BitVec 7).toNat < live.nq.toNat ∧
    ([] : List Frag).length = 0 ∧ live.params.maxTxFrags < (List.replicate 17 (Frag.mk 0 0)).length ∧
    lstateLink { live with lstate := 0 }.lstate ≠ 2 ∧ stopped.rstate ≠ .ringsReady ∧
    ([Frag.mk 0 0].map (fun f => f.len.toNat)).sum = 0 ∧
    live.params.maxTxDescPerPkt < (16385 + live.params.bufSize - 1) / live.params.bufSize ∧
    live.n - 1 < (2049 + live.params.bufSize - 1) / live.params.bufSize ∧
    (sent 0).ringFree .tx 0 < (60 + live.params.bufSize - 1) / live.params.bufSize := by decide +kernel

theorem witness_EnqueueIsAllOrNothing : ∃ t, exec (.enqueue 0 [⟨0x200000, 60⟩]) live = .next t :=
  (exists_of_nextSat test_enqueue_writes_descriptor).imp fun _ h => h.1

/-- One full buffer, on a ring with one free slot. -/
theorem witness_EnqueuePostsPacket : live.Inv ∧ live.Live 0 ∧ lstateLink live.lstate = 2 ∧
    1 ≤ [Frag.mk 0x200000 2048].length ∧ [Frag.mk 0x200000 2048].length ≤ live.params.maxTxFrags ∧
    1 ≤ packetLength [⟨0x200000, 2048⟩] ∧
    (packetLength [⟨0x200000, 2048⟩] + live.params.bufSize - 1) / live.params.bufSize ≤ live.params.maxTxDescPerPkt ∧
    (packetLength [⟨0x200000, 2048⟩] + live.params.bufSize - 1) / live.params.bufSize ≤ live.ringFree .tx 0 ∧
    (packetLength [⟨0x200000, 2048⟩] + live.params.bufSize - 1) / live.params.bufSize ≤ live.poolCount .tx 0 .free ∧
    (∀ f ∈ [Frag.mk 0x200000 2048], f.len ≠ 0 → live.params.Backs f.addr.toNat f.len.toNat) ∧ live.RegionBacked :=
  ⟨live_inv, by decide +kernel⟩

theorem witness_EnqueueStoresPacket : live.Inv ∧ ∃ t, exec (.enqueue 0 [⟨0x200000, 60⟩]) live = .next t ∧
    ∃ v, t.response = some ⟨.ok, v⟩ := by
  obtain ⟨t, ht, h⟩ := exists_of_nextSat test_enqueue_writes_descriptor
  simp only [Bool.and_eq_true, answers, beq_iff_eq] at h
  exact ⟨live_inv, t, ht, 0, h.1.1.1⟩

/-- A platform with memory for the region only. -/
theorem witness_EnqueueWithoutMemoryIsStuck :
    let s := { live with params := { Params.defaults with backing := [⟨0x100000, 0x5000⟩] } }
    s.Live 0 ∧ lstateLink s.lstate = 2 ∧ ([] : List Frag).length + 1 ≤ s.params.maxTxFrags ∧ 1 ≤ (60 : Word).toNat ∧
    (packetLength [⟨0x200000, 60⟩] + s.params.bufSize - 1) / s.params.bufSize ≤ s.params.maxTxDescPerPkt ∧
    (packetLength [⟨0x200000, 60⟩] + s.params.bufSize - 1) / s.params.bufSize ≤ s.ringFree .tx 0 ∧
    (packetLength [⟨0x200000, 60⟩] + s.params.bufSize - 1) / s.params.bufSize ≤ s.poolCount .tx 0 .free ∧
    ¬ s.params.Backs (0x200000 : Addr).toNat (60 : Word).toNat := by decide +kernel

theorem witness_ServiceTxFreesHeadPacket : (sent 1).Inv ∧ (sent 1).Live 0 ∧ (sent 1).RegionBacked ∧
    (sent 1).ringEmpty .tx 0 = false ∧
    ∀ i < (sent 1).headPacketSize 0, ((sent 1).statusByte .tx 0 ((sent 1).slotAt .tx 0 i)).getLsbD 0 = true :=
  ⟨sent_inv 1 (.inr rfl), by decide +kernel⟩

/-- Nothing of the packet done; and the first of its two descriptors done, the second not. -/
theorem witness_ServiceTxWaitsForPacket : (sent 0).Inv ∧ halfSent.Inv ∧
    ∀ c ∈ [(sent 0, 0), (halfSent, 1)], c.1.Live 0 ∧ c.1.RegionBacked ∧ c.1.ringEmpty .tx 0 = false ∧
      c.2 < c.1.headPacketSize 0 ∧ (∀ i < c.2, (c.1.statusByte .tx 0 (c.1.slotAt .tx 0 i)).getLsbD 0 = true) ∧
      ∀ i < c.1.headPacketSize 0, c.2 ≤ i → (c.1.statusByte .tx 0 (c.1.slotAt .tx 0 i)).getLsbD 0 = false :=
  ⟨sent_inv 0 (.inl rfl), halfSent_inv, by decide +kernel⟩

theorem witness_ServiceTxGapFaults : gap.Inv ∧ gap.Live 0 ∧ gap.RegionBacked ∧ gap.ringEmpty .tx 0 = false ∧ 0 < 1 ∧
    1 < gap.headPacketSize 0 ∧ (gap.statusByte .tx 0 (gap.slotAt .tx 0 0)).getLsbD 0 = false ∧
    (gap.statusByte .tx 0 (gap.slotAt .tx 0 1)).getLsbD 0 = true :=
  ⟨gap_inv, by decide +kernel⟩

theorem witness_ServiceTxFrame : ∃ t, exec (.serviceTx 0 0) (sent 1) = .next t ∧ t.rstate = (sent 1).rstate := by
  obtain ⟨t, ht, h⟩ := exists_of_nextSat (x := exec (.serviceTx 0 0) (sent 1)) (p := fun t => t.rstate == .ringsReady)
    (by decide +kernel)
  exact ⟨t, ht, beq_iff_eq.1 h⟩

/-- The longest frame one buffer of 2048 bytes holds, the whole ring; and two descriptors, with and without one posted behind. -/
theorem witness_ServiceRxDeliversCleanFrame : (received 2048 3 0).Inv ∧ (twoReceived 3 2048 0).Inv ∧ (twoReceived 2 2048 0).Inv ∧
    ∀ c ∈ [(received 2048 3 0, 1), (twoReceived 3 2048 0, 2), (twoReceived 2 2048 0, 2)],
      c.1.Live 0 ∧ c.1.RegionBacked ∧ c.1.rxReporting = true ∧ (c.1.queue 0).discard = false ∧ c.1.FrameAtHead 0 c.2 ∧
      (∀ i < c.2, c.1.rxErrorsAt 0 i &&& c.1.params.frameErrMask = 0) ∧
      (∀ i < c.2 - 1, c.1.rxLenAt 0 i = c.1.params.bufSize) ∧
      1 ≤ c.1.rxTotal 0 c.2 ∧ c.1.rxTotal 0 c.2 ≤ c.1.params.maxRxFrameLen :=
  ⟨received_inv _ _ _ (by decide +kernel), inv_of_check (by decide +kernel), inv_of_check (by decide +kernel), by decide +kernel⟩

/-- Each reason: a discarded frame's tail; a CRC error, in the first of two descriptors too; no byte; a frame above MAX_RX_FRAME_LEN
where that is 64; and a first descriptor one byte short of its buffer. -/
theorem witness_ServiceRxDropsBadFrame :
    let tail := withBytes (liveWith { liveQueue with discard := true }) 0x100028 [64, 0, 0, 0, 3, 0, 0, 0]
    let long := { received 65 3 0 with params := { Params.defaults with maxRxFrameLen := 64 } }
    (tail.queue 0).discard = true ∧
    (received 64 3 1).rxErrorsAt 0 0 &&& (received 64 3 1).params.frameErrMask ≠ 0 ∧
    (twoReceived 3 2048 1).rxErrorsAt 0 0 &&& (twoReceived 3 2048 1).params.frameErrMask ≠ 0 ∧
    (received 0 3 0).rxTotal 0 1 = 0 ∧ long.params.maxRxFrameLen < long.rxTotal 0 1 ∧
    (twoReceived 3 2047 0).rxLenAt 0 0 ≠ (twoReceived 3 2047 0).params.bufSize ∧
    ∀ c ∈ [(tail, 1), (received 64 3 1, 1), (twoReceived 3 2048 1, 2), (received 0 3 0, 1), (long, 1), (twoReceived 3 2047 0, 2)],
      c.1.Live 0 ∧ c.1.RegionBacked ∧ c.1.rxReporting = true ∧ c.1.FrameAtHead 0 c.2 ∧ invCheck c.1 = true := by decide +kernel

/-- Every slot of a full ring done, none the end of a packet. -/
theorem witness_ServiceRxDropsOverflowingFrame :
    let s := received 64 1 0
    s.Inv ∧ s.Live 0 ∧ s.RegionBacked ∧ s.rxReporting = true ∧ s.ringFull .rx 0 = true ∧
    ∀ i < s.n - 1,
      (byteAt (s.descBytes .rx 0 (s.slotAt .rx 0 i)) 12).getLsbD 0 = true ∧
      (byteAt (s.descBytes .rx 0 (s.slotAt .rx 0 i)) 12).getLsbD 1 = false ∧
      le16 (s.descBytes .rx 0 (s.slotAt .rx 0 i)) 8 ≤ s.params.bufSize :=
  ⟨received_inv _ _ _ (by decide +kernel), by decide +kernel⟩

/-- One byte more than BUF_SIZE. -/
theorem witness_ServiceRxLengthFaults :
    let s := received 2049 1 0
    s.Inv ∧ s.Live 0 ∧ s.RegionBacked ∧ s.rxReporting = true ∧ s.ringEmpty .rx 0 = false ∧
    (byteAt (s.descBytes .rx 0 (s.ntc .rx 0)) 12).getLsbD 0 = true ∧
    s.params.bufSize < le16 (s.descBytes .rx 0 (s.ntc .rx 0)) 8 :=
  ⟨received_inv _ _ _ (by decide +kernel), by decide +kernel⟩

/-- The link Down; and Negotiating with RX_WHILE_NEGOTIATING off. -/
theorem witness_ClosedGateOnlyRefills : ∀ s ∈ [{ live with lstate := 0 }, { live with lstate := 1 }], s.Live 0 ∧
    (lstateLink s.lstate ≠ 2 ∧ (lstateLink s.lstate ≠ 1 ∨ s.params.rxWhileNegotiating = false)) := by decide +kernel

theorem witness_RefillPostsFreeBuffers : unfilled.Inv ∧ unfilled.Live 0 ∧ unfilled.RegionBacked ∧ live.Inv ∧ live.Live 0 ∧
    live.RegionBacked :=
  ⟨unfilled_inv, by decide +kernel, by decide +kernel, live_inv, by decide +kernel⟩

theorem witness_RxServiceFrame : unfilled.Inv ∧ (∃ t, exec (.refill 0) unfilled = .next t ∧ t.rstate = unfilled.rstate) ∧
    ∃ t, exec (.serviceRx 0 0) unfilled = .next t ∧ t.rstate = unfilled.rstate := by
  refine ⟨unfilled_inv, ?_, ?_⟩
  · obtain ⟨t, ht, h⟩ := exists_of_nextSat (x := exec (.refill 0) unfilled) (p := fun t => t.rstate == .ringsReady)
      (by decide +kernel)
    exact ⟨t, ht, beq_iff_eq.1 h⟩
  · obtain ⟨t, ht, h⟩ := exists_of_nextSat (x := exec (.serviceRx 0 0) unfilled) (p := fun t => t.rstate == .ringsReady)
      (by decide +kernel)
    exact ⟨t, ht, beq_iff_eq.1 h⟩

/-- A move that is made, with the device enabled; and a device that is disabled, or in reset. -/
theorem witness_DeviceMovesLeaveTheBlockAlone :
    (∃ t, step { sent 0 with inputs := [.device (.txComplete 0 0xFF)] } = .next t) ∧
    (∃ t, step { stopped with inputs := [.device .resetDone] } = .next t) ∧
    (stopped.dev.rxEn = false ∧ stopped.dev.txEn = false) ∧ resetting.dev.resetting = true := by
  refine ⟨(exists_of_nextSat test_device_completes_tx).imp fun _ h => h.1, ?_, by decide +kernel⟩
  exact (exists_of_nextSat (x := step { stopped with inputs := [.device .resetDone] }) (p := fun _ => true)
    (by decide +kernel)).imp fun _ h => h.1

theorem witness_TxCompletionWritesBack :
    let s := { sent 0 with inputs := [.device (.txComplete 0 0xFF)] }
    s.params.Valid ∧ s.Sized ∧ Memory.wf s.mem ∧ s.inputs = .device (.txComplete 0 0xFF) :: [] ∧ 0 < maxQueues ∧
    s.dev.txEn = true ∧ s.dev.resetting = false ∧ (s.dev.ring .tx 0).head ≠ (s.dev.ring .tx 0).tail ∧
    (s.dev.ring .tx 0).head.toNat ∉ (s.dev.ring .tx 0).done ∧
    s.params.Backs ((s.dev.ring .tx 0).dbase.toNat + 16 * (s.dev.ring .tx 0).head.toNat + 12) 1 := by decide +kernel

/-- A conformant device: a frame of two bytes, its end, at 0x103000. One that is not: two bytes that end no frame, and one byte
more than a buffer of 4 bytes holds. -/
theorem witness_RxCompletionWritesBack :
    let strict := { Params.defaults with deviceConformant := true }
    let loose := { Params.defaults with bufSize := 4, deviceConformant := false }
    ∀ c ∈ [(strict, RxDraw.mk [1, 2] 3 0 0 0), (loose, ⟨[1, 2], 1, 0, 0, 0⟩), (loose, ⟨[1, 2, 3, 4, 5], 3, 0, 0, 0⟩)],
      let d := c.2
      let s := { withBytes live 0x100020 [0x00, 0x30, 0x10] with params := c.1, inputs := [.device (.rxComplete 0 d)] }
      let a := (s.dev.ring .rx 0).dbase.toNat + 16 * (s.dev.ring .rx 0).head.toNat
      let buf := le64 (Memory.bytes s.mem a 8) 0
      let n := min d.data.length s.params.bufSize
      s.params.Valid ∧ s.Sized ∧ Memory.wf s.mem ∧ s.inputs = .device (.rxComplete 0 d) :: [] ∧ 0 < maxQueues ∧
      s.dev.rxEn = true ∧ s.dev.resetting = false ∧ (s.dev.ring .rx 0).head ≠ (s.dev.ring .rx 0).tail ∧
      (s.dev.ring .rx 0).head.toNat ∉ (s.dev.ring .rx 0).done ∧
      (d.data.length ≤ s.params.bufSize ∨ (s.params.deviceConformant = false ∧ d.data.length ≤ 0xFFFF)) ∧
      (d.data.length = s.params.bufSize ∨ d.st.getLsbD 1 = true ∨ s.params.deviceConformant = false) ∧
      s.params.Backs (a + 8) 8 ∧ s.params.Backs buf n ∧ (a + 16 ≤ buf ∨ buf + n ≤ a) := by decide +kernel

theorem witness_PowerOnMeetsInvariants : Params.defaults.Valid := by decide +kernel

/-- A command that is answered, from the live state: what the whole-machine rules ask of s and t. -/
theorem live_steps : ∃ t, step { live with inputs := [.command 0x02000000 []] } = .next t ∧ t.rstate = .stopped := by
  obtain ⟨t, ht, h⟩ := exists_of_nextSat (x := step { live with inputs := [.command 0x02000000 []] })
    (p := fun t => t.rstate == .stopped) (by decide +kernel)
  exact ⟨t, ht, beq_iff_eq.1 h⟩

/-- The live state with that command to come meets the invariants: the stream takes no part in them. -/
theorem live_input_inv : { live with inputs := [.command 0x02000000 []] }.Inv :=
  ⟨⟨live_config.valid, live_config.sized, live_config.region, live_config.regs, live_config.quiet⟩, live_inv.canon, rfl,
    live_inv.cursors, live_inv.pools, live_inv.packets⟩

theorem witness_MemoryStaysCanonical : Memory.wf live.mem ∧
    ∃ t, step { live with inputs := [.command 0x02000000 []] } = .next t :=
  ⟨live_inv.canon, live_steps.imp fun _ h => h.1⟩

theorem witness_ConfigurationInvariantKept : { live with inputs := [.command 0x02000000 []] }.ConfigInv ∧
    ∃ t, step { live with inputs := [.command 0x02000000 []] } = .next t :=
  ⟨live_input_inv.config, live_steps.imp fun _ h => h.1⟩

theorem witness_RingAndPoolInvariantKept : { live with inputs := [.command 0x02000000 []] }.Inv ∧
    ∃ t, step { live with inputs := [.command 0x02000000 []] } = .next t :=
  ⟨live_input_inv, live_steps.imp fun _ h => h.1⟩

theorem witness_OnlyMissingMemoryStops : { live with inputs := [.command 0x02000000 []] }.Inv := live_input_inv

theorem witness_RStateChangesAsTabled : { live with inputs := [.command 0x02000000 []] }.ConfigInv ∧
    ∃ t, step { live with inputs := [.command 0x02000000 []] } = .next t ∧ t.rstate ≠ live.rstate := by
  obtain ⟨t, ht, h⟩ := live_steps
  exact ⟨live_input_inv.config, t, ht, by rw [h]; decide⟩

theorem witness_EventsAreOnlyAppended : ∃ t, step { live with inputs := [.command 0x02000000 []] } = .next t :=
  live_steps.imp fun _ h => h.1

theorem witness_WindowInvariantKept :
    let s := { liveWith { liveQueue with armed := true, cnt := 2, itr := 3, acc := 1 } with inputs := [.command 0x0A000000 []] }
    s.ConfigInv ∧ s.WindowsOk ∧ ∃ t, step s = .next t := by
  refine ⟨configInv_of_check (by decide +kernel), by decide +kernel, ?_⟩
  exact (exists_of_nextSat (p := fun _ => true) (by decide +kernel)).imp fun _ h => h.1

theorem witness_CommandsTouchOnlyTheirQueue : perQueueOf (.setItr 0 9) = some 0 ∧
    (∃ t, exec (.setItr 0 9) live = .next t ∧ t.rstate = live.rstate) ∧ 1 ≠ (0 : BitVec 7).toNat := by
  obtain ⟨t, ht, h⟩ := exists_of_nextSat (x := exec (.setItr 0 9) live) (p := fun t => t.rstate == .ringsReady) (by decide +kernel)
  exact ⟨by decide, ⟨t, ht, beq_iff_eq.1 h⟩, by decide⟩

theorem witness_DeviceTailAgreesWithBlock :
    let s := { live with inputs := [.command 0x03000001 [0x200000, 0, 60]] }
    s.Inv ∧ (∃ t, step s = .next t ∧ t.rstate = .ringsReady) ∧
    (s.rstate = .ringsReady → ∀ q < s.nq.toNat, ∀ r, (s.dev.ring r q).tail = ((s.queue q).cur r).tail) := by
  refine ⟨⟨⟨live_config.valid, live_config.sized, live_config.region, live_config.regs, live_config.quiet⟩, live_inv.canon, rfl,
    live_inv.cursors, live_inv.pools, live_inv.packets⟩, ?_, ?_⟩
  · obtain ⟨t, ht, h⟩ := exists_of_nextSat (x := step { live with inputs := [.command 0x03000001 [0x200000, 0, 60]] })
      (p := fun t => t.rstate == .ringsReady) (by decide +kernel)
    exact ⟨t, ht, beq_iff_eq.1 h⟩
  · intro _ q hq r
    have : q = 0 := by
      have h : q < 1 := hq
      omega
    subst this
    cases r <;> decide +kernel

end Sys2Proof.Tests
end

section
/-! The refusal of an invalid configuration (00_scope.md R10). -/

namespace Sys2Proof.Machine

/-- The guard of `step` comes before the stream: a refused configuration is refused whatever is next to happen. -/
theorem step_of_not_valid {s : State} (h : ¬ s.params.Valid) : step s = .refused .badConfiguration :=
  if_neg h

/-- Settles O7: each of the eight ways to break R10 contradicts one conjunct of `Params.Valid`; for the last, the page size is
the power of two whose exponent is its own `log2`. -/
theorem invalidConfigurationIsRefused : Obligations.InvalidConfigurationIsRefused := by
  intro s hbad
  refine step_of_not_valid ?_
  rintro ⟨hbuf, hbufPage, -, hmult, hdesc, hfrags, hpoll, -, hpage, hpow⟩
  rcases hbad with h | h | h | h | h | h | h | hnotPow
  · exact h.not_ge hbufPage
  · exact h.not_ge hbuf
  · exact h.not_ge hmult
  · exact h.not_ge hdesc
  · exact h.not_ge hfrags
  · exact h.not_ge hpoll
  · exact h.not_ge hpage
  · exact hnotPow _ hpow.symm

end Sys2Proof.Machine
end

section
/-! The event log only grows (10_state.md R70), and what the device's moves and the host's writes may change of the state. -/

namespace Sys2Proof.Machine

/-! ### Inputs that are not commands -/

/-- Memory and the device's registers may differ, nothing else does, and the device has as many rings as before. -/
def State.OutsideWrite (s t : State) : Prop :=
  ∃ m d, t = { s with mem := m, dev := d } ∧ d.tx.length = s.dev.tx.length ∧ d.rx.length = s.dev.rx.length

theorem State.OutsideWrite.refl (s : State) : s.OutsideWrite s := ⟨s.mem, s.dev, rfl, rfl, rfl⟩

theorem State.OutsideWrite.trans {s t u : State} (h : s.OutsideWrite t) (h' : t.OutsideWrite u) : s.OutsideWrite u := by
  obtain ⟨m, d, rfl, htx, hrx⟩ := h
  obtain ⟨m', d', rfl, htx', hrx'⟩ := h'
  exact ⟨m', d', rfl, htx'.trans htx, hrx'.trans hrx⟩

theorem State.outsideWrite_mem (s : State) (m : List Host.Cell) : s.OutsideWrite { s with mem := m } :=
  ⟨m, s.dev, rfl, rfl, rfl⟩

theorem State.outsideWrite_setDevRing (s : State) (r : Ring) (q : Nat) (x : DevRing) : s.OutsideWrite (s.setDevRing r q x) :=
  ⟨s.mem, s.dev.setRing r q x, rfl, by simp, by simp⟩

/-- A part of a device move changes memory and the device only, and enters no fault. -/
abbrev Outside {α : Type} (s : State) (x : Res α) : Prop :=
  x.Ends (fun _ t => s.OutsideWrite t) (fun _ => False) (fun _ => True)

theorem Outside.bind {α β : Type} {s : State} {x : Res α} {k : α → State → Res β} (hx : Outside s x)
    (hk : ∀ a t, Outside t (k a t)) : Outside s (x.bind k) :=
  Res.Ends.bind hx fun a t ht => (hk a t).mono (fun _ _ h => ht.trans h) (fun _ => id) (fun _ => id)

theorem outside_deviceWrite (addr : Nat) (bytes : List Byte) (s : State) : Outside s (deviceWrite addr bytes s) :=
  (deviceWrite_ends addr bytes s).mono (fun _ _ h => h.2 ▸ s.outsideWrite_mem _) (fun _ => id) (fun _ _ => trivial)

theorem outside_rxWriteback (q slot : Nat) (d : RxDraw) (s : State) : Outside s (rxWriteback q slot d s) :=
  (outside_deviceWrite _ _ s).bind fun _ t => outside_deviceWrite _ _ t

theorem outside_completeHead (r : Ring) (q : Nat) {w : State → Res Unit} {s : State} (hw : Outside s (w s)) :
    Outside s (completeHead r q w s) := by
  refine Outside.bind ?_ fun _ t => t.outsideWrite_setDevRing r q _
  split
  · exact .refl s
  · exact hw

theorem outside_completeAt (r : Ring) (q slot : Nat) {w : State → Res Unit} {s : State} (hw : Outside s (w s)) :
    Outside s (completeAt r q slot w s) :=
  hw.bind fun _ t => t.outsideWrite_setDevRing r q _

/-- Every move of the device changes memory and the device only (48_device_agent.md R505, R520). -/
theorem outside_deviceMove (m : Move) (s : State) : Outside s (deviceMove m s) := by
  cases m with
  | txComplete q x =>
    unfold deviceMove; dsimp only; split
    · exact outside_completeHead _ _ (outside_deviceWrite _ _ s)
    · exact .refl s
  | rxComplete q d =>
    unfold deviceMove; dsimp only; split
    · exact outside_completeHead _ _ (outside_rxWriteback _ _ _ s)
    · exact .refl s
  | resetDone =>
    unfold deviceMove; dsimp only; split
    · exact ⟨s.mem, _, rfl, rfl, rfl⟩
    · exact .refl s
  | txCompleteAt q k x =>
    unfold deviceMove; dsimp only; split
    · exact outside_completeAt _ _ _ (outside_deviceWrite _ _ s)
    · exact .refl s
  | rxCompleteAt q k d =>
    unfold deviceMove; dsimp only; split
    · exact outside_completeAt _ _ _ (outside_rxWriteback _ _ _ s)
    · exact .refl s

theorem outsideWrite_hostWrite (addr : Addr) (bytes : List Byte) (s : State) : s.OutsideWrite (hostWrite addr bytes s) := by
  unfold hostWrite
  split
  · exact s.outsideWrite_mem _
  · exact .refl s

/-- A step that goes on: nothing was to come; or a command ran; or, the first input taken off the stream, a response was written,
or memory and the device changed. -/
theorem step_effects {s t : State} (h : step s = .next t) :
    (s.inputs = [] ∧ t = s) ∨
    (∃ i, exec i (s.withInputs s.inputs.tail) = .next t) ∨
    (∃ st v, t = (s.withInputs s.inputs.tail).respond st v) ∨
    (s.withInputs s.inputs.tail).OutsideWrite t := by
  obtain ⟨-, ⟨hi, rfl⟩ | ⟨w, args, rest, i, hi, -, ht⟩ | ⟨w, args, rest, e, hi, -, rfl⟩ | ⟨m, rest, hi, ht⟩ |
    ⟨addr, bytes, rest, hi, rfl⟩⟩ := step_cases h
  · exact .inl ⟨hi, rfl⟩
  · exact .inr (.inl ⟨i, by rwa [hi]⟩)
  · exact .inr (.inr (.inl ⟨errorStatus e, 0, by rw [hi]; rfl⟩))
  · refine .inr (.inr (.inr ?_))
    have hm := outside_deviceMove m (s.withInputs rest)
    rw [hi]
    rcases moveOutcome_eq_next.1 ht with ht | ht <;> rw [ht] at hm
    · exact hm
    · exact hm.elim
  · exact .inr (.inr (.inr (by rw [hi]; exact outsideWrite_hostWrite addr bytes _)))

/-! ### The log -/

/-- Every command only appends to the log. -/
theorem exec_events {i : Instr} {s t : State} (h : exec i s = .next t) : ∃ es, t.events = s.events ++ es := by
  have same : ∀ s : State, ∃ es, s.events = s.events ++ es := fun s => ⟨[], (List.append_nil _).symm⟩
  have K : Kept (fun s t => ∃ es, t.events = s.events ++ es) := by
    refine ⟨fun q => ⟨same, ?_, fun s e => ⟨[e], rfl⟩, ?_, ?_, ?_, ?_⟩, ?_, ?_, ?_, ?_, ?_, ?_, ?_, ?_⟩
    · rintro s t u ⟨es, h⟩ ⟨es', h'⟩
      exact ⟨es ++ es', by rw [h', h, List.append_assoc]⟩
    all_goals intro s; intros; exact same s
  exact K.exec i s t h

/-- Settles O57: a command appends to the log and leaves the stream and the parameters; whatever else happens leaves all three. -/
theorem eventsAreOnlyAppended : Obligations.EventsAreOnlyAppended := by
  intro s t h
  rcases step_effects h with ⟨hi, rfl⟩ | ⟨i, ht⟩ | ⟨st, v, rfl⟩ | ⟨m, d, rfl, -, -⟩
  · exact ⟨⟨[], (List.append_nil _).symm⟩, by rw [hi]; rfl, rfl⟩
  · obtain ⟨hp, hi⟩ := exec_params_inputs ht
    exact ⟨exec_events (s := s.withInputs s.inputs.tail) ht, hi, hp⟩
  · exact ⟨⟨[], (List.append_nil _).symm⟩, rfl, rfl⟩
  · exact ⟨⟨[], (List.append_nil _).symm⟩, rfl, rfl⟩

end Sys2Proof.Machine
end

section
/-! The machine at power-on (10_state.md R90). -/

namespace Sys2Proof.Machine

/-- Every queue at power-on is the fresh one, also where there is none. -/
theorem State.queue_powerOn (p : Params) (q : Nat) : (State.powerOn p).queue q = Queue.fresh 0 0 := by
  simp only [State.queue, State.powerOn, List.getD_eq_getElem?_getD, List.getElem?_replicate]
  split <;> rfl

theorem Device.ring_powerOn (r : Ring) (q : Nat) : Device.powerOn.ring r q = DevRing.zero := by
  cases r <;> simp only [Device.ring, Device.powerOn, List.getD_eq_getElem?_getD, List.getElem?_replicate] <;> split <;> rfl

/-- A fresh queue has no buffer that is not Free, whatever its pools' sizes. -/
theorem Queue.tag_fresh (n t : Nat) (r : Ring) (i : Nat) : ((Queue.fresh n t).pool r).tag i = .free := by
  cases r <;> simp only [Queue.fresh, Queue.pool, Pool.tag, List.getD_eq_getElem?_getD, List.getElem?_replicate] <;>
    split <;> rfl

theorem State.tag_powerOn (p : Params) (r : Ring) (q i : Nat) : (State.powerOn p).tag r q i = .free := by
  rw [State.tag, State.queue_powerOn, Queue.tag_fresh]

/-- No slot is outstanding at power-on. -/
theorem State.outstanding_powerOn (p : Params) (r : Ring) (q slot : Nat) : (State.powerOn p).outstanding r q slot = false := by
  have hempty : (State.powerOn p).occupancy r q = 0 := by
    have hn : (State.powerOn p).n = 1 := rfl
    rw [State.occupancy, hn, ringDist, Nat.mod_one]
  rw [State.outstanding, hempty]
  simp

/-- Settles O50: every register is written out by `State.powerOn`, and every queue is the fresh one. -/
theorem powerOnValues : Obligations.PowerOnValues := by
  intro p s
  refine ⟨rfl, rfl, rfl, rfl, rfl, rfl, rfl, rfl, rfl, rfl, rfl, fun q _ => ?_⟩
  rw [State.queue_powerOn p q]
  refine ⟨rfl, rfl, fun _ => rfl, fun _ => rfl, fun r i => ⟨State.tag_powerOn p r q i, ?_⟩, rfl, rfl, rfl, rfl, rfl, rfl⟩
  cases r <;> rfl

theorem configInv_powerOn (p : Params) (hp : p.Valid) : (State.powerOn p).ConfigInv := by
  have hidle : ∀ x ∈ (State.powerOn p).queues, x = Queue.fresh 0 0 := fun x hx => List.eq_of_mem_replicate hx
  have hsized : (State.powerOn p).Sized := by
    refine ⟨List.length_replicate, List.length_replicate, List.length_replicate, fun x hx => ?_, Nat.zero_le _, Nat.zero_le _,
      ⟨fun _ => rfl, fun _ => rfl⟩⟩
    rw [hidle x hx]
    exact ⟨rfl, rfl, rfl, rfl, rfl, rfl⟩
  have hregs : (State.powerOn p).RegsOk :=
    ⟨(by decide : lstateLegal 0 = true), ⟨fun _ => rfl, fun _ => rfl⟩, ⟨fun h => absurd rfl h, nofun⟩, Nat.zero_le _, nofun⟩
  refine ⟨hp, hsized, .inl rfl, hregs, fun _ => ⟨rfl, fun x hx => ?_⟩, fun x hx => ?_⟩
  · rw [hidle x hx]; rfl
  · rw [hidle x (List.mem_of_mem_drop hx)]; rfl

theorem inv_powerOn (p : Params) (hp : p.Valid) : (State.powerOn p).Inv := by
  refine ⟨configInv_powerOn p hp, ⟨.nil, fun _ h => nomatch h⟩, rfl, fun x hx => ?_, fun q _ => ?_, fun q _ slot _ h => ?_⟩
  · rw [List.eq_of_mem_replicate hx]; exact ⟨⟨Nat.one_pos, Nat.one_pos, rfl⟩, ⟨Nat.one_pos, Nat.one_pos, rfl⟩⟩
  · simp [State.PoolOk, State.NoTxPend, State.outstanding_powerOn, State.tag_powerOn]
  · simp [State.outstanding_powerOn] at h

/-- Settles O51: with no slot and no queue configured, the clauses about slots and queues hold of the fresh queue alone. -/
theorem powerOnMeetsInvariants : Obligations.PowerOnMeetsInvariants := by
  intro p hp
  have hwindows : (State.powerOn p).WindowsOk := by
    intro x hx
    rw [List.eq_of_mem_replicate hx]
    exact ⟨nofun, fun _ => ⟨rfl, rfl⟩⟩
  exact ⟨inv_powerOn p hp, hwindows, (inv_powerOn p hp).canon, rfl, rfl, rfl, Device.ring_powerOn⟩

end Sys2Proof.Machine
end

section
/-! What the ring and pool operations of one queue keep, when it matters that they only ever write a queue of the same shape.
`KeptBy` asks a relation to be kept by ANY new value of the queue; here the new value has the list lengths and the moderation
registers of the old one. -/

namespace Sys2Proof.Machine

/-! ### The shape of a queue -/

/-- What no ring or pool operation of a queue changes: the lengths of its lists, and its moderation registers. -/
def Queue.shape (x : Queue) : List Nat × Half × Half × Bool × Half :=
  ([x.swTx.length, x.swRx.length, x.txPool.tags.length, x.txPool.blen.length, x.rxPool.tags.length, x.rxPool.blen.length],
    x.itr, x.cnt, x.armed, x.acc)

@[simp] theorem Queue.shape_setCur (x : Queue) (r : Ring) (c : Cursors) : (x.setCur r c).shape = x.shape := by
  cases r <;> rfl

@[simp] theorem Queue.shape_setSw (x : Queue) (r : Ring) (i : Nat) (w : SlotRecord) : (x.setSw r i w).shape = x.shape := by
  cases r <;> simp [Queue.shape, Queue.setSw]

@[simp] theorem Queue.shape_setTag (x : Queue) (r : Ring) (h : Nat) (t : Tag) :
    (x.setPool r ((x.pool r).setTag h t)).shape = x.shape := by
  cases r <;> simp [Queue.shape, Queue.setPool, Queue.pool, Pool.setTag]

@[simp] theorem Queue.shape_setTag_setLen (x : Queue) (r : Ring) (h l : Nat) (t : Tag) :
    (x.setPool r (((x.pool r).setTag h t).setLen h l)).shape = x.shape := by
  cases r <;> simp [Queue.shape, Queue.setPool, Queue.pool, Pool.setTag, Pool.setLen]

theorem Queue.sizedFor_of_shape {x y : Queue} {n t : Nat} (h : y.shape = x.shape) (hx : x.SizedFor n t) : y.SizedFor n t := by
  simp only [Queue.shape, Prod.mk.injEq, List.cons.injEq] at h
  obtain ⟨⟨hst, hsr, htt, htl, hrt, hrl, -⟩, -⟩ := h
  rwa [Queue.SizedFor, hst, hsr, htt, htl, hrt, hrl]

/-! ### The operations of one queue -/

/-- A relation kept by every elementary update the operations of queue q make, the queue keeping its shape. -/
structure ShapeKeptBy (q : Nat) (R : State → State → Prop) : Prop where
  refl     : ∀ s, R s s
  trans    : ∀ {s t u}, R s t → R t u → R s u
  emit     : ∀ s e, R s (s.emit e)
  setQueue : ∀ s x, x.shape = (s.queue q).shape → R s (s.setQueue q x)
  store    : ∀ s a bs, R s { s with wb := s.wb ++ [⟨a, bs⟩] }
  drain    : ∀ s, R s s.drain
  regWrite : ∀ s reg v, R s (s.regWrite reg v)

namespace ShapeKeptBy

variable {q : Nat} {R : State → State → Prop} (K : ShapeKeptBy q R)

include K

theorem bind {α β : Type} {s : State} {x : Res α} {k : α → State → Res β} (hx : Keeps R s x)
    (hk : ∀ a t, Keeps R t (k a t)) : Keeps R s (x.bind k) :=
  Res.Ends.bind hx fun a t ht => (hk a t).mono (fun _ _ h => K.trans ht h)
    (fun _ ⟨u, r, hu, e⟩ => ⟨u, r, K.trans ht hu, e⟩) (fun _ _ => trivial)

theorem lift {α : Type} {s u : State} {x : Res α} (h : R s u) (hx : Keeps R u x) : Keeps R s x :=
  Res.Ends.mono hx (fun _ _ h' => K.trans h h') (fun _ ⟨v, r, hv, e⟩ => ⟨v, r, K.trans h hv, e⟩) (fun _ _ => trivial)

theorem fault {α : Type} (s : State) (r : Reason) : Keeps (α := α) R s (.ended (s.faultAnswer r)) := ⟨s, r, K.refl s, rfl⟩

theorem setCur (s : State) (r : Ring) (c : Cursors) : R s (s.setQueue q ((s.queue q).setCur r c)) :=
  K.setQueue s _ (Queue.shape_setCur _ r c)

theorem setTag (s : State) (r : Ring) (h : Nat) (t : Tag) : R s (s.setTag r q h t) :=
  K.setQueue s _ (Queue.shape_setTag _ r h t)

theorem barrier (s : State) (k : BarrierKind) : R s (s.barrier k) := by
  cases k with
  | read => exact K.emit s _
  | write => exact K.trans (K.emit s _) (K.drain _)
  | full => exact K.trans (K.emit s _) (K.drain _)

theorem memRead (addr n : Nat) (s : State) : Keeps R s (memRead addr n s) :=
  (memRead_ends addr n s).mono (fun _ _ h => h.2.2 ▸ K.emit s _) (fun _ => False.elim) (fun _ _ => trivial)

theorem memWrite (addr : Nat) (bs : List Byte) (s : State) : Keeps R s (memWrite addr bs s) :=
  (memWrite_ends addr bs s).mono (fun _ _ h => h.2 ▸ K.trans (K.store s addr bs) (K.emit _ _)) (fun _ => False.elim)
    (fun _ _ => trivial)

theorem ringPost (r : Ring) (desc : List Byte) (w : SlotRecord) (s : State) : Keeps R s (ringPost r q desc w s) := by
  unfold Machine.ringPost
  split
  · exact K.refl s
  · exact K.bind (K.memWrite _ _ s) fun _ t => K.setQueue t _ (by simp)

theorem ringPeek (r : Ring) (slot : Nat) (s : State) : Keeps R s (ringPeek r q slot s) := by
  unfold Machine.ringPeek
  refine K.lift (K.barrier s .read) (K.bind (K.memRead _ _ _) fun st t => ?_)
  split
  · exact K.bind (K.memRead _ _ t) fun _ u => K.refl u
  · exact K.refl t

theorem ringConsume (r : Ring) (k : Nat) (s : State) : Keeps R s (ringConsume r q k s) :=
  (ringConsume_ends r q k s).mono (fun _ _ h => h.2.2 ▸ K.setCur s r _) (fun _ => False.elim) (fun _ _ => trivial)

theorem ringTailSync (r : Ring) (s : State) : R s (ringTailSync r q s) := by
  by_cases h : s.tail r q = s.ntu r q
  · rw [ringTailSync_of_eq h]; exact K.refl s
  · rw [ringTailSync_of_ne h]
    exact K.trans (K.trans (K.barrier s .write) (K.regWrite _ _ _)) (K.setQueue _ _ (by simp))

theorem poolMarkPosted (r : Ring) (h len : Nat) (s : State) : Keeps R s (poolMarkPosted r q h len s) :=
  (poolMarkPosted_ends r q h len s).mono (fun _ _ h => h.2 ▸ K.setQueue s _ (by simp)) (fun _ => False.elim) (fun _ _ => trivial)

theorem poolMarkCompleted (r : Ring) (h : Nat) (s : State) : Keeps R s (poolMarkCompleted r q h s) :=
  (poolMarkCompleted_ends r q h s).mono (fun _ _ hp => hp.2.2 ▸ K.setTag s r h .pend) (fun _ hf => ⟨s, _, K.refl s, hf.2⟩)
    (fun _ => False.elim)

theorem poolRecycle (r : Ring) (h : Nat) (s : State) : Keeps R s (poolRecycle r q h s) := by
  refine K.bind (K.poolMarkCompleted r h s) fun _ t => ?_
  cases hp : poolRelease r q h t with
  | none => exact K.refl t
  | some u => rw [Option.getD_some, (poolRelease_eq_some.1 hp).2]; exact K.setTag t r h .free

theorem forEach {f : Nat → State → Res Unit} (hf : ∀ i s, Keeps R s (f i s)) (is : List Nat) (s : State) :
    Keeps R s (forEach f is s) := by
  induction is generalizing s with
  | nil => exact K.refl s
  | cons i is ih => exact K.bind (hf i s) fun _ t => ih t

/-! #### TX -/

theorem readFrags (fs : List Frag) (s : State) : Keeps R s (readFrags fs s) := by
  induction fs generalizing s with
  | nil => exact K.refl s
  | cons f fs ih =>
    unfold Machine.readFrags
    split
    · exact ih s
    · exact K.bind (K.memRead _ _ s) fun _ t => K.bind (ih t) fun _ u => K.refl u

theorem stagePieces (last : Nat) (ps : List (List Byte)) (s : State) : Keeps R s (stagePieces q last ps s) := by
  induction ps generalizing s with
  | nil => exact K.refl s
  | cons p ps ih =>
    unfold Machine.stagePieces
    split
    · trivial
    · refine K.bind (K.memWrite _ _ s) fun _ t => K.bind (K.ringPost _ _ _ t) fun slot u => ?_
      cases slot with
      | none => trivial
      | some _ => exact K.bind (K.poolMarkPosted _ _ _ u) fun _ v => ih v

theorem txDoneLoop (slot left i : Nat) (gap : Bool) (s : State) : Keeps R s (txDoneLoop q slot left i gap s) := by
  induction left generalizing i gap s with
  | zero => exact K.refl s
  | succ left ih =>
    refine K.bind (K.ringPeek _ _ s) fun d t => ?_
    cases d with
    | none => exact ih _ _ t
    | some _ =>
      cases gap with
      | true => exact K.fault t _
      | false => exact ih _ _ t

theorem txLoop (bmax fuel slots pkts : Nat) (s : State) : Keeps R s (txLoop q bmax fuel slots pkts s) := by
  induction fuel generalizing slots pkts s with
  | zero => exact K.refl s
  | succ fuel ih =>
    unfold Machine.txLoop
    dsimp only
    split
    · exact K.refl s
    split
    · exact K.refl s
    refine K.bind (K.txDoneLoop _ _ _ _ s) fun done t => ?_
    split
    · exact K.bind (K.forEach (fun _ u => K.poolRecycle _ _ u) _ t) fun _ u =>
        K.bind (K.ringConsume _ _ u) fun _ v => ih _ _ v
    · exact K.refl t

theorem txPass (b : Half) (s : State) : Keeps R s (txPass q b s) := by
  unfold Machine.txPass
  split
  · exact K.refl s
  · refine K.bind (K.txLoop _ _ _ _ s) fun done t => ?_
    show R t _
    split
    · exact K.emit t _
    · exact K.refl t

/-! #### RX -/

theorem refillLoop (fuel posted : Nat) (s : State) : Keeps R s (refillLoop q fuel posted s) := by
  induction fuel generalizing posted s with
  | zero => exact K.refl s
  | succ fuel ih =>
    unfold Machine.refillLoop
    split
    · exact K.refl s
    split
    · exact K.refl s
    refine K.bind (K.ringPost _ _ _ s) fun slot t => ?_
    cases slot with
    | none => trivial
    | some _ => exact K.bind (K.poolMarkPosted _ _ _ t) fun _ u => ih _ u

theorem rxRefill (s : State) : Keeps R s (rxRefill q s) :=
  K.bind (K.refillLoop _ _ s) fun _ t => K.ringTailSync .rx t

theorem rxScanLoop (left j : Nat) (recs : List Scanned) (s : State) : Keeps R s (rxScanLoop q left j recs s) := by
  induction left generalizing j recs s with
  | zero => exact K.refl s
  | succ left ih =>
    refine K.bind (K.ringPeek _ _ s) fun d t => ?_
    cases d with
    | none => exact K.refl t
    | some _ =>
      dsimp only
      split
      · exact K.fault t _
      split
      · exact K.refl t
      · exact ih _ _ t

theorem completeAll (recs : List Scanned) (s : State) : Keeps R s (completeAll q recs s) := by
  induction recs generalizing s with
  | nil => exact K.refl s
  | cons x xs ih => exact K.bind (K.poolMarkCompleted _ _ s) fun _ t => ih t

theorem recycleAll (recs : List Scanned) (s : State) : Keeps R s (recycleAll q recs s) := by
  induction recs generalizing s with
  | nil => exact K.refl s
  | cons x xs ih => exact K.bind (K.poolRecycle _ _ s) fun _ t => ih t

theorem countDrop (s : State) : R s (s.countDrop q) := K.setQueue s _ rfl

theorem setDiscard (b : Bool) (s : State) : R s (s.setDiscard q b) := K.setQueue s _ rfl

theorem rxApply (o : RxOutcome) (recs : List Scanned) (s : State) : Keeps R s (rxApply q o recs s) := by
  refine K.bind ?_ fun _ t => K.ringConsume _ _ t
  cases o with
  | wait => exact K.refl s
  | deliver => exact K.bind (K.completeAll _ s) fun _ t => K.emit t _
  | dropError => exact K.bind (K.recycleAll _ s) fun _ t => K.countDrop t
  | dropLength => exact K.bind (K.recycleAll _ s) fun _ t => K.countDrop t
  | discardTail => exact K.bind (K.recycleAll _ s) fun _ t => K.setDiscard false t
  | oversize =>
    refine K.bind (K.recycleAll _ s) fun _ t => K.trans ?_ (K.setDiscard true _)
    split
    · exact K.refl t
    · exact K.countDrop t

theorem rxLoop (bmax fuel consumed units frames : Nat) (s : State) :
    Keeps R s (rxLoop q bmax fuel consumed units frames s) := by
  induction fuel generalizing consumed units frames s with
  | zero => exact K.refl s
  | succ fuel ih =>
    unfold Machine.rxLoop
    split
    · exact K.refl s
    refine K.bind (K.rxScanLoop _ _ _ s) fun scan t => ?_
    dsimp only
    split
    · exact K.refl t
    split
    · exact K.refl t
    · exact K.bind (K.rxApply _ _ t) fun _ u => ih _ _ _ u

theorem rxPass (b : Half) (s : State) : Keeps R s (rxPass q b s) := by
  unfold Machine.rxPass
  split
  · exact K.refl s
  · refine K.bind ?_ fun _ t => K.bind (K.rxRefill t) fun _ u => K.refl u
    split
    · exact K.rxLoop _ _ _ _ _ s
    · exact K.refl s

end ShapeKeptBy

end Sys2Proof.Machine
end

section
/-! The configuration invariant (44_control.md R401, R418, 60_exceptions.md R561). While a command works on a queue only a part of
it holds, `State.Configured`; the rest comes back when the command ends: in RingsReady for free, and elsewhere because the command
has torn the queues down. -/

namespace Sys2Proof.Machine

/-! ### What holds all the time -/

/-- The configuration invariant without what it says of a phase: that polls are left while resetting, and that nothing is live
outside RingsReady. -/
structure State.Configured (s : State) : Prop where
  valid  : s.params.Valid
  sized  : s.Sized
  region : s.RegionFits
  lstate : lstateLegal s.lstate = true
  fresh  : s.rstate = .uninitialized ↔ s.nq = 0
  reason : s.faultReason ≠ 0 ↔ s.rstate = .faulted
  polls  : s.resetPolls.toNat ≤ s.params.resetPollLimit
  spare  : ∀ x ∈ s.queues.drop s.nq.toNat, x.Idle s.slots (s.params.txPoolMult * s.slots)

theorem State.ConfigInv.configured {s : State} (h : s.ConfigInv) : s.Configured := by
  obtain ⟨hl, hf, hr, hp, -⟩ := h.regs
  exact ⟨h.valid, h.sized, h.region, hl, hf, hr, hp, h.quiet.2⟩

theorem State.ConfigInv.pollsLeft {s : State} (h : s.ConfigInv) :
    s.rstate = .resetting → s.resetPolls.toNat < s.params.resetPollLimit := by
  obtain ⟨-, -, -, -, hleft⟩ := h.regs
  exact hleft

namespace State.Configured

variable {s : State}

theorem configInv (h : s.Configured) (hpolls : s.rstate = .resetting → s.resetPolls.toNat < s.params.resetPollLimit)
    (hquiet : s.rstate ≠ .ringsReady → s.lstate = 0 ∧ ∀ x ∈ s.queues, x.Idle s.slots (s.params.txPoolMult * s.slots)) :
    s.ConfigInv :=
  ⟨h.valid, h.sized, h.region, ⟨h.lstate, h.fresh, h.reason, h.polls, hpolls⟩, hquiet, h.spare⟩

theorem queue_mem (h : s.Configured) {q : Nat} (hq : q < s.nq.toNat) : s.queue q ∈ s.queues := by
  obtain ⟨hlen, -, -, -, hnq, -⟩ := h.sized
  have hlt : q < s.queues.length := by omega
  rw [State.queue, List.getD_eq_getElem _ _ hlt]
  exact List.getElem_mem hlt

theorem sizedFor_queue (h : s.Configured) {q : Nat} (hq : q < s.nq.toNat) :
    (s.queue q).SizedFor s.slots (s.params.txPoolMult * s.slots) := by
  obtain ⟨-, -, -, hsize, -⟩ := h.sized
  exact hsize _ (h.queue_mem hq)

theorem nq_ne_zero (h : s.Configured) (hr : s.rstate ≠ .uninitialized) : s.nq ≠ 0 := fun h0 => hr (h.fresh.2 h0)

theorem faultReason_eq_zero (h : s.Configured) (hr : s.rstate ≠ .faulted) : s.faultReason = 0 :=
  by_contra fun h0 => hr (h.reason.1 h0)

theorem slots_eq (h : s.Configured) (hn : s.nq ≠ 0) : s.slots = s.n := by
  obtain ⟨-, -, -, -, -, -, hiff⟩ := h.sized
  exact if_neg fun hl => hn (hiff.2 hl)

/-! ### What keeps it -/

/-- A configured queue may take any value of its size. -/
theorem setQueue (h : s.Configured) {q : Nat} {x : Queue} (hq : q < s.nq.toNat)
    (hx : x.SizedFor s.slots (s.params.txPoolMult * s.slots)) : (s.setQueue q x).Configured := by
  obtain ⟨hlen, htx, hrx, hsize, hnq, hlogn, hiff⟩ := h.sized
  refine ⟨h.valid, ⟨by simpa using hlen, htx, hrx, fun y hy => ?_, hnq, hlogn, hiff⟩, h.region, h.lstate, h.fresh, h.reason,
    h.polls, fun y hy => h.spare y ?_⟩
  · rcases List.mem_or_eq_of_mem_set hy with hy | rfl
    · exact hsize y hy
    · exact hx
  · rwa [State.setQueue_queues, State.setQueue_nq, List.drop_set_of_lt hq] at hy

theorem setQueue_of_shape (h : s.Configured) {q : Nat} {x : Queue} (hq : q < s.nq.toNat) (hx : x.shape = (s.queue q).shape) :
    (s.setQueue q x).Configured :=
  h.setQueue hq (Queue.sizedFor_of_shape hx (h.sizedFor_queue hq))

/-- Memory and the device may change, as long as the device has as many rings. -/
theorem outsideWrite (h : s.Configured) {t : State} (ht : s.OutsideWrite t) : t.Configured := by
  obtain ⟨m, d, rfl, htx, hrx⟩ := ht
  obtain ⟨hlen, htx', hrx', hrest⟩ := h.sized
  exact ⟨h.valid, ⟨hlen, htx.trans htx', hrx.trans hrx', hrest⟩, h.region, h.lstate, h.fresh, h.reason, h.polls, h.spare⟩

theorem emit (h : s.Configured) (e : Event) : (s.emit e).Configured :=
  ⟨h.valid, h.sized, h.region, h.lstate, h.fresh, h.reason, h.polls, h.spare⟩

theorem buffered (h : s.Configured) (m : List Host.Cell) (wb : List WbEntry) :
    State.Configured { s with mem := m, wb := wb } :=
  ⟨h.valid, h.sized, h.region, h.lstate, h.fresh, h.reason, h.polls, h.spare⟩

theorem regWrite (h : s.Configured) (reg : DevReg) (v : Word) : (s.regWrite reg v).Configured :=
  (h.emit _).outsideWrite ⟨_, _, rfl, Device.tx_length_write _ _ _, Device.rx_length_write _ _ _⟩

theorem setLState (h : s.Configured) {l : Byte} (hl : lstateLegal l = true) : (s.setLState l).Configured :=
  ⟨h.valid, h.sized, h.region, hl, h.fresh, h.reason, h.polls, h.spare⟩

theorem deviceDisable (h : s.Configured) : s.deviceDisable.Configured := (h.regWrite _ _).regWrite _ _

end State.Configured

/-! ### Teardown -/

theorem mapFirst_eq_append (f : Queue → Queue) (k : Nat) (xs : List Queue) :
    mapFirst f k xs = (xs.take k).map f ++ xs.drop k := by
  induction xs generalizing k with
  | nil => cases k <;> rfl
  | cons x xs ih =>
    cases k with
    | zero => rfl
    | succ k => simp [mapFirst, ih]

theorem Queue.Idle.sizedFor {x : Queue} {n t : Nat} (h : x.Idle n t) : x.SizedFor n t := by
  rw [h]
  exact ⟨List.length_replicate, List.length_replicate, List.length_replicate, List.length_replicate, List.length_replicate,
    List.length_replicate⟩

theorem Queue.Idle.tag_eq_free {x : Queue} {n t : Nat} (h : x.Idle n t) (r : Ring) (i : Nat) : (x.pool r).tag i = .free := by
  have hpool : x.pool r = (Queue.fresh n t).pool r := by
    rw [h]
    cases r <;> rfl
  rw [hpool, Queue.tag_fresh]

/-- A torn queue is idle, where a ring exists. -/
theorem State.Configured.idle_tornQueue {s : State} (h : s.Configured) (hn : s.nq ≠ 0) (x : Queue) :
    (s.tornQueue x).Idle s.slots (s.params.txPoolMult * s.slots) := by
  rw [h.slots_eq hn]
  rfl

/-- What a teardown writes: the configured queues, LSTATE, and by draining the write buffer memory and the log. -/
theorem State.teardown_eq (s : State) : ∃ m es, s.teardown =
    { s with queues := mapFirst s.tornQueue s.nq.toNat s.queues, lstate := 0, mem := m, wb := [], events := es } := by
  by_cases hw : s.wb = []
  · exact ⟨s.mem, s.events, by rw [s.teardown_of_wb_nil hw, hw]⟩
  · exact ⟨_, _, by simp only [State.teardown, if_neg hw]; rfl⟩

/-- After a teardown nothing is live in any queue: the configured ones are torn, the others were idle. -/
theorem State.Configured.idle_teardown {s : State} (h : s.Configured) (hn : s.nq ≠ 0) :
    ∀ x ∈ mapFirst s.tornQueue s.nq.toNat s.queues, x.Idle s.slots (s.params.txPoolMult * s.slots) := by
  intro x hx
  rw [mapFirst_eq_append, List.mem_append, List.mem_map] at hx
  rcases hx with ⟨y, -, rfl⟩ | hx
  · exact h.idle_tornQueue hn y
  · exact h.spare x hx

/-- A teardown that leads to a state in which nothing runs, STOP's or a fault's, restores the invariant. -/
theorem State.Configured.configInv_teardown {s : State} (h : s.Configured) (hn : s.nq ≠ 0) {r : RState} {b : Byte}
    (hr : r = .stopped ∨ r = .faulted) (hb : b ≠ 0 ↔ r = .faulted) :
    State.ConfigInv { s.teardown.setRState r with faultReason := b } := by
  have hidle := h.idle_teardown hn
  obtain ⟨hlen, htx, hrx, -, hsized⟩ := h.sized
  have hstart : r ≠ .uninitialized := by rcases hr with rfl | rfl <;> decide
  have hreset : r ≠ .resetting := by rcases hr with rfl | rfl <;> decide
  obtain ⟨m, es, ht⟩ := s.teardown_eq
  rw [ht]
  have hconf : State.Configured { State.setRState { s with
      queues := mapFirst s.tornQueue s.nq.toNat s.queues, lstate := 0, mem := m, wb := [], events := es } r with
      faultReason := b } :=
    { valid  := h.valid
      sized  := ⟨(length_mapFirst ..).trans hlen, htx, hrx, fun x hx => (hidle x hx).sizedFor, hsized⟩
      region := h.region
      lstate := (by decide : lstateLegal 0 = true)
      fresh  := ⟨fun h => absurd h hstart, fun h => absurd h hn⟩
      reason := hb
      polls  := h.polls
      spare  := fun x hx => hidle x (List.mem_of_mem_drop hx) }
  exact hconf.configInv (fun h => absurd h hreset) fun _ => ⟨rfl, hidle⟩

/-- STOP's end, from a state it tears down. -/
theorem State.Configured.configInv_stopped {s : State} (h : s.Configured) (hstart : s.rstate ≠ .uninitialized)
    (hf : s.rstate ≠ .faulted) : (s.teardown.setRState .stopped).ConfigInv :=
  h.configInv_teardown (h.nq_ne_zero hstart) (b := s.teardown.faultReason) (.inl rfl) (by simp [h.faultReason_eq_zero hf])

theorem State.ConfigInv.respond {s : State} (h : s.ConfigInv) (st : Status) (v : Word) : (s.respond st v).ConfigInv :=
  ⟨h.valid, h.sized, h.region, h.regs, h.quiet⟩

theorem State.ConfigInv.emit {s : State} (h : s.ConfigInv) (e : Event) : (s.emit e).ConfigInv :=
  ⟨h.valid, h.sized, h.region, h.regs, h.quiet⟩

theorem Reason.code_ne_zero (r : Reason) : r.code ≠ 0 := by cases r <;> decide

/-- Entering a fault restores the invariant, wherever a command has got to (60_exceptions.md R561). -/
theorem State.Configured.configInv_faultAnswer {s : State} (h : s.Configured) (hn : s.nq ≠ 0) (hf : s.rstate ≠ .faulted)
    (r : Reason) : (s.faultAnswer r).ConfigInv := by
  rw [State.faultAnswer, State.enterFault_of_not_faulted s r hf]
  have hcode : r.code ≠ 0 ↔ RState.faulted = .faulted := iff_of_true r.code_ne_zero rfl
  refine ((?_ : State.ConfigInv _).emit _).respond _ _
  split
  · exact h.deviceDisable.configInv_teardown hn (.inr rfl) hcode
  · exact h.configInv_teardown hn (.inr rfl) hcode

/-! ### Work on the queues -/

/-- A command is at work, in phase r and with n queues configured. -/
structure State.Working (r : RState) (n : Byte) (s : State) : Prop where
  configured : s.Configured
  rstate     : s.rstate = r
  nq         : s.nq = n

/-- Work goes on, or a fault entry has ended it in a state of the invariant. -/
abbrev Works {α : Type} (r : RState) (n : Byte) (x : Res α) : Prop :=
  x.Ends (fun _ t => t.Working r n) State.ConfigInv (fun _ => True)

/-- A micro-operation ends in a state of the invariant. -/
abbrev EndsInConfigInv {α : Type} (x : Res α) : Prop :=
  x.Ends (fun _ t => t.ConfigInv) State.ConfigInv (fun _ => True)

theorem State.ConfigInv.working {s : State} (h : s.ConfigInv) {r : RState} (hr : s.rstate = r) : s.Working r s.nq :=
  ⟨h.configured, hr, rfl⟩

theorem State.Working.configInv {s : State} {n : Byte} (h : s.Working .ringsReady n) : s.ConfigInv :=
  h.configured.configInv (by rw [h.rstate]; nofun) fun hr => absurd h.rstate hr

theorem State.Working.regWrite {s : State} {r : RState} {n : Byte} (h : s.Working r n) (reg : DevReg) (v : Word) :
    (s.regWrite reg v).Working r n := ⟨h.configured.regWrite reg v, h.rstate, h.nq⟩

/-- The operations of a configured queue keep a command at work. -/
theorem working_shapeKeptBy (r : RState) {n : Byte} {q : Nat} (hq : q < n.toNat) :
    ShapeKeptBy q (fun s t => s.Working r n → t.Working r n) where
  refl _ := id
  trans h h' := h' ∘ h
  emit _ e h := ⟨h.configured.emit e, h.rstate, h.nq⟩
  setQueue _ _ hx h := ⟨h.configured.setQueue_of_shape (h.nq ▸ hq) hx, h.rstate, h.nq⟩
  store s _ _ h := ⟨h.configured.buffered s.mem _, h.rstate, h.nq⟩
  drain _ h := ⟨h.configured.buffered _ [], h.rstate, h.nq⟩
  regWrite _ reg v h := h.regWrite reg v

section

variable {s : State} {r : RState} {n : Byte} {q : Nat}

theorem State.Working.works {α : Type} {x : Res α} (h : s.Working r n) (hq : q < n.toNat) (hr : r ≠ .faulted)
    (hx : Keeps (fun s t => s.Working r n → t.Working r n) s x) : Works r n x := by
  have hn : n ≠ 0 := by rintro rfl; exact absurd hq (Nat.not_lt_zero q)
  refine hx.mono (fun _ t ht => ht h) ?_ (fun _ => id)
  rintro t ⟨u, reason, hu, rfl⟩
  have hwork := hu h
  exact hwork.configured.configInv_faultAnswer (hwork.nq ▸ hn) (hwork.rstate ▸ hr) reason

theorem works_txPass (h : s.Working .ringsReady n) (hq : q < n.toNat) (b : Half) : Works .ringsReady n (txPass q b s) :=
  h.works hq (by decide) ((working_shapeKeptBy _ hq).txPass b s)

theorem works_rxPass (h : s.Working .ringsReady n) (hq : q < n.toNat) (b : Half) : Works .ringsReady n (rxPass q b s) :=
  h.works hq (by decide) ((working_shapeKeptBy _ hq).rxPass b s)

theorem works_rxRefill (h : s.Working r n) (hq : q < n.toNat) (hr : r ≠ .faulted) : Works r n (rxRefill q s) :=
  h.works hq hr ((working_shapeKeptBy r hq).rxRefill s)

/-- The moderation registers of a configured queue are free of the configuration. -/
theorem State.Working.setQueue {x : Queue} (h : s.Working r n) (hq : q < n.toNat)
    (hx : ∀ n t, (s.queue q).SizedFor n t → x.SizedFor n t) : (s.setQueue q x).Working r n := by
  have hq' : q < s.nq.toNat := h.nq ▸ hq
  exact ⟨h.configured.setQueue hq' (hx _ _ (h.configured.sizedFor_queue hq')), h.rstate, h.nq⟩

theorem lstateLegal_setLcp (l : Byte) (h : lstateLegal l = true) : lstateLegal (lstateSetLcp l) = true := by
  revert l
  decide

theorem works_dispatch (h : s.Working .ringsReady n) (hq : q < n.toNat) : Works .ringsReady n (dispatch q s) := by
  have hclosed : (s.closeWindow q).Working .ringsReady n := h.setQueue hq fun _ _ => id
  unfold dispatch
  dsimp only
  rw [if_neg (not_not_intro hclosed.rstate)]
  refine Res.Ends.bind (P := fun _ t => t.Working .ringsReady n) ?_ fun _ t ht =>
    Res.Ends.bind (P := fun _ t => t.Working .ringsReady n) ?_ fun _ u hu => ?_
  · split
    · exact (works_txPass hclosed hq 0).bind fun _ _ => id
    · exact hclosed
  · split
    · exact (works_rxPass ht hq 0).bind fun _ _ => id
    · exact ht
  · show State.Working _ _ _
    split
    · exact ⟨hu.configured.setLState (lstateLegal_setLcp _ hu.configured.lstate), hu.rstate, hu.nq⟩
    · exact hu

theorem works_tickQueue (h : s.Working .ringsReady n) (hq : q < n.toNat) (d : Nat) :
    Works .ringsReady n (tickQueue q d s) := by
  have hcount : (s.setQueue q { s.queue q with cnt := (s.queue q).cnt - 1 }).Working .ringsReady n :=
    h.setQueue hq fun _ _ => id
  unfold tickQueue
  dsimp only
  split
  · split
    · exact (works_dispatch hcount hq).bind fun _ _ => id
    · exact hcount
  · exact h

theorem works_tickLoop (qs : List Nat) (hqs : ∀ q ∈ qs, q < n.toNat) (d : Nat) (h : s.Working .ringsReady n) :
    Works .ringsReady n (tickLoop qs d s) := by
  induction qs generalizing d s with
  | nil => exact h
  | cons q qs ih =>
    exact (works_tickQueue h (hqs q List.mem_cons_self) d).bind fun d t ht =>
      ih (fun p hp => hqs p (List.mem_cons_of_mem _ hp)) d ht

/-! ### Activation -/

theorem State.Working.programQueues (qs : List Nat) (h : s.Working r n) : (programQueues qs s).Working r n := by
  have ring : ∀ {u : State} (d : Ring) (q : Nat), u.Working r n → (u.programRing d q).Working r n := fun _ _ hu =>
    ((((hu.regWrite _ _).regWrite _ _).regWrite _ _).regWrite _ _).regWrite _ _
  induction qs generalizing s with
  | nil => exact h
  | cons q qs ih => exact ih (ring .rx q (ring .tx q h))

/-- Activation leads to RingsReady with the link down and no fault (44_control.md R411). -/
theorem endsInConfigInv_activate (h : s.Working .resetting n) : EndsInConfigInv (activate s) := by
  unfold activate
  dsimp only
  have hprog := ((h.programQueues (List.range s.nq.toNat)).regWrite .rctl 0x00000002).regWrite .tctl 0x00000002
  refine Res.Ends.bind (forEach_ends (I := fun t => t.Working .resetting n) _ (fun q hq u hu => ?_) _ hprog) fun _ t ht => ?_
  · rw [h.nq, List.mem_range] at hq
    exact (works_rxRefill hu hq (by decide)).bind fun _ _ => id
  · have hconf := ht.configured
    have hready : State.Working .ringsReady n ((t.setRState .ringsReady).setLState 0x20) := by
      refine ⟨⟨hconf.valid, hconf.sized, hconf.region, (by decide : lstateLegal 0x20 = true), ?_, ?_, hconf.polls, hconf.spare⟩, rfl, ht.nq⟩
      · exact iff_of_false nofun (hconf.nq_ne_zero (by rw [ht.rstate]; decide))
      · exact iff_of_false (fun h0 => h0 (hconf.faultReason_eq_zero (by rw [ht.rstate]; decide))) nofun
    exact hready.configInv

end

end Sys2Proof.Machine
end

section
/-! Every command, and so every step, keeps the configuration invariant. -/

namespace Sys2Proof.Machine

/-! ### How a command ends -/

theorem State.ConfigInv.of_answer {s t : State} (h : s.ConfigInv) {st : Status} {v : Word} (ht : answer s st v = .next t) :
    t.ConfigInv :=
  answer_eq_next.1 ht ▸ h.respond st v

theorem State.ConfigInv.of_perQueue {q : BitVec 7} {s t : State} {k : Host.Outcome State Fault Refusal} (h : s.ConfigInv)
    (hk : q.toNat < s.nq.toNat → k = .next t → t.ConfigInv) (ht : perQueue q s k = .next t) : t.ConfigInv := by
  rcases perQueue_eq_next ht with ⟨hq, ht⟩ | ⟨-, rfl⟩
  · exact hk hq ht
  · exact h.respond _ _

theorem EndsInConfigInv.of_answer {x : Res (Status × Word)} {t : State} (hx : EndsInConfigInv x) (ht : x.answer = .next t) :
    t.ConfigInv := by
  rcases Res.answer_eq_next.1 ht with ⟨a, u, rfl, rfl⟩ | rfl
  · exact State.ConfigInv.respond hx _ _
  · exact hx

/-- Work that has been done leaves the invariant, whatever value it is answered with. -/
theorem Works.endsInConfigInv {α β : Type} {n : Byte} {x : Res α} (hx : Works .ringsReady n x) (f : α → β) :
    EndsInConfigInv (x.bind fun a s => .ok (f a) s) :=
  Res.Ends.bind hx fun _ _ ht => ht.configInv

/-! ### INIT, STOP, POLL_LINK -/

/-- The configuration an INIT has accepted (44_control.md R400) meets the invariant. -/
theorem configInv_initialised {s : State} (hvalid : s.params.Valid) (htx : s.dev.tx.length = maxQueues)
    (hrx : s.dev.rx.length = maxQueues) {nq : Nat} {logn : BitVec 4} {base : Addr}
    {size : Word} (hnq : 1 ≤ nq) (hnq' : nq ≤ 128) (hlogn : 1 ≤ logn.toNat) (hlogn' : logn.toNat ≤ 12)
    (halign : base.toNat % s.params.pageSize = 0) (hneed : Params.needed s.params (2 ^ logn.toNat) nq ≤ size.toNat)
    (htop : base.toNat + size.toNat ≤ 2 ^ 64) : (s.initialised nq logn base size).ConfigInv := by
  have hnat : (BitVec.ofNat 8 nq).toNat = nq := by rw [BitVec.toNat_ofNat]; omega
  have hnq0 : BitVec.ofNat 8 nq ≠ 0 := by
    intro h0
    have hzero : nq = 0 := hnat.symm.trans (congrArg BitVec.toNat h0)
    omega
  have hlogn0 : logn ≠ 0 := by rintro rfl; simp at hlogn
  have hslots : (s.initialised nq logn base size).slots = 2 ^ logn.toNat := if_neg hlogn0
  have hidle : ∀ x ∈ (s.initialised nq logn base size).queues, x.Idle (s.initialised nq logn base size).slots
      (s.params.txPoolMult * (s.initialised nq logn base size).slots) := by
    intro x hx
    rw [List.eq_of_mem_replicate hx, hslots]
    rfl
  have hconf : (s.initialised nq logn base size).Configured :=
    { valid  := hvalid
      sized  := ⟨List.length_replicate, (Device.tx_length_write ..).trans htx, (Device.rx_length_write ..).trans hrx,
        fun x hx => (hidle x hx).sizedFor, hnat.trans_le hnq', hlogn', iff_of_false hnq0 hlogn0⟩
      region := .inr ⟨halign, (congrArg (Params.needed s.params (2 ^ logn.toNat)) hnat).trans_le hneed, htop⟩
      lstate := (by decide : lstateLegal 0 = true)
      fresh  := iff_of_false nofun hnq0
      reason := iff_of_false (fun h => h rfl) nofun
      polls  := Nat.zero_le _
      spare  := fun x hx => hidle x (List.mem_of_mem_drop hx) }
  obtain ⟨-, -, -, -, -, -, hlimit, -⟩ := hvalid
  exact hconf.configInv (fun _ => hlimit) fun _ => ⟨rfl, hidle⟩

theorem configInv_execInit {nqLess1 : BitVec 7} {logn : BitVec 4} {base : Addr} {size : Word} {s t : State} (h : s.ConfigInv)
    (ht : execInit nqLess1 logn base size s = .next t) : t.ConfigInv := by
  unfold execInit at ht
  dsimp only at ht
  split at ht
  · exact h.of_answer ht
  next hlogn =>
  split at ht
  · exact h.of_answer ht
  next hregion =>
  split at ht
  · exact h.of_answer ht
  refine State.ConfigInv.of_answer ?_ ht
  simp only [not_or, not_lt, not_not] at hlogn hregion
  obtain ⟨hlo, hhi⟩ := hlogn
  obtain ⟨halign, hneed, htop⟩ := hregion
  obtain ⟨-, htx, hrx, -⟩ := h.sized
  have hq := nqLess1.isLt
  split
  · have hp : s.deviceDisable.teardown.params = s.params := by simp
    exact configInv_initialised (hp ▸ h.valid) (by simpa using htx) (by simpa using hrx) (Nat.le_add_left _ _) (by omega)
      hlo hhi (by rwa [hp]) (by rwa [hp]) htop
  · exact configInv_initialised h.valid htx hrx (Nat.le_add_left _ _) (by omega) hlo hhi halign hneed htop

theorem configInv_execStop {s t : State} (h : s.ConfigInv) (ht : execStop s = .next t) : t.ConfigInv := by
  unfold execStop at ht
  split at ht
  case h_1 | h_2 | h_3 => exact h.of_answer ht
  case h_4 hr => exact (h.configured.configInv_stopped (by simp [hr]) (by simp [hr])).of_answer ht
  case h_5 hr => exact (h.configured.deviceDisable.configInv_stopped (by simp [hr]) (by simp [hr])).of_answer ht

theorem lstateLegal_polledLink (link speed : BitVec 2) (fd : BitVec 1) (hl : link ≠ 3) (hs : speed ≠ 3) :
    lstateLegal (polledLink link speed fd) = true := by
  revert link speed fd
  decide

theorem configInv_execPollLink {link speed : BitVec 2} {fd : BitVec 1} {s t : State} (h : s.ConfigInv)
    (ht : execPollLink link speed fd s = .next t) : t.ConfigInv := by
  unfold execPollLink at ht
  dsimp only at ht
  split at ht
  · exact h.of_answer ht
  next hval =>
  split at ht
  · exact h.of_answer ht
  next hr =>
  rw [not_or] at hval
  have hready := h.working (not_not.1 hr)
  have hset : (s.setLState (polledLink link speed fd)).ConfigInv :=
    State.Working.configInv (n := s.nq)
      ⟨hready.configured.setLState (lstateLegal_polledLink _ _ fd hval.1 hval.2), hready.rstate, rfl⟩
  split at ht
  · exact (hset.emit _).of_answer ht
  · exact hset.of_answer ht

/-! ### TICK -/

/-- A poll of the reset: the count stays within its limit, and reaches it only in a fault (44_control.md R410). -/
theorem endsInConfigInv_resetPoll {s : State} (h : s.ConfigInv) (hr : s.rstate = .resetting) : EndsInConfigInv (resetPoll s) := by
  have hleft := h.pollsLeft hr
  obtain ⟨-, -, -, -, -, -, -, hlimit, -⟩ := h.valid
  have hcount : (s.resetPolls + 1).toNat = s.resetPolls.toNat + 1 := by
    rw [BitVec.toNat_add, show (1 : Byte).toNat = 1 from rfl, Nat.mod_eq_of_lt (by omega)]
  have hc := h.configured
  have hwork : State.Working .resetting s.nq (State.afterRegRead { s with resetPolls := s.resetPolls + 1 } .ctrl) :=
    ⟨⟨hc.valid, hc.sized, hc.region, hc.lstate, hc.fresh, hc.reason, hcount.trans_le hleft, hc.spare⟩, hr, rfl⟩
  have hn : s.nq ≠ 0 := hc.nq_ne_zero (by rw [hr]; decide)
  unfold resetPoll
  dsimp only
  split
  · exact endsInConfigInv_activate hwork
  split
  · exact hwork.configured.configInv_faultAnswer hn (by rw [hwork.rstate]; decide) .resetTimeout
  next hlt => exact hwork.configured.configInv (fun _ => Nat.lt_of_not_le hlt) fun hne => h.quiet.1 hne

theorem configInv_execTick {s t : State} (h : s.ConfigInv) (ht : execTick s = .next t) : t.ConfigInv := by
  refine EndsInConfigInv.of_answer ?_ ht
  refine Res.Ends.bind (P := fun _ u => u.ConfigInv) ?_ fun _ u hu =>
    Res.Ends.bind (P := fun _ v => v.ConfigInv) ?_ fun _ _ => id
  · split
    next hr => exact endsInConfigInv_resetPoll h hr
    next => exact h
  · split
    next hr =>
      exact (works_tickLoop _ (fun q hq => List.mem_range.1 hq) 0 (hu.working hr)).mono (fun _ _ hv => hv.configInv)
        (fun _ => id) (fun _ => id)
    next => exact hu

/-! ### The commands of one queue -/

section

variable {q : BitVec 7} {s t : State}

theorem configInv_execEnqueue {frags : List Frag} (h : s.ConfigInv) (ht : execEnqueue q frags s = .next t) : t.ConfigInv := by
  refine h.of_perQueue (fun hq ht => ?_) ht
  dsimp only at ht
  split at ht
  · exact h.of_answer ht
  split at ht
  · exact h.of_answer ht
  next hready =>
  iterate 3
    split at ht
    · exact h.of_answer ht
  rw [not_or, not_not] at hready
  have hw := h.working hready.1
  have K := working_shapeKeptBy .ringsReady hq
  refine EndsInConfigInv.of_answer ?_ ht
  refine (hw.works hq (by decide) (K.bind (K.readFrags frags s) fun data u => K.bind (K.stagePieces _ _ u) fun _ v => ?_)).mono
    (fun _ _ hv => hv.configInv) (fun _ => id) (fun _ => id)
  exact K.ringTailSync .tx v

theorem configInv_execServiceTx {b : Half} (h : s.ConfigInv) (ht : execServiceTx q b s = .next t) : t.ConfigInv := by
  refine h.of_perQueue (fun hq ht => EndsInConfigInv.of_answer ?_ ht) ht
  by_cases hr : s.rstate = .ringsReady
  · exact (works_txPass (h.working hr) hq b).endsInConfigInv _
  · rw [txPass, if_pos hr]
    exact h

theorem configInv_execServiceRx {b : Half} (h : s.ConfigInv) (ht : execServiceRx q b s = .next t) : t.ConfigInv := by
  refine h.of_perQueue (fun hq ht => EndsInConfigInv.of_answer ?_ ht) ht
  by_cases hr : s.rstate = .ringsReady
  · exact (works_rxPass (h.working hr) hq b).endsInConfigInv _
  · rw [rxPass, if_pos hr]
    exact h

theorem configInv_execRefill (h : s.ConfigInv) (ht : execRefill q s = .next t) : t.ConfigInv := by
  refine h.of_perQueue (fun hq ht => ?_) ht
  split at ht
  · exact h.of_answer ht
  next hr =>
    exact EndsInConfigInv.of_answer ((works_rxRefill (h.working (not_not.1 hr)) hq (by decide)).endsInConfigInv _) ht

/-- Only in RingsReady is a buffer Pend, so outside it RELEASE writes nothing. -/
theorem configInv_execRelease {r : Ring} {index : Half} (h : s.ConfigInv) (ht : execRelease r q index s = .next t) :
    t.ConfigInv := by
  refine h.of_perQueue (fun hq ht => ?_) ht
  split at ht
  · exact h.of_answer ht
  split at ht
  · exact h.of_answer ht
  next u hu =>
  obtain ⟨hpend, rfl⟩ := poolRelease_eq_some.1 hu
  have hr : s.rstate = .ringsReady := by
    by_contra hr
    have hfree := ((h.quiet.1 hr).2 _ (h.configured.queue_mem hq)).tag_eq_free r index.toNat
    rw [State.tag, hfree] at hpend
    cases hpend
  exact ((working_shapeKeptBy .ringsReady hq).setTag s r _ .free (h.working hr)).configInv.of_answer ht

/-- ITR is no part of what is live in a queue (44_control.md R416). -/
theorem configInv_execSetItr {w : Half} (h : s.ConfigInv) (ht : execSetItr q w s = .next t) : t.ConfigInv := by
  refine h.of_perQueue (fun hq ht => State.ConfigInv.of_answer ?_ ht) ht
  have hmem := h.configured.queue_mem hq
  have hset : (s.setQueue q.toNat { s.queue q.toNat with itr := w }).Configured :=
    h.configured.setQueue hq (x := { s.queue q.toNat with itr := w }) (h.configured.sizedFor_queue hq)
  refine hset.configInv h.pollsLeft fun hr => ⟨(h.quiet.1 hr).1, fun x hx => ?_⟩
  rcases List.mem_or_eq_of_mem_set hx with hx | rfl
  · exact (h.quiet.1 hr).2 x hx
  · have hidle := (h.quiet.1 hr).2 _ hmem
    show Queue.Idle _ s.slots _
    rw [Queue.Idle, hidle]
    rfl

theorem configInv_execIrq {c : Half} (h : s.ConfigInv) (ht : execIrq q c s = .next t) : t.ConfigInv := by
  refine h.of_perQueue (fun hq ht => ?_) ht
  split at ht
  next hparity =>
    obtain ⟨-, -, hf⟩ := hparity
    cases ht
    have hn : s.nq ≠ 0 := fun h0 => by simp [h0] at hq
    exact h.configured.configInv_faultAnswer hn hf .dmaParity
  split at ht
  · exact h.of_answer ht
  next hr =>
  dsimp only at ht
  split at ht
  · exact h.of_answer ht
  have hacc : (s.accumulate q.toNat (c &&& causeMask)).Working .ringsReady s.nq :=
    (h.working (not_not.1 hr)).setQueue hq fun _ _ => id
  split at ht
  · exact EndsInConfigInv.of_answer ((works_dispatch hacc hq).endsInConfigInv _) ht
  · refine State.ConfigInv.of_answer (State.Working.configInv (n := s.nq) ?_) ht
    unfold State.openWindow
    dsimp only
    split
    · exact hacc
    · exact hacc.setQueue hq fun _ _ => id

end

/-! ### Every command and every step -/

theorem exec_configInv {i : Instr} {s t : State} (h : s.ConfigInv) (ht : exec i s = .next t) : t.ConfigInv := by
  cases i with
  | init nqLess1 logn base size => exact configInv_execInit h ht
  | stop => exact configInv_execStop h ht
  | enqueue q frags => exact configInv_execEnqueue h ht
  | serviceTx q b => exact configInv_execServiceTx h ht
  | serviceRx q b => exact configInv_execServiceRx h ht
  | refill q => exact configInv_execRefill h ht
  | release r q index => exact configInv_execRelease h ht
  | irq q c => exact configInv_execIrq h ht
  | pollLink link speed fd => exact configInv_execPollLink h ht
  | tick => exact configInv_execTick h ht
  | setItr q w => exact configInv_execSetItr h ht
  | isEmpty r q => exact h.of_perQueue (fun _ => h.of_answer) ht
  | isFull r q => exact h.of_perQueue (fun _ => h.of_answer) ht
  | capacity r q => exact h.of_perQueue (fun _ => h.of_answer) ht
  | occupancy r q => exact h.of_perQueue (fun _ => h.of_answer) ht
  | poolTag r q index =>
    refine h.of_perQueue (fun _ ht => ?_) ht
    split at ht <;> exact h.of_answer ht
  | readReg q index =>
    simp only [exec, execReadReg] at ht
    split at ht
    · split at ht <;> exact h.of_answer ht
    split at ht
    · exact h.of_perQueue (fun _ => h.of_answer) ht
    · exact h.of_answer ht

theorem State.ConfigInv.outsideWrite {s t : State} (h : s.ConfigInv) (ht : s.OutsideWrite t) : t.ConfigInv := by
  have hconf := h.configured.outsideWrite ht
  obtain ⟨m, d, rfl, -, -⟩ := ht
  exact hconf.configInv h.pollsLeft h.quiet.1

/-- Settles O53: a command keeps the invariant, since it works in RingsReady or leads there, or tears down; nothing else touches
what the invariant speaks of. -/
theorem configurationInvariantKept : Obligations.ConfigurationInvariantKept := by
  intro s t h ht
  have hrest : (s.withInputs s.inputs.tail).ConfigInv := ⟨h.valid, h.sized, h.region, h.regs, h.quiet⟩
  rcases step_effects ht with ⟨-, rfl⟩ | ⟨i, hi⟩ | ⟨st, v, rfl⟩ | hout
  · exact h
  · exact exec_configInv hrest hi
  · exact hrest.respond st v
  · exact hrest.outsideWrite hout

end Sys2Proof.Machine
end

section
/-! Memory stays in canonical form (20_memory.md R101, R121). -/

namespace Sys2Proof.Machine

/-- Settles O52: a command, a device move and a host write each keep the canonical form; a refused command writes no memory. -/
theorem memoryStaysCanonical : Obligations.MemoryStaysCanonical := by
  intro s t hwf h
  obtain ⟨-, ⟨-, rfl⟩ | ⟨w, args, rest, i, -, -, ht⟩ | ⟨w, args, rest, e, -, -, rfl⟩ | ⟨m, rest, -, ht⟩ |
    ⟨addr, bytes, rest, -, rfl⟩⟩ := step_cases h
  · exact hwf
  · exact exec_wf ht hwf
  · exact hwf
  · have hm := wf_deviceMove m (s.withInputs rest) hwf
    rcases moveOutcome_eq_next.1 ht with ht | ht <;> rw [ht] at hm
    · exact hm
    · exact hm.elim
  · exact wf_hostWrite addr bytes (s.withInputs rest) hwf

end Sys2Proof.Machine
end

section
/-! An ENQUEUE that passes its checks, and what becomes of it where the platform has no memory (42_tx.md R300, 20_memory.md R101). -/

namespace Sys2Proof.Machine

/-- The packet passes every check that ENQUEUE makes (42_tx.md R300). -/
structure State.AcceptsPacket (s : State) (q : BitVec 7) (frags : List Frag) : Prop where
  live     : s.Live q
  link     : lstateLink s.lstate = linkUp
  nonempty : frags ≠ []
  count    : frags.length ≤ s.params.maxTxFrags
  bytes    : 1 ≤ packetLength frags
  descs    : pieceCount (packetLength frags) s.params.bufSize ≤ s.params.maxTxDescPerPkt
  slots    : pieceCount (packetLength frags) s.params.bufSize ≤ s.ringFree .tx q.toNat
  buffers  : pieceCount (packetLength frags) s.params.bufSize ≤ s.poolCount .tx q.toNat .free

theorem State.ringFree_le (s : State) (r : Ring) (q : Nat) : s.ringFree r q ≤ s.n - 1 := Nat.sub_le _ _

/-- An accepted ENQUEUE reads its fragments, stages the pieces and writes the tail register. -/
theorem exec_enqueue_of_accepts {s : State} {q : BitVec 7} {frags : List Frag} (h : s.AcceptsPacket q frags) :
    exec (.enqueue q frags) s =
      let k := pieceCount (packetLength frags) s.params.bufSize
      let first := s.ntu .tx q.toNat
      Res.answer <|
        (readFrags frags s).bind fun data t =>
          (stagePieces q.toNat ((first + k - 1) % s.n) (pieces t.params.bufSize k data) t).bind fun _ u =>
            .ok (.ok, BitVec.ofNat 32 first) (ringTailSync .tx q.toNat u) := by
  obtain ⟨⟨hq, hready⟩, hlink, hne, hfrags, hbytes, hdescs, hslots, hbufs⟩ := h
  have hring := hslots.trans (s.ringFree_le .tx q.toNat)
  have hlen : frags.length ≠ 0 := mt List.length_eq_zero_iff.1 hne
  refine (perQueue_of_lt hq).trans ?_
  dsimp only
  rw [if_neg (by omega), if_neg (not_or.2 ⟨not_not.2 hready, not_not.2 hlink⟩), if_neg (by omega), if_neg (by omega),
    if_neg (by omega)]

/-- Reading a packet stops at its first fragment when that is not empty and the platform does not back it. -/
theorem readFrags_cons_of_not_backs {f : Frag} {s : State} (rest : List Frag) (hlen : f.len ≠ 0)
    (hb : ¬ s.params.Backs f.addr.toNat f.len.toNat) : readFrags (f :: rest) s = .stuck .memoryNotBacked := by
  rw [readFrags, if_neg hlen, memRead_of_not_backs hb, Res.bind_stuck]

/-- Settles O35: the checks passed, ENQUEUE's first act is to read the fragment that is not backed. -/
theorem enqueueWithoutMemoryIsStuck : Obligations.EnqueueWithoutMemoryIsStuck := by
  intro q f rest s hlive hlink hfrags hlen hdescs hslots hbufs hb
  have hbytes : 1 ≤ packetLength (f :: rest) := hlen.trans (Nat.le_add_right _ _)
  have hne : f.len ≠ 0 := by
    intro h0
    simp [h0] at hlen
  rw [exec_enqueue_of_accepts ⟨hlive, hlink, List.cons_ne_nil f rest, hfrags, hbytes, hdescs, hslots, hbufs⟩]
  simp only [readFrags_cons_of_not_backs rest hne hb, Res.bind_stuck, Res.answer]

end Sys2Proof.Machine
end

section
/-! The fields of a command word and the shapes of an argument block (30_encoding.md R150 to R158): what the encoder writes is read back,
and what is read is written back. -/

namespace Sys2Proof

/-! ### The fields of a word -/

theorem Word.rbit_ofFields (c : BitVec 8) (r : BitVec 1) (q : BitVec 7) (v : Half) : Word.rbit (Word.ofFields c r q v) = r := by
  rw [Word.rbit, Word.ofFields, BitVec.extractLsb'_append_eq_of_le (by decide), BitVec.extractLsb'_append_eq_of_le (by decide)]
  exact BitVec.extractLsb'_append_eq_right

theorem Word.qfield_ofFields (c : BitVec 8) (r : BitVec 1) (q : BitVec 7) (v : Half) :
    Word.qfield (Word.ofFields c r q v) = q := by
  rw [Word.qfield, Word.ofFields, BitVec.extractLsb'_append_eq_of_le (by decide)]
  exact BitVec.extractLsb'_append_eq_right

/-- A word is its four fields put together. -/
theorem Word.ofFields_fields (w : Word) : Word.ofFields (Word.opc w) (Word.rbit w) (Word.qfield w) (Word.imm w) = w := by
  rw [Word.ofFields, Word.opc, Word.rbit, Word.qfield, Word.imm,
    BitVec.extractLsb'_append_extractLsb'_eq_extractLsb' (start₁ := 23) (len₁ := 1) rfl,
    BitVec.extractLsb'_append_extractLsb'_eq_extractLsb' (start₁ := 16) (len₁ := 7) rfl]
  exact BitVec.extractLsb'_append_extractLsb'

theorem Word.not_ofFields (c : BitVec 8) (r : BitVec 1) (q : BitVec 7) (v : Half) :
    ~~~Word.ofFields c r q v = Word.ofFields (~~~c) (~~~r) (~~~q) (~~~v) := by
  refine (BitVec.not_append (x := c ++ r ++ q) (y := v)).trans ?_
  rw [BitVec.not_append, BitVec.not_append, Word.ofFields]

/-- The bits of a word that a mask leaves, field by field. -/
theorem Word.ofFields_and_not (c : BitVec 8) (r : BitVec 1) (q : BitVec 7) (v : Half) (m : Word) :
    Word.ofFields c r q v &&& ~~~m =
      Word.ofFields (c &&& ~~~Word.opc m) (r &&& ~~~Word.rbit m) (q &&& ~~~Word.qfield m) (v &&& ~~~Word.imm m) := by
  conv_lhs => rw [← Word.ofFields_fields m]
  rw [Word.not_ofFields, Laws.EncodesLegally.ofFields_and]

/-- Clearing bits that are zero changes nothing. -/
theorem Word.and_not_of_and_eq_zero {w m : Word} (h : w &&& m = 0) : w &&& ~~~m = w := by
  apply BitVec.eq_of_getLsbD_eq
  intro i hi
  have hbit : (w.getLsbD i && m.getLsbD i) = false := by
    rw [← BitVec.getLsbD_and, h]
    exact BitVec.getLsbD_zero
  rw [BitVec.getLsbD_and, BitVec.getLsbD_not, decide_eq_true hi, Bool.true_and]
  revert hbit
  cases w.getLsbD i <;> cases m.getLsbD i <;> decide

theorem Word.toNat_opc (w : Word) : (Word.opc w).toNat = w.toNat / 2 ^ 24 := by
  simp only [Word.opc, BitVec.extractLsb'_toNat, Nat.shiftRight_eq_div_pow]
  omega

theorem Word.toNat_imm (w : Word) : (Word.imm w).toNat = w.toNat % 2 ^ 16 := by
  simp only [Word.imm, BitVec.extractLsb'_toNat, Nat.shiftRight_zero]

/-- The low k bits of an IMM, as a mask leaves them. -/
theorem setWidth_extractLsb'_low (v : Half) (k : Nat) : (v.extractLsb' 0 k).setWidth 16 = v &&& BitVec.ofNat 16 (2 ^ k - 1) := by
  apply BitVec.eq_of_getLsbD_eq
  intro i hi
  rw [BitVec.getLsbD_setWidth, BitVec.getLsbD_extractLsb', BitVec.getLsbD_and, BitVec.getLsbD_ofNat,
    Nat.testBit_two_pow_sub_one, Nat.zero_add, decide_eq_true hi, Bool.true_and, Bool.true_and, Bool.and_comm]

/-- LOGN is the low four bits of INIT's IMM (R157). -/
theorem setWidth_logn (v : Half) : (v.extractLsb' 0 4).setWidth 16 = v &&& 15#16 := setWidth_extractLsb'_low v 4

/-- LINK, SPEED and FD fill the low five bits of POLL_LINK's IMM (R157). -/
theorem setWidth_link_speed_fd (v : Half) :
    (v.extractLsb' 4 1 ++ v.extractLsb' 2 2 ++ v.extractLsb' 0 2).setWidth 16 = v &&& 31#16 := by
  rw [BitVec.extractLsb'_append_extractLsb'_eq_extractLsb' (start₁ := 2) (len₁ := 2) rfl,
    BitVec.extractLsb'_append_extractLsb'_eq_extractLsb' (start₁ := 0) (len₁ := 2) rfl]
  exact setWidth_extractLsb'_low v 5

theorem extractLsb'_setWidth_logn (logn : BitVec 4) : (logn.setWidth 16).extractLsb' 0 4 = logn := by
  rw [BitVec.extractLsb'_setWidth_of_le (by decide), BitVec.extractLsb'_eq_self]

theorem extractLsb'_link (link speed : BitVec 2) (fd : BitVec 1) :
    ((fd ++ speed ++ link).setWidth 16).extractLsb' 0 2 = link := by
  rw [BitVec.extractLsb'_setWidth_of_le (by decide), BitVec.extractLsb'_append_eq_right]

theorem extractLsb'_speed (link speed : BitVec 2) (fd : BitVec 1) :
    ((fd ++ speed ++ link).setWidth 16).extractLsb' 2 2 = speed := by
  rw [BitVec.extractLsb'_setWidth_of_le (by decide), BitVec.extractLsb'_append_eq_of_le (by decide),
    BitVec.extractLsb'_append_eq_right]

theorem extractLsb'_fd (link speed : BitVec 2) (fd : BitVec 1) :
    ((fd ++ speed ++ link).setWidth 16).extractLsb' 4 1 = fd := by
  rw [BitVec.extractLsb'_setWidth_of_le (by decide), BitVec.extractLsb'_append_eq_of_le (by decide),
    BitVec.extractLsb'_append_eq_left]

theorem Ring.ofBit_bit (r : Ring) : Ring.ofBit r.bit = r := by cases r <;> rfl

theorem Ring.bit_ofBit (b : BitVec 1) : (Ring.ofBit b).bit = b := by revert b; decide

/-! ### Argument blocks -/

theorem addrOfWords_lo_hi (a : Addr) : addrOfWords (Addr.lo a) (Addr.hi a) = a := BitVec.extractLsb'_append_extractLsb'

theorem Addr.lo_addrOfWords (lo hi : Word) : Addr.lo (addrOfWords lo hi) = lo := BitVec.extractLsb'_append_eq_right

theorem Addr.hi_addrOfWords (lo hi : Word) : Addr.hi (addrOfWords lo hi) = hi := BitVec.extractLsb'_append_eq_left

theorem fragsOfWords_wordsOfFrags (fs : List Frag) : fragsOfWords (wordsOfFrags fs) = fs := by
  induction fs with
  | nil => rfl
  | cons f fs ih => rw [wordsOfFrags, fragsOfWords, addrOfWords_lo_hi, ih]

/-- A block of three words a fragment is the block of the fragments read from it. -/
theorem wordsOfFrags_fragsOfWords (n : Nat) (ws : List Word) (h : ws.length = 3 * n) : wordsOfFrags (fragsOfWords ws) = ws := by
  induction n generalizing ws with
  | zero => rw [List.eq_nil_of_length_eq_zero h]; rfl
  | succ n ih =>
    match ws with
    | lo :: hi :: len :: ws =>
      rw [fragsOfWords, wordsOfFrags, ih ws (by simpa [Nat.mul_succ] using h), Addr.lo_addrOfWords, Addr.hi_addrOfWords]

/-- A block of three words a fragment holds so many fragments. -/
theorem length_fragsOfWords {n : Nat} {ws : List Word} (h : ws.length = 3 * n) : (fragsOfWords ws).length = n := by
  have hlen := Laws.EncodesLegally.length_wordsOfFrags (fragsOfWords ws)
  rw [wordsOfFrags_fragsOfWords n ws h] at hlen
  omega

/-- So IMM is the number of fragments, when the block has the length that ENQUEUE's row of R157 asks for. -/
theorem ofNat_length_fragsOfWords {v : Half} {ws : List Word} (h : ws.length = 3 * v.toNat) :
    BitVec.ofNat 16 (fragsOfWords ws).length = v := by
  rw [length_fragsOfWords h, BitVec.ofNat_toNat, BitVec.setWidth_eq]

/-! ### Opcodes -/

/-- The opcodes in use are 0x01 to 0x11 (R156). -/
theorem Opcode.code_range (o : Opcode) : 1 ≤ o.code.toNat ∧ o.code.toNat ≤ 0x11 := by cases o <;> decide

/-- 0x00 and 0x12 to 0xFF are reserved (R158). -/
theorem Opcode.ofCode_eq_none {c : BitVec 8} (h : c.toNat = 0 ∨ 0x12 ≤ c.toNat) : Opcode.ofCode c = none := by
  refine List.find?_eq_none.2 fun o _ ho => ?_
  obtain rfl := eq_of_beq ho
  have hrange := o.code_range
  omega

theorem Opcode.code_of_ofCode {c : BitVec 8} {o : Opcode} (h : Opcode.ofCode c = some o) : o.code = c :=
  eq_of_beq (List.find?_some (p := fun o : Opcode => o.code == c) h)

/-- A word whose bits 31:24 are an opcode's number has that opcode. -/
theorem Opcode.ofCode_opc {w : Word} {o : Opcode} (h : w.toNat / 2 ^ 24 = o.code.toNat) :
    Opcode.ofCode (Word.opc w) = some o := by
  rw [BitVec.eq_of_toNat_eq ((Word.toNat_opc w).trans h), Laws.EncodesLegally.ofCode_code]

/-- The length column of R157, as a number of words. -/
theorem Opcode.argWords_imm (o : Opcode) (w : Word) : o.argWords (Word.imm w) =
    if o = .init then 3 else if o = .enqueue then 3 * (w.toNat % 2 ^ 16) else 0 := by
  rw [← Word.toNat_imm]
  cases o <;> rfl

end Sys2Proof
end

section
/-! Decoding what the encoder writes, and encoding what the decoder accepts (30_encoding.md R150 to R158). -/

namespace Sys2Proof

open Laws.EncodesLegally

/-! ### The decoder's checks (steps 1 to 3 of R163) -/

section
variable {w : Word} {args : List Word} {o : Opcode}

theorem decode_of_reservedOpcode (hc : Opcode.ofCode (Word.opc w) = none) : decode w args = .error .reservedOpcode := by
  rw [decode, hc]

theorem decode_of_reservedField (hc : Opcode.ofCode (Word.opc w) = some o) (hm : w &&& o.reservedMask ≠ 0) :
    decode w args = .error .reservedField := by
  rw [decode, hc]
  exact if_pos hm

theorem decode_of_argumentCount (hc : Opcode.ofCode (Word.opc w) = some o) (hm : w &&& o.reservedMask = 0)
    (hlen : args.length ≠ o.argWords (Word.imm w)) : decode w args = .error .argumentCount := by
  rw [decode, hc]
  exact (if_neg (not_not.2 hm)).trans (if_pos hlen)

/-- Past the three checks, only the operands are left to read. -/
theorem decode_eq_operands (hc : Opcode.ofCode (Word.opc w) = some o) (hm : w &&& o.reservedMask = 0)
    (hlen : args.length = o.argWords (Word.imm w)) : decode w args = o.operands w args := by
  rw [decode, hc]
  exact (if_neg (not_not.2 hm)).trans (if_neg (not_not.2 hlen))

/-- A command that is accepted has passed the three checks. -/
theorem decode_eq_ok {i : Instr} (h : decode w args = .ok i) :
    ∃ o, Opcode.ofCode (Word.opc w) = some o ∧ w &&& o.reservedMask = 0 ∧ args.length = o.argWords (Word.imm w) ∧
      o.operands w args = .ok i := by
  cases hc : Opcode.ofCode (Word.opc w) with
  | none => cases (decode_of_reservedOpcode hc).symm.trans h
  | some o =>
    by_cases hm : w &&& o.reservedMask = 0
    · by_cases hlen : args.length = o.argWords (Word.imm w)
      · exact ⟨o, rfl, hm, hlen, (decode_eq_operands hc hm hlen).symm.trans h⟩
      · cases (decode_of_argumentCount hc hm hlen).symm.trans h
    · cases (decode_of_reservedField hc hm).symm.trans h

end

/-! ### Decoding what was encoded -/

/-- Every instruction's command passes the three checks. -/
theorem encodesLegally (i : Instr) : Statement i := by
  cases i with
  | init q logn base size => exact init q logn base size
  | stop => exact stop
  | enqueue q frags => exact enqueue q frags
  | serviceTx q b => exact serviceTx q b
  | serviceRx q b => exact serviceRx q b
  | refill q => exact refill q
  | release r q h => exact release r q h
  | irq q c => exact irq q c
  | pollLink link speed fd => exact pollLink link speed fd
  | tick => exact tick
  | setItr q w => exact setItr q w
  | isEmpty r q => exact isEmpty r q
  | isFull r q => exact isFull r q
  | capacity r q => exact capacity r q
  | occupancy r q => exact occupancy r q
  | readReg q i => exact readReg q i
  | poolTag r q h => exact poolTag r q h

/-- The operands are read back from the word and the argument block that the encoder writes. -/
theorem operands_encode (i : Instr) : i.opcode.operands i.word i.args = .ok i := by
  cases i with
  | init q logn base size =>
    simp only [Instr.opcode, Instr.word, Instr.args, Opcode.operands, Word.qfield_ofFields, imm_ofFields, addrOfWords_lo_hi,
      extractLsb'_setWidth_logn]
  | enqueue q frags =>
    simp only [Instr.opcode, Instr.word, Instr.args, Opcode.operands, Word.qfield_ofFields, fragsOfWords_wordsOfFrags]
  | pollLink link speed fd =>
    simp only [Instr.opcode, Instr.word, Opcode.operands, imm_ofFields, extractLsb'_link, extractLsb'_speed, extractLsb'_fd]
  | _ =>
    simp only [Instr.opcode, Instr.word, Opcode.operands, Word.rbit_ofFields, Word.qfield_ofFields, imm_ofFields, Ring.ofBit_bit]

/-- Settles O1: the encoder's command passes the decoder's checks, and its operands are read back field by field. -/
theorem decodeOfEncode : Obligations.DecodeOfEncode := by
  intro i hwf
  obtain ⟨hcode, hmask, hlen⟩ := encodesLegally i hwf
  exact (decode_eq_operands hcode hmask hlen).trans (operands_encode i)

/-! ### Encoding what was decoded -/

section
variable {w : Word} {args : List Word} {o : Opcode} {i : Instr}

theorem wellFormed_of_operands (h : o.operands w args = .ok i) (hlen : args.length = o.argWords (Word.imm w)) :
    i.wellFormed = true := by
  cases o with
  | init => obtain ⟨lo, hi, size, rfl⟩ := List.length_eq_three.1 hlen; cases h; rfl
  | enqueue =>
    cases h
    exact decide_eq_true ((length_fragsOfWords hlen).trans_lt (Word.imm w).isLt)
  | _ => cases h; rfl

/-- The encoder writes back the argument block that the operands were read from. -/
theorem args_of_operands (h : o.operands w args = .ok i) (hlen : args.length = o.argWords (Word.imm w)) : i.args = args := by
  cases o with
  | init =>
    obtain ⟨lo, hi, size, rfl⟩ := List.length_eq_three.1 hlen
    cases h
    rw [Instr.args, Addr.lo_addrOfWords, Addr.hi_addrOfWords]
  | enqueue => cases h; exact wordsOfFrags_fragsOfWords _ args hlen
  | _ => cases h; exact (List.eq_nil_of_length_eq_zero hlen).symm

/-- The encoder writes back every bit of the word but those that the opcode's row of R157 reserves. -/
theorem word_of_operands (h : o.operands w args = .ok i) (hlen : args.length = o.argWords (Word.imm w)) :
    i.word = Word.ofFields o.code (Word.rbit w) (Word.qfield w) (Word.imm w) &&& ~~~o.reservedMask := by
  -- A field that no reserved bit meets is left whole.
  have hr (r : BitVec 1) : r &&& 1#1 = r := BitVec.and_allOnes
  have hq (q : BitVec 7) : q &&& 127#7 = q := BitVec.and_allOnes
  have hv (v : Half) : v &&& 65535#16 = v := BitVec.and_allOnes
  rw [Word.ofFields_and_not]
  cases o
  case' init => obtain ⟨lo, hi, size, rfl⟩ := List.length_eq_three.1 hlen
  case' enqueue => have hfrags := ofNat_length_fragsOfWords hlen
  -- First the fields that the encoder writes, then the fields that the row's mask leaves.
  all_goals
    cases h
    simp only [Instr.word, Instr.opcode, Ring.bit_ofBit, setWidth_logn, setWidth_link_speed_fd, *]
    simp [Opcode.code, Opcode.reservedMask, Word.opc, Word.rbit, Word.qfield, Word.imm, hr, hq, hv]

end

/-- Settles O2: the encoder writes back all bits but the reserved ones, and in an accepted word those are zero. -/
theorem encodeOfDecode : Obligations.EncodeOfDecode := by
  intro w args i h
  obtain ⟨o, hcode, hmask, hlen, hi⟩ := decode_eq_ok h
  have hword : i.word = w := by
    rw [word_of_operands hi hlen, Opcode.code_of_ofCode hcode, Word.ofFields_fields]
    exact Word.and_not_of_and_eq_zero hmask
  exact ⟨wellFormed_of_operands hi hlen, Prod.ext hword (args_of_operands hi hlen)⟩

/-- Settles O3: each worked word is the one that the encoder writes for the instruction named. -/
theorem workedWordsDecode : Obligations.WorkedWordsDecode :=
  ⟨decodeOfEncode (.init 0 3 0x100000 0x11000) rfl, decodeOfEncode (.release .rx 0 5) rfl,
    decodeOfEncode (.pollLink 2 2 1) rfl, decodeOfEncode (.enqueue 0 [⟨0x200000, 2000⟩, ⟨0x300000, 100⟩]) rfl,
    decodeOfEncode (.serviceRx 0 1) rfl, decodeOfEncode (.irq 0 0x0080) rfl, decodeOfEncode (.isFull .rx 0) rfl,
    decodeOfEncode (.readReg 0 0x10F) rfl⟩

end Sys2Proof
end

section
/-! What a step does with the first of its inputs, and the answers of the checks before a command's own rule (30_encoding.md R151,
R163). -/

namespace Sys2Proof.Machine

/-! ### One step -/

section
variable {s : State} {rest : List Input} (hv : s.params.Valid)
include hv

theorem step_of_idle (hi : s.inputs = []) : step s = .next s := by
  rw [step, if_pos hv, hi]

theorem step_of_accepted {w : Word} {args : List Word} {i : Instr} (hi : s.inputs = .command w args :: rest)
    (hd : decode w args = .ok i) : step s = exec i (s.withInputs rest) := by
  rw [step, if_pos hv, hi]
  dsimp only
  rw [hd]

theorem step_of_refused {w : Word} {args : List Word} {e : DecodeError} (hi : s.inputs = .command w args :: rest)
    (hd : decode w args = .error e) : step s = .next (refuseCommand e (s.withInputs rest)) := by
  rw [step, if_pos hv, hi]
  dsimp only
  rw [hd]

theorem step_of_move {m : Move} (hi : s.inputs = .device m :: rest) :
    step s = moveOutcome (deviceMove m (s.withInputs rest)) := by
  rw [step, if_pos hv, hi]

theorem step_of_hostWrite {addr : Addr} {bytes : List Byte} (hi : s.inputs = .hostWrite addr bytes :: rest) :
    step s = .next (hostWrite addr bytes (s.withInputs rest)) := by
  rw [step, if_pos hv, hi]

end

/-- Settles O6: one clause for each kind of first input. -/
theorem stepRunsDecodedInstruction : Obligations.StepRunsDecodedInstruction := by
  intro s hv
  exact ⟨step_of_idle hv, fun w args rest i => step_of_accepted hv, fun m rest => step_of_move hv,
    fun a bs rest => step_of_hostWrite hv⟩

/-- Settles O4: the check that fails decides the decoder's error, and a refused command writes its response only. -/
theorem decodeChecksAreAnswered : Obligations.DecodeChecksAreAnswered := by
  intro s w args rest hv hi
  refine ⟨fun hopc => ?_, fun o hopc hmask => ?_, fun o hopc hmask hlen => ?_⟩
  · rw [← Word.toNat_opc] at hopc
    exact step_of_refused hv hi (decode_of_reservedOpcode (Opcode.ofCode_eq_none hopc))
  · exact step_of_refused hv hi (decode_of_reservedField (Opcode.ofCode_opc hopc) hmask)
  · rw [← o.argWords_imm] at hlen
    exact step_of_refused hv hi (decode_of_argumentCount (Opcode.ofCode_opc hopc) hmask hlen)

/-! ### A queue that does not exist -/

/-- The global registers have the indices below 0x100 (10_state.md R80). -/
theorem State.globalReg_eq_none {s : State} {index : Nat} (h : 0x100 ≤ index) : s.globalReg index = none := by
  unfold State.globalReg
  split
  any_goals omega
  rfl

/-- READ_REG past the global registers names the queue: without it the answer is E_INVAL, whatever the index. -/
theorem execReadReg_of_ge {s : State} {q : BitVec 7} {index : Half} (hindex : 0x100 ≤ index.toNat) (hq : s.nq.toNat ≤ q.toNat) :
    execReadReg q index s = answer s .inval 0 := by
  rw [execReadReg, State.globalReg_eq_none hindex]
  dsimp only
  split
  · exact perQueue_of_ge hq
  · rfl

/-- Settles O5: each per-queue command but READ_REG begins with the check of Q. -/
theorem queueOutOfRangeIsAnswered : Obligations.QueueOutOfRangeIsAnswered := by
  intro i q s hi hq
  cases i with
  | init nqLess1 logn base size => cases hi
  | stop => cases hi
  | pollLink link speed fd => cases hi
  | tick => cases hi
  | readReg q' index =>
    rw [perQueueOf] at hi
    split at hi
    · next hindex => cases hi; exact execReadReg_of_ge hindex.1 hq
    · cases hi
  | _ => cases hi; exact perQueue_of_ge hq

end Sys2Proof.Machine
end

section
/-! One descriptor ring with its pool, seen apart from the state: cursors and slots as numbers, the records of its slots and the tags
of its buffers as functions. What 40_ring.md R201, 41_pool.md R249 and 42_tx.md R302 ask of a ring is said here by position past NTC,
and each operation on a ring is an operation on its view. -/

namespace Sys2Proof.Machine

/-- A ring, its records and the tags of its pool. -/
structure RingView where
  slots  : Nat
  bufs   : Nat
  ntu    : Nat
  ntc    : Nat
  tail   : Nat
  record : Nat → SlotRecord
  tag    : Nat → Tag

namespace RingView

/-- How many slots are outstanding, for rings of n slots (40_ring.md R204). -/
def count (v : RingView) (n : Nat) : Nat := ringDist n v.ntc v.ntu

/-- The slot i places past NTC. -/
def slotAt (v : RingView) (n i : Nat) : Nat := (v.ntc + i) % n

/-- The buffer that the slot i places past NTC names. -/
def held (v : RingView) (n i : Nat) : Nat := (v.record (v.slotAt n i)).handle

/-- The outstanding slots past the first j name distinct buffers, exactly those tagged HW (41_pool.md R249(b)); the buffers of the
first j have been given back while those slots are still outstanding. -/
structure Tracked (v : RingView) (n size j : Nat) : Prop where
  ntu_lt   : v.ntu < n
  ntc_lt   : v.ntc < n
  isHw     : ∀ i, j ≤ i → i < v.count n → v.tag (v.held n i) = .hw
  distinct : ∀ i < v.count n, ∀ i' < v.count n, v.held n i = v.held n i' → i = i'
  isHeld   : ∀ b < size, v.tag b = .hw → ∃ i, j ≤ i ∧ i < v.count n ∧ v.held n i = b

/-- The slots from place i to place e are the end of one packet: they name slot e as their last, and e alone is marked as it. -/
def EndsAt (v : RingView) (n i e : Nat) : Prop :=
  ∀ m, i ≤ m → m ≤ e → m < v.count n →
    (v.record (v.slotAt n m)).last = v.slotAt n e ∧ ((v.record (v.slotAt n m)).eop = true ↔ m = e)

/-- The outstanding slots are a run of packets (42_tx.md R302): each ends at an outstanding slot, but the packet being staged, which
will end just before place `target`. With target 0 no packet is being staged. -/
def Packets (v : RingView) (n target : Nat) : Prop :=
  ∀ i < v.count n, ∃ e, i ≤ e ∧ (e < v.count n ∨ e + 1 = target) ∧ v.EndsAt n i e

/-- What a ring is at a command boundary, for rings of n slots and a pool of the given size. -/
structure Settled (v : RingView) (r : Ring) (n size : Nat) : Prop where
  tracked : v.Tracked n size 0
  synced  : v.tail = v.ntu
  noPend  : r = .tx → ∀ b < size, v.tag b ≠ .pend
  packets : r = .tx → v.Packets n 0

/-- The ring after a descriptor with record w is posted at NTU and its buffer marked HW (40_ring.md R205, 41_pool.md R251). -/
def staged (v : RingView) (n : Nat) (w : SlotRecord) : RingView :=
  { v with
    ntu    := ringInc n v.ntu
    record := Function.update v.record v.ntu w
    tag    := Function.update v.tag w.handle .hw }

/-- The ring after one tag is written. -/
def retagged (v : RingView) (b : Nat) (t : Tag) : RingView := { v with tag := Function.update v.tag b t }

/-- The ring after k slots are consumed (40_ring.md R207). -/
def consumed (v : RingView) (n k : Nat) : RingView := { v with ntc := (v.ntc + k) % n }

/-! ### Places -/

variable {v : RingView} {n size j k target i : Nat} {w : SlotRecord}

theorem slotAt_lt (hn : 0 < n) : v.slotAt n i < n := Nat.mod_lt _ hn

theorem slotAt_zero (hc : v.ntc < n) : v.slotAt n 0 = v.ntc := Nat.mod_eq_of_lt hc

theorem slotAt_inj (hc : v.ntc < n) {i i' : Nat} (hi : i < n) (hi' : i' < n) (h : v.slotAt n i = v.slotAt n i') : i = i' := by
  rw [← ringDist_add hc hi, ← ringDist_add hc hi']
  exact congrArg _ h

theorem slotAt_count (hu : v.ntu < n) (hc : v.ntc < n) : v.slotAt n (v.count n) = v.ntu := add_ringDist hc hu

theorem count_lt (hc : v.ntc < n) : v.count n < n := ringDist_lt (Nat.zero_lt_of_lt hc)

theorem Tracked.count_lt (h : v.Tracked n size j) : v.count n < n := RingView.count_lt h.ntc_lt

/-! ### Acquiring -/

/-- A run of buffers that are all HW is no longer than what is outstanding: each is named by a slot of its own. -/
theorem Tracked.le_count_of_hw (h : v.Tracked n size 0) {m : Nat} (hm : m ≤ size) (hw : ∀ b < m, v.tag b = .hw) :
    m ≤ v.count n := by
  choose place _ hlt hheld using fun b : Fin m => h.isHeld b (b.isLt.trans_le hm) (hw b b.isLt)
  have hinj : Function.Injective fun b => (⟨place b, hlt b⟩ : Fin (v.count n)) := by
    intro b b' hbb
    have hsame : place b = place b' := congrArg Fin.val hbb
    apply Fin.ext
    rw [← hheld b, ← hheld b', hsame]
  simpa using Fintype.card_le_of_injective _ hinj

/-! ### Posting -/

theorem count_staged (hu : v.ntu < n) (hc : v.ntc < n) (hroom : v.count n + 1 < n) :
    (v.staged n w).count n = v.count n + 1 := by
  have hntu : ringInc n v.ntu = (v.ntc + (v.count n + 1)) % n := by
    rw [← slotAt_count hu hc, slotAt, ringInc, Nat.mod_add_mod, Nat.add_assoc]
  show ringDist n v.ntc (ringInc n v.ntu) = _
  rw [hntu, ringDist_add hc hroom]

theorem record_staged_of_lt (hu : v.ntu < n) (hc : v.ntc < n) (hi : i < v.count n) :
    (v.staged n w).record ((v.staged n w).slotAt n i) = v.record (v.slotAt n i) := by
  refine Function.update_of_ne (fun h => ?_) _ _
  have hcount := count_lt hc
  rw [← slotAt_count hu hc] at h
  exact hi.ne (slotAt_inj hc (hi.trans hcount) hcount h)

theorem record_staged_count (hu : v.ntu < n) (hc : v.ntc < n) :
    (v.staged n w).record ((v.staged n w).slotAt n (v.count n)) = w := by
  show Function.update v.record v.ntu w (v.slotAt n (v.count n)) = w
  rw [slotAt_count hu hc, Function.update_self]

/-- Posting a buffer that is not HW, with room in the ring, keeps slots and HW buffers in step. -/
theorem Tracked.staged (h : v.Tracked n size 0) (hroom : v.count n + 1 < n) (hfree : v.tag w.handle ≠ .hw) :
    (v.staged n w).Tracked n size 0 := by
  obtain ⟨hu, hc, hhw, hdis, hheld⟩ := h
  have hcount := count_staged (w := w) hu hc hroom
  have old : ∀ i < v.count n, (v.staged n w).held n i = v.held n i := fun i hi =>
    congrArg SlotRecord.handle (record_staged_of_lt hu hc hi)
  have new : (v.staged n w).held n (v.count n) = w.handle := congrArg SlotRecord.handle (record_staged_count hu hc)
  have apart : ∀ i < v.count n, v.held n i ≠ w.handle := fun i hi e => hfree (e ▸ hhw i (Nat.zero_le i) hi)
  refine ⟨ringInc_lt (Nat.zero_lt_of_lt hu), hc, fun i _ hi => ?_, fun i hi i' hi' e => ?_, fun b hb hbw => ?_⟩
  · rw [hcount, Nat.lt_succ_iff_lt_or_eq] at hi
    rcases hi with hi | rfl
    · rw [old i hi]
      exact (Function.update_of_ne (apart i hi) _ _).trans (hhw i (Nat.zero_le i) hi)
    · rw [new]
      exact Function.update_self ..
  · rw [hcount, Nat.lt_succ_iff_lt_or_eq] at hi hi'
    rcases hi with hi | rfl <;> rcases hi' with hi' | rfl
    · rw [old i hi, old i' hi'] at e
      exact hdis i hi i' hi' e
    · rw [old i hi, new] at e
      exact absurd e (apart i hi)
    · rw [old i' hi', new] at e
      exact absurd e.symm (apart i' hi')
    · rfl
  · by_cases hbh : b = w.handle
    · exact ⟨v.count n, Nat.zero_le _, hcount ▸ Nat.lt_succ_self _, new.trans hbh.symm⟩
    · rw [show (v.staged n w).tag b = v.tag b from Function.update_of_ne hbh _ _] at hbw
      obtain ⟨i, h0, hi, rfl⟩ := hheld b hb hbw
      exact ⟨i, h0, by omega, old i hi⟩

/-- The next piece of the packet being staged. -/
theorem Packets.staged (hp : v.Packets n target) (hu : v.ntu < n) (hc : v.ntc < n) (hroom : v.count n + 1 < n)
    (htarget : v.count n < target) (hlast : w.last = v.slotAt n (target - 1)) (heop : w.eop = true ↔ v.count n + 1 = target) :
    (v.staged n w).Packets n target := by
  have hcount := count_staged (w := w) hu hc hroom
  have new : ∀ e, e + 1 = target → (v.staged n w).EndsAt n (v.count n) e := by
    intro e he m hm hme hmc
    obtain rfl : m = v.count n := by omega
    rw [record_staged_count hu hc, hlast, heop]
    exact ⟨by rw [← he]; rfl, by omega⟩
  intro i hi
  rw [hcount, Nat.lt_succ_iff_lt_or_eq] at hi
  rcases hi with hi | rfl
  · obtain ⟨e, hie, he, hends⟩ := hp i hi
    refine ⟨e, hie, by omega, fun m hm hme hmc => ?_⟩
    rw [hcount, Nat.lt_succ_iff_lt_or_eq] at hmc
    rcases hmc with hmc | rfl
    · rw [record_staged_of_lt hu hc hmc]
      exact hends m hm hme hmc
    · exact new e (by omega) _ (Nat.le_refl _) hme (by omega)
  · exact ⟨target - 1, by omega, by omega, new _ (by omega)⟩

/-- With no packet being staged, one may be. -/
theorem Packets.start (hp : v.Packets n 0) (target : Nat) : v.Packets n target := fun i hi =>
  (hp i hi).imp fun _ ⟨hie, he, hends⟩ => ⟨hie, .inl (by omega), hends⟩

/-- The packet being staged is whole when its last slot is outstanding. -/
theorem Packets.finish (hp : v.Packets n target) (h : target ≤ v.count n) : v.Packets n 0 := fun i hi =>
  (hp i hi).imp fun _ ⟨hie, he, hends⟩ => ⟨hie, .inl (by omega), hends⟩

/-! ### Giving back -/

/-- The next outstanding slot's buffer is given back. -/
theorem Tracked.retagged (h : v.Tracked n size j) (hj : j < v.count n) {t : Tag} (ht : t ≠ .hw) :
    (v.retagged (v.held n j) t).Tracked n size (j + 1) := by
  refine ⟨h.ntu_lt, h.ntc_lt, fun i hi hic => ?_, h.distinct, fun b hb hbw => ?_⟩
  · have hne : v.held n i ≠ v.held n j := fun e => by have := h.distinct i hic j hj e; omega
    exact (Function.update_of_ne hne _ _).trans (h.isHw i (by omega) hic)
  · by_cases hbj : b = v.held n j
    · subst hbj
      exact absurd ((Function.update_self ..).symm.trans hbw) ht
    · obtain ⟨i, hi, hic, rfl⟩ := h.isHeld b hb ((Function.update_of_ne hbj _ _).symm.trans hbw)
      have hij : i ≠ j := by rintro rfl; exact hbj rfl
      exact ⟨i, by omega, hic, rfl⟩

/-- A buffer that no slot names, being not HW, may take any other tag. -/
theorem Tracked.retagged_of_ne_hw (h : v.Tracked n size j) {b : Nat} (hb : v.tag b ≠ .hw) {t : Tag} (ht : t ≠ .hw) :
    (v.retagged b t).Tracked n size j := by
  have htag : ∀ c, (v.retagged b t).tag c = .hw ↔ v.tag c = .hw := by
    intro c
    by_cases hc : c = b
    · subst hc
      exact iff_of_false (by rwa [show (v.retagged c t).tag c = t from Function.update_self ..]) hb
    · rw [show (v.retagged b t).tag c = v.tag c from Function.update_of_ne hc _ _]
  exact ⟨h.ntu_lt, h.ntc_lt, fun i hi hic => (htag _).2 (h.isHw i hi hic), h.distinct,
    fun c hc hcw => h.isHeld c hc ((htag c).1 hcw)⟩

/-! ### Consuming -/

theorem slotAt_consumed : (v.consumed n k).slotAt n i = v.slotAt n (k + i) := by
  simp only [slotAt, consumed, Nat.mod_add_mod, Nat.add_assoc]

theorem count_consumed (hu : v.ntu < n) (hc : v.ntc < n) (hk : k ≤ v.count n) :
    (v.consumed n k).count n = v.count n - k := by
  have hlt := count_lt hc
  have hntu : v.ntu = ((v.ntc + k) % n + (v.count n - k)) % n := by
    rw [Nat.mod_add_mod, Nat.add_assoc, Nat.add_sub_cancel' hk]
    exact (slotAt_count hu hc).symm
  show ringDist n ((v.ntc + k) % n) v.ntu = _
  conv_lhs => rw [hntu]
  exact ringDist_add (Nat.mod_lt _ (by omega)) (by omega)

/-- Consuming the slots whose buffers are given back. -/
theorem Tracked.consumed (h : v.Tracked n size k) (hk : k ≤ v.count n) : (v.consumed n k).Tracked n size 0 := by
  have hcount := count_consumed h.ntu_lt h.ntc_lt hk
  have hheld : ∀ i, (v.consumed n k).held n i = v.held n (k + i) := fun i =>
    congrArg (fun slot => (v.record slot).handle) slotAt_consumed
  refine ⟨h.ntu_lt, Nat.mod_lt _ (Nat.zero_lt_of_lt h.ntu_lt), fun i _ hi => ?_, fun i hi i' hi' e => ?_, fun b hb hbw => ?_⟩
  · rw [hheld]
    exact h.isHw _ (by omega) (by omega)
  · rw [hheld, hheld] at e
    have := h.distinct _ (by omega) _ (by omega) e
    omega
  · obtain ⟨i, hi, hic, rfl⟩ := h.isHeld b hb hbw
    exact ⟨i - k, by omega, by omega, by rw [hheld, Nat.add_sub_cancel' hi]⟩

theorem Packets.consumed (hp : v.Packets n 0) (hu : v.ntu < n) (hc : v.ntc < n) (hk : k ≤ v.count n) :
    (v.consumed n k).Packets n 0 := by
  have hcount := count_consumed hu hc hk
  intro i hi
  obtain ⟨e, hie, he, hends⟩ := hp (k + i) (by omega)
  refine ⟨e - k, by omega, by omega, fun m hm hme hmc => ?_⟩
  rw [slotAt_consumed, slotAt_consumed, Nat.add_sub_cancel' (by omega)]
  obtain ⟨hl, heop⟩ := hends (k + m) (by omega) (by omega) (by omega)
  exact ⟨hl, heop.trans (by omega)⟩

/-- The packet at NTC, as SERVICE_TX measures it: one or more slots, all outstanding (42_tx.md R310). -/
theorem Packets.headSize (hp : v.Packets n 0) (hc : v.ntc < n) (hne : 0 < v.count n) :
    ringDist n v.ntc (v.record v.ntc).last < v.count n := by
  obtain ⟨e, -, he, hends⟩ := hp 0 hne
  obtain ⟨hlast, -⟩ := hends 0 (Nat.le_refl 0) (Nat.zero_le e) hne
  rw [slotAt_zero hc] at hlast
  have hlt : e < v.count n := by omega
  rw [hlast, slotAt, ringDist_add hc (hlt.trans (count_lt hc))]
  exact hlt

end RingView

end Sys2Proof.Machine
end

section
/-! The view of each ring of a queue: what each write to a queue does to it, and the invariant of Sys2Proof/Safety.lean said by it. -/

namespace Sys2Proof.Machine

/-! ### The view of a queue -/

/-- The record of a slot; an RX record keeps the handle only (10_state.md R43). -/
def Queue.record (x : Queue) : Ring → Nat → SlotRecord
  | .tx, i => ⟨(x.txRec i).handle.toNat, (x.txRec i).last.toNat, (x.txRec i).eop⟩
  | .rx, i => ⟨(x.rxRec i).handle.toNat, 0, false⟩

/-- How many slots a ring has records for. -/
def Queue.slotCount (x : Queue) : Ring → Nat
  | .tx => x.swTx.length
  | .rx => x.swRx.length

/-- Ring r of a queue. -/
def Queue.view (x : Queue) (r : Ring) : RingView where
  slots  := x.slotCount r
  bufs   := (x.pool r).tags.length
  ntu    := (x.cur r).ntu.toNat
  ntc    := (x.cur r).ntc.toNat
  tail   := (x.cur r).tail.toNat
  record := x.record r
  tag    := (x.pool r).tag

/-- What a ring keeps of a record (10_state.md R42, R43). -/
def SlotRecord.kept (w : SlotRecord) : Ring → SlotRecord
  | .tx => w
  | .rx => ⟨w.handle, 0, false⟩

theorem Queue.view_setCur_same (x : Queue) (r : Ring) (c : Cursors) : (x.setCur r c).view r =
    { x.view r with ntu := c.ntu.toNat, ntc := c.ntc.toNat, tail := c.tail.toNat } := by
  cases r <;> rfl

theorem Queue.view_setCur_ne (x : Queue) {r r' : Ring} (c : Cursors) (h : r' ≠ r) : (x.setCur r c).view r' = x.view r' :=
  match r, r', h with
  | .tx, .rx, _ | .rx, .tx, _ => rfl
  | .tx, .tx, h | .rx, .rx, h => absurd rfl h

theorem Queue.view_setPool_same (x : Queue) (r : Ring) (p : Pool) : (x.setPool r p).view r =
    { x.view r with bufs := p.tags.length, tag := p.tag } := by
  cases r <;> rfl

theorem Queue.view_setPool_ne (x : Queue) {r r' : Ring} (p : Pool) (h : r' ≠ r) : (x.setPool r p).view r' = x.view r' :=
  match r, r', h with
  | .tx, .rx, _ | .rx, .tx, _ => rfl
  | .tx, .tx, h | .rx, .rx, h => absurd rfl h

theorem Queue.view_setSw_ne (x : Queue) {r r' : Ring} (i : Nat) (w : SlotRecord) (h : r' ≠ r) :
    (x.setSw r i w).view r' = x.view r' :=
  match r, r', h with
  | .tx, .rx, _ | .rx, .tx, _ => rfl
  | .tx, .tx, h | .rx, .rx, h => absurd rfl h

/-- A record whose numbers fit its 16-bit fields is read back as it was written. -/
theorem Queue.record_setSw_same (x : Queue) (r : Ring) {i : Nat} {w : SlotRecord} (hi : i < x.slotCount r)
    (hh : w.handle < 2 ^ 16) (hl : w.last < 2 ^ 16) :
    (x.setSw r i w).record r = Function.update (x.record r) i (w.kept r) := by
  have hfit : ∀ {m : Nat}, m < 2 ^ 16 → (BitVec.ofNat 16 m).toNat = m := fun h => by
    rw [BitVec.toNat_ofNat, Nat.mod_eq_of_lt h]
  funext p
  by_cases hp : p = i
  · subst hp
    cases r with
    | tx =>
      have hi : p < x.swTx.length := hi
      simp [Queue.setSw, Queue.record, Queue.txRec, hi, hfit hh, hfit hl, SlotRecord.kept]
    | rx =>
      have hi : p < x.swRx.length := hi
      simp [Queue.setSw, Queue.record, Queue.rxRec, hi, hfit hh, SlotRecord.kept]
  · rw [Function.update_of_ne hp]
    cases r <;> simp only [Queue.setSw, Queue.record, Queue.txRec, Queue.rxRec, getD_set_eq, Ne.symm hp, false_and, if_false]

theorem Queue.view_setSw_same (x : Queue) (r : Ring) {i : Nat} {w : SlotRecord} (hi : i < x.slotCount r)
    (hh : w.handle < 2 ^ 16) (hl : w.last < 2 ^ 16) : (x.setSw r i w).view r =
    { x.view r with record := Function.update (x.record r) i (w.kept r) } := by
  have hslots : (x.setSw r i w).slotCount r = x.slotCount r := by
    cases r <;> exact List.length_set
  simp only [Queue.view, Queue.record_setSw_same x r hi hh hl, hslots, Queue.cur_setSw, Queue.pool_setSw]

theorem Pool.tag_setTag_eq_update (p : Pool) {b : Nat} (t : Tag) (hb : b < p.tags.length) :
    (p.setTag b t).tag = Function.update p.tag b t := by
  funext i
  rw [Pool.tag_setTag, Function.update_apply]
  by_cases hi : i = b
  · subst hi
    simp [hb]
  · simp [hi, Ne.symm hi]

@[simp] theorem Pool.length_setTag (p : Pool) (b : Nat) (t : Tag) : (p.setTag b t).tags.length = p.tags.length :=
  List.length_set

/-- A buffer past the pool's end is not tagged. -/
theorem Pool.lt_of_tag_ne_free (p : Pool) {b : Nat} (h : p.tag b ≠ .free) : b < p.tags.length := by
  by_contra hb
  exact h (List.getD_eq_default _ _ (Nat.le_of_not_lt hb))

theorem Queue.view_setTag (x : Queue) (r : Ring) {b : Nat} (t : Tag) (hb : b < (x.pool r).tags.length) :
    (x.setPool r ((x.pool r).setTag b t)).view r = (x.view r).retagged b t := by
  rw [Queue.view_setPool_same, Pool.length_setTag, Pool.tag_setTag_eq_update _ t hb]
  rfl

/-! ### The view of a state -/

/-- Ring r of queue q. -/
def State.view (s : State) (r : Ring) (q : Nat) : RingView := (s.queue q).view r

theorem State.view_setQueue_same {s : State} {q : Nat} {x : Queue} (h : q < s.queues.length) (r : Ring) :
    (s.setQueue q x).view r q = x.view r := by
  rw [State.view, State.queue_setQueue_same s q x h]

theorem State.view_setQueue_ne {s : State} {q p : Nat} {x : Queue} (h : p ≠ q) (r : Ring) :
    (s.setQueue q x).view r p = s.view r p := by
  rw [State.view, State.queue_setQueue_ne s q p x h, State.view]

theorem State.handle_eq (s : State) (r : Ring) (q i : Nat) : s.handle r q i = ((s.view r q).record i).handle := by
  cases r <;> rfl

/-! ### The invariant, by position -/

/-- The invariant of rings, pools and packets at a command boundary. -/
structure State.Rings (s : State) : Prop where
  noWb    : s.wb = []
  settled : ∀ r, ∀ q < maxQueues, (s.view r q).Settled r s.n (s.poolSize r)

variable {s : State} {r : Ring} {q : Nat}

/-- The outstanding slots are those at the places below the occupancy. -/
theorem State.outstanding_iff_place (hc : s.ntc r q < s.n) {slot : Nat} (hs : slot < s.n) :
    s.outstanding r q slot = true ↔ ∃ i < (s.view r q).count s.n, (s.view r q).slotAt s.n i = slot := by
  constructor
  · intro h
    exact ⟨_, (State.outstanding_iff ..).1 h, add_ringDist hc hs⟩
  · rintro ⟨i, hi, rfl⟩
    exact s.outstanding_slotAt r q i hc hi

theorem tracked_iff (hu : s.ntu r q < s.n) (hc : s.ntc r q < s.n) :
    (s.view r q).Tracked s.n (s.poolSize r) 0 ↔ s.PoolOk r q := by
  have hplace := fun {slot : Nat} => State.outstanding_iff_place (slot := slot) hc
  have hlt : ∀ i, (s.view r q).slotAt s.n i < s.n := fun i => RingView.slotAt_lt s.n_pos
  have hheld : ∀ i, s.handle r q ((s.view r q).slotAt s.n i) = (s.view r q).held s.n i := fun i => s.handle_eq r q _
  constructor
  · rintro ⟨-, -, hhw, hdis, hall⟩
    refine ⟨fun slot hs ho => ?_, fun slot hs slot' hs' ho ho' e => ?_, fun b hb hbw => ?_⟩
    · obtain ⟨i, hi, rfl⟩ := (hplace hs).1 ho
      rw [hheld]
      exact hhw i (Nat.zero_le i) hi
    · obtain ⟨i, hi, rfl⟩ := (hplace hs).1 ho
      obtain ⟨i', hi', rfl⟩ := (hplace hs').1 ho'
      rw [hheld, hheld] at e
      rw [hdis i hi i' hi' e]
    · obtain ⟨i, -, hi, rfl⟩ := hall b hb hbw
      exact ⟨_, hlt i, (hplace (hlt i)).2 ⟨i, hi, rfl⟩, hheld i⟩
  · rintro ⟨hhw, hdis, hall⟩
    have hout : ∀ i < (s.view r q).count s.n, s.outstanding r q ((s.view r q).slotAt s.n i) = true := fun i hi =>
      (hplace (hlt i)).2 ⟨i, hi, rfl⟩
    refine ⟨hu, hc, fun i _ hi => ?_, fun i hi i' hi' e => ?_, fun b hb hbw => ?_⟩
    · rw [← hheld]
      exact hhw _ (hlt i) (hout i hi)
    · rw [← hheld, ← hheld] at e
      have hcount := RingView.count_lt (v := s.view r q) hc
      exact RingView.slotAt_inj hc (hi.trans hcount) (hi'.trans hcount)
        (hdis _ (hlt i) _ (hlt i') (hout i hi) (hout i' hi') e)
    · obtain ⟨slot, hs, ho, rfl⟩ := hall b hb hbw
      obtain ⟨i, hi, rfl⟩ := (hplace hs).1 ho
      exact ⟨i, Nat.zero_le i, hi, (hheld i).symm⟩

/-- `last` is passed along the slots of a packet up to its end. -/
theorem endsAt_of_packetsOk (hc : s.ntc .tx q < s.n) (h : s.PacketsOk q) {i e : Nat}
    (he : e < (s.view .tx q).count s.n) (hlast : s.lastOf q ((s.view .tx q).slotAt s.n i) = (s.view .tx q).slotAt s.n e) :
    (s.view .tx q).EndsAt s.n i e := by
  have hcount := RingView.count_lt (v := s.view .tx q) hc
  have hrule : ∀ m ≤ e, _ := fun m hm => h _ (RingView.slotAt_lt (v := s.view .tx q) (i := m) s.n_pos)
    ((State.outstanding_iff_place hc (RingView.slotAt_lt s.n_pos)).2 ⟨m, by omega, rfl⟩)
  have hinc : ∀ m, ringInc s.n ((s.view .tx q).slotAt s.n m) = (s.view .tx q).slotAt s.n (m + 1) := fun m => by
    rw [ringInc, RingView.slotAt, Nat.mod_add_mod, Nat.add_assoc, RingView.slotAt]
  have hne : ∀ m < e, (s.view .tx q).slotAt s.n e ≠ (s.view .tx q).slotAt s.n m := fun m hm heq =>
    hm.ne' (RingView.slotAt_inj hc (by omega) (by omega) heq)
  have hlasts : ∀ m, i ≤ m → m ≤ e → s.lastOf q ((s.view .tx q).slotAt s.n m) = (s.view .tx q).slotAt s.n e := by
    intro m hm
    induction m, hm using Nat.le_induction with
    | base => exact fun _ => hlast
    | succ m hm ih =>
      intro hme
      have hm' := ih (by omega)
      obtain ⟨-, -, -, hnext, -⟩ := hrule m (by omega)
      rw [← hinc, hnext (hm' ▸ hne m hme), hm']
  intro m hm hme _
  refine ⟨hlasts m hm hme, ?_⟩
  obtain ⟨-, -, -, -, heop⟩ := hrule m hme
  rw [hlasts m hm hme] at heop
  refine heop.trans ⟨fun e' => ?_, fun e' => by rw [e']⟩
  by_contra hmne
  exact hne m (by omega) e'

theorem packets_iff (hc : s.ntc .tx q < s.n) : (s.view .tx q).Packets s.n 0 ↔ s.PacketsOk q := by
  have hplace := fun {slot : Nat} => State.outstanding_iff_place (slot := slot) hc
  have hcount := RingView.count_lt (v := s.view .tx q) hc
  have hdist : ∀ i < (s.view .tx q).count s.n, ringDist s.n (s.ntc .tx q) ((s.view .tx q).slotAt s.n i) = i := fun i hi =>
    ringDist_add hc (hi.trans hcount)
  constructor
  · intro hp slot hs ho
    obtain ⟨i, hi, rfl⟩ := (hplace hs).1 ho
    obtain ⟨e, hie, he, hends⟩ := hp i hi
    have he : e < (s.view .tx q).count s.n := by omega
    obtain ⟨hlast, heop⟩ := hends i (Nat.le_refl i) hie hi
    have hlast : s.lastOf q ((s.view .tx q).slotAt s.n i) = (s.view .tx q).slotAt s.n e := hlast
    have hlt : (s.view .tx q).slotAt s.n e < s.n := RingView.slotAt_lt s.n_pos
    have hsame : (s.view .tx q).slotAt s.n e = (s.view .tx q).slotAt s.n i ↔ i = e :=
      ⟨fun h => RingView.slotAt_inj hc (hi.trans hcount) (he.trans hcount) h.symm, fun h => by rw [h]⟩
    rw [hlast]
    refine ⟨hlt, (hplace hlt).2 ⟨e, he, rfl⟩, ?_, fun hne => ?_, heop.trans hsame.symm⟩
    · rw [hdist i hi, hdist e he]
      exact hie
    · have hie' : i ≠ e := fun h => hne (hsame.2 h)
      rw [ringInc, RingView.slotAt, Nat.mod_add_mod, Nat.add_assoc]
      exact (hends (i + 1) (by omega) (by omega) (by omega)).1
  · intro h i hi
    have hlt : (s.view .tx q).slotAt s.n i < s.n := RingView.slotAt_lt s.n_pos
    obtain ⟨hlast, hout, hle, -⟩ := h _ hlt ((hplace hlt).2 ⟨i, hi, rfl⟩)
    obtain ⟨e, he, hslot⟩ := (hplace hlast).1 hout
    rw [← hslot, hdist i hi, hdist e he] at hle
    exact ⟨e, hle, .inl he, endsAt_of_packetsOk hc h he hslot.symm⟩

theorem State.queue_mem_of_lt (h : q < s.queues.length) : s.queue q ∈ s.queues := by
  rw [State.queue, List.getD_eq_getElem _ _ h]
  exact List.getElem_mem h

theorem State.Inv.rings (h : s.Inv) : s.Rings := by
  refine ⟨h.noWb, fun r q hq => ?_⟩
  have hlen : s.queues.length = maxQueues := h.config.sized.1
  obtain ⟨htx, hrx⟩ := h.cursors _ (s.queue_mem_of_lt (hlen ▸ hq))
  obtain ⟨hpt, hpr, hpend⟩ := h.pools q hq
  cases r with
  | tx =>
    obtain ⟨hu, hc, ht⟩ := htx
    have hpackets := (packets_iff hc).2 (h.packets q hq)
    exact ⟨(tracked_iff (r := .tx) hu hc).2 hpt, congrArg BitVec.toNat ht, fun _ => hpend, fun _ => hpackets⟩
  | rx =>
    obtain ⟨hu, hc, ht⟩ := hrx
    exact ⟨(tracked_iff (r := .rx) hu hc).2 hpr, congrArg BitVec.toNat ht, nofun, nofun⟩

theorem cursorsOk_of_settled {size : Nat} (h : (s.view r q).Settled r s.n size) : ((s.queue q).cur r).Ok s.n :=
  ⟨h.tracked.ntu_lt, h.tracked.ntc_lt, BitVec.eq_of_toNat_eq h.synced⟩

theorem State.Rings.inv (h : s.Rings) (hconf : s.ConfigInv) (hcanon : Memory.wf s.mem) : s.Inv := by
  have hlen : s.queues.length = maxQueues := hconf.sized.1
  have hpool : ∀ r, ∀ q < maxQueues, s.PoolOk r q := fun r q hq =>
    (tracked_iff (h.settled r q hq).tracked.ntu_lt (h.settled r q hq).tracked.ntc_lt).1 (h.settled r q hq).tracked
  refine ⟨hconf, hcanon, h.noWb, fun x hx => ?_, fun q hq => ⟨hpool .tx q hq, hpool .rx q hq, (h.settled .tx q hq).noPend rfl⟩,
    fun q hq => (packets_iff (h.settled .tx q hq).tracked.ntc_lt).1 ((h.settled .tx q hq).packets rfl)⟩
  obtain ⟨q, hq, rfl⟩ := List.getElem_of_mem hx
  have hqueue : s.queues[q] = s.queue q := by rw [State.queue, List.getD_eq_getElem _ _ hq]
  rw [hqueue]
  exact ⟨cursorsOk_of_settled (h.settled .tx q (hlen ▸ hq)), cursorsOk_of_settled (h.settled .rx q (hlen ▸ hq))⟩

/-! ### Idle queues -/

/-- In an idle queue nothing is outstanding, and no buffer is tagged. -/
theorem Queue.Idle.settled {x : Queue} {n t n' size : Nat} (h : x.Idle n t) (hn : 0 < n') (r : Ring) :
    (x.view r).Settled r n' size := by
  have hcur : x.cur r = Cursors.zero := by
    rw [h]
    cases r <;> rfl
  have hzero : (x.view r).ntu = 0 ∧ (x.view r).ntc = 0 ∧ (x.view r).tail = 0 := by
    simp only [Queue.view, hcur]
    exact ⟨rfl, rfl, rfl⟩
  obtain ⟨hu, hc, ht⟩ := hzero
  have hcount : (x.view r).count n' = 0 := by rw [RingView.count, hu, hc, ringDist_self hn]
  have htag : ∀ b, (x.view r).tag b = .free := h.tag_eq_free r
  exact ⟨⟨hu ▸ hn, hc ▸ hn, by simp [hcount], by simp [hcount], fun b _ hb => by simp [htag] at hb⟩, ht.trans hu.symm,
    fun _ b _ hb => by simp [htag] at hb, fun _ i hi => by simp [hcount] at hi⟩

/-- Outside RingsReady every queue is idle (44_control.md R418, 60_exceptions.md R561). -/
theorem State.ConfigInv.rings_of_not_ready (h : s.ConfigInv) (hr : s.rstate ≠ .ringsReady) (hwb : s.wb = []) : s.Rings := by
  have hlen : s.queues.length = maxQueues := h.sized.1
  exact ⟨hwb, fun r q hq => ((h.quiet.1 hr).2 _ (s.queue_mem_of_lt (hlen ▸ hq))).settled s.n_pos r⟩

end Sys2Proof.Machine
end

section
/-! A command at work on the rings: what stays settled while one ring is being posted to, or while its buffers are given back, and the
rule of each ring and pool operation there. -/

namespace Sys2Proof.Machine

/-! ### States with the same rings -/

/-- The rings, and what their invariant reads beside them, are the same. -/
structure State.SameRings (s t : State) : Prop where
  params : t.params = s.params
  logn   : t.logn = s.logn
  nq     : t.nq = s.nq
  rstate : t.rstate = s.rstate
  reason : t.faultReason = s.faultReason
  length : t.queues.length = s.queues.length
  view   : ∀ r q, t.view r q = s.view r q

/-- The same but for ring r of queue q, which keeps its size. -/
structure State.SameRingsBut (s t : State) (r : Ring) (q : Nat) : Prop where
  params : t.params = s.params
  logn   : t.logn = s.logn
  nq     : t.nq = s.nq
  rstate : t.rstate = s.rstate
  reason : t.faultReason = s.faultReason
  length : t.queues.length = s.queues.length
  slots  : (t.view r q).slots = (s.view r q).slots
  bufs   : (t.view r q).bufs = (s.view r q).bufs
  view   : ∀ r' p, r' ≠ r ∨ p ≠ q → t.view r' p = s.view r' p

/-- The rings and the write buffer are the same. -/
structure State.Still (s t : State) : Prop where
  rings : s.SameRings t
  wb    : t.wb = s.wb

theorem State.SameRings.refl (s : State) : s.SameRings s := ⟨rfl, rfl, rfl, rfl, rfl, rfl, fun _ _ => rfl⟩

theorem State.SameRings.trans {s t u : State} (h : s.SameRings t) (h' : t.SameRings u) : s.SameRings u :=
  ⟨h'.params.trans h.params, h'.logn.trans h.logn, h'.nq.trans h.nq, h'.rstate.trans h.rstate, h'.reason.trans h.reason,
    h'.length.trans h.length, fun r q => (h'.view r q).trans (h.view r q)⟩

theorem State.Still.refl (s : State) : s.Still s := ⟨.refl s, rfl⟩

theorem State.Still.trans {s t u : State} (h : s.Still t) (h' : t.Still u) : s.Still u :=
  ⟨h.rings.trans h'.rings, h'.wb.trans h.wb⟩

section

variable {s t u : State} {r : Ring} {q : Nat}

theorem State.SameRings.n_eq (h : s.SameRings t) : t.n = s.n := by rw [State.n, State.n, h.logn]

theorem State.SameRings.poolSize_eq (h : s.SameRings t) (r : Ring) : t.poolSize r = s.poolSize r := by
  rw [State.poolSize, State.poolSize, h.params, h.n_eq]

theorem State.SameRings.but (h : s.SameRings t) (r : Ring) (q : Nat) : s.SameRingsBut t r q :=
  ⟨h.params, h.logn, h.nq, h.rstate, h.reason, h.length, congrArg RingView.slots (h.view r q), congrArg RingView.bufs (h.view r q),
    fun r' p _ => h.view r' p⟩

theorem State.SameRingsBut.trans (h : s.SameRingsBut t r q) (h' : t.SameRingsBut u r q) : s.SameRingsBut u r q :=
  ⟨h'.params.trans h.params, h'.logn.trans h.logn, h'.nq.trans h.nq, h'.rstate.trans h.rstate, h'.reason.trans h.reason,
    h'.length.trans h.length, h'.slots.trans h.slots, h'.bufs.trans h.bufs,
    fun r' p hp => (h'.view r' p hp).trans (h.view r' p hp)⟩

theorem State.SameRingsBut.n_eq (h : s.SameRingsBut t r q) : t.n = s.n := by rw [State.n, State.n, h.logn]

theorem State.SameRingsBut.poolSize_eq (h : s.SameRingsBut t r q) (r' : Ring) : t.poolSize r' = s.poolSize r' := by
  rw [State.poolSize, State.poolSize, h.params, h.n_eq]

/-- Any ring is another one, or the same. -/
theorem Ring.other_or_same (r r' : Ring) (q p : Nat) : (r' ≠ r ∨ p ≠ q) ∨ (r' = r ∧ p = q) := by
  tauto

/-- A queue is written, with one of its rings of the same size and the other as it was. -/
theorem sameRingsBut_setQueue {x : Queue} (hq : q < s.queues.length) (hslots : (x.view r).slots = (s.view r q).slots)
    (hbufs : (x.view r).bufs = (s.view r q).bufs) (hother : ∀ r', r' ≠ r → x.view r' = s.view r' q) :
    s.SameRingsBut (s.setQueue q x) r q := by
  refine ⟨rfl, rfl, rfl, rfl, rfl, by simp, ?_, ?_, fun r' p hp => ?_⟩
  · rw [State.view_setQueue_same hq, hslots]
  · rw [State.view_setQueue_same hq, hbufs]
  · by_cases hpq : p = q
    · subst hpq
      rw [State.view_setQueue_same hq]
      exact hother r' (hp.resolve_right (not_not_intro rfl))
    · exact State.view_setQueue_ne hpq r'

theorem sameRingsBut_setCur (hq : q < s.queues.length) (c : Cursors) :
    s.SameRingsBut (s.setQueue q ((s.queue q).setCur r c)) r q := by
  refine sameRingsBut_setQueue hq ?_ ?_ fun r' hr => Queue.view_setCur_ne _ _ hr
  · rw [Queue.view_setCur_same]
    rfl
  · rw [Queue.view_setCur_same]
    rfl

/-- A queue is written, with its rings as they were: its moderation registers, DISCARD or RX_DROPS. -/
theorem still_setQueue {x : Queue} (hx : ∀ r, x.view r = s.view r q) : s.Still (s.setQueue q x) := by
  refine ⟨⟨rfl, rfl, rfl, rfl, rfl, by simp, fun r p => ?_⟩, rfl⟩
  by_cases hpq : p = q
  · subst hpq
    by_cases hp : p < s.queues.length
    · rw [State.view_setQueue_same hp, hx]
    · rw [State.view, State.queue_setQueue, if_neg fun h => hp h.2, State.view]
  · exact State.view_setQueue_ne hpq r

theorem sameRings_of_queues (hp : t.params = s.params) (hl : t.logn = s.logn) (hn : t.nq = s.nq) (hr : t.rstate = s.rstate)
    (hf : t.faultReason = s.faultReason) (hq : t.queues = s.queues) : s.SameRings t :=
  ⟨hp, hl, hn, hr, hf, by rw [hq], fun r q => by rw [State.view, State.view, State.queue, State.queue, hq]⟩

theorem still_events (s : State) (es : List Event) : s.Still { s with events := es } :=
  ⟨sameRings_of_queues rfl rfl rfl rfl rfl rfl, rfl⟩

theorem still_regWrite (s : State) (reg : DevReg) (v : Word) : s.Still (s.regWrite reg v) :=
  ⟨sameRings_of_queues rfl rfl rfl rfl rfl rfl, rfl⟩

theorem still_lstate (s : State) (l : Byte) : s.Still (s.setLState l) :=
  ⟨sameRings_of_queues rfl rfl rfl rfl rfl rfl, rfl⟩

theorem still_respond (s : State) (st : Status) (v : Word) : s.Still (s.respond st v) :=
  ⟨sameRings_of_queues rfl rfl rfl rfl rfl rfl, rfl⟩

theorem still_closeWindow (s : State) (q : Nat) : s.Still (s.closeWindow q) := still_setQueue fun r => by cases r <;> rfl

theorem still_accumulate (s : State) (q : Nat) (c : Half) : s.Still (s.accumulate q c) :=
  still_setQueue fun r => by cases r <;> rfl

theorem still_openWindow (s : State) (q : Nat) : s.Still (s.openWindow q) := by
  unfold State.openWindow
  dsimp only
  split
  · exact .refl s
  · exact still_setQueue fun r => by cases r <;> rfl

theorem still_countDrop (s : State) (q : Nat) : s.Still (s.countDrop q) := still_setQueue fun r => by cases r <;> rfl

theorem still_setDiscard (s : State) (q : Nat) (b : Bool) : s.Still (s.setDiscard q b) :=
  still_setQueue fun r => by cases r <;> rfl

/-! ### A command at work -/

/-- A command works on rings of the configured size, outside Faulted. -/
structure State.Running (s : State) : Prop where
  alive  : s.rstate ≠ .faulted
  reason : s.faultReason ≠ 0x01
  valid  : s.params.Valid
  nq     : s.nq.toNat ≤ maxQueues
  length : s.queues.length = maxQueues
  slots  : ∀ r, ∀ p < maxQueues, (s.view r p).slots = s.n
  bufs   : ∀ r, ∀ p < maxQueues, (s.view r p).bufs = s.poolSize r

/-- Every ring is settled. -/
structure State.Ready (s : State) : Prop where
  running : s.Running
  rings   : s.Rings

/-- Every ring but one is settled. -/
structure State.Focus (s : State) (r : Ring) (q : Nat) : Prop where
  running : s.Running
  lt      : q < maxQueues
  others  : ∀ r', ∀ p < maxQueues, r' ≠ r ∨ p ≠ q → (s.view r' p).Settled r' s.n (s.poolSize r')

theorem State.SameRingsBut.running (h : s.SameRingsBut t r q) (hs : s.Running) : t.Running := by
  have hview : ∀ r' p, (t.view r' p).slots = (s.view r' p).slots ∧ (t.view r' p).bufs = (s.view r' p).bufs := by
    intro r' p
    rcases Ring.other_or_same r r' q p with hp | ⟨rfl, rfl⟩
    · rw [h.view r' p hp]
      exact ⟨rfl, rfl⟩
    · exact ⟨h.slots, h.bufs⟩
  refine ⟨h.rstate ▸ hs.alive, h.reason ▸ hs.reason, h.params ▸ hs.valid, h.nq ▸ hs.nq, h.length.trans hs.length, fun r' p hp => ?_,
    fun r' p hp => ?_⟩
  · rw [(hview r' p).1, hs.slots r' p hp, h.n_eq]
  · rw [(hview r' p).2, hs.bufs r' p hp, h.poolSize_eq]

theorem State.SameRingsBut.focus (h : s.SameRingsBut t r q) (hs : s.Focus r q) : t.Focus r q := by
  refine ⟨h.running hs.running, hs.lt, fun r' p hp hne => ?_⟩
  rw [h.view r' p hne, h.n_eq, h.poolSize_eq]
  exact hs.others r' p hp hne

theorem State.SameRings.running (h : s.SameRings t) (hs : s.Running) : t.Running := (h.but .tx 0).running hs

theorem State.Still.settledRings (h : s.Still t) (hs : s.Rings) : t.Rings := by
  refine ⟨h.wb.trans hs.noWb, fun r q hq => ?_⟩
  rw [h.rings.view, h.rings.n_eq, h.rings.poolSize_eq]
  exact hs.settled r q hq

theorem State.Still.ready (h : s.Still t) (hs : s.Ready) : t.Ready :=
  ⟨h.rings.running hs.running, h.settledRings hs.rings⟩

theorem State.Ready.focus (h : s.Ready) (r : Ring) (hq : q < maxQueues) : s.Focus r q :=
  ⟨h.running, hq, fun r' p hp _ => h.rings.settled r' p hp⟩

/-- The ring a command worked on is settled again. -/
theorem State.Focus.ready (h : s.Focus r q) (hwb : s.wb = []) (hs : (s.view r q).Settled r s.n (s.poolSize r)) : s.Ready := by
  refine ⟨h.running, hwb, fun r' p hp => ?_⟩
  rcases Ring.other_or_same r r' q p with hne | ⟨rfl, rfl⟩
  · exact h.others r' p hp hne
  · exact hs

theorem State.Running.queue_lt (h : s.Running) (hq : q < maxQueues) : q < s.queues.length := h.length ▸ hq

/-- The TX pool has a buffer for each slot (00_scope.md R9). -/
theorem State.Running.n_le_poolSize (h : s.Running) (r : Ring) : s.n ≤ s.poolSize r := by
  cases r with
  | tx =>
    obtain ⟨-, -, -, hmult, -⟩ := h.valid
    exact Nat.le_mul_of_pos_left _ hmult
  | rx => exact Nat.le_refl _

/-! ### How work ends -/

/-- A fault other than PROTO_NOT_POSTED has been entered, with nothing left in the write buffer (60_exceptions.md R560). -/
structure State.FaultEntered (s : State) : Prop where
  noWb    : s.wb = []
  faulted : s.rstate = .faulted
  reason  : s.faultReason ≠ 0x01

/-- Work goes on in a state with P, or another fault than PROTO_NOT_POSTED has been entered, or the platform has no memory. -/
abbrev Runs {α : Type} (x : Res α) (P : State → Prop) : Prop :=
  x.Ends (fun _ t => P t) State.FaultEntered (· = .memoryNotBacked)

theorem Reason.code_ne_one {reason : Reason} (h : reason ≠ .notPosted) : reason.code ≠ 0x01 := by
  revert h
  cases reason <;> decide

theorem faultEntered_faultAnswer (hs : s.rstate ≠ .faulted) {reason : Reason} (hr : reason ≠ .notPosted) :
    (s.faultAnswer reason).FaultEntered := by
  rw [State.faultAnswer, State.enterFault_of_not_faulted s reason hs]
  generalize (if s.rstate = .ringsReady then s.deviceDisable else s) = u
  obtain ⟨m, es, hu⟩ := u.teardown_eq
  rw [hu]
  exact ⟨rfl, rfl, Reason.code_ne_one hr⟩

theorem Runs.mono {α : Type} {x : Res α} {P P' : State → Prop} (hx : Runs x P) (hP : ∀ t, P t → P' t) : Runs x P' :=
  Res.Ends.mono hx (fun _ => hP) (fun _ => id) (fun _ => id)

theorem Runs.bind {α β : Type} {x : Res α} {k : α → State → Res β} {P P' : State → Prop} (hx : Runs x P)
    (hk : ∀ a t, P t → Runs (k a t) P') : Runs (x.bind k) P' :=
  Res.Ends.bind hx hk

/-! ### Posting -/

/-- Buffers are being posted to ring (r, q): its tail write is owed for the places from p on, and on a TX ring a packet is being
staged that will end just before place `target`. -/
structure State.Posting (s : State) (r : Ring) (q target : Nat) : Prop where
  focus   : s.Focus r q
  tracked : (s.view r q).Tracked s.n (s.poolSize r) 0
  behind  : ∃ p ≤ (s.view r q).count s.n, (s.view r q).tail = (s.view r q).slotAt s.n p
  noPend  : r = .tx → ∀ b < s.poolSize r, (s.view r q).tag b ≠ .pend
  packets : r = .tx → (s.view r q).Packets s.n target

/-- Writes wait in the write buffer only while a tail write is owed. -/
def State.TailOwed (s : State) (r : Ring) (q : Nat) : Prop := s.wb = [] ∨ (s.view r q).tail ≠ (s.view r q).ntu

theorem State.Ready.posting (h : s.Ready) (r : Ring) (hq : q < maxQueues) (target : Nat) : s.Posting r q target := by
  obtain ⟨htr, hsync, hpend, hpack⟩ := h.rings.settled r q hq
  exact ⟨h.focus r hq, htr, ⟨_, Nat.le_refl _, hsync.trans (RingView.slotAt_count htr.ntu_lt htr.ntc_lt).symm⟩, hpend,
    fun hr => (hpack hr).start target⟩

theorem State.SameRings.posting {target : Nat} (h : s.SameRings t) (hs : s.Posting r q target) : t.Posting r q target := by
  refine ⟨(h.but r q).focus hs.focus, ?_, ?_, ?_, ?_⟩ <;> rw [h.view]
  · rw [h.n_eq, h.poolSize_eq]
    exact hs.tracked
  · rw [h.n_eq]
    exact hs.behind
  · rw [h.poolSize_eq]
    exact hs.noPend
  · rw [h.n_eq]
    exact hs.packets

theorem State.Posting.count_lt_of_room {target : Nat} (h : s.Posting r q target) (hroom : s.ringFull r q = false) :
    (s.view r q).count s.n + 1 < s.n := by
  have hmax := mt (s.occupancy_eq_max_iff r q h.tracked.ntu_lt h.tracked.ntc_lt).1 (by simp [hroom])
  have hlt := s.occupancy_lt r q
  show s.occupancy r q + 1 < s.n
  omega

/-- Where no TX buffer below m is Free, m of them are outstanding. -/
theorem State.Posting.le_count_of_not_free {target m : Nat} (h : s.Posting .tx q target) (hm : m ≤ s.poolSize .tx)
    (hfree : ∀ b < m, s.tag .tx q b ≠ .free) : m ≤ (s.view .tx q).count s.n := by
  refine h.tracked.le_count_of_hw hm fun b hb => ?_
  have hnf : (s.view .tx q).tag b ≠ .free := hfree b hb
  have hnp := h.noPend rfl b (hb.trans_le hm)
  cases ht : (s.view .tx q).tag b with
  | free => exact absurd ht hnf
  | hw => rfl
  | pend => exact absurd ht hnp

/-- A TX ring always finds a Free buffer: its pool has more buffers than the ring has outstanding slots. -/
theorem State.Posting.poolAcquire_ne_none {target : Nat} (h : s.Posting .tx q target) : poolAcquire .tx q s ≠ none := by
  intro hnone
  have hle := h.le_count_of_not_free (Nat.le_refl _) (poolAcquire_eq_none hnone)
  have hlt := h.tracked.count_lt
  have hpool := h.focus.running.n_le_poolSize .tx
  omega

/-- A buffer's number fits the record's field: no more buffers lie below it than a ring has slots. -/
theorem State.Posting.acquired_lt {target b : Nat} (h : s.Posting r q target) (hb : poolAcquire r q s = some b) : b < 2 ^ 16 := by
  obtain ⟨hsize, -, hbelow⟩ := poolAcquire_eq_some hb
  have hn := s.n_le
  cases r with
  | tx =>
    have hle := h.le_count_of_not_free hsize.le hbelow
    have hlt := h.tracked.count_lt
    omega
  | rx =>
    have hsize : b < s.n := hsize
    omega

/-- The view of the ring after a post and pool_mark_posted. -/
theorem view_posted_markedPosted {desc : List Byte} {w : SlotRecord} {len : Nat} (hq : q < s.queues.length)
    (hslot : s.ntu r q < (s.view r q).slots) (hbuf : w.handle < (s.view r q).bufs) (hh : w.handle < 2 ^ 16)
    (hl : w.last < 2 ^ 16) :
    ((s.posted r q desc w).markedPosted r q w.handle len).view r q = (s.view r q).staged s.n (w.kept r) := by
  have hinc : (BitVec.ofNat 16 (ringInc s.n (s.ntu r q))).toNat = ringInc s.n (s.ntu r q) := by
    have hlt := ringInc_lt (i := s.ntu r q) s.n_pos
    have hn := s.n_le
    rw [BitVec.toNat_ofNat, Nat.mod_eq_of_lt (by omega)]
  have hpost : (s.posted r q desc w).view r q = { s.view r q with
      ntu := ringInc s.n (s.ntu r q), record := Function.update (s.view r q).record (s.ntu r q) (w.kept r) } := by
    unfold State.posted
    rw [State.view_setQueue_same (by simpa using hq), Queue.view_setCur_same, Queue.view_setSw_same _ r hslot hh hl,
      Queue.cur_setSw, hinc]
    rfl
  have hlen : q < (s.posted r q desc w).queues.length := by simpa [State.posted] using hq
  have hbuf' : w.handle < (((s.posted r q desc w).queue q).pool r).tags.length := by
    show _ < ((s.posted r q desc w).view r q).bufs
    rw [hpost]
    exact hbuf
  have hmark : ∀ x : Queue, ∀ p : Pool, (x.setPool r (p.setLen w.handle len)).view r = (x.setPool r p).view r := by
    intro x p
    rw [Queue.view_setPool_same, Queue.view_setPool_same]
    rfl
  rw [State.markedPosted, State.view_setQueue_same hlen, hmark, Queue.view_setTag _ _ _ hbuf']
  show ((s.posted r q desc w).view r q).retagged _ _ = _
  rw [hpost]
  cases r <;> rfl

theorem sameRingsBut_posted_markedPosted {desc : List Byte} {w : SlotRecord} {b len : Nat} (hq : q < s.queues.length) :
    s.SameRingsBut ((s.posted r q desc w).markedPosted r q b len) r q := by
  have hpost : s.SameRingsBut (s.posted r q desc w) r q := by
    have hbuffer : s.SameRings (State.emit { s with wb := s.wb ++ [⟨s.descAddr r q (s.ntu r q), desc⟩] }
        (.dmaWrite (s.descAddr r q (s.ntu r q)) desc)) := sameRings_of_queues rfl rfl rfl rfl rfl rfl
    refine (hbuffer.but r q).trans (sameRingsBut_setQueue hq ?_ ?_ fun r' hr => ?_)
    · rw [Queue.view_setCur_same]
      cases r <;> exact List.length_set
    · rw [Queue.view_setCur_same]
      cases r <;> rfl
    · rw [Queue.view_setCur_ne _ _ hr, Queue.view_setSw_ne _ _ _ hr]
      rfl
  refine hpost.trans (sameRingsBut_setQueue (hpost.length ▸ hq) ?_ ?_ fun r' hr => Queue.view_setPool_ne _ _ hr)
  · rw [Queue.view_setPool_same]
    rfl
  · rw [Queue.view_setPool_same]
    exact Pool.length_setTag ..

/-- One more buffer posted; the tail write is owed. -/
theorem State.Posting.stage {target len : Nat} {desc : List Byte} {w : SlotRecord} (h : s.Posting r q target)
    (hroom : s.ringFull r q = false) (hfree : poolAcquire r q s = some w.handle) (hl : w.last < 2 ^ 16)
    (hw : r = .tx → (s.view r q).count s.n < target ∧ w.last = (s.view r q).slotAt s.n (target - 1) ∧
      (w.eop = true ↔ (s.view r q).count s.n + 1 = target)) :
    let t := (s.posted r q desc w).markedPosted r q w.handle len
    t.Posting r q target ∧ t.TailOwed r q ∧ t.view r q = (s.view r q).staged s.n (w.kept r) ∧ t.n = s.n := by
  intro t
  have hrun := h.focus.running
  have hq := hrun.queue_lt h.focus.lt
  have hsame : s.SameRingsBut t r q := sameRingsBut_posted_markedPosted hq
  have hcount := h.count_lt_of_room hroom
  obtain ⟨hsize, htag, -⟩ := poolAcquire_eq_some hfree
  have hhandle : (w.kept r).handle = w.handle := by cases r <;> rfl
  have hview : t.view r q = (s.view r q).staged s.n (w.kept r) :=
    view_posted_markedPosted hq (h.tracked.ntu_lt.trans_eq (hrun.slots r q h.focus.lt).symm)
      (hsize.trans_eq (hrun.bufs r q h.focus.lt).symm) (h.acquired_lt hfree) hl
  have htr := h.tracked.staged (w := w.kept r) hcount
    (by rw [hhandle, show (s.view r q).tag w.handle = .free from htag]; decide)
  have hcount' := RingView.count_staged (w := w.kept r) h.tracked.ntu_lt h.tracked.ntc_lt hcount
  obtain ⟨p, hp, htail⟩ := h.behind
  refine ⟨⟨hsame.focus h.focus, ?_, ?_, fun hr b hb => ?_, fun hr => ?_⟩, .inr ?_, hview, hsame.n_eq⟩
  · rw [hview, hsame.n_eq, hsame.poolSize_eq]
    exact htr
  · rw [hview, hsame.n_eq, hcount']
    exact ⟨p, by omega, htail⟩
  · rw [hview]
    show Function.update (s.view r q).tag _ Tag.hw b ≠ .pend
    rw [Function.update_apply]
    split
    · decide
    · exact h.noPend hr b (hsame.poolSize_eq r ▸ hb)
  · subst hr
    obtain ⟨htarget, hlast, heop⟩ := hw rfl
    rw [hview, hsame.n_eq]
    exact (h.packets rfl).staged h.tracked.ntu_lt h.tracked.ntc_lt hcount htarget hlast heop
  · rw [hview, ← RingView.slotAt_count htr.ntu_lt htr.ntc_lt, hcount']
    show (s.view r q).tail ≠ _
    rw [htail]
    intro e
    have := RingView.slotAt_inj h.tracked.ntc_lt (by omega) hcount e
    omega

/-- The rule of ring_post and pool_mark_posted, with room in the ring and a Free buffer: what follows them starts with one more
buffer posted. -/
theorem runs_stage {α : Type} {target : Nat} {len : State → Nat} {desc : List Byte} {w : SlotRecord} {P : State → Prop}
    {k : Option Nat → State → Res α} {k' : State → Res α} (h : s.Posting r q target) (hroom : s.ringFull r q = false)
    (hfree : poolAcquire r q s = some w.handle) (hl : w.last < 2 ^ 16)
    (hw : r = .tx → (s.view r q).count s.n < target ∧ w.last = (s.view r q).slotAt s.n (target - 1) ∧
      (w.eop = true ↔ (s.view r q).count s.n + 1 = target))
    (hk : ∀ slot t, k (some slot) t = (poolMarkPosted r q w.handle (len t) t).bind fun _ u => k' u)
    (hk' : ∀ t, t.Posting r q target → t.TailOwed r q → t.view r q = (s.view r q).staged s.n (w.kept r) → t.n = s.n →
      Runs (k' t) P) :
    Runs ((ringPost r q desc w s).bind k) P := by
  have hpost : (ringPost r q desc w s).Ends (fun slot t => slot = some (s.ntu r q) ∧ t = s.posted r q desc w) State.FaultEntered
      (· = .memoryNotBacked) := by
    refine (ringPost_ends r q desc w s).mono (fun _ _ hp => ?_) (fun _ => False.elim) (fun _ hf => hf.1)
    rcases hp with ⟨hfull, -⟩ | ⟨-, hp⟩
    · rw [hroom] at hfull
      cases hfull
    · exact hp
  refine Res.Ends.bind hpost ?_
  rintro _ t ⟨rfl, rfl⟩
  have htag : (s.posted r q desc w).tag r q w.handle = .free := by
    have hq := h.focus.running.queue_lt h.focus.lt
    obtain ⟨-, hfree, -⟩ := poolAcquire_eq_some hfree
    rw [State.tag, State.posted, State.queue_setQueue_same _ _ _ (by simpa using hq), Queue.pool_setCur, Queue.pool_setSw]
    exact hfree
  rw [hk, poolMarkPosted_of_free htag, Res.bind_ok]
  obtain ⟨hposting, howed, hview, hn⟩ := h.stage hroom hfree hl hw
  exact hk' _ hposting howed hview hn

/-- The tail write settles the ring (40_ring.md R210). -/
theorem State.Posting.ready_ringTailSync {target : Nat} (h : s.Posting r q target) (howed : s.TailOwed r q)
    (hdone : r = .tx → target ≤ (s.view r q).count s.n) : (ringTailSync r q s).Ready := by
  have hpack : r = .tx → (s.view r q).Packets s.n 0 := fun hr => (h.packets hr).finish (hdone hr)
  by_cases hsync : s.tail r q = s.ntu r q
  · rw [ringTailSync_of_eq hsync]
    exact h.focus.ready (howed.resolve_right (not_not_intro hsync)) ⟨h.tracked, hsync, h.noPend, hpack⟩
  · rw [ringTailSync_of_ne hsync]
    have hq := h.focus.running.queue_lt h.focus.lt
    have hwrite : s.SameRings ((s.barrier .write).regWrite (.tail r q) (BitVec.ofNat 32 (s.ntu r q))) :=
      sameRings_of_queues rfl rfl rfl rfl rfl rfl
    have hsame : s.SameRingsBut (((s.barrier .write).regWrite (.tail r q) (BitVec.ofNat 32 (s.ntu r q))).setQueue q
        ((s.queue q).setCur r { (s.queue q).cur r with tail := ((s.queue q).cur r).ntu })) r q :=
      (hwrite.but r q).trans (sameRingsBut_setCur (hwrite.length ▸ hq) _)
    refine (hsame.focus h.focus).ready rfl ?_
    rw [State.view_setQueue_same (hwrite.length ▸ hq), Queue.view_setCur_same, hsame.n_eq, hsame.poolSize_eq]
    obtain ⟨hu, hc, hhw, hdis, hheld⟩ := h.tracked
    exact ⟨⟨hu, hc, hhw, hdis, hheld⟩, rfl, h.noPend, hpack⟩

/-! ### Giving back -/

/-- The buffers of the first j outstanding slots of ring (r, q) have been given back; v is the ring as the work on it began, and but
for its tags it is still so. -/
structure State.Returning (s : State) (r : Ring) (q n : Nat) (v : RingView) (j : Nat) : Prop where
  focus   : s.Focus r q
  noWb    : s.wb = []
  n_eq    : s.n = n
  same    : ∃ tag, s.view r q = { v with tag := tag }
  tracked : (s.view r q).Tracked n (s.poolSize r) j
  noPend  : r = .tx → ∀ b < s.poolSize r, (s.view r q).tag b ≠ .pend

theorem State.Ready.returning (h : s.Ready) (r : Ring) (hq : q < maxQueues) : s.Returning r q s.n (s.view r q) 0 :=
  ⟨h.focus r hq, h.rings.noWb, rfl, ⟨_, rfl⟩, (h.rings.settled r q hq).tracked, (h.rings.settled r q hq).noPend⟩

variable {n j : Nat} {v : RingView}

theorem State.Still.returning (h : s.Still t) (hs : s.Returning r q n v j) : t.Returning r q n v j := by
  obtain ⟨hfocus, hwb, hn, hsame, htr, hpend⟩ := hs
  refine ⟨(h.rings.but r q).focus hfocus, h.wb.trans hwb, h.rings.n_eq.trans hn, ?_, ?_, ?_⟩ <;> rw [h.rings.view]
  · exact hsame
  · rw [h.rings.poolSize_eq]
    exact htr
  · rw [h.rings.poolSize_eq]
    exact hpend

theorem State.Returning.held_eq (h : s.Returning r q n v j) : (s.view r q).held n = v.held n := by
  obtain ⟨tag, htag⟩ := h.same
  rw [htag]
  rfl

theorem State.Returning.count_eq (h : s.Returning r q n v j) : (s.view r q).count n = v.count n := by
  obtain ⟨tag, htag⟩ := h.same
  rw [htag]
  rfl

theorem State.Returning.tag_eq_hw (h : s.Returning r q n v j) (hj : j < v.count n) : s.tag r q (v.held n j) = .hw := by
  rw [← h.held_eq]
  exact h.tracked.isHw j (Nat.le_refl j) (h.count_eq ▸ hj)

theorem sameRingsBut_setTag (hq : q < s.queues.length) {b : Nat} {g : Tag} :
    s.SameRingsBut (s.setTag r q b g) r q := by
  refine sameRingsBut_setQueue hq ?_ ?_ fun r' hr => Queue.view_setPool_ne _ _ hr
  · rw [Queue.view_setPool_same]
    rfl
  · rw [Queue.view_setPool_same]
    exact Pool.length_setTag ..

/-- A queue past the last has no tagged buffer. -/
theorem State.lt_length_of_tag_ne_free {b : Nat} (hb : s.tag r q b ≠ .free) : q < s.queues.length := by
  by_contra hq
  refine hb ?_
  rw [State.tag, State.queue, List.getD_eq_default _ _ (Nat.le_of_not_lt hq), Queue.tag_fresh]

theorem view_setTag {b : Nat} (g : Tag) (hb : s.tag r q b ≠ .free) : (s.setTag r q b g).view r q = (s.view r q).retagged b g := by
  rw [State.setTag, State.view_setQueue_same (State.lt_length_of_tag_ne_free hb),
    Queue.view_setTag _ _ _ (Pool.lt_of_tag_ne_free _ hb), State.view]

/-- The buffer of the next outstanding slot is given back. -/
theorem State.Returning.setTag (h : s.Returning r q n v j) (hj : j < v.count n) {g : Tag} (hg : g ≠ .hw)
    (hp : r = .tx → g ≠ .pend) : (s.setTag r q (v.held n j) g).Returning r q n v (j + 1) := by
  have hsame := sameRingsBut_setTag (r := r) (b := v.held n j) (g := g) (h.focus.running.queue_lt h.focus.lt)
  have hview := view_setTag g (show s.tag r q (v.held n j) ≠ .free by rw [h.tag_eq_hw hj]; decide)
  refine ⟨hsame.focus h.focus, h.noWb, hsame.n_eq.trans h.n_eq, ?_, ?_, fun hr b hb => ?_⟩
  · obtain ⟨tag, htag⟩ := h.same
    rw [hview, htag]
    exact ⟨_, rfl⟩
  · rw [hview, hsame.poolSize_eq, ← h.held_eq]
    exact h.tracked.retagged (h.count_eq ▸ hj) hg
  · rw [hview]
    show Function.update (s.view r q).tag _ g b ≠ .pend
    rw [Function.update_apply]
    split
    · exact hp hr
    · exact h.noPend hr b hb

theorem State.Returning.runs_poolMarkCompleted (h : s.Returning .rx q n v j) (hj : j < v.count n) :
    Runs (poolMarkCompleted .rx q (v.held n j) s) fun t => t.Returning .rx q n v (j + 1) := by
  rw [poolMarkCompleted_of_hw (h.tag_eq_hw hj)]
  exact h.setTag hj (by decide) nofun

/-- A buffer that is HW is recycled: Pend, then Free. -/
theorem poolRecycle_of_hw {b : Nat} (hb : s.tag r q b = .hw) : poolRecycle r q b s = .ok () (s.setTag r q b .free) := by
  have hpend : (s.setTag r q b .pend).tag r q b = .pend := by
    have hview := view_setTag .pend (show s.tag r q b ≠ .free by rw [hb]; decide)
    show ((s.setTag r q b .pend).view r q).tag b = .pend
    rw [hview]
    exact Function.update_self ..
  rw [poolRecycle, poolMarkCompleted_of_hw hb, Res.bind_ok, poolRelease_of_pend hpend, Option.getD_some, State.setTag_setTag]

theorem State.Returning.runs_poolRecycle (h : s.Returning r q n v j) (hj : j < v.count n) :
    Runs (poolRecycle r q (v.held n j) s) fun t => t.Returning r q n v (j + 1) := by
  rw [poolRecycle_of_hw (h.tag_eq_hw hj)]
  exact h.setTag hj (by decide) fun _ => by decide

/-- Consuming the slots whose buffers are given back settles the ring (40_ring.md R207). -/
theorem State.Returning.runs_ringConsume (h : s.Returning r q n v j) (hpos : 1 ≤ j) (hj : j ≤ v.count n) (hsync : v.tail = v.ntu)
    (hpack : r = .tx → v.Packets n 0) : Runs (ringConsume r q j s) State.Ready := by
  have hcount := h.count_eq
  obtain ⟨hfocus, hwb, rfl, ⟨tag, htag⟩, htr, hpend⟩ := h
  have hq := hfocus.running.queue_lt hfocus.lt
  rw [ringConsume_of_le hpos (hj.trans_eq hcount.symm)]
  have hntc : (BitVec.ofNat 16 ((s.ntc r q + j) % s.n)).toNat = (s.ntc r q + j) % s.n := by
    have hlt := Nat.mod_lt (s.ntc r q + j) s.n_pos
    have hn := s.n_le
    rw [BitVec.toNat_ofNat, Nat.mod_eq_of_lt (by omega)]
  have hview : (s.setQueue q ((s.queue q).setCur r
      { (s.queue q).cur r with ntc := BitVec.ofNat 16 ((s.ntc r q + j) % s.n) })).view r q = (s.view r q).consumed s.n j := by
    rw [State.view_setQueue_same hq, Queue.view_setCur_same, hntc]
    rfl
  have hsame : s.SameRingsBut (s.setQueue q ((s.queue q).setCur r
      { (s.queue q).cur r with ntc := BitVec.ofNat 16 ((s.ntc r q + j) % s.n) })) r q := sameRingsBut_setCur hq _
  refine (hsame.focus hfocus).ready hwb ?_
  rw [hview, hsame.n_eq, hsame.poolSize_eq]
  refine ⟨htr.consumed (hcount ▸ hj), ?_, hpend, fun hr => ?_⟩
  · rw [htag]
    exact hsync
  · refine RingView.Packets.consumed ?_ htr.ntu_lt htr.ntc_lt (hcount ▸ hj)
    rw [htag]
    exact hpack hr

end

end Sys2Proof.Machine
end

section
/-! The loops of the ring commands: refill and staging post (42_tx.md R300, 43_rx.md R371), the TX pass frees packets (42_tx.md R310),
the RX pass takes frames off the ring (43_rx.md R360). Each leaves the rings settled, or a fault has been entered that is not
PROTO_NOT_POSTED, or the platform has no memory. -/

namespace Sys2Proof.Machine

variable {s t : State} {r : Ring} {q : Nat}

/-! ### Reading -/

theorem runs_memRead (addr m : Nat) (s : State) : Runs (memRead addr m s) s.Still :=
  (memRead_ends addr m s).mono (fun _ _ h => h.2.2 ▸ still_events s _) (fun _ => False.elim) (fun _ h => h.1)

theorem runs_ringPeek (r : Ring) (q slot : Nat) (s : State) : Runs (ringPeek r q slot s) s.Still := by
  refine (ringPeek_ends r q slot s).mono (fun _ t h => ?_) (fun _ => False.elim) (fun _ => id)
  obtain ⟨⟨es, rfl, -⟩, -⟩ := h
  exact still_events s _

theorem runs_readFrags (fs : List Frag) (s : State) : Runs (readFrags fs s) s.Still := by
  induction fs generalizing s with
  | nil => exact .refl s
  | cons f fs ih =>
    unfold readFrags
    split
    · exact ih s
    · exact (runs_memRead _ _ s).bind fun _ t ht => (ih t).bind fun _ u hu => ht.trans hu

/-! ### Refill -/

theorem runs_refillLoop (fuel posted : Nat) (h : s.Posting .rx q 0) (howed : s.TailOwed .rx q) :
    Runs (refillLoop q fuel posted s) fun t => t.Posting .rx q 0 ∧ t.TailOwed .rx q := by
  induction fuel generalizing posted s with
  | zero => exact ⟨h, howed⟩
  | succ fuel ih =>
    unfold refillLoop
    split
    · exact ⟨h, howed⟩
    next hroom =>
    have hroom : s.ringFull .rx q = false := by simpa using hroom
    split
    · exact ⟨h, howed⟩
    next b hb =>
    exact runs_stage (w := ⟨b, 0, false⟩) (len := fun t => t.params.bufSize) h hroom hb (Nat.two_pow_pos 16) nofun
      (fun _ _ => rfl) fun t ht howed _ _ => ih _ ht howed

theorem runs_rxRefill (h : s.Ready) (hq : q < maxQueues) : Runs (rxRefill q s) State.Ready :=
  (runs_refillLoop s.n 0 (h.posting .rx hq 0) (.inl h.rings.noWb)).bind fun _ _ ht =>
    ht.1.ready_ringTailSync ht.2 nofun

/-! ### Staging a packet -/

theorem length_pieces (b k : Nat) (data : List Byte) : (pieces b k data).length = k := by
  induction k generalizing data with
  | zero => rfl
  | succ k ih => rw [pieces, List.length_cons, ih]

/-- The pieces are posted one by one; with all of them the packet is whole. -/
theorem runs_stagePieces {target last : Nat} (ps : List (List Byte)) (h : s.Posting .tx q target) (howed : s.TailOwed .tx q)
    (hlen : (s.view .tx q).count s.n + ps.length = target) (htarget : target < s.n)
    (hlast : last = (s.view .tx q).slotAt s.n (target - 1)) :
    Runs (stagePieces q last ps s) fun t => t.Posting .tx q target ∧ t.TailOwed .tx q ∧ target ≤ (t.view .tx q).count t.n := by
  induction ps generalizing s with
  | nil => exact ⟨h, howed, hlen.ge⟩
  | cons p ps ih =>
    unfold stagePieces
    split
    · next hnone => exact absurd hnone h.poolAcquire_ne_none
    next b hb =>
    rw [List.length_cons] at hlen
    refine Res.Ends.bind ((memWrite_ends _ p s).mono (P' := fun _ t => s.SameRings t)
      (fun _ t ht => ht.2 ▸ sameRings_of_queues rfl rfl rfl rfl rfl rfl) (fun _ => False.elim) (fun _ hf => hf.1)) fun _ t ht => ?_
    have hcount : (t.view .tx q).count t.n = (s.view .tx q).count s.n := by rw [ht.view, ht.n_eq]
    have hslot : (t.view .tx q).slotAt t.n (target - 1) = last := by rw [ht.view, ht.n_eq, hlast]
    have hpost := ht.posting h
    have htr := hpost.tracked
    have hroom : t.ringFull .tx q = false := by
      rw [← Bool.not_eq_true, ← t.occupancy_eq_max_iff .tx q htr.ntu_lt htr.ntc_lt]
      show (t.view .tx q).count t.n ≠ t.n - 1
      rw [hcount, ht.n_eq]
      omega
    have hfree : poolAcquire .tx q t = some b := by
      rw [← hb]
      unfold poolAcquire
      rw [ht.poolSize_eq]
      congr 1
      funext i
      rw [show t.tag .tx q i = s.tag .tx q i from congrFun (congrArg RingView.tag (ht.view .tx q)) i]
    have hlt : last < 2 ^ 16 := by
      have hn := s.n_le
      have := hlast ▸ RingView.slotAt_lt (v := s.view .tx q) (i := target - 1) s.n_pos
      omega
    have heop : ps.isEmpty = true ↔ (t.view .tx q).count t.n + 1 = target := by
      rw [List.isEmpty_iff_length_eq_zero]
      omega
    refine runs_stage (w := ⟨b, last, ps.isEmpty⟩) (len := fun _ => p.length) hpost hroom hfree hlt
      (fun _ => ⟨by omega, hslot.symm, heop⟩) (fun _ _ => rfl) fun u hnext hnowed hview hn => ?_
    refine ih hnext hnowed ?_ (hn ▸ ht.n_eq ▸ htarget) ?_ <;> rw [hview, hn]
    · have hsum := RingView.count_staged (w := SlotRecord.kept ⟨b, last, ps.isEmpty⟩ .tx) htr.ntu_lt htr.ntc_lt
        (hpost.count_lt_of_room hroom)
      omega
    · exact hslot.symm

/-! ### The TX pass -/

theorem runs_txDoneLoop (slot left i : Nat) (gap : Bool) (h : s.Running) : Runs (txDoneLoop q slot left i gap s) s.Still := by
  induction left generalizing i gap s with
  | zero => exact .refl s
  | succ left ih =>
    refine (runs_ringPeek .tx q _ s).bind fun d t ht => ?_
    have hrun := ht.rings.running h
    have next : ∀ gap, Runs (txDoneLoop q slot left (i + 1) gap t) s.Still := fun gap =>
      (ih (i + 1) gap hrun).mono fun _ => ht.trans
    cases d with
    | none => exact next true
    | some _ =>
      cases gap with
      | true => exact faultEntered_faultAnswer hrun.alive (by decide)
      | false => exact next false

/-- The buffers of the packet at NTC go back one by one (42_tx.md R312). -/
theorem runs_txRelease {n : Nat} {v : RingView} (m j : Nat) (h : s.Returning .tx q n v j) (hm : j + m ≤ v.count n) :
    Runs (forEach (fun i s => poolRecycle .tx q ((s.queue q).txRec ((v.ntc + i) % s.n)).handle.toNat s) (List.range' j m) s)
      fun t => t.Returning .tx q n v (j + m) := by
  induction m generalizing j s with
  | zero => exact h
  | succ m ih =>
    rw [List.range'_succ, Nat.add_comm m, ← Nat.add_assoc]
    have hheld : ((s.queue q).txRec ((v.ntc + j) % s.n)).handle.toNat = v.held n j := by
      rw [← h.held_eq, h.n_eq]
      obtain ⟨tag, htag⟩ := h.same
      rw [RingView.held, RingView.slotAt, show (s.view .tx q).ntc = v.ntc by rw [htag]]
      rfl
    refine Runs.bind (P := fun t => t.Returning .tx q n v (j + 1)) ?_ fun _ t ht => ih (j + 1) ht (by omega)
    show Runs (poolRecycle .tx q ((s.queue q).txRec ((v.ntc + j) % s.n)).handle.toNat s) _
    rw [hheld]
    exact h.runs_poolRecycle (by omega)

theorem runs_txLoop (bmax fuel slots pkts : Nat) (h : s.Ready) (hq : q < maxQueues) :
    Runs (txLoop q bmax fuel slots pkts s) State.Ready := by
  induction fuel generalizing slots pkts s with
  | zero => exact h
  | succ fuel ih =>
    unfold txLoop
    dsimp only
    split
    · exact h
    next hne =>
    split
    · exact h
    obtain ⟨htr, hsync, -, hpack⟩ := h.rings.settled .tx q hq
    have hpack := hpack rfl
    have hcount : 0 < (s.view .tx q).count s.n :=
      Nat.pos_of_ne_zero fun h0 => hne ((s.occupancy_eq_zero_iff .tx q htr.ntu_lt htr.ntc_lt).1 h0)
    have hk : ringDist s.n (s.ntc .tx q) ((s.queue q).txRec (s.ntc .tx q)).last.toNat + 1 ≤ (s.view .tx q).count s.n :=
      hpack.headSize htr.ntc_lt hcount
    have hpos := Nat.le_add_left 1 (ringDist s.n (s.ntc .tx q) ((s.queue q).txRec (s.ntc .tx q)).last.toNat)
    generalize ringDist s.n (s.ntc .tx q) ((s.queue q).txRec (s.ntc .tx q)).last.toNat + 1 = k at *
    refine (runs_txDoneLoop _ _ _ _ h.running).bind fun done t ht => ?_
    have hready := ht.ready h
    split
    · have hreturn := ht.returning (h.returning .tx hq)
      rw [txReleasePacket, List.range_eq_range']
      refine (runs_txRelease k 0 hreturn (by omega)).bind fun _ u hu => ?_
      rw [Nat.zero_add] at hu
      exact (hu.runs_ringConsume hpos hk hsync fun _ => hpack).bind fun _ w hw => ih _ _ hw
    · exact hready

theorem runs_txPass (b : Half) (h : s.Ready) (hq : q < maxQueues) : Runs (txPass q b s) State.Ready := by
  unfold txPass
  split
  · exact h
  · refine (runs_txLoop _ _ _ _ h hq).bind fun done t ht => ?_
    show State.Ready _
    split
    · exact (still_events t _).ready ht
    · exact ht

/-! ### The RX pass -/

/-- The scanned descriptors name the buffers of the outstanding slots from place j on. -/
def RingView.Lists (v : RingView) (n j : Nat) (recs : List Scanned) : Prop :=
  recs.map (·.handle.toNat) = (List.range' j recs.length).map (v.held n)

theorem RingView.Lists.of_cons {v : RingView} {n j : Nat} {x : Scanned} {xs : List Scanned} (h : v.Lists n j (x :: xs)) :
    x.handle.toNat = v.held n j ∧ v.Lists n (j + 1) xs := by
  rw [RingView.Lists, List.map_cons, List.length_cons, List.range'_succ, List.map_cons] at h
  exact List.cons.inj h

theorem RingView.Lists.concat {v : RingView} {n : Nat} {x : Scanned} {xs : List Scanned} (h : v.Lists n 0 xs)
    (hx : x.handle.toNat = v.held n xs.length) : v.Lists n 0 (xs ++ [x]) := by
  have h : xs.map (·.handle.toNat) = (List.range' 0 xs.length).map (v.held n) := h
  rw [RingView.Lists, List.map_append, List.length_append, h, List.length_singleton, List.range'_concat, List.map_append]
  simp [hx]

/-- A scan reads outstanding slots in order, and finds an end of packet only in one that it has read (43_rx.md R352). Here s is the
state in which it began. -/
theorem rxScanLoop_ends (left : Nat) (recs : List Scanned) (h : s.Running) (ht : s.Still t)
    (hleft : recs.length + left ≤ (s.view .rx q).count s.n) (hrecs : (s.view .rx q).Lists s.n 0 recs) :
    (rxScanLoop q left ((s.view .rx q).slotAt s.n recs.length) recs t).Ends
      (fun out u => s.Still u ∧ (s.view .rx q).Lists s.n 0 out.2 ∧ out.2.length ≤ (s.view .rx q).count s.n ∧
        (out.1 = true → out.2 ≠ []))
      State.FaultEntered (· = .memoryNotBacked) := by
  induction left generalizing recs t with
  | zero => exact ⟨ht, hrecs, hleft, nofun⟩
  | succ left ih =>
    refine Res.Ends.bind (runs_ringPeek .rx q _ t) fun d u hu => ?_
    have hu := ht.trans hu
    cases d with
    | none => exact ⟨hu, hrecs, (Nat.le_add_right _ _).trans hleft, nofun⟩
    | some desc =>
      dsimp only
      split
      · exact faultEntered_faultAnswer (hu.rings.running h).alive (by decide)
      have hhandle : (((u.queue q).rxRec ((s.view .rx q).slotAt s.n recs.length)).handle).toNat =
          (s.view .rx q).held s.n recs.length := by
        rw [← hu.rings.view .rx q]
        rfl
      generalize hrec : (⟨(s.view .rx q).slotAt s.n recs.length, _, le16 desc 8, byteAt desc 12, byteAt desc 13⟩ : Scanned) = x
      have hrecs' : (s.view .rx q).Lists s.n 0 (recs ++ [x]) := hrecs.concat (by rw [← hrec, hhandle])
      have hlen : (recs ++ [x]).length = recs.length + 1 := List.length_append
      split
      · exact ⟨hu, hrecs', by dsimp only; omega, fun _ => by simp⟩
      · have hinc : ringInc u.n ((s.view .rx q).slotAt s.n recs.length) = (s.view .rx q).slotAt s.n (recs ++ [x]).length := by
          rw [hu.rings.n_eq, hlen, ringInc, RingView.slotAt, Nat.mod_add_mod, Nat.add_assoc, RingView.slotAt]
        rw [hinc]
        exact ih _ hu (by omega) hrecs'

/-- An operation on each scanned descriptor's buffer in turn, one that gives it back. -/
theorem runs_giveBackAll {α : Type} {n : Nat} {v : RingView} {one : Nat → State → Res α} {all : List Scanned → State → Res Unit}
    (hone : ∀ {s j}, s.Returning .rx q n v j → j < v.count n →
      Runs (one (v.held n j) s) fun t => t.Returning .rx q n v (j + 1))
    (hnil : ∀ s, all [] s = .ok () s)
    (hcons : ∀ x xs s, all (x :: xs) s = (one x.handle.toNat s).bind fun _ t => all xs t)
    (recs : List Scanned) (j : Nat) (h : s.Returning .rx q n v j) (hrecs : v.Lists n j recs) (hlen : j + recs.length ≤ v.count n) :
    Runs (all recs s) fun t => t.Returning .rx q n v (j + recs.length) := by
  induction recs generalizing j s with
  | nil =>
    rw [hnil]
    exact h
  | cons x xs ih =>
    obtain ⟨hx, hxs⟩ := hrecs.of_cons
    rw [List.length_cons] at hlen ⊢
    rw [Nat.add_comm xs.length, ← Nat.add_assoc, hcons, hx]
    exact (hone h (by omega)).bind fun _ t ht => ih (j + 1) ht hxs (by omega)

/-- A frame is completed or recycled, and its slots consumed (43_rx.md R354). -/
theorem runs_rxApply {o : RxOutcome} {recs : List Scanned} (h : s.Ready) (hq : q < maxQueues) (ho : o ≠ .wait)
    (hrecs : (s.view .rx q).Lists s.n 0 recs) (hpos : 1 ≤ recs.length) (hlen : recs.length ≤ (s.view .rx q).count s.n) :
    Runs (rxApply q o recs s) State.Ready := by
  have hsync := (h.rings.settled .rx q hq).synced
  have hreturn := h.returning .rx hq
  have hcomplete : Runs (completeAll q recs s) _ := runs_giveBackAll State.Returning.runs_poolMarkCompleted (fun _ => rfl)
    (fun _ _ _ => rfl) recs 0 hreturn hrecs (by omega)
  have hrecycle : Runs (recycleAll q recs s) _ := runs_giveBackAll State.Returning.runs_poolRecycle (fun _ => rfl)
    (fun _ _ _ => rfl) recs 0 hreturn hrecs (by omega)
  rw [Nat.zero_add] at hcomplete hrecycle
  refine Runs.bind (P := fun t => t.Returning .rx q s.n (s.view .rx q) recs.length) ?_ fun _ t ht =>
    ht.runs_ringConsume hpos hlen hsync nofun
  cases o with
  | wait => exact absurd rfl ho
  | deliver => exact hcomplete.bind fun _ t ht => (still_events t _).returning ht
  | dropError => exact hrecycle.bind fun _ t ht => (still_countDrop t q).returning ht
  | dropLength => exact hrecycle.bind fun _ t ht => (still_countDrop t q).returning ht
  | discardTail => exact hrecycle.bind fun _ t ht => (still_setDiscard t q false).returning ht
  | oversize =>
    refine hrecycle.bind fun _ t ht => (still_setDiscard _ q true).returning ?_
    split
    · exact ht
    · exact (still_countDrop t q).returning ht

/-- What is taken off the ring ends a packet, or is the whole of a full ring (43_rx.md R353). -/
theorem rxClassify_ne_wait {eop : Bool} {recs : List Scanned} (h : rxClassify q eop recs s ≠ .wait) :
    eop = true ∨ recs.length = s.occupancy .rx q := by
  cases eop with
  | true => exact .inl rfl
  | false =>
    by_contra hne
    refine h ?_
    rw [rxClassify, if_pos rfl, if_neg fun hfull => hne (.inr hfull.1)]

theorem runs_rxLoop (bmax fuel consumed units frames : Nat) (h : s.Ready) (hq : q < maxQueues) :
    Runs (rxLoop q bmax fuel consumed units frames s) State.Ready := by
  induction fuel generalizing consumed units frames s with
  | zero => exact h
  | succ fuel ih =>
    unfold rxLoop
    split
    · exact h
    next hne =>
    have htr := (h.rings.settled .rx q hq).tracked
    have hcount : 0 < (s.view .rx q).count s.n :=
      Nat.pos_of_ne_zero fun h0 => hne ((s.occupancy_eq_zero_iff .rx q htr.ntu_lt htr.ntc_lt).1 h0)
    have hscan := rxScanLoop_ends (q := q) ((s.view .rx q).count s.n) [] h.running (.refl s) (by simp) rfl
    rw [List.length_nil, RingView.slotAt_zero htr.ntc_lt] at hscan
    refine Res.Ends.bind hscan fun scan t ht => ?_
    obtain ⟨hstill, hrecs, hlen, heop⟩ := ht
    have hready := hstill.ready h
    rw [← hstill.rings.view, ← hstill.rings.n_eq] at hcount hrecs hlen
    dsimp only
    split
    · exact hready
    next ho =>
    split
    · exact hready
    refine (runs_rxApply hready hq ho hrecs ?_ hlen).bind fun _ u hu => ih _ _ _ hu
    rcases rxClassify_ne_wait ho with heop' | hall
    · exact List.length_pos_iff.2 (heop heop')
    · exact hcount.trans_eq hall.symm

theorem runs_rxPass (b : Half) (h : s.Ready) (hq : q < maxQueues) : Runs (rxPass q b s) State.Ready := by
  unfold rxPass
  split
  · exact h
  · refine Runs.bind (P := State.Ready) ?_ fun _ t ht => (runs_rxRefill ht hq).bind fun _ _ => id
    split
    · exact runs_rxLoop _ _ _ _ _ h hq
    · exact h

/-! ### Dispatch, TICK and activation -/

theorem runs_dispatch (h : s.Ready) (hq : q < maxQueues) : Runs (dispatch q s) State.Ready := by
  have hclosed := (still_closeWindow s q).ready h
  unfold dispatch
  dsimp only
  split
  · exact hclosed
  refine Runs.bind (P := State.Ready) ?_ fun _ t ht => Runs.bind (P := State.Ready) ?_ fun _ u hu => ?_
  · split
    · exact (runs_txPass 0 hclosed hq).bind fun _ _ => id
    · exact hclosed
  · split
    · exact (runs_rxPass 0 ht hq).bind fun _ _ => id
    · exact ht
  · show State.Ready _
    split
    · exact (still_lstate u _).ready hu
    · exact hu

theorem runs_tickQueue (d : Nat) (h : s.Ready) (hq : q < maxQueues) : Runs (tickQueue q d s) State.Ready := by
  have hcount : (s.setQueue q { s.queue q with cnt := (s.queue q).cnt - 1 }).Ready :=
    (still_setQueue fun r => by cases r <;> rfl).ready h
  unfold tickQueue
  dsimp only
  split
  · split
    · exact (runs_dispatch hcount hq).bind fun _ _ => id
    · exact hcount
  · exact h

theorem runs_tickLoop (qs : List Nat) (hqs : ∀ q ∈ qs, q < maxQueues) (d : Nat) (h : s.Ready) :
    Runs (tickLoop qs d s) State.Ready := by
  induction qs generalizing d s with
  | nil => exact h
  | cons q qs ih =>
    exact (runs_tickQueue d h (hqs q List.mem_cons_self)).bind fun d t ht =>
      ih (fun p hp => hqs p (List.mem_cons_of_mem _ hp)) d ht

theorem still_programRing (s : State) (r : Ring) (q : Nat) : s.Still (s.programRing r q) :=
  ((((still_regWrite s _ _).trans (still_regWrite _ _ _)).trans (still_regWrite _ _ _)).trans (still_regWrite _ _ _)).trans
    (still_regWrite _ _ _)

theorem still_programQueues (qs : List Nat) (s : State) : s.Still (programQueues qs s) := by
  induction qs generalizing s with
  | nil => exact .refl s
  | cons q qs ih => exact ((still_programRing s .tx q).trans (still_programRing _ .rx q)).trans (ih _)

/-- RSTATE may move on to RingsReady. -/
theorem State.Ready.setRState_ringsReady (h : s.Ready) : (s.setRState .ringsReady).Ready := by
  obtain ⟨⟨-, hreason, hvalid, hnq, hlen, hslots, hbufs⟩, hwb, hset⟩ := h
  exact ⟨⟨nofun, hreason, hvalid, hnq, hlen, hslots, hbufs⟩, hwb, hset⟩

theorem runs_activate (h : s.Ready) : Runs (activate s) State.Ready := by
  unfold activate
  dsimp only
  have hprog := (((still_programQueues (List.range s.nq.toNat) s).trans (still_regWrite _ .rctl 0x00000002)).trans
    (still_regWrite _ .tctl 0x00000002)).ready h
  refine Res.Ends.bind (forEach_ends (I := State.Ready) _ (fun q hq u hu => ?_) _ hprog) fun _ t ht => ?_
  · exact (runs_rxRefill hu ((List.mem_range.1 hq).trans_le h.running.nq)).bind fun _ _ => id
  · exact (still_lstate _ 0x20).ready ht.setRState_ringsReady

theorem runs_resetPoll (h : s.Ready) : Runs (resetPoll s) State.Ready := by
  have hstill : s.Still (State.afterRegRead { s with resetPolls := s.resetPolls + 1 } .ctrl) :=
    ⟨sameRings_of_queues rfl rfl rfl rfl rfl rfl, rfl⟩
  have hpoll := hstill.ready h
  unfold resetPoll
  dsimp only
  split
  · exact runs_activate hpoll
  split
  · exact faultEntered_faultAnswer hpoll.running.alive (by decide)
  · exact hpoll

end Sys2Proof.Machine
end

section
/-! Every command, and so every step, keeps the rings settled and enters no PROTO_NOT_POSTED (40_ring.md R201, R207, 41_pool.md R249,
R251, R252, 42_tx.md R302). -/

namespace Sys2Proof.Machine

variable {s : State}

/-! ### How a command may end -/

/-- From s: with an empty write buffer, the rings settled if any are live, and PROTO_NOT_POSTED not entered; or for want of memory. -/
def EndsWell (s : State) : Host.Outcome State Fault Refusal → Prop
  | .next t    => t.wb = [] ∧ (t.rstate = .ringsReady → t.Rings) ∧ (t.faultReason = 0x01 → s.faultReason = 0x01)
  | .fault f   => f = .memoryNotBacked
  | .refused _ => False

theorem endsWell_of_still {t : State} (h : s.Rings) (ht : s.Still t) : EndsWell s (.next t) :=
  ⟨ht.wb.trans h.noWb, fun _ => ht.settledRings h, fun hr => ht.rings.reason.symm.trans hr⟩

theorem endsWell_answer (h : s.Rings) (st : Status) (v : Word) : EndsWell s (answer s st v) :=
  endsWell_of_still h (still_respond s st v)

theorem endsWell_perQueue {q : BitVec 7} {k : Host.Outcome State Fault Refusal} (h : s.Rings)
    (hk : q.toNat < s.nq.toNat → EndsWell s k) : EndsWell s (perQueue q s k) := by
  unfold perQueue
  split
  next hq => exact hk hq
  next => exact endsWell_answer h _ _

theorem State.FaultEntered.endsWell {t : State} (h : t.FaultEntered) : EndsWell s (.next t) :=
  ⟨h.noWb, fun hr => absurd (h.faulted.symm.trans hr) (by decide), fun hr => absurd hr h.reason⟩

theorem Runs.endsWell {x : Res (Status × Word)} (h : Runs x State.Ready) : EndsWell s x.answer := by
  cases x with
  | ok a t =>
    have h : t.Ready := h
    exact ⟨h.rings.noWb, fun _ => (still_respond t _ _).settledRings h.rings, fun hr => absurd hr h.running.reason⟩
  | ended t => exact State.FaultEntered.endsWell h
  | stuck f => exact h

/-- The rings exist and are settled in the phases in which a command works on them. -/
theorem State.Inv.ready (h : s.Inv) (hf : s.rstate ≠ .faulted) (hu : s.rstate ≠ .uninitialized) : s.Ready := by
  have hconf := h.config.configured
  have hslots := hconf.slots_eq (hconf.nq_ne_zero hu)
  obtain ⟨hlen, -, -, hsized, hnq, -⟩ := h.config.sized
  have hsize : ∀ p < maxQueues, (s.queue p).SizedFor s.n (s.poolSize .tx) := fun p hp => by
    have hp := hsized _ (s.queue_mem_of_lt (hlen ▸ hp))
    rwa [hslots] at hp
  refine ⟨⟨hf, by rw [hconf.faultReason_eq_zero hf]; decide, h.config.valid, hnq, hlen, fun r p hp => ?_, fun r p hp => ?_⟩, h.rings⟩
  · obtain ⟨htx, hrx, -⟩ := hsize p hp
    cases r with
    | tx => exact htx
    | rx => exact hrx
  · obtain ⟨-, -, htx, -, hrx, -⟩ := hsize p hp
    cases r with
    | tx => exact htx
    | rx => exact hrx

theorem State.Inv.ready_of_live (h : s.Inv) (hr : s.rstate = .ringsReady) : s.Ready :=
  h.ready (by rw [hr]; decide) (by rw [hr]; decide)

theorem State.wb_teardown (s : State) : s.teardown.wb = [] := by
  obtain ⟨m, es, ht⟩ := s.teardown_eq
  rw [ht]

/-! ### INIT, STOP, POLL_LINK, TICK -/

/-- An answer from outside RingsReady, with no fault newly entered. -/
theorem endsWell_answer_of_not_ready {t : State} {st : Status} {v : Word} (hwb : t.wb = []) (hr : t.rstate ≠ .ringsReady)
    (hf : t.faultReason = 0x01 → s.faultReason = 0x01) : EndsWell s (answer t st v) :=
  ⟨hwb, fun hready => absurd hready hr, hf⟩

theorem endsWell_execInit {nqLess1 : BitVec 7} {logn : BitVec 4} {base : Addr} {size : Word} (h : s.Rings) :
    EndsWell s (execInit nqLess1 logn base size s) := by
  unfold execInit
  dsimp only
  iterate 3
    split
    · exact endsWell_answer h _ _
  refine endsWell_answer_of_not_ready ?_ (by simp [State.initialised]) (by simp [State.initialised])
  show (if s.rstate = .ringsReady then s.deviceDisable.teardown else s).wb = []
  split
  · exact State.wb_teardown _
  · exact h.noWb

theorem endsWell_execStop (h : s.Rings) : EndsWell s (execStop s) := by
  unfold execStop
  split
  iterate 3 · exact endsWell_answer h _ _
  · exact endsWell_answer_of_not_ready (State.wb_teardown _) (by simp) (by simp)
  · exact endsWell_answer_of_not_ready (State.wb_teardown _) (by simp) (by simp)

theorem endsWell_execPollLink {link speed : BitVec 2} {fd : BitVec 1} (h : s.Rings) :
    EndsWell s (execPollLink link speed fd s) := by
  have hset : ∀ l, s.Still (s.setLState l) := still_lstate s
  unfold execPollLink
  dsimp only
  iterate 2
    split
    · exact endsWell_answer h _ _
  split
  · exact endsWell_of_still h (((hset _).trans (still_events _ _)).trans (still_respond _ _ _))
  · exact endsWell_of_still h ((hset _).trans (still_respond _ _ _))

theorem runs_tickQueues (h : s.Ready) :
    Runs (if s.rstate = .ringsReady then tickLoop (List.range s.nq.toNat) 0 s else .ok 0 s) State.Ready := by
  split
  · exact runs_tickLoop _ (fun q hq => (List.mem_range.1 hq).trans_le h.running.nq) 0 h
  · exact h

theorem endsWell_execTick (h : s.Inv) : EndsWell s (execTick s) := by
  unfold execTick
  by_cases hreset : s.rstate = .resetting
  · rw [if_pos hreset]
    have hready := h.ready (by rw [hreset]; decide) (by rw [hreset]; decide)
    exact Runs.endsWell ((runs_resetPoll hready).bind fun _ t ht => (runs_tickQueues ht).bind fun _ _ => id)
  rw [if_neg hreset, Res.bind_ok]
  by_cases hlive : s.rstate = .ringsReady
  · exact Runs.endsWell ((runs_tickQueues (h.ready_of_live hlive)).bind fun _ _ => id)
  · rw [if_neg hlive, Res.bind_ok]
    exact endsWell_answer h.rings _ _

/-! ### The commands of one queue -/

section

variable {q : BitVec 7}

/-- The first slot of a packet is NTU, and its last is the place before which it ends (42_tx.md R300). -/
theorem RingView.slotAt_last {v : RingView} {n k : Nat} (hu : v.ntu < n) (hc : v.ntc < n) (hk : 1 ≤ k) :
    (v.ntu + k - 1) % n = v.slotAt n (v.count n + k - 1) := by
  rw [Nat.add_sub_assoc hk, Nat.add_sub_assoc hk, ← RingView.slotAt_count hu hc, RingView.slotAt, Nat.mod_add_mod, Nat.add_assoc,
    RingView.slotAt]

theorem one_le_pieceCount {l b : Nat} (hl : l ≠ 0) (hb : 1 ≤ b) : 1 ≤ pieceCount l b :=
  (Nat.le_div_iff_mul_le hb).2 (by omega)

theorem endsWell_execEnqueue {frags : List Frag} (h : s.Inv) : EndsWell s (execEnqueue q frags s) := by
  refine endsWell_perQueue h.rings fun _ => ?_
  dsimp only
  split
  · exact endsWell_answer h.rings _ _
  split
  · exact endsWell_answer h.rings _ _
  next hlive =>
  split
  · exact endsWell_answer h.rings _ _
  next hl =>
  split
  · exact endsWell_answer h.rings _ _
  split
  · exact endsWell_answer h.rings _ _
  next hroom =>
  rw [not_or, not_not] at hlive
  have hready := h.ready_of_live hlive.1
  have htr := (h.rings.settled .tx q.toNat q.isLt).tracked
  have hk : 1 ≤ pieceCount (packetLength frags) s.params.bufSize := one_le_pieceCount hl h.config.valid.1
  generalize pieceCount (packetLength frags) s.params.bufSize = k at *
  have hfree : k ≤ s.n - 1 - (s.view .tx q.toNat).count s.n := Nat.le_of_not_lt (not_or.1 hroom).1
  have hlast := RingView.slotAt_last htr.ntu_lt htr.ntc_lt hk
  refine Runs.endsWell ((runs_readFrags frags s).bind fun data t ht => ?_)
  have htarget : (t.view .tx q.toNat).count t.n + k < t.n := by
    rw [ht.rings.view, ht.rings.n_eq]
    omega
  have hpost := (ht.ready hready).posting .tx q.isLt ((t.view .tx q.toNat).count t.n + k)
  refine (runs_stagePieces (pieces t.params.bufSize k data) hpost (.inl (ht.wb.trans h.noWb))
    (by rw [length_pieces]) htarget ?_).bind
    fun _ u ⟨hposting, howed, hwhole⟩ => hposting.ready_ringTailSync howed fun _ => hwhole
  rw [ht.rings.view, ht.rings.n_eq]
  exact hlast

theorem endsWell_execServiceTx {b : Half} (h : s.Inv) : EndsWell s (execServiceTx q b s) := by
  refine endsWell_perQueue h.rings fun _ => ?_
  by_cases hr : s.rstate = .ringsReady
  · exact Runs.endsWell ((runs_txPass b (h.ready_of_live hr) q.isLt).bind fun _ _ => id)
  · rw [txPass, if_pos hr]
    exact endsWell_answer h.rings _ _

theorem endsWell_execServiceRx {b : Half} (h : s.Inv) : EndsWell s (execServiceRx q b s) := by
  refine endsWell_perQueue h.rings fun _ => ?_
  by_cases hr : s.rstate = .ringsReady
  · exact Runs.endsWell ((runs_rxPass b (h.ready_of_live hr) q.isLt).bind fun _ _ => id)
  · rw [rxPass, if_pos hr]
    exact endsWell_answer h.rings _ _

theorem endsWell_execRefill (h : s.Inv) : EndsWell s (execRefill q s) := by
  refine endsWell_perQueue h.rings fun _ => ?_
  split
  · exact endsWell_answer h.rings _ _
  next hr => exact Runs.endsWell ((runs_rxRefill (h.ready_of_live (not_not.1 hr)) q.isLt).bind fun _ _ => id)

/-- A buffer that is pending delivery is named by no slot; freeing it leaves every ring settled. -/
theorem State.Rings.setTag_free {r : Ring} {p b : Nat} (h : s.Rings) (hb : s.tag r p b = .pend) :
    (s.setTag r p b .free).Rings := by
  have htagged : s.tag r p b ≠ .free := by rw [hb]; decide
  have hsame := sameRingsBut_setTag (r := r) (b := b) (g := .free) (State.lt_length_of_tag_ne_free htagged)
  refine ⟨h.noWb, fun r' p' hp' => ?_⟩
  rw [hsame.n_eq, hsame.poolSize_eq]
  rcases Ring.other_or_same r r' p p' with hne | ⟨rfl, rfl⟩
  · rw [hsame.view r' p' hne]
    exact h.settled r' p' hp'
  · obtain ⟨htr, hsync, hpend, hpack⟩ := h.settled r' p' hp'
    have hpending : (s.view r' p').tag b = .pend := hb
    rw [view_setTag .free htagged]
    refine ⟨htr.retagged_of_ne_hw (by rw [hpending]; decide) (by decide), hsync, fun hr c hc => ?_, hpack⟩
    show Function.update (s.view r' p').tag b Tag.free c ≠ .pend
    rw [Function.update_apply]
    split
    · decide
    · exact hpend hr c hc

theorem endsWell_execRelease {r : Ring} {index : Half} (h : s.Rings) : EndsWell s (execRelease r q index s) := by
  refine endsWell_perQueue h fun _ => ?_
  split
  · exact endsWell_answer h _ _
  split
  · exact endsWell_answer h _ _
  next t ht =>
  obtain ⟨hpend, rfl⟩ := poolRelease_eq_some.1 ht
  exact ⟨h.noWb, fun _ => (still_respond _ _ _).settledRings (h.setTag_free hpend), id⟩

theorem endsWell_execIrq {c : Half} (h : s.Inv) : EndsWell s (execIrq q c s) := by
  refine endsWell_perQueue h.rings fun _ => ?_
  split
  next hparity =>
    obtain ⟨-, -, hf⟩ := hparity
    exact (faultEntered_faultAnswer hf (by decide)).endsWell
  split
  · exact endsWell_answer h.rings _ _
  next hr =>
  dsimp only
  split
  · exact endsWell_answer h.rings _ _
  have hacc := still_accumulate s q.toNat (c &&& causeMask)
  split
  · exact Runs.endsWell ((runs_dispatch (hacc.ready (h.ready_of_live (not_not.1 hr))) q.isLt).bind fun _ _ => id)
  · exact endsWell_of_still h.rings ((hacc.trans (still_openWindow _ _)).trans (still_respond _ _ _))

theorem endsWell_execSetItr {w : Half} (h : s.Rings) : EndsWell s (execSetItr q w s) :=
  endsWell_perQueue h fun _ =>
    endsWell_of_still h ((still_setQueue fun r => by cases r <;> rfl).trans (still_respond _ _ _))

theorem endsWell_execReadReg {index : Half} (h : s.Rings) : EndsWell s (execReadReg q index s) := by
  unfold execReadReg
  split
  · split <;> exact endsWell_answer h _ _
  split
  · exact endsWell_perQueue h fun _ => endsWell_answer h _ _
  · exact endsWell_answer h _ _

end

/-! ### Every command and every step -/

theorem endsWell_exec (i : Instr) (h : s.Inv) : EndsWell s (exec i s) := by
  cases i with
  | init nqLess1 logn base size => exact endsWell_execInit h.rings
  | stop => exact endsWell_execStop h.rings
  | enqueue q frags => exact endsWell_execEnqueue h
  | serviceTx q b => exact endsWell_execServiceTx h
  | serviceRx q b => exact endsWell_execServiceRx h
  | refill q => exact endsWell_execRefill h
  | release r q index => exact endsWell_execRelease h.rings
  | irq q c => exact endsWell_execIrq h
  | pollLink link speed fd => exact endsWell_execPollLink h.rings
  | tick => exact endsWell_execTick h
  | setItr q w => exact endsWell_execSetItr h.rings
  | isEmpty r q => exact endsWell_perQueue h.rings fun _ => endsWell_answer h.rings _ _
  | isFull r q => exact endsWell_perQueue h.rings fun _ => endsWell_answer h.rings _ _
  | capacity r q => exact endsWell_perQueue h.rings fun _ => endsWell_answer h.rings _ _
  | occupancy r q => exact endsWell_perQueue h.rings fun _ => endsWell_answer h.rings _ _
  | readReg q index => exact endsWell_execReadReg h.rings
  | poolTag r q index =>
    refine endsWell_perQueue h.rings fun _ => ?_
    split <;> exact endsWell_answer h.rings _ _

/-- A part of a device move stops for want of memory only. -/
abbrev StopsUnbacked {α : Type} (x : Res α) : Prop :=
  x.Ends (fun _ _ => True) (fun _ => True) (· = .memoryNotBacked)

theorem StopsUnbacked.bind {α β : Type} {x : Res α} {k : α → State → Res β} (hx : StopsUnbacked x)
    (hk : ∀ a t, StopsUnbacked (k a t)) : StopsUnbacked (x.bind k) :=
  Res.Ends.bind hx fun a t _ => hk a t

theorem stopsUnbacked_deviceWrite (addr : Nat) (bytes : List Byte) (s : State) : StopsUnbacked (deviceWrite addr bytes s) :=
  (deviceWrite_ends addr bytes s).mono (fun _ _ _ => trivial) (fun _ => False.elim) (fun _ => id)

theorem stopsUnbacked_rxWriteback (q slot : Nat) (d : RxDraw) (s : State) : StopsUnbacked (rxWriteback q slot d s) :=
  (stopsUnbacked_deviceWrite _ _ s).bind fun _ t => stopsUnbacked_deviceWrite _ _ t

theorem stopsUnbacked_completeHead (r : Ring) (q : Nat) {w : State → Res Unit} (hw : StopsUnbacked (w s)) :
    StopsUnbacked (completeHead r q w s) := by
  refine StopsUnbacked.bind ?_ fun _ _ => trivial
  split
  · trivial
  · exact hw

theorem stopsUnbacked_completeAt (r : Ring) (q slot : Nat) {w : State → Res Unit} (hw : StopsUnbacked (w s)) :
    StopsUnbacked (completeAt r q slot w s) :=
  hw.bind fun _ _ => trivial

theorem stopsUnbacked_deviceMove (m : Move) (s : State) : StopsUnbacked (deviceMove m s) := by
  cases m with
  | txComplete q x =>
    unfold deviceMove; dsimp only; split
    · exact stopsUnbacked_completeHead _ _ (stopsUnbacked_deviceWrite _ _ s)
    · trivial
  | rxComplete q d =>
    unfold deviceMove; dsimp only; split
    · exact stopsUnbacked_completeHead _ _ (stopsUnbacked_rxWriteback _ _ _ s)
    · trivial
  | resetDone =>
    unfold deviceMove; dsimp only; split
    · trivial
    · trivial
  | txCompleteAt q k x =>
    unfold deviceMove; dsimp only; split
    · exact stopsUnbacked_completeAt _ _ _ (stopsUnbacked_deviceWrite _ _ s)
    · trivial
  | rxCompleteAt q k d =>
    unfold deviceMove; dsimp only; split
    · exact stopsUnbacked_completeAt _ _ _ (stopsUnbacked_rxWriteback _ _ _ s)
    · trivial

theorem State.OutsideWrite.still {t : State} (h : s.OutsideWrite t) : s.Still t := by
  obtain ⟨m, d, rfl, -, -⟩ := h
  exact ⟨sameRings_of_queues rfl rfl rfl rfl rfl rfl, rfl⟩

theorem endsWell_moveOutcome (m : Move) (h : s.Rings) : EndsWell s (moveOutcome (deviceMove m s)) := by
  have hout := outside_deviceMove m s
  have hstop := stopsUnbacked_deviceMove m s
  cases hm : deviceMove m s with
  | ok a t =>
    rw [hm] at hout
    exact endsWell_of_still h (State.OutsideWrite.still hout)
  | ended t =>
    rw [hm] at hout
    exact hout.elim
  | stuck f =>
    rw [hm] at hstop
    exact hstop

/-- The stream of inputs is no part of the invariant. -/
theorem State.Inv.withInputs (h : s.Inv) (rest : List Input) : (s.withInputs rest).Inv :=
  ⟨⟨h.config.valid, h.config.sized, h.config.region, h.config.regs, h.config.quiet⟩, h.canon, h.noWb, h.cursors, h.pools,
    h.packets⟩

theorem endsWell_step (h : s.Inv) : EndsWell s (step s) := by
  have hv := h.config.valid
  cases hi : s.inputs with
  | nil =>
    rw [step_of_idle hv hi]
    exact endsWell_of_still h.rings (.refl s)
  | cons input rest =>
    have hrest := h.withInputs rest
    cases input with
    | command w args =>
      cases hd : decode w args with
      | ok i =>
        rw [step_of_accepted hv hi hd]
        exact endsWell_exec i hrest
      | error e =>
        rw [step_of_refused hv hi hd]
        exact endsWell_answer hrest.rings _ _
    | device m =>
      rw [step_of_move hv hi]
      exact endsWell_moveOutcome m hrest.rings
    | hostWrite addr bytes =>
      rw [step_of_hostWrite hv hi]
      have hends := endsWell_of_still hrest.rings (outsideWrite_hostWrite addr bytes _).still
      exact hends

/-- Settles O54: the rings stay settled while RSTATE is RingsReady, and outside it the configuration invariant has every queue
idle. -/
theorem ringAndPoolInvariantKept : Obligations.RingAndPoolInvariantKept := by
  intro s t h ht
  have hconf := configurationInvariantKept s t h.config ht
  have hcanon := memoryStaysCanonical s t h.canon ht
  have hends := endsWell_step h
  rw [ht] at hends
  obtain ⟨hwb, hrings, -⟩ := hends
  by_cases hr : t.rstate = .ringsReady
  · exact (hrings hr).inv hconf hcanon
  · exact (hconf.rings_of_not_ready hr hwb).inv hconf hcanon

/-- Settles O55: each call the spec rules out, and PROTO_NOT_POSTED, is excluded where the call is made, by the settled rings. -/
theorem onlyMissingMemoryStops : Obligations.OnlyMissingMemoryStops := by
  intro s h
  have hends := endsWell_step h
  cases hstep : step s with
  | next t =>
    rw [hstep] at hends
    obtain ⟨-, -, hreason⟩ := hends
    exact .inl ⟨t, rfl, hreason⟩
  | fault f =>
    rw [hstep] at hends
    exact .inr (congrArg _ hends)
  | refused r =>
    rw [hstep] at hends
    exact hends.elim

end Sys2Proof.Machine
end

section
/-! The ring queries (40_ring.md R220 to R223). -/

namespace Sys2Proof.Machine

/-- A query answers its value for a queue that exists, E_INVAL for one that does not, and writes the response only. -/
theorem perQueue_answer (q : BitVec 7) (s : State) (v : Word) : perQueue q s (answer s .ok v) =
    .next { s with response := some (if q.toNat < s.nq.toNat then ⟨.ok, v⟩ else ⟨.inval, 0⟩) } := by
  unfold perQueue
  split <;> rfl

/-- Settles O8: the cursors are equal as numbers exactly when they are as registers. -/
theorem isEmptyAnswers : Obligations.IsEmptyAnswers := by
  intro r q s
  have hempty : s.ringEmpty r q.toNat = true ↔ ((s.queue q.toNat).cur r).ntu = ((s.queue q.toNat).cur r).ntc :=
    (s.ringEmpty_iff r q.toNat).trans BitVec.toNat_inj
  refine ⟨rfl, (perQueue_answer q s _).trans ?_⟩
  simp only [hempty]

/-- Settles O9: inc(NTU) is (NTU + 1) mod N. -/
theorem isFullAnswers : Obligations.IsFullAnswers := by
  intro r q s
  have hfull : s.ringFull r q.toNat = true ↔
      (((s.queue q.toNat).cur r).ntu.toNat + 1) % 2 ^ s.logn.toNat = ((s.queue q.toNat).cur r).ntc.toNat :=
    s.ringFull_iff r q.toNat
  refine ⟨rfl, (perQueue_answer q s _).trans ?_⟩
  simp only [hfull]

/-- Settles O10: the answer is N itself, or zero while no ring exists. -/
theorem capacityAnswers : Obligations.CapacityAnswers := fun _ q s => ⟨rfl, perQueue_answer q s _⟩

/-- Settles O11: the occupancy is below N, and going that far on from NTC leads to NTU. -/
theorem occupancyAnswers : Obligations.OccupancyAnswers := by
  intro r q s h hq
  have htracked := (h.rings.settled r q.toNat q.isLt).tracked
  refine ⟨s.occupancy r q.toNat, Nat.le_sub_one_of_lt (s.occupancy_lt r q.toNat),
    add_ringDist htracked.ntc_lt htracked.ntu_lt, perQueue_of_lt hq⟩

end Sys2Proof.Machine
end

section
/-! The pool commands (41_pool.md R270 and R275). -/

namespace Sys2Proof.Machine

/-- BadHandle of R253. -/
theorem poolRelease_of_ne_pend {r : Ring} {q h : Nat} {s : State} (hp : s.tag r q h ≠ .pend) :
    poolRelease r q h s = none := if_neg hp

/-- The two checks before a pool command's work: the queue of R163 and the index of R270 and R275, each with E_INVAL. -/
theorem perQueue_poolIndex {r : Ring} {q : BitVec 7} {h : Half} {s t : State} {k : Host.Outcome State Fault Refusal}
    (hk : k = .next t) :
    perQueue q s (if h.toNat ≥ s.poolSize r then answer s .inval 0 else k) =
      .next (if s.nq.toNat ≤ q.toNat then s.respond .inval 0
        else if s.poolSize r ≤ h.toNat then s.respond .inval 0 else t) := by
  by_cases hq : s.nq.toNat ≤ q.toNat
  · rw [perQueue_of_ge hq, if_pos hq]
  rw [perQueue_of_lt (Nat.lt_of_not_le hq), if_neg hq]
  by_cases hh : s.poolSize r ≤ h.toNat
  · rw [if_pos hh, if_pos hh, answer]
  · rw [if_neg hh, if_neg hh, hk]

/-- Settles O12: past its two checks RELEASE is pool_release, which frees a Pend buffer and refuses any other. -/
theorem releaseFreesOnlyPending : Obligations.ReleaseFreesOnlyPending := by
  intro r q h s
  refine ⟨rfl, perQueue_poolIndex ?_⟩
  by_cases hp : s.tag r q.toNat h.toNat = .pend
  · rw [poolRelease_of_pend hp, if_pos hp]
    rfl
  · rw [poolRelease_of_ne_pend hp, if_neg hp]
    rfl

/-- Settles O13: past its two checks POOL_TAG answers the number of the tag (10_state.md R50). -/
theorem poolTagAnswers : Obligations.PoolTagAnswers := by
  intro r q h s
  refine ⟨rfl, (perQueue_poolIndex rfl).trans ?_⟩
  split
  · rfl
  split
  · rfl
  cases s.tag r q.toNat h.toNat <;> rfl

end Sys2Proof.Machine
end

section
/-! Commands that find nothing to do, and the refusals of ENQUEUE (42_tx.md R300, R302, R310, 44_control.md R423). -/

namespace Sys2Proof.Machine

/-! ### Outside RingsReady -/

theorem txPass_of_not_ready {s : State} (h : s.rstate ≠ .ringsReady) (q : Nat) (b : Half) : txPass q b s = .ok (0, 0) s := if_pos h

theorem rxPass_of_not_ready {s : State} (h : s.rstate ≠ .ringsReady) (q : Nat) (b : Half) : rxPass q b s = .ok (0, 0) s := if_pos h

/-- A TICK with no reset to poll and no window to count. -/
theorem execTick_of_idle {s : State} (h : s.rstate ≠ .ringsReady) (hr : s.rstate ≠ .resetting) :
    execTick s = answer s .ok 0 := by
  rw [execTick, if_neg hr, Res.bind_ok, if_neg h]
  rfl

/-- An IRQ that takes no parity fault is forgotten (45_irq.md R450). -/
theorem execIrq_of_not_ready {q : BitVec 7} {c : Half} {s : State} (hq : q.toNat < s.nq.toNat) (h : s.rstate ≠ .ringsReady)
    (hp : parityCause c = false ∨ s.params.parityFaultEnabled = false ∨ s.rstate = .faulted) :
    execIrq q c s = answer s .ok 0 := by
  have hnone : ¬ (parityCause c = true ∧ s.params.parityFaultEnabled = true ∧ s.rstate ≠ .faulted) := by
    rintro ⟨hc, he, hf⟩
    simp [hc, he, hf] at hp
  rw [execIrq, perQueue_of_lt hq, if_neg hnone, if_pos h]

/-! ### The checks of ENQUEUE -/

/-- L of R300 is the sum of the fragment lengths. -/
theorem packetLength_eq_sum (frags : List Frag) : packetLength frags = (frags.map (fun f => f.len.toNat)).sum := by
  induction frags with
  | nil => rfl
  | cons f fs ih => rw [packetLength, ih, List.map_cons, List.sum_cons]

section

variable {q : BitVec 7} {frags : List Frag} {s : State} (hq : q.toNat < s.nq.toNat)
include hq

theorem execEnqueue_of_badCount (hc : frags.length = 0 ∨ s.params.maxTxFrags < frags.length) :
    execEnqueue q frags s = answer s .inval 0 := (perQueue_of_lt hq).trans (if_pos hc)

variable (hc : ¬ (frags.length = 0 ∨ s.params.maxTxFrags < frags.length))
include hc

theorem execEnqueue_of_down (hd : s.rstate ≠ .ringsReady ∨ lstateLink s.lstate ≠ linkUp) :
    execEnqueue q frags s = answer s .down 0 := ((perQueue_of_lt hq).trans (if_neg hc)).trans (if_pos hd)

variable (hd : ¬ (s.rstate ≠ .ringsReady ∨ lstateLink s.lstate ≠ linkUp))
include hd

theorem execEnqueue_of_empty (hl : packetLength frags = 0) : execEnqueue q frags s = answer s .inval 0 :=
  (((perQueue_of_lt hq).trans (if_neg hc)).trans (if_neg hd)).trans (if_pos hl)

variable (hl : packetLength frags ≠ 0)
include hl

theorem execEnqueue_of_tooBig (hk : s.params.maxTxDescPerPkt < pieceCount (packetLength frags) s.params.bufSize ∨
    s.n - 1 < pieceCount (packetLength frags) s.params.bufSize) : execEnqueue q frags s = answer s .tooBig 0 :=
  ((((perQueue_of_lt hq).trans (if_neg hc)).trans (if_neg hd)).trans (if_neg hl)).trans (if_pos hk)

theorem execEnqueue_of_noRoom (hk : ¬ (s.params.maxTxDescPerPkt < pieceCount (packetLength frags) s.params.bufSize ∨
      s.n - 1 < pieceCount (packetLength frags) s.params.bufSize))
    (hr : s.ringFree .tx q.toNat < pieceCount (packetLength frags) s.params.bufSize ∨
      s.poolCount .tx q.toNat .free < pieceCount (packetLength frags) s.params.bufSize) :
    execEnqueue q frags s = answer s .backpressure 0 :=
  (((((perQueue_of_lt hq).trans (if_neg hc)).trans (if_neg hd)).trans (if_neg hl)).trans (if_neg hk)).trans (if_pos hr)

end

/-- Settles O30: each command's own check of RSTATE, or for ENQUEUE the check after the fragment count. -/
theorem nothingRunsOutsideRingsReady : Obligations.NothingRunsOutsideRingsReady := by
  intro q b c frags s h hq
  refine ⟨?_, ?_, ?_, fun hp => execIrq_of_not_ready hq h hp, fun hr => execTick_of_idle h hr, fun h1 hmax =>
    execEnqueue_of_down hq (by omega) (.inl h)⟩
  · show perQueue q s _ = _
    rw [perQueue_of_lt hq, txPass_of_not_ready h]
    rfl
  · show perQueue q s _ = _
    rw [perQueue_of_lt hq, rxPass_of_not_ready h]
    rfl
  · exact (perQueue_of_lt hq).trans (if_pos h)

/-- Settles O31: the checks of ENQUEUE one after another, each made when those before it have passed. -/
theorem enqueueRefusesWithoutChange : Obligations.EnqueueRefusesWithoutChange := by
  intro q frags s hq
  dsimp only
  rw [← packetLength_eq_sum]
  exact ⟨execEnqueue_of_badCount hq, execEnqueue_of_down hq, execEnqueue_of_empty hq, execEnqueue_of_tooBig hq,
    execEnqueue_of_noRoom hq⟩

/-! ### All or nothing -/

/-- An ENQUEUE that goes on has passed every check, or answers an error and writes nothing else. -/
theorem execEnqueue_accepts_or_refuses {q : BitVec 7} {frags : List Frag} {s t : State} (h : execEnqueue q frags s = .next t) :
    s.AcceptsPacket q frags ∨ ∃ st, st ≠ .ok ∧ t = s.respond st 0 := by
  have refused : ∀ {st : Status}, st ≠ .ok → execEnqueue q frags s = answer s st 0 → ∃ st, st ≠ .ok ∧ t = s.respond st 0 :=
    fun hst he => ⟨_, hst, answer_eq_next.1 (he.symm.trans h)⟩
  by_cases hq : q.toNat < s.nq.toNat
  case neg => exact .inr (refused (by decide) (if_neg hq))
  by_cases hc : frags.length = 0 ∨ s.params.maxTxFrags < frags.length
  · exact .inr (refused (by decide) (execEnqueue_of_badCount hq hc))
  by_cases hd : s.rstate ≠ .ringsReady ∨ lstateLink s.lstate ≠ linkUp
  · exact .inr (refused (by decide) (execEnqueue_of_down hq hc hd))
  by_cases hl : packetLength frags = 0
  · exact .inr (refused (by decide) (execEnqueue_of_empty hq hc hd hl))
  by_cases hk : s.params.maxTxDescPerPkt < pieceCount (packetLength frags) s.params.bufSize ∨
      s.n - 1 < pieceCount (packetLength frags) s.params.bufSize
  · exact .inr (refused (by decide) (execEnqueue_of_tooBig hq hc hd hl hk))
  by_cases hr : s.ringFree .tx q.toNat < pieceCount (packetLength frags) s.params.bufSize ∨
      s.poolCount .tx q.toNat .free < pieceCount (packetLength frags) s.params.bufSize
  · exact .inr (refused (by decide) (execEnqueue_of_noRoom hq hc hd hl hk hr))
  rw [not_or] at hc hd hk hr
  exact .inl ⟨⟨hq, not_not.1 hd.1⟩, not_not.1 hd.2, fun he => hc.1 (by rw [he, List.length_nil]), Nat.le_of_not_lt hc.2,
    Nat.one_le_iff_ne_zero.2 hl, Nat.le_of_not_lt hk.1, Nat.le_of_not_lt hr.1, Nat.le_of_not_lt hr.2⟩

/-- No fault is entered while a packet's pieces are staged: none of the operations can. -/
theorem stagePieces_not_ended (q last : Nat) (ps : List (List Byte)) (s : State) :
    (stagePieces q last ps s).Ends (fun _ _ => True) (fun _ => False) (fun _ => True) := by
  induction ps generalizing s with
  | nil => trivial
  | cons p ps ih =>
    unfold stagePieces
    split
    · trivial
    refine ((memWrite_ends _ p s).mono (fun _ _ _ => trivial) (fun _ => id) (fun _ _ => trivial)).bind fun _ t _ => ?_
    refine ((ringPost_ends .tx q _ _ t).mono (fun _ _ _ => trivial) (fun _ => id) (fun _ _ => trivial)).bind fun slot u _ => ?_
    cases slot with
    | none => trivial
    | some _ =>
      exact ((poolMarkPosted_ends .tx q _ p.length u).mono (fun _ _ _ => trivial) (fun _ => id) (fun _ _ => trivial)).bind
        fun _ v _ => ih v

/-- What reading a packet's fragments can do: it logs, and answers their bytes; it stops at a fragment that is not backed. -/
theorem readFrags_ends (frags : List Frag) (s : State) :
    (readFrags frags s).Ends
      (fun data t => (s.wb = [] → data = packetBytes s.mem frags) ∧
        ∃ es, t = { s with events := s.events ++ es } ∧ ∀ e ∈ es, e.isRegWrite = false)
      (fun _ => False) (fun _ => ∃ f ∈ frags, f.len ≠ 0 ∧ ¬ s.params.Backs f.addr.toNat f.len.toNat) := by
  induction frags generalizing s with
  | nil => exact ⟨fun _ => rfl, [], by rw [List.append_nil], nofun⟩
  | cons f fs ih =>
    unfold readFrags
    split
    · next hlen =>
      refine (ih s).mono (fun data t h => ⟨fun hwb => ?_, h.2⟩) (fun _ => id)
        (fun _ ⟨g, hg, hb⟩ => ⟨g, List.mem_cons_of_mem f hg, hb⟩)
      rw [h.1 hwb, packetBytes, hlen]
      rfl
    next hlen =>
    refine ((memRead_ends _ _ s).mono (fun _ _ h => h.2) (fun _ => id)
      (fun _ h => ⟨f, List.mem_cons_self, hlen, h.2⟩)).bind ?_
    rintro _ _ ⟨rfl, rfl⟩
    refine ((ih _).mono (fun _ _ => id) (fun _ => id) (fun _ ⟨g, hg, hb⟩ => ⟨g, List.mem_cons_of_mem f hg, hb⟩)).bind ?_
    rintro rest _ ⟨hrest, es, rfl, hes⟩
    refine ⟨fun hwb => ?_, .dmaRead f.addr.toNat (blockBytes s.mem s.wb f.addr.toNat f.len.toNat) :: es, ?_, ?_⟩
    · rw [hrest hwb, hwb, blockBytes_nil]
      rfl
    · simp [State.emit]
    · exact List.forall_mem_cons.2 ⟨rfl, hes⟩

theorem length_packetBytes (m : List Host.Cell) (frags : List Frag) : (packetBytes m frags).length = packetLength frags := by
  induction frags with
  | nil => rfl
  | cons f fs ih => rw [packetBytes, List.length_append, Memory.length_bytes, ih, packetLength]

/-- Settles O32: past its checks ENQUEUE can only answer OK or stop, since no part of it enters a fault. -/
theorem enqueueIsAllOrNothing : Obligations.EnqueueIsAllOrNothing := by
  intro q frags s t h
  rcases execEnqueue_accepts_or_refuses h with ha | ⟨st, -, ht⟩
  · refine .inl ?_
    rw [exec_enqueue_of_accepts ha] at h
    have hok : ∀ data u, Res.Ends ((stagePieces q.toNat
        ((s.ntu .tx q.toNat + pieceCount (packetLength frags) s.params.bufSize - 1) % s.n)
        (pieces u.params.bufSize (pieceCount (packetLength frags) s.params.bufSize) data) u).bind fun _ u =>
          Res.ok (Status.ok, BitVec.ofNat 32 (s.ntu .tx q.toNat)) (ringTailSync .tx q.toNat u))
        (fun a _ => a.1 = .ok) (fun _ => False) (fun _ => True) := fun data u =>
      (stagePieces_not_ended ..).bind fun _ _ _ => rfl
    have hx := ((readFrags_ends frags s).mono (fun _ _ _ => trivial) (fun _ => id) (fun _ _ => trivial)).bind
      fun data u _ => hok data u
    rcases Res.answer_eq_next.1 h with ⟨⟨st, v⟩, u, hu, rfl⟩ | hu <;> rw [hu] at hx
    · obtain rfl : st = .ok := hx
      exact ⟨v, rfl⟩
    · exact hx.elim
  · exact .inr ⟨st, ht⟩

end Sys2Proof.Machine
end

section
/-! What the work on the TX side of one queue leaves unchanged, and the layout of the region it works in (20_memory.md R111). -/

namespace Sys2Proof.Machine

variable {s t u : State} {q : Nat}

/-! ### Frames -/

theorem State.SameGlobals.trans (h : s.SameGlobals t) (h' : t.SameGlobals u) : s.SameGlobals u := by
  simp only [State.SameGlobals] at h h' ⊢
  simp only [h', h, and_self]

/-- Beside memory, device, write buffer, events and response, only the TX side of queue q has changed. -/
structure State.TxFrame (s t : State) (q : Nat) : Prop where
  globals : s.SameGlobals t
  lstate  : t.lstate = s.lstate
  others  : s.SameOtherQueues t q
  side    : Queue.SameButTx (s.queue q) (t.queue q)

theorem State.txFrame_of_queues (hg : s.SameGlobals t) (hl : t.lstate = s.lstate) (hq : t.queues = s.queues) : s.TxFrame t q := by
  have hqueue : ∀ p, t.queue p = s.queue p := fun p => by rw [State.queue, State.queue, hq]
  refine ⟨hg, hl, fun p _ => hqueue p, ?_⟩
  rw [hqueue]
  exact ⟨rfl, rfl, rfl, rfl, rfl, rfl, rfl, rfl, rfl⟩

theorem State.TxFrame.refl (s : State) (q : Nat) : s.TxFrame s q :=
  State.txFrame_of_queues ⟨rfl, rfl, rfl, rfl, rfl, rfl, rfl, rfl, rfl, rfl, rfl⟩ rfl rfl

theorem State.TxFrame.trans (h : s.TxFrame t q) (h' : t.TxFrame u q) : s.TxFrame u q := by
  refine ⟨h.globals.trans h'.globals, h'.lstate.trans h.lstate, fun p hp => (h'.others p hp).trans (h.others p hp), ?_⟩
  have hside := h.side
  have hside' := h'.side
  simp only [Queue.SameButTx] at hside hside' ⊢
  simp only [hside', hside, and_self]

/-- A queue that is written holds what was written, or does not exist and is as before. -/
theorem State.queue_setQueue_self (s : State) (q : Nat) (x : Queue) :
    (s.setQueue q x).queue q = x ∨ (s.setQueue q x).queue q = s.queue q := by
  rw [State.queue_setQueue]
  split
  · exact .inl rfl
  · exact .inr rfl

theorem State.txFrame_setQueue {x : Queue} (hx : Queue.SameButTx (s.queue q) x) : s.TxFrame (s.setQueue q x) q := by
  refine ⟨⟨rfl, rfl, rfl, rfl, rfl, rfl, rfl, rfl, rfl, rfl, rfl⟩, rfl, fun p hp => State.queue_setQueue_ne s q p x hp, ?_⟩
  rcases s.queue_setQueue_self q x with h | h <;> rw [h]
  · exact hx
  · exact ⟨rfl, rfl, rfl, rfl, rfl, rfl, rfl, rfl, rfl⟩

/-- What a TX pass may change: NTC and the tags of one TX ring, and the events (42_tx.md R310). -/
structure State.TxServed (s t : State) (q : Nat) : Prop where
  frame : s.TxFrame t q
  mem   : t.mem = s.mem
  wb    : t.wb = s.wb
  dev   : t.dev = s.dev
  swTx  : (t.queue q).swTx = (s.queue q).swTx
  blen  : (t.queue q).txPool.blen = (s.queue q).txPool.blen
  ntu   : (t.queue q).tx.ntu = (s.queue q).tx.ntu
  tail  : (t.queue q).tx.tail = (s.queue q).tx.tail

theorem State.TxServed.trans (h : s.TxServed t q) (h' : t.TxServed u q) : s.TxServed u q :=
  ⟨h.frame.trans h'.frame, h'.mem.trans h.mem, h'.wb.trans h.wb, h'.dev.trans h.dev, h'.swTx.trans h.swTx, h'.blen.trans h.blen,
    h'.ntu.trans h.ntu, h'.tail.trans h.tail⟩

theorem State.txServed_events (s : State) (q : Nat) (es : List Event) : s.TxServed { s with events := es } q :=
  ⟨State.txFrame_of_queues ⟨rfl, rfl, rfl, rfl, rfl, rfl, rfl, rfl, rfl, rfl, rfl⟩ rfl rfl, rfl, rfl, rfl, rfl, rfl, rfl, rfl⟩

theorem State.txServed_respond (s : State) (q : Nat) (st : Status) (v : Word) : s.TxServed (s.respond st v) q :=
  ⟨State.txFrame_of_queues ⟨rfl, rfl, rfl, rfl, rfl, rfl, rfl, rfl, rfl, rfl, rfl⟩ rfl rfl, rfl, rfl, rfl, rfl, rfl, rfl, rfl⟩

theorem State.TxServed.refl (s : State) (q : Nat) : s.TxServed s q := s.txServed_events q s.events

theorem State.txServed_setQueue {x : Queue} (hside : Queue.SameButTx (s.queue q) x) (hsw : x.swTx = (s.queue q).swTx)
    (hlen : x.txPool.blen = (s.queue q).txPool.blen) (hntu : x.tx.ntu = (s.queue q).tx.ntu)
    (htail : x.tx.tail = (s.queue q).tx.tail) : s.TxServed (s.setQueue q x) q := by
  have kept : ∀ {α : Type} (f : Queue → α), f x = f (s.queue q) → f ((s.setQueue q x).queue q) = f (s.queue q) := by
    intro α f hf
    rcases s.queue_setQueue_self q x with h | h <;> rw [h]
    exact hf
  exact ⟨State.txFrame_setQueue hside, rfl, rfl, rfl, kept (·.swTx) hsw, kept (·.txPool.blen) hlen, kept (·.tx.ntu) hntu,
    kept (·.tx.tail) htail⟩

theorem State.txServed_setTag (s : State) (q b : Nat) (g : Tag) : s.TxServed (s.setTag .tx q b g) q :=
  State.txServed_setQueue ⟨rfl, rfl, rfl, rfl, rfl, rfl, rfl, rfl, rfl⟩ rfl rfl rfl rfl

theorem State.txServed_setNtc (s : State) (q : Nat) (c : Half) :
    s.TxServed (s.setQueue q ((s.queue q).setCur .tx { (s.queue q).cur .tx with ntc := c })) q :=
  State.txServed_setQueue ⟨rfl, rfl, rfl, rfl, rfl, rfl, rfl, rfl, rfl⟩ rfl rfl rfl rfl

/-! ### The region -/

theorem Params.backs_mono {p : Params} {a a' n n' : Nat} (h : p.Backs a n) (ha : a ≤ a') (hn : a' + n' ≤ a + n) : p.Backs a' n' := by
  obtain ⟨htop, r, hr, hlo, hhi⟩ := h
  exact ⟨hn.trans htop, r, hr, hlo.trans ha, hn.trans hhi⟩

theorem le_roundUp (x : Nat) {a : Nat} (ha : 0 < a) : x ≤ roundUp x a := by
  have hdiv := Nat.div_add_mod' (x + a - 1) a
  have hmod := Nat.mod_lt (x + a - 1) ha
  rw [roundUp]
  omega

/-- A queue's part of the region lies in the region. -/
theorem State.qBase_add_qStride_le (hq : q < s.nq.toNat) :
    s.qBase q + Params.qStride s.params s.n ≤ s.regionBase.toNat + Params.needed s.params s.n s.nq.toNat := by
  have h := Nat.mul_le_mul_right (Params.qStride s.params s.n) (Nat.succ_le_of_lt hq)
  rw [Nat.succ_mul] at h
  rw [State.qBase, Params.needed]
  omega

/-- The descriptors of a queue come before its buffers. -/
theorem State.descAddr_add_le (hp : 0 < s.params.pageSize) (r : Ring) {i : Nat} (hi : i < s.n) :
    s.qBase q ≤ s.descAddr r q i ∧ s.descAddr r q i + 16 ≤ s.qBase q + Params.ringArea s.params s.n := by
  have hround : 2 * s.n * 16 ≤ Params.ringArea s.params s.n := le_roundUp _ hp
  cases r <;> simp only [State.descAddr, State.ringBase] <;> omega

theorem State.RegionBacked.desc (h : s.RegionBacked) (hp : 0 < s.params.pageSize) (hq : q < s.nq.toNat) (r : Ring) {i : Nat}
    (hi : i < s.n) : s.params.Backs (s.descAddr r q i) 16 := by
  obtain ⟨hlo, hhi⟩ := State.descAddr_add_le (q := q) hp r hi
  have hq := State.qBase_add_qStride_le hq
  have hbase : s.regionBase.toNat ≤ s.qBase q := Nat.le_add_right _ _
  have hstride : Params.ringArea s.params s.n ≤ Params.qStride s.params s.n := Nat.le_add_right _ _
  exact Params.backs_mono h (by omega) (by omega)

end Sys2Proof.Machine
end

section
/-! SERVICE_TX (42_tx.md R310 to R313). -/

namespace Sys2Proof.Machine

variable {s t : State} {r : Ring} {q : Nat}

/-! ### The frame of a pass -/

/-- What looking for a finished packet can do: it logs, and faults the block on a gap. -/
theorem txDoneLoop_ends (q slot left i : Nat) (gap : Bool) (s : State) :
    (txDoneLoop q slot left i gap s).Ends (fun _ t => ∃ es, t = { s with events := s.events ++ es })
      (fun t => t.rstate = .faulted) (fun _ => True) := by
  induction left generalizing i gap s with
  | zero => exact ⟨[], by rw [List.append_nil]⟩
  | succ left ih =>
    refine ((ringPeek_ends .tx q ((slot + i) % s.n) s).mono (fun _ _ h => h.1) (fun _ => False.elim)
      (fun _ _ => trivial)).bind ?_
    rintro d _ ⟨es, rfl, -⟩
    have next : ∀ gap, (txDoneLoop q slot left (i + 1) gap { s with events := s.events ++ es }).Ends
        (fun _ t => ∃ es, t = { s with events := s.events ++ es }) (fun t => t.rstate = .faulted) (fun _ => True) := fun gap =>
      (ih (i + 1) gap _).mono (fun _ _ ⟨es', h⟩ => ⟨es ++ es', by rw [h]; simp⟩) (fun _ => id) (fun _ => id)
    cases d with
    | none => exact next true
    | some _ =>
      cases gap with
      | true => exact State.enterFault_rstate _ _
      | false => exact next false

theorem poolRecycle_tx_ends (q b : Nat) (s : State) :
    (poolRecycle .tx q b s).Ends (fun _ t => s.TxServed t q) (fun t => t.rstate = .faulted) (fun _ => True) := by
  refine ((poolMarkCompleted_ends .tx q b s).mono (P' := fun _ t => s.TxServed t q) (fun _ _ h => ?_) (fun _ h => ?_)
    (fun _ => False.elim)).bind fun _ t ht => ?_
  · rw [h.2.2]
    exact s.txServed_setTag q b .pend
  · rw [h.2]
    exact State.enterFault_rstate _ _
  · show s.TxServed ((poolRelease .tx q b t).getD t) q
    cases hrel : poolRelease .tx q b t with
    | none => exact ht
    | some u =>
      obtain ⟨-, rfl⟩ := poolRelease_eq_some.1 hrel
      exact ht.trans (t.txServed_setTag q b .free)

theorem txLoop_ends (q bmax fuel slots pkts : Nat) (s : State) :
    (txLoop q bmax fuel slots pkts s).Ends (fun _ t => s.TxServed t q) (fun t => t.rstate = .faulted) (fun _ => True) := by
  induction fuel generalizing slots pkts s with
  | zero => exact .refl s q
  | succ fuel ih =>
    unfold txLoop
    split
    · exact .refl s q
    dsimp only
    split
    · exact .refl s q
    refine (txDoneLoop_ends ..).bind ?_
    rintro done _ ⟨es, rfl⟩
    have hlog := s.txServed_events q (s.events ++ es)
    split
    · refine (forEach_ends (I := fun t => s.TxServed t q) _ (fun i _ t ht => (poolRecycle_tx_ends q _ t).mono
        (fun _ _ => ht.trans) (fun _ => id) (fun _ => id)) _ hlog).bind fun _ t ht => ?_
      refine ((ringConsume_ends .tx q _ t).mono (P' := fun _ u => s.TxServed u q) (fun _ _ h => ?_) (fun _ => False.elim)
        (fun _ _ => trivial)).bind fun _ u hu => (ih _ _ u).mono (fun _ _ => hu.trans) (fun _ => id) (fun _ => id)
      rw [h.2.2]
      exact ht.trans (t.txServed_setNtc q _)
    · exact hlog

/-- In RingsReady the command is the loop, and TX_CAPACITY when a packet was freed (42_tx.md R310, R313). -/
theorem exec_serviceTx_of_live {q : BitVec 7} (b : Half) (h : s.Live q) : exec (.serviceTx q b) s =
    Res.answer ((txLoop q.toNat (s.budget b) s.n 0 0 s).bind fun done t =>
      .ok (.ok, BitVec.ofNat 32 done.2 <<< 16 ||| BitVec.ofNat 32 done.1)
        (if done.2 > 0 then t.emit (.txCapacity q.toNat) else t)) := by
  obtain ⟨hq, hready⟩ := h
  refine (perQueue_of_lt hq).trans ?_
  rw [txPass, if_neg (not_not_intro hready), Res.bind_assoc]
  rfl

/-- Settles O39: each round of the loop changes tags and NTC only, and a round that ends the command has faulted the block. -/
theorem serviceTxFrame : Obligations.ServiceTxFrame := by
  intro q b s t h hsame
  suffices hs : s.TxServed t q.toNat by
    obtain ⟨⟨hglobals, hl, hothers, hside⟩, hmem, hwb, hdev, hsw, hlen, hntu, htail⟩ := hs
    exact ⟨hglobals, hl, hmem, hwb, hdev, hothers, hside, hsw, hlen, hntu, htail⟩
  rcases perQueue_eq_next (show perQueue q s _ = _ from h) with ⟨hq, h'⟩ | ⟨-, rfl⟩
  case inr => exact s.txServed_respond _ _ _
  by_cases hready : s.rstate = .ringsReady
  · rw [exec_serviceTx_of_live b ⟨hq, hready⟩] at h
    have hx := (txLoop_ends q.toNat (s.budget b) s.n 0 0 s).bind (Q := fun _ t => s.TxServed t q.toNat)
      (k := fun done t => .ok (Status.ok, BitVec.ofNat 32 done.2 <<< 16 ||| BitVec.ofNat 32 done.1)
        (if done.2 > 0 then t.emit (.txCapacity q.toNat) else t)) fun done u hu => by
          show s.TxServed _ _
          split
          · exact hu.trans (u.txServed_events _ _)
          · exact hu
    rcases Res.answer_eq_next.1 h with ⟨a, u, hu, rfl⟩ | hu <;> rw [hu] at hx
    · exact State.TxServed.trans hx (u.txServed_respond _ _ _)
    · have hx : t.rstate = .faulted := hx
      rw [hsame, hready] at hx
      cases hx
  · rw [txPass_of_not_ready hready] at h'
    cases h'
    exact s.txServed_respond _ _ _

/-! ### Looking at the packet at NTC -/

/-- What peeking at a slot logs (40_ring.md R206). -/
def State.peekLog (s : State) (r : Ring) (q slot : Nat) : List Event :=
  [.barrier .read, .dmaRead (s.descAddr r q slot + 12) [s.statusByte r q slot]] ++
    if (s.statusByte r q slot).getLsbD 0 = true then [.dmaRead (s.descAddr r q slot) (s.descBytes r q slot)] else []

theorem isCapacity_of_mem_peekLog {slot : Nat} {e : Event} (h : e ∈ s.peekLog r q slot) : e.isCapacity = false := by
  unfold State.peekLog at h
  split at h <;> simp only [List.mem_append, List.mem_cons, List.not_mem_nil, or_false] at h
  · rcases h with (rfl | rfl) | rfl <;> rfl
  · rcases h with rfl | rfl <;> rfl

/-- Nothing waits in the write buffer, and the platform has memory for ring (r, q). -/
structure State.RingReadable (s : State) (r : Ring) (q : Nat) : Prop where
  noWb   : s.wb = []
  backed : ∀ i < s.n, s.params.Backs (s.descAddr r q i) 16

theorem State.RingReadable.ringPeek_eq (h : s.RingReadable r q) {i : Nat} (hi : i < s.n) :
    ringPeek r q i s =
      .ok (if (s.statusByte r q i).getLsbD 0 = true then some (s.descBytes r q i) else none)
        { s with events := s.events ++ s.peekLog r q i } := by
  have hdesc := h.backed i hi
  have hsta : (s.barrier .read).params.Backs (s.descAddr r q i + 12) 1 := Params.backs_mono hdesc (by omega) (by omega)
  have hread : ∀ a n, blockBytes s.mem s.wb a n = Memory.bytes s.mem a n := fun a n => by rw [h.noWb, blockBytes_nil]
  rw [ringPeek, memRead_of_backs hsta, Res.bind_ok, State.barrier_read_eq]
  simp only [State.emit_mem, State.emit_wb, State.descAddr_emit, hread, State.peekLog]
  show (if (s.statusByte r q i).getLsbD 0 = true then _ else _) = _
  split
  · rw [memRead_of_backs (s := (s.emit _).emit _) hdesc, Res.bind_ok]
    simp only [State.emit, hread, List.append_assoc]
    rfl
  · simp only [State.emit, List.append_assoc]
    rfl

/-- A packet of which the first j descriptors are done and no other: the places from a on are all peeked at, and the packet is
finished if none of them is at or past j. -/
theorem State.RingReadable.txDoneLoop_eq (h : s.RingReadable .tx q) {j : Nat} (m a : Nat)
    (hdone : ∀ i, a ≤ i → i < a + m → ((s.statusByte .tx q (s.slotAt .tx q i)).getLsbD 0 = true ↔ i < j)) :
    txDoneLoop q (s.ntc .tx q) m a (decide (j < a)) s = .ok (decide (a + m ≤ j))
      { s with events := s.events ++ (List.range' a m).flatMap fun i => s.peekLog .tx q (s.slotAt .tx q i) } := by
  induction m generalizing a s with
  | zero =>
    rw [txDoneLoop, ← decide_not, List.range'_zero, List.flatMap_nil, List.append_nil]
    simp only [Nat.not_lt, Nat.add_zero]
  | succ m ih =>
    have hpeek := h.ringPeek_eq (Nat.mod_lt (s.ntc .tx q + a) s.n_pos)
    have ha := hdone a (Nat.le_refl a) (by omega)
    have hrest := ih (s := { s with events := s.events ++ s.peekLog .tx q (s.slotAt .tx q a) }) ⟨h.noWb, h.backed⟩ (a + 1)
      fun i hi hm => hdone i (by omega) (by omega)
    have hlog : ∀ es, s.events ++ s.peekLog .tx q (s.slotAt .tx q a) ++ es = s.events ++ (s.peekLog .tx q (s.slotAt .tx q a) ++ es) :=
      fun es => List.append_assoc ..
    rw [txDoneLoop, hpeek, Res.bind_ok, List.range'_succ, List.flatMap_cons, ← hlog, show a + (m + 1) = a + 1 + m by omega]
    change (s.statusByte .tx q ((s.ntc .tx q + a) % s.n)).getLsbD 0 = true ↔ a < j at ha
    by_cases haj : a < j
    · rw [if_pos (ha.2 haj)]
      rw [decide_eq_false (show ¬ j < a + 1 by omega)] at hrest
      rw [decide_eq_false (show ¬ j < a by omega)]
      exact hrest
    · rw [if_neg (mt ha.1 haj)]
      rw [decide_eq_true (show j < a + 1 by omega)] at hrest
      exact hrest

/-- A descriptor that is done behind one that is not ends the command. -/
theorem State.RingReadable.txDoneLoop_of_gap (h : s.RingReadable .tx q) {j : Nat} (m a : Nat) (gap : Bool) (haj : a ≤ j)
    (hjm : j < a + m) (hdone : (s.statusByte .tx q (s.slotAt .tx q j)).getLsbD 0 = true)
    (hgap : gap = true ∨ ∃ i, a ≤ i ∧ i < j ∧ (s.statusByte .tx q (s.slotAt .tx q i)).getLsbD 0 = false) :
    ∃ es, txDoneLoop q (s.ntc .tx q) m a gap s = .ended (State.faultAnswer { s with events := es } .order) := by
  induction m generalizing a gap s with
  | zero => omega
  | succ m ih =>
    have hpeek := h.ringPeek_eq (Nat.mod_lt (s.ntc .tx q + a) s.n_pos)
    have hnext := fun gap => ih (s := { s with events := s.events ++ s.peekLog .tx q (s.slotAt .tx q a) }) ⟨h.noWb, h.backed⟩
      (a + 1) gap
    rw [txDoneLoop, hpeek, Res.bind_ok]
    by_cases ha : (s.statusByte .tx q (s.slotAt .tx q a)).getLsbD 0 = true
    · rw [if_pos (show (s.statusByte .tx q ((s.ntc .tx q + a) % s.n)).getLsbD 0 = true from ha)]
      cases gap with
      | true => exact ⟨_, rfl⟩
      | false =>
        obtain ⟨i, hai, hij, hi⟩ := hgap.resolve_left nofun
        have hne : a ≠ i := by
          rintro rfl
          rw [ha] at hi
          cases hi
        exact hnext false (by omega) (by omega) hdone (.inr ⟨i, by omega, hij, hi⟩)
    · rw [if_neg (show ¬ (s.statusByte .tx q ((s.ntc .tx q + a) % s.n)).getLsbD 0 = true from ha)]
      have hne : a ≠ j := by
        rintro rfl
        exact ha hdone
      exact hnext true (by omega) (by omega) hdone (.inl rfl)

theorem State.Inv.ringReadable {q : BitVec 7} (h : s.Inv) (hlive : s.Live q) (hb : s.RegionBacked) (r : Ring) :
    s.RingReadable r q.toNat := by
  obtain ⟨-, -, -, -, -, -, -, -, hpage, -⟩ := h.config.valid
  exact ⟨h.noWb, fun i hi => hb.desc (by omega) hlive.1 r hi⟩

/-! ### The first round -/

/-- A pass begins with the packet at NTC, whatever its budget (42_tx.md R310). -/
theorem txLoop_first (bmax fuel : Nat) (hne : s.ringEmpty .tx q = false) : txLoop q bmax (fuel + 1) 0 0 s =
    (txDoneLoop q (s.ntc .tx q) (s.headPacketSize q) 0 false s).bind fun done t =>
      if done then
        ((txReleasePacket q (s.ntc .tx q) (s.headPacketSize q) t).bind fun _ t =>
          ringConsume .tx q (s.headPacketSize q) t).bind fun _ t => txLoop q bmax fuel (s.headPacketSize q) 1 t
      else .ok (0, 0) t := by
  rw [txLoop, hne, if_neg Bool.false_ne_true]
  dsimp only
  rw [if_neg (fun h => absurd h.1 (Nat.lt_irrefl 0)), Nat.zero_add, Nat.zero_add]
  simp only [Res.bind_assoc]
  rfl

/-- With its budget used up a pass takes no further packet. -/
theorem txLoop_of_spent {bmax slots pkts : Nat} (fuel : Nat) (hp : 0 < pkts) (hs : bmax ≤ slots) :
    txLoop q bmax fuel slots pkts s = .ok (slots, pkts) s := by
  cases fuel with
  | zero => rfl
  | succ fuel =>
    rw [txLoop]
    split
    · rfl
    · exact if_pos ⟨hp, by omega⟩

theorem State.exists_n_eq_succ (s : State) : ∃ fuel, s.n = fuel + 1 := Nat.exists_eq_succ_of_ne_zero s.n_pos.ne'

/-- Settles O37: the loop over the packet finds it unfinished, and the pass ends with the first packet it cannot take. -/
theorem serviceTxWaitsForPacket : Obligations.ServiceTxWaitsForPacket := by
  intro q b s j h hlive hb
  dsimp only
  intro hne hj hdone hwait
  obtain ⟨fuel, hn⟩ := s.exists_n_eq_succ
  have hiff : ∀ i, 0 ≤ i → i < 0 + s.headPacketSize q.toNat →
      ((s.statusByte .tx q.toNat (s.slotAt .tx q.toNat i)).getLsbD 0 = true ↔ i < j) := by
    intro i _ hi
    rw [Nat.zero_add] at hi
    by_cases hij : i < j
    · exact iff_of_true (hdone i hij) hij
    · exact iff_of_false (by rw [hwait i hi (by omega)]; decide) hij
  have hloop := (h.ringReadable hlive hb .tx).txDoneLoop_eq _ 0 hiff
  rw [decide_eq_false (Nat.not_lt_zero j), decide_eq_false (show ¬ 0 + s.headPacketSize q.toNat ≤ j by omega)] at hloop
  have hlog : ((List.range' 0 (s.headPacketSize q.toNat)).flatMap fun i => s.peekLog .tx q.toNat (s.slotAt .tx q.toNat i)) =
      ((List.range (s.headPacketSize q.toNat)).map fun i =>
        [Event.barrier .read, .dmaRead (s.descAddr .tx q.toNat (s.slotAt .tx q.toNat i) + 12)
          [s.statusByte .tx q.toNat (s.slotAt .tx q.toNat i)]] ++
          (if i < j then [.dmaRead (s.descAddr .tx q.toNat (s.slotAt .tx q.toNat i))
            (s.descBytes .tx q.toNat (s.slotAt .tx q.toNat i))] else [])).flatten := by
    rw [← List.range_eq_range', List.flatMap_def]
    refine congrArg List.flatten (List.map_congr_left fun i hi => ?_)
    rw [State.peekLog, if_congr (hiff i (Nat.zero_le i) (by simpa using hi)) rfl rfl]
  rw [exec_serviceTx_of_live b hlive, hn, txLoop_first _ _ hne, hloop, hlog]
  rfl

/-! ### A gap -/

theorem State.allFree_of_idle {n t : Nat} (h : (s.queue q).Idle n t) : s.AllFree q := by
  intro r
  have hcur : (s.queue q).cur r = Cursors.zero := by
    rw [h]
    cases r <;> rfl
  refine ⟨?_, fun b _ => h.tag_eq_free r b⟩
  rw [State.ringEmpty_iff, State.ntu, State.ntc, hcur]
  rfl

/-- Outside RingsReady no configured queue holds anything (44_control.md R418, 60_exceptions.md R561). -/
theorem State.ConfigInv.allFree (h : s.ConfigInv) (hr : s.rstate ≠ .ringsReady) (hq : q < s.nq.toNat) : s.AllFree q :=
  State.allFree_of_idle ((h.quiet.1 hr).2 _ (h.configured.queue_mem hq))

/-- Settles O38: the loop over the packet meets the gap, and a fault entered from RingsReady disables the device, tears every queue
down and is logged last (60_exceptions.md R560). -/
theorem serviceTxGapFaults : Obligations.ServiceTxGapFaults := by
  intro q b s i j h hlive hb
  dsimp only
  intro hne hij hj hwait hdone
  obtain ⟨fuel, hn⟩ := s.exists_n_eq_succ
  obtain ⟨es, hloop⟩ := (h.ringReadable hlive hb .tx).txDoneLoop_of_gap (s.headPacketSize q.toNat) 0 false (Nat.zero_le j)
    (by omega) hdone (.inr ⟨i, Nat.zero_le i, hij, hwait⟩)
  have hf : State.rstate { s with events := es } ≠ .faulted := by
    rw [show State.rstate { s with events := es } = .ringsReady from hlive.2]
    decide
  have hconf : State.ConfigInv { s with events := es } :=
    ⟨h.config.valid, h.config.sized, h.config.region, h.config.regs, h.config.quiet⟩
  have hnq := hconf.configured.nq_ne_zero (by
    rw [show State.rstate { s with events := es } = .ringsReady from hlive.2]
    decide)
  have hafter := hconf.configured.configInv_faultAnswer hnq hf .order
  have hrstate : (State.faultAnswer { s with events := es } .order).rstate = .faulted := State.enterFault_rstate _ _
  refine ⟨_, ?_, rfl, hrstate, ?_, ?_, ?_, ?_, ?_, fun p hp => hafter.allFree (by rw [hrstate]; decide) hp⟩
  · rw [exec_serviceTx_of_live b hlive, hn, txLoop_first _ _ hne, hloop]
    rfl
  all_goals
    rw [State.faultAnswer, State.enterFault_of_not_faulted _ _ hf, if_pos hlive.2]
    simp [Reason.code]

/-! ### A finished packet -/

/-- Giving back the buffers of the places from j on frees those buffers, and no other. -/
theorem State.Returning.txRelease_eq {n : Nat} {v : RingView} (m j : Nat) (h : s.Returning .tx q n v j) (hm : j + m ≤ v.count n) :
    ∃ t, forEach (fun i s => poolRecycle .tx q ((s.queue q).txRec ((v.ntc + i) % s.n)).handle.toNat s) (List.range' j m) s = .ok () t ∧
      t.Returning .tx q n v (j + m) ∧ s.TxServed t q ∧ t.events = s.events ∧
      (∀ i, j ≤ i → i < j + m → t.tag .tx q (v.held n i) = .free) ∧
      ∀ b, (∀ i, j ≤ i → i < j + m → v.held n i ≠ b) → t.tag .tx q b = s.tag .tx q b := by
  induction m generalizing j s with
  | zero => exact ⟨s, rfl, h, .refl s q, rfl, fun i hi hm => by omega, fun _ _ => rfl⟩
  | succ m ih =>
    have hheld : ((s.queue q).txRec ((v.ntc + j) % s.n)).handle.toNat = v.held n j := by
      rw [← h.held_eq, h.n_eq]
      obtain ⟨tag, htag⟩ := h.same
      rw [RingView.held, RingView.slotAt, show (s.view .tx q).ntc = v.ntc by rw [htag]]
      rfl
    have hhw := h.tag_eq_hw (show j < v.count n by omega)
    have hview := view_setTag (r := .tx) (q := q) .free (show s.tag .tx q (v.held n j) ≠ .free by rw [hhw]; decide)
    have htag : ∀ b, (s.setTag .tx q (v.held n j) .free).tag .tx q b = Function.update (s.tag .tx q) (v.held n j) .free b := fun b =>
      congrFun (congrArg RingView.tag hview) b
    obtain ⟨t, ht, hreturn, hserved, hevents, hfreed, hkept⟩ :=
      ih (j + 1) (h.setTag (by omega) (g := .free) (by decide) fun _ => by decide) (by omega)
    rw [Nat.add_right_comm] at hreturn
    refine ⟨t, ?_, hreturn, (s.txServed_setTag q _ .free).trans hserved, hevents, fun i hi hm => ?_, fun b hb => ?_⟩
    · rw [List.range'_succ, forEach, hheld, poolRecycle_of_hw hhw, Res.bind_ok, ht]
    · by_cases hlater : ∃ i', j + 1 ≤ i' ∧ i' < j + 1 + m ∧ v.held n i' = v.held n i
      · obtain ⟨i', hi', hm', he⟩ := hlater
        rw [← he]
        exact hfreed i' hi' hm'
      · have hij : i = j := by
          by_contra hne
          exact hlater ⟨i, by omega, by omega, rfl⟩
        rw [hkept _ fun i' hi' hm' he => hlater ⟨i', hi', hm', he⟩, htag, hij, Function.update_self]
    · rw [hkept b fun i hi hm => hb i (by omega) (by omega), htag,
        Function.update_of_ne (hb j (Nat.le_refl j) (by omega)).symm]

/-- The packet at NTC is one or more outstanding slots. -/
theorem State.Ready.headPacketSize_le (h : s.Ready) (hq : q < maxQueues) (hne : s.ringEmpty .tx q = false) :
    1 ≤ s.headPacketSize q ∧ s.headPacketSize q ≤ s.occupancy .tx q := by
  obtain ⟨htr, -, -, hpack⟩ := h.rings.settled .tx q hq
  have hpos : 0 < s.occupancy .tx q := Nat.pos_of_ne_zero fun h0 => by
    rw [(s.occupancy_eq_zero_iff .tx q htr.ntu_lt htr.ntc_lt).1 h0] at hne
    cases hne
  exact ⟨Nat.le_add_left _ _, (hpack rfl).headSize htr.ntc_lt hpos⟩

/-- Taking k outstanding slots off the TX ring frees their buffers and moves NTC past them. -/
theorem State.Ready.txTake_eq (h : s.Ready) (hq : q < maxQueues) {k : Nat} (hpos : 1 ≤ k) (hk : k ≤ s.occupancy .tx q) :
    ∃ t, ((txReleasePacket q (s.ntc .tx q) k s).bind fun _ t => ringConsume .tx q k t) = .ok () t ∧ s.TxServed t q ∧
      t.events = s.events ∧ (t.queue q).tx = { (s.queue q).tx with ntc := BitVec.ofNat 16 ((s.ntc .tx q + k) % s.n) } ∧
      (∀ i < k, t.tag .tx q (s.handle .tx q (s.slotAt .tx q i)) = .free) ∧
      ∀ b, (∀ i < k, s.handle .tx q (s.slotAt .tx q i) ≠ b) → t.tag .tx q b = s.tag .tx q b := by
  obtain ⟨t, hrelease, hreturn, hserved, hevents, hfreed, hkept⟩ :=
    (h.returning .tx hq).txRelease_eq k 0 (by rw [Nat.zero_add]; exact hk)
  rw [← List.range_eq_range'] at hrelease
  have hcur : (t.queue q).tx = (s.queue q).tx := by
    obtain ⟨tag, htag⟩ := hreturn.same
    have hntc : (t.queue q).tx.ntc = (s.queue q).tx.ntc := BitVec.eq_of_toNat_eq (congrArg RingView.ntc htag)
    show Cursors.mk _ _ _ = Cursors.mk _ _ _
    rw [hserved.ntu, hserved.tail, hntc]
  have hntc : t.ntc .tx q = s.ntc .tx q := congrArg (fun c : Cursors => c.ntc.toNat) hcur
  have hocc : t.occupancy .tx q = s.occupancy .tx q := by
    have hntu : t.ntu .tx q = s.ntu .tx q := congrArg (fun c : Cursors => c.ntu.toNat) hcur
    rw [State.occupancy, State.occupancy, hntc, hntu, hreturn.n_eq]
  have hqueue := State.queue_setQueue_same t q ((t.queue q).setCur .tx { (t.queue q).cur .tx with
    ntc := BitVec.ofNat 16 ((t.ntc .tx q + k) % t.n) }) (hreturn.focus.running.queue_lt hq)
  have htag : ∀ b, (t.setQueue q ((t.queue q).setCur .tx { (t.queue q).cur .tx with
      ntc := BitVec.ofNat 16 ((t.ntc .tx q + k) % t.n) })).tag .tx q b = t.tag .tx q b := fun b => by
    rw [State.tag, hqueue, Queue.pool_setCur, State.tag]
  refine ⟨_, ?_, hserved.trans (t.txServed_setNtc q (BitVec.ofNat 16 ((t.ntc .tx q + k) % t.n))), hevents, ?_, fun i hi => ?_, fun b hb => ?_⟩
  · rw [show txReleasePacket q (s.ntc .tx q) k s = .ok () t from hrelease, Res.bind_ok, ringConsume_of_le hpos (hocc ▸ hk)]
  · rw [hqueue, hntc, hreturn.n_eq, ← hcur]
    rfl
  · rw [htag]
    exact hfreed i (Nat.zero_le i) (by omega)
  · rw [htag]
    exact hkept b fun i _ hi => hb i (by omega)

/-- A packet all of whose descriptors are done is finished. -/
theorem State.RingReadable.txDoneLoop_of_done (h : s.RingReadable .tx q) {k : Nat}
    (hdone : ∀ i < k, (s.statusByte .tx q (s.slotAt .tx q i)).getLsbD 0 = true) :
    ∃ es, (∀ e ∈ es, e.isCapacity = false) ∧
      txDoneLoop q (s.ntc .tx q) k 0 false s = .ok true { s with events := s.events ++ es } := by
  have hloop := h.txDoneLoop_eq (j := k) k 0 fun i _ hi => iff_of_true (hdone i (by omega)) (by omega)
  rw [decide_eq_false (Nat.not_lt_zero k), decide_eq_true (show 0 + k ≤ k by omega)] at hloop
  refine ⟨_, fun e he => ?_, hloop⟩
  obtain ⟨i, -, he⟩ := List.mem_flatMap.1 he
  exact isCapacity_of_mem_peekLog he

/-- A pass's answer for one packet of k slots. -/
theorem serviceTx_value_one {k : Nat} (h : k < 2 ^ 16) :
    BitVec.ofNat 32 1 <<< 16 ||| BitVec.ofNat 32 k = BitVec.ofNat 32 (65536 + k) := by
  apply BitVec.eq_of_toNat_eq
  simp only [BitVec.toNat_or, BitVec.toNat_shiftLeft, BitVec.toNat_ofNat]
  rw [Nat.mod_eq_of_lt (show k < 2 ^ 32 by omega), Nat.mod_eq_of_lt (show 65536 + k < 2 ^ 32 by omega)]
  exact (Nat.two_pow_add_eq_or_of_lt h 1).symm

/-- Settles O36: the loop over the packet finds it finished, its buffers go back and NTC passes it; that uses up the budget. -/
theorem serviceTxFreesHeadPacket : Obligations.ServiceTxFreesHeadPacket := by
  intro q s h hlive hb
  dsimp only
  intro hne hdone
  have hready := h.ready_of_live hlive.2
  obtain ⟨hpos, hocc⟩ := hready.headPacketSize_le q.isLt hne
  obtain ⟨fuel, hn⟩ := s.exists_n_eq_succ
  have hfirst := txLoop_first (s.budget 1) fuel hne
  generalize s.headPacketSize q.toNat = k at *
  have hlt : k < 2 ^ 16 := by
    have := s.occupancy_lt .tx q.toNat
    have := s.n_le
    omega
  have hbudget : s.budget 1 ≤ k := by
    rw [State.budget, if_neg (by simp [hn])]
    exact hpos
  obtain ⟨es, hcap, hloop⟩ := (h.ringReadable hlive hb .tx).txDoneLoop_of_done hdone
  obtain ⟨t, htake, hserved, hevents, hcur, hfreed, hkept⟩ :=
    ((still_events s (s.events ++ es)).ready hready).txTake_eq q.isLt hpos hocc
  change ((txReleasePacket q.toNat (s.ntc .tx q.toNat) k _).bind _) = _ at htake
  have hserved := (s.txServed_events q.toNat _).trans hserved
  obtain ⟨⟨hglobals, hl, hothers, hside⟩, hmem, hwb, hdev, hsw, hlen, -, -⟩ := hserved
  refine ⟨(t.emit (.txCapacity q.toNat)).respond .ok (BitVec.ofNat 32 (65536 + k)), ?_, rfl, hcur, fun b _ => ?_, hsw, hlen,
    ⟨es, by rw [State.respond_events, State.emit_events, hevents], hcap⟩, hglobals, hl, hmem, hwb, hdev, hothers, hside⟩
  · rw [exec_serviceTx_of_live 1 hlive, hn, hfirst, hloop, Res.bind_ok, if_pos rfl, htake, Res.bind_ok,
      txLoop_of_spent fuel Nat.one_pos hbudget, Res.bind_ok, if_pos Nat.one_pos, serviceTx_value_one hlt]
    rfl
  · show t.tag .tx q.toNat b = _
    split
    · next hi =>
      obtain ⟨i, hi, rfl⟩ := hi
      exact hfreed i hi
    · next hi => exact hkept b fun i hik he => hi ⟨i, hik, he⟩

end Sys2Proof.Machine
end

section
/-! Writes that wait in the write buffer and do not overlap: what memory holds once it has drained (20_memory.md R121). -/

namespace Sys2Proof.Machine

/-- Two writes touch no byte in common. -/
def WbEntry.Apart (e e' : WbEntry) : Prop := e.addr + e.bytes.length ≤ e'.addr ∨ e'.addr + e'.bytes.length ≤ e.addr

/-- A byte that no write touches stays. -/
theorem byte_drained_of_not_within {wb : List WbEntry} {m : List Host.Cell} (hm : Memory.wf m) {a : Nat}
    (h : ∀ e ∈ wb, ¬ Within a e.addr e.bytes.length) : Memory.byte (drained m wb) a = Memory.byte m a := by
  induction wb generalizing m with
  | nil => rfl
  | cons e es ih =>
    rw [List.forall_mem_cons] at h
    rw [drained, ih (Memory.wf_setBytes e.bytes m e.addr hm) h.2, Memory.byte_setBytes_of_not_within _ _ _ hm _ h.1]

/-- Of writes that are apart, each is found in memory as it was made. -/
theorem bytes_drained_of_apart {wb : List WbEntry} {m : List Host.Cell} (hm : Memory.wf m) (h : wb.Pairwise WbEntry.Apart)
    {e : WbEntry} (he : e ∈ wb) : Memory.bytes (drained m wb) e.addr e.bytes.length = e.bytes := by
  induction wb generalizing m with
  | nil => cases he
  | cons e' es ih =>
    have hm' := Memory.wf_setBytes e'.bytes m e'.addr hm
    rw [List.pairwise_cons] at h
    rcases List.mem_cons.1 he with rfl | he
    · have hlater : ∀ a, e.addr ≤ a → a < e.addr + e.bytes.length →
          Memory.byte (drained (Memory.setBytes m e.addr e.bytes) es) a = Memory.byte (Memory.setBytes m e.addr e.bytes) a := by
        intro a hlo hhi
        refine byte_drained_of_not_within hm' fun e' he' hw => ?_
        rcases h.1 e' he' with hap | hap <;> omega
      rw [drained, Memory.bytes_congr _ _ _ _ hlater, Memory.bytes_setBytes _ _ _ hm]
    · exact ih hm' h.2 he

end Sys2Proof.Machine
end

section
/-! Where ENQUEUE puts the pieces of a packet, and the state with them staged (42_tx.md R300). -/

namespace Sys2Proof.Machine

variable {s t : State} {q : Nat}

/-! ### Places -/

/-- A piece of a packet with its slot and its buffer; `eop` marks the packet's last. -/
structure Placed where
  slot  : Nat
  buf   : Nat
  bytes : List Byte
  eop   : Bool

/-- The pieces in the slots from NTU on, one Free buffer each, lowest first. -/
def State.placed (s : State) (q : Nat) (ps : List (List Byte)) : List Placed :=
  (List.range ps.length).map fun j =>
    ⟨(s.ntu .tx q + j) % s.n, (s.freeBuffers .tx q).getD j 0, ps.getD j [], decide (j + 1 = ps.length)⟩

@[simp] theorem State.length_placed (s : State) (q : Nat) (ps : List (List Byte)) : (s.placed q ps).length = ps.length := by
  rw [State.placed, List.length_map, List.length_range]

theorem State.mem_placed {ps : List (List Byte)} {x : Placed} : x ∈ s.placed q ps ↔ ∃ j < ps.length,
    (⟨(s.ntu .tx q + j) % s.n, (s.freeBuffers .tx q).getD j 0, ps.getD j [], decide (j + 1 = ps.length)⟩ : Placed) = x := by
  simp only [State.placed, List.mem_map, List.mem_range]

/-- The first piece goes to NTU and the lowest Free buffer; the others are placed as from the state that follows. -/
theorem State.placed_cons {b : Nat} {free : List Nat} {p : List Byte} {ps : List (List Byte)} (hu : s.ntu .tx q < s.n)
    (hfree : s.freeBuffers .tx q = b :: free) (hn : t.n = s.n) (hntu : t.ntu .tx q = ringInc s.n (s.ntu .tx q))
    (hfree' : t.freeBuffers .tx q = free) {x : Placed} (hx : ⟨s.ntu .tx q, b, p, ps.isEmpty⟩ = x) :
    s.placed q (p :: ps) = x :: t.placed q ps := by
  have heop : decide (0 + 1 = ps.length + 1) = ps.isEmpty := by cases ps <;> simp
  rw [State.placed, State.placed, List.length_cons, List.range_succ_eq_map, List.map_cons, List.map_map, hfree, hfree', hn, hntu,
    Nat.add_zero, Nat.mod_eq_of_lt hu, heop, ← hx]
  refine congrArg (List.cons _) (List.map_congr_left fun j _ => ?_)
  have hslot : (s.ntu .tx q + (j + 1)) % s.n = (ringInc s.n (s.ntu .tx q) + j) % s.n := by
    rw [ringInc, Nat.mod_add_mod, Nat.add_assoc, Nat.add_comm 1]
  simp [Function.comp, hslot]

theorem State.nodup_freeBuffers (s : State) (r : Ring) (q : Nat) : (s.freeBuffers r q).Nodup := List.nodup_range.filter _

theorem State.mem_freeBuffers {r : Ring} {b : Nat} : b ∈ s.freeBuffers r q ↔ b < s.poolSize r ∧ s.tag r q b = .free := by
  simp [State.freeBuffers]

/-- The buffers of the pieces are the first of the Free ones. -/
theorem State.map_buf_placed {ps : List (List Byte)} (h : ps.length ≤ (s.freeBuffers .tx q).length) :
    (s.placed q ps).map Placed.buf = (s.freeBuffers .tx q).take ps.length := by
  rw [State.placed, List.map_map]
  refine List.ext_getElem (by simp [h]) fun j hj _ => ?_
  have hj : j < ps.length := by simpa using hj
  simp [show j < (s.freeBuffers .tx q).length by omega]

theorem State.nodup_map_slot_placed {ps : List (List Byte)} (h : ps.length ≤ s.n) : ((s.placed q ps).map Placed.slot).Nodup := by
  rw [State.placed, List.map_map]
  refine List.nodup_range.map_on fun i hi j hj hij => ?_
  rw [List.mem_range] at hi hj
  have hmod : i % s.n = j % s.n := Nat.ModEq.add_left_cancel' (s.ntu .tx q) hij
  rwa [Nat.mod_eq_of_lt (by omega), Nat.mod_eq_of_lt (by omega)] at hmod

theorem State.nodup_map_buf_placed {ps : List (List Byte)} (h : ps.length ≤ (s.freeBuffers .tx q).length) :
    ((s.placed q ps).map Placed.buf).Nodup := by
  rw [State.map_buf_placed h]
  exact (s.nodup_freeBuffers .tx q).sublist (List.take_sublist ..)

/-- The two writes that staging a piece makes: the buffer, then the descriptor (42_tx.md R300, R301). -/
def State.stores (s : State) (q : Nat) (x : Placed) : List WbEntry :=
  [⟨s.bufAddr .tx q x.buf, x.bytes⟩,
    ⟨s.descAddr .tx q x.slot, txDesc (s.bufAddr .tx q x.buf) x.bytes.length (txCmd x.eop)⟩]

/-- The platform has memory for both. -/
def State.StoresBacked (s : State) (q : Nat) (x : Placed) : Prop :=
  ∀ e ∈ s.stores q x, s.params.Backs e.addr e.bytes.length

theorem State.storesBacked_iff {x : Placed} : s.StoresBacked q x ↔
    s.params.Backs (s.bufAddr .tx q x.buf) x.bytes.length ∧ s.params.Backs (s.descAddr .tx q x.slot) 16 := by
  rw [State.StoresBacked, State.stores, List.forall_mem_cons, List.forall_mem_singleton, length_txDesc]

/-! ### One piece -/

theorem ringPost_of_not_backs {r : Ring} {desc : List Byte} {w : SlotRecord} (h : s.ringFull r q = false)
    (hb : ¬ s.params.Backs (s.descAddr r q (s.ntu r q)) desc.length) : ringPost r q desc w s = .stuck .memoryNotBacked := by
  rw [ringPost, h, if_neg Bool.false_ne_true]
  dsimp only
  rw [memWrite_of_not_backs hb, Res.bind_stuck]

/-- A write of the block's: it waits in the write buffer, and is logged. -/
def State.stored (s : State) (a : Nat) (bs : List Byte) : State :=
  State.emit { s with wb := s.wb ++ [⟨a, bs⟩] } (.dmaWrite a bs)

theorem memWrite_eq_stored {a : Nat} {bs : List Byte} (h : s.params.Backs a bs.length) :
    memWrite a bs s = .ok () (s.stored a bs) := memWrite_of_backs h

/-- The state with one piece staged. -/
def State.withPiece (s : State) (q last : Nat) (x : Placed) : State :=
  (((s.stored (s.bufAddr .tx q x.buf) x.bytes).posted .tx q
    (txDesc (s.bufAddr .tx q x.buf) x.bytes.length (txCmd x.eop)) ⟨x.buf, last, x.eop⟩).markedPosted .tx q x.buf x.bytes.length)

theorem tag_posted_stored (s : State) (q a h : Nat) (bs desc : List Byte) (w : SlotRecord) :
    ((s.stored a bs).posted .tx q desc w).tag .tx q h = s.tag .tx q h := by
  rw [State.tag, State.posted]
  rcases State.queue_setQueue_self (State.emit _ _) q _ with hx | hx <;> rw [hx]
  · rfl
  · rfl

/-- Staging a piece where its slot is free, its buffer the first Free one, and memory there for both. -/
theorem stagePieces_cons {last b : Nat} {p : List Byte} {ps : List (List Byte)} (hroom : s.ringFull .tx q = false)
    (hb : poolAcquire .tx q s = some b) (hback : s.StoresBacked q ⟨s.ntu .tx q, b, p, ps.isEmpty⟩) :
    stagePieces q last (p :: ps) s = stagePieces q last ps (s.withPiece q last ⟨s.ntu .tx q, b, p, ps.isEmpty⟩) := by
  obtain ⟨hbuf, hdesc⟩ : s.params.Backs (s.bufAddr .tx q b) p.length ∧ s.params.Backs (s.descAddr .tx q (s.ntu .tx q)) 16 :=
    State.storesBacked_iff.1 hback
  obtain ⟨-, htag, -⟩ := poolAcquire_eq_some hb
  rw [stagePieces, hb]
  dsimp only
  rw [memWrite_eq_stored hbuf, Res.bind_ok, ringPost_of_room (s := s.stored (s.bufAddr .tx q b) p)
    (desc := txDesc (s.bufAddr .tx q b) p.length (txCmd ps.isEmpty)) hroom hdesc, Res.bind_ok]
  dsimp only
  rw [poolMarkPosted_of_free ((tag_posted_stored ..).trans htag), Res.bind_ok]
  rfl

theorem stagePieces_cons_of_not_backed {last b : Nat} {p : List Byte} {ps : List (List Byte)} (hroom : s.ringFull .tx q = false)
    (hb : poolAcquire .tx q s = some b) (hback : ¬ s.StoresBacked q ⟨s.ntu .tx q, b, p, ps.isEmpty⟩) :
    stagePieces q last (p :: ps) s = .stuck .memoryNotBacked := by
  rw [stagePieces, hb]
  dsimp only
  by_cases hbuf : s.params.Backs (s.bufAddr .tx q b) p.length
  · have hdesc : ¬ s.params.Backs (s.descAddr .tx q (s.ntu .tx q)) 16 := fun hdesc =>
      hback (State.storesBacked_iff.2 ⟨hbuf, hdesc⟩)
    rw [memWrite_eq_stored hbuf, Res.bind_ok, ringPost_of_not_backs (s := s.stored (s.bufAddr .tx q b) p)
      (desc := txDesc (s.bufAddr .tx q b) p.length (txCmd ps.isEmpty)) hroom hdesc, Res.bind_stuck]
  · rw [memWrite_of_not_backs hbuf, Res.bind_stuck]

theorem txFrame_stored (s : State) (q a : Nat) (bs : List Byte) : s.TxFrame (s.stored a bs) q :=
  State.txFrame_of_queues ⟨rfl, rfl, rfl, rfl, rfl, rfl, rfl, rfl, rfl, rfl, rfl⟩ rfl rfl

theorem txFrame_posted (s : State) (q : Nat) (desc : List Byte) (w : SlotRecord) : s.TxFrame (s.posted .tx q desc w) q :=
  (txFrame_stored s q _ desc).trans (State.txFrame_setQueue ⟨rfl, rfl, rfl, rfl, rfl, rfl, rfl, rfl, rfl⟩)

theorem txFrame_markedPosted (s : State) (q h len : Nat) : s.TxFrame (s.markedPosted .tx q h len) q :=
  State.txFrame_setQueue ⟨rfl, rfl, rfl, rfl, rfl, rfl, rfl, rfl, rfl⟩

theorem txFrame_withPiece (s : State) (q last : Nat) (x : Placed) : s.TxFrame (s.withPiece q last x) q :=
  ((txFrame_stored ..).trans (txFrame_posted ..)).trans (txFrame_markedPosted ..)

/-- What staging one piece does to its queue. -/
theorem queue_withPiece (hq : q < s.queues.length) (last : Nat) (x : Placed) : (s.withPiece q last x).queue q =
    { s.queue q with
      tx     := { (s.queue q).tx with ntu := BitVec.ofNat 16 (ringInc s.n (s.ntu .tx q)) }
      swTx   := (s.queue q).swTx.set (s.ntu .tx q) ⟨BitVec.ofNat 16 x.buf, BitVec.ofNat 16 last, x.eop⟩
      txPool := ((s.queue q).txPool.setTag x.buf .hw).setLen x.buf x.bytes.length } := by
  have hpost : ((s.stored (s.bufAddr .tx q x.buf) x.bytes).posted .tx q
      (txDesc (s.bufAddr .tx q x.buf) x.bytes.length (txCmd x.eop)) ⟨x.buf, last, x.eop⟩).queue q = _ :=
    State.queue_setQueue_same _ _ _ hq
  rw [State.withPiece, State.markedPosted, State.queue_setQueue_same _ _ _ (by simpa [State.posted, State.stored] using hq), hpost]
  rfl

/-! ### A run of pieces -/

/-- The pieces of pl have been staged from s: each slot has its record, each buffer is HW with its length recorded, the stores wait
in the write buffer, and NTU has passed the slots. -/
structure State.Staged (s : State) (q last : Nat) (pl : List Placed) (t : State) : Prop where
  frame        : s.TxFrame t q
  length       : t.queues.length = s.queues.length
  mem          : t.mem = s.mem
  dev          : t.dev = s.dev
  wb           : t.wb = s.wb ++ pl.flatMap (s.stores q)
  events       : ∃ es, t.events = s.events ++ es ∧ ∀ e ∈ es, e.isRegWrite = false
  cur          : (t.queue q).tx = { (s.queue q).tx with ntu := BitVec.ofNat 16 ((s.ntu .tx q + pl.length) % s.n) }
  records      : ∀ x ∈ pl, (t.queue q).txRec x.slot = ⟨BitVec.ofNat 16 x.buf, BitVec.ofNat 16 last, x.eop⟩
  otherRecords : ∀ i ∉ pl.map Placed.slot, (t.queue q).txRec i = (s.queue q).txRec i
  tags         : ∀ b, t.tag .tx q b = if b ∈ pl.map Placed.buf then .hw else s.tag .tx q b
  lens         : ∀ x ∈ pl, (t.queue q).txPool.len x.buf = BitVec.ofNat 16 x.bytes.length
  otherLens    : ∀ b ∉ pl.map Placed.buf, (t.queue q).txPool.len b = (s.queue q).txPool.len b

theorem State.SameGlobals.n_eq (h : s.SameGlobals t) : t.n = s.n := by
  obtain ⟨-, -, -, -, hlogn, -⟩ := h
  rw [State.n, State.n, hlogn]

theorem State.SameGlobals.poolSize_eq (h : s.SameGlobals t) (r : Ring) : t.poolSize r = s.poolSize r := by
  rw [State.poolSize, State.poolSize, h.n_eq, h.1]

theorem State.SameGlobals.qBase_eq (h : s.SameGlobals t) (q : Nat) : t.qBase q = s.qBase q := by
  have hn := h.n_eq
  obtain ⟨hparams, -, -, -, -, -, -, hbase, -⟩ := h
  rw [State.qBase, State.qBase, hn, hparams, hbase]

theorem State.SameGlobals.descAddr_tx (h : s.SameGlobals t) (q i : Nat) : t.descAddr .tx q i = s.descAddr .tx q i :=
  congrArg (· + 16 * i) (h.qBase_eq q)

theorem State.SameGlobals.bufAddr_tx (h : s.SameGlobals t) (q b : Nat) : t.bufAddr .tx q b = s.bufAddr .tx q b := by
  rw [State.bufAddr, State.bufAddr, h.qBase_eq, h.n_eq, h.1]

theorem State.SameGlobals.stores_eq (h : s.SameGlobals t) (q : Nat) : t.stores q = s.stores q := by
  funext x
  rw [State.stores, State.stores, h.descAddr_tx, h.bufAddr_tx]

theorem State.SameGlobals.storesBacked_iff (h : s.SameGlobals t) {x : Placed} : t.StoresBacked q x ↔ s.StoresBacked q x := by
  rw [State.StoresBacked, State.StoresBacked, h.stores_eq, h.1]

theorem State.toNat_ofNat_mod_n (s : State) (a : Nat) : (BitVec.ofNat 16 (a % s.n)).toNat = a % s.n := by
  have hlt := Nat.mod_lt a s.n_pos
  have hn := s.n_le
  rw [BitVec.toNat_ofNat, Nat.mod_eq_of_lt (by omega)]

theorem State.Staged.ntu_eq {last : Nat} {pl : List Placed} (h : s.Staged q last pl t) :
    t.ntu .tx q = (s.ntu .tx q + pl.length) % s.n := by
  have hntu := congrArg (fun c : Cursors => c.ntu.toNat) h.cur
  exact hntu.trans (s.toNat_ofNat_mod_n _)

/-- With no piece staged there may be events, but no register write. -/
theorem State.staged_events {es : List Event} (hes : ∀ e ∈ es, e.isRegWrite = false) (last : Nat) (hu : s.ntu .tx q < s.n) :
    s.Staged q last [] { s with events := s.events ++ es } where
  frame        := State.txFrame_of_queues ⟨rfl, rfl, rfl, rfl, rfl, rfl, rfl, rfl, rfl, rfl, rfl⟩ rfl rfl
  length       := rfl
  mem          := rfl
  dev          := rfl
  wb           := (List.append_nil _).symm
  events       := ⟨es, rfl, hes⟩
  cur          := by
    rw [List.length_nil, Nat.add_zero, Nat.mod_eq_of_lt hu]
    show _ = Cursors.mk (BitVec.ofNat 16 (s.queue q).tx.ntu.toNat) _ _
    rw [BitVec.ofNat_toNat, BitVec.setWidth_eq]
    rfl
  records      := nofun
  otherRecords := fun _ _ => rfl
  tags         := fun _ => rfl
  lens         := nofun
  otherLens    := fun _ _ => rfl

theorem State.Staged.nil (s : State) (q last : Nat) (hu : s.ntu .tx q < s.n) : s.Staged q last [] s := by
  simpa using State.staged_events (es := []) nofun last hu

/-- One run of pieces after another, in other slots and other buffers. -/
theorem State.Staged.append {u : State} {last : Nat} {pl pl' : List Placed} (h : s.Staged q last pl t)
    (h' : t.Staged q last pl' u) (hslot : ∀ x ∈ pl, x.slot ∉ pl'.map Placed.slot) (hbuf : ∀ x ∈ pl, x.buf ∉ pl'.map Placed.buf) :
    s.Staged q last (pl ++ pl') u where
  frame        := h.frame.trans h'.frame
  length       := h'.length.trans h.length
  mem          := h'.mem.trans h.mem
  dev          := h'.dev.trans h.dev
  wb           := by rw [h'.wb, h.wb, h.frame.globals.stores_eq, List.flatMap_append, List.append_assoc]
  events       := by
    obtain ⟨es, hes, hreg⟩ := h.events
    obtain ⟨es', hes', hreg'⟩ := h'.events
    exact ⟨es ++ es', by rw [hes', hes, List.append_assoc], List.forall_mem_append.2 ⟨hreg, hreg'⟩⟩
  cur          := by
    rw [h'.cur, h.ntu_eq, h.frame.globals.n_eq, h.cur, List.length_append, Nat.mod_add_mod, Nat.add_assoc]
  records      := fun x hx => by
    rcases List.mem_append.1 hx with hx | hx
    · rw [h'.otherRecords _ (hslot x hx), h.records x hx]
    · exact h'.records x hx
  otherRecords := fun i hi => by
    rw [List.map_append, List.mem_append, not_or] at hi
    rw [h'.otherRecords i hi.2, h.otherRecords i hi.1]
  tags         := fun b => by
    rw [h'.tags, h.tags, List.map_append]
    by_cases hb : b ∈ pl.map Placed.buf <;> by_cases hb' : b ∈ pl'.map Placed.buf <;> simp only [List.mem_append, hb, hb', if_true,
      if_false, or_self, or_true, true_or]
  lens         := fun x hx => by
    rcases List.mem_append.1 hx with hx | hx
    · rw [h'.otherLens _ (hbuf x hx), h.lens x hx]
    · exact h'.lens x hx
  otherLens    := fun b hb => by
    rw [List.map_append, List.mem_append, not_or] at hb
    rw [h'.otherLens b hb.2, h.otherLens b hb.1]

theorem Pool.len_setLen (p : Pool) (i j l : Nat) :
    (p.setLen i l).len j = if i = j ∧ j < p.blen.length then BitVec.ofNat 16 l else p.len j := getD_set_eq p.blen i j _ 0

/-- One piece staged. -/
theorem staged_withPiece {last : Nat} {x : Placed} (hq : q < s.queues.length) (hslot : x.slot = s.ntu .tx q)
    (hsw : x.slot < (s.queue q).swTx.length) (hbuf : x.buf < (s.queue q).txPool.tags.length)
    (hlen : x.buf < (s.queue q).txPool.blen.length) : s.Staged q last [x] (s.withPiece q last x) := by
  have hqueue := queue_withPiece hq last x
  have hrec : ∀ i, ((s.withPiece q last x).queue q).txRec i =
      if x.slot = i then ⟨BitVec.ofNat 16 x.buf, BitVec.ofNat 16 last, x.eop⟩ else (s.queue q).txRec i := by
    intro i
    rw [hqueue, ← hslot]
    simp only [Queue.txRec, getD_set_eq]
    exact if_congr (and_iff_left_of_imp fun e => e ▸ hsw) rfl rfl
  have htag : ∀ b, (s.withPiece q last x).tag .tx q b = if x.buf = b then .hw else s.tag .tx q b := by
    intro b
    rw [State.tag, hqueue]
    simp only [Queue.pool, Pool.tag_setLen, Pool.tag_setTag]
    exact if_congr (and_iff_left_of_imp fun e => e ▸ hbuf) rfl rfl
  have hblen : ∀ b, ((s.withPiece q last x).queue q).txPool.len b =
      if x.buf = b then BitVec.ofNat 16 x.bytes.length else (s.queue q).txPool.len b := by
    intro b
    rw [hqueue]
    dsimp only
    rw [Pool.len_setLen, Pool.len_setTag]
    exact if_congr (and_iff_left_of_imp fun e => e ▸ hlen) rfl rfl
  refine ⟨txFrame_withPiece s q last x, ?_, rfl, rfl, ?_, ?_, ?_, ?_, ?_, ?_, ?_, ?_⟩
  · simp [State.withPiece, State.markedPosted, State.posted, State.stored]
  · show s.wb ++ [_] ++ [_] = _
    rw [List.flatMap_singleton, List.append_assoc, State.stores, hslot]
    rfl
  · exact ⟨_, List.append_assoc .., by simp [Event.isRegWrite]⟩
  · rw [hqueue]
    rfl
  · rintro y hy
    obtain rfl := List.mem_singleton.1 hy
    rw [hrec, if_pos rfl]
  · intro i hi
    rw [hrec, if_neg fun e => hi (by simp [e])]
  · intro b
    simp only [htag, List.map_cons, List.map_nil, List.mem_singleton, eq_comm]
  · rintro y hy
    obtain rfl := List.mem_singleton.1 hy
    rw [hblen, if_pos rfl]
  · intro b hb
    rw [hblen, if_neg fun e => hb (by simp [e])]

/-- With its first Free buffer taken a pool has the others left. -/
theorem State.freeBuffers_of_taken {b : Nat} {free : List Nat} (hfree : s.freeBuffers .tx q = b :: free)
    (hsize : t.poolSize .tx = s.poolSize .tx) (htag : ∀ i, t.tag .tx q i = if i ∈ [b] then .hw else s.tag .tx q i) :
    t.freeBuffers .tx q = free := by
  have hnodup := s.nodup_freeBuffers .tx q
  have hfilter : t.freeBuffers .tx q = (s.freeBuffers .tx q).filter (· ≠ b) := by
    rw [State.freeBuffers, State.freeBuffers, List.filter_filter, hsize]
    refine List.filter_congr fun i _ => ?_
    rw [htag]
    by_cases hi : i = b <;> simp [hi]
  rw [hfree, List.nodup_cons] at hnodup
  rw [hfilter, hfree, List.filter_cons_of_neg (by simp), List.filter_eq_self]
  intro i hi
  have hne : i ≠ b := by
    rintro rfl
    exact hnodup.1 hi
  simpa using hne

/-- With room in the ring and a Free buffer at hand, a piece is staged as the next of its packet. -/
theorem State.Posting.withPiece {target last : Nat} {x : Placed} (h : s.Posting .tx q target) (hroom : s.ringFull .tx q = false)
    (hb : poolAcquire .tx q s = some x.buf) (hl : last < 2 ^ 16) (htarget : (s.view .tx q).count s.n < target)
    (hlast : last = (s.view .tx q).slotAt s.n (target - 1)) (heop : x.eop = true ↔ (s.view .tx q).count s.n + 1 = target) :
    (s.withPiece q last x).Posting .tx q target ∧
      (s.withPiece q last x).view .tx q = (s.view .tx q).staged s.n ⟨x.buf, last, x.eop⟩ := by
  have hstored : s.SameRings (s.stored (s.bufAddr .tx q x.buf) x.bytes) := sameRings_of_queues rfl rfl rfl rfl rfl rfl
  obtain ⟨hposting, -, hview, -⟩ := (hstored.posting h).stage (w := ⟨x.buf, last, x.eop⟩) (len := x.bytes.length)
    (desc := txDesc (s.bufAddr .tx q x.buf) x.bytes.length (txCmd x.eop)) hroom hb hl fun _ => ⟨htarget, hlast, heop⟩
  exact ⟨hposting, hview⟩

/-- Everything staging the pieces of a packet can do, given the room: all of them are staged, or the platform has no memory for one. -/
theorem stagePieces_ends {target last : Nat} (ps : List (List Byte)) (h : s.Posting .tx q target)
    (hblen : (s.queue q).txPool.blen.length = s.poolSize .tx) (hlen : (s.view .tx q).count s.n + ps.length = target)
    (htarget : target < s.n) (hlast : last = (s.view .tx q).slotAt s.n (target - 1))
    (hfree : ps.length ≤ (s.freeBuffers .tx q).length) :
    (stagePieces q last ps s).Ends (fun _ t => s.Staged q last (s.placed q ps) t) (fun _ => False)
      (fun _ => ∃ x ∈ s.placed q ps, ¬ s.StoresBacked q x) := by
  induction ps generalizing s with
  | nil => exact .nil s q last h.tracked.ntu_lt
  | cons p ps ih =>
    rw [List.length_cons] at hlen hfree
    have htr := h.tracked
    have hrun := h.focus.running
    have hroom : s.ringFull .tx q = false := by
      rw [← Bool.not_eq_true, ← s.occupancy_eq_max_iff .tx q htr.ntu_lt htr.ntc_lt]
      show (s.view .tx q).count s.n ≠ s.n - 1
      omega
    obtain ⟨b, free, hbuffers⟩ := List.exists_cons_of_length_pos (show 0 < (s.freeBuffers .tx q).length by omega)
    have hb : poolAcquire .tx q s = some b := by rw [poolAcquire_eq_head, hbuffers, List.head?_cons]
    obtain ⟨hsize, -, -⟩ := poolAcquire_eq_some hb
    generalize hx : (⟨s.ntu .tx q, b, p, ps.isEmpty⟩ : Placed) = x
    have hslot : x.slot = s.ntu .tx q := by rw [← hx]
    have hxbuf : x.buf = b := by rw [← hx]
    have hone : s.Staged q last [x] (s.withPiece q last x) :=
      staged_withPiece (hrun.queue_lt h.focus.lt) hslot (hslot ▸ htr.ntu_lt.trans_eq (hrun.slots .tx q h.focus.lt).symm)
        (hxbuf ▸ hsize.trans_eq (hrun.bufs .tx q h.focus.lt).symm) (hxbuf ▸ hsize.trans_eq hblen.symm)
    have hn := hone.frame.globals.n_eq
    have hpool := hone.frame.globals.poolSize_eq .tx
    have hfree' : (s.withPiece q last x).freeBuffers .tx q = free :=
      State.freeBuffers_of_taken hbuffers hpool (by simpa [hxbuf] using hone.tags)
    have hplaced : s.placed q (p :: ps) = x :: (s.withPiece q last x).placed q ps :=
      State.placed_cons htr.ntu_lt hbuffers hn hone.ntu_eq hfree' hx
    by_cases hback : s.StoresBacked q x
    case neg =>
      rw [← hx] at hback
      rw [stagePieces_cons_of_not_backed hroom hb hback, hplaced, ← hx]
      exact ⟨_, List.mem_cons_self, hback⟩
    have hlt : last < 2 ^ 16 := by
      have := hlast ▸ RingView.slotAt_lt (v := s.view .tx q) (i := target - 1) s.n_pos
      have := s.n_le
      omega
    have heop : ps.isEmpty = true ↔ (s.view .tx q).count s.n + 1 = target := by
      rw [List.isEmpty_iff_length_eq_zero]
      omega
    obtain ⟨hposting, hview⟩ := h.withPiece (x := x) hroom (hxbuf ▸ hb) hlt (by omega) hlast (hx ▸ heop)
    have hcount := RingView.count_staged (w := ⟨x.buf, last, x.eop⟩) htr.ntu_lt htr.ntc_lt (h.count_lt_of_room hroom)
    have hstep := stagePieces_cons (last := last) hroom hb (hx ▸ hback)
    rw [hx] at hstep
    rw [hstep, hplaced]
    have hslots := State.nodup_map_slot_placed (s := s) (q := q) (ps := p :: ps) (by rw [List.length_cons]; omega)
    have hbufs := State.nodup_map_buf_placed (s := s) (q := q) (ps := p :: ps) (by rw [List.length_cons]; omega)
    rw [hplaced, List.map_cons, List.nodup_cons] at hslots hbufs
    refine (ih hposting ?_ ?_ (hn ▸ htarget) ?_ ?_).mono (fun _ t ht => ?_) (fun _ => id) (fun _ hf => ?_)
    · rw [hpool, queue_withPiece (hrun.queue_lt h.focus.lt)]
      exact (List.length_set ..).trans hblen
    · rw [hview, hn]
      omega
    · rw [hview, hn]
      exact hlast
    · rw [hfree']
      rw [hbuffers, List.length_cons] at hfree
      omega
    · exact hone.append ht (List.forall_mem_singleton.2 hslots.1) (List.forall_mem_singleton.2 hbufs.1)
    · obtain ⟨y, hy, hb⟩ := hf
      exact ⟨y, List.mem_cons_of_mem _ hy, mt hone.frame.globals.storesBacked_iff.2 hb⟩

end Sys2Proof.Machine
end

section
/-! An accepted ENQUEUE: the state it leaves, and the memory (42_tx.md R300 to R302). -/

namespace Sys2Proof.Machine

variable {s t u : State} {q : Nat}

/-! ### The tail write -/

/-- The pieces of pl have been posted from s: staged, and the tail register written. -/
structure State.PacketPosted (s : State) (q last : Nat) (pl : List Placed) (t : State) : Prop where
  frame        : s.TxFrame t q
  mem          : t.mem = drained s.mem (pl.flatMap (s.stores q))
  wb           : t.wb = []
  dev          : t.dev = s.dev.setRing .tx q
    { s.dev.ring .tx q with tail := BitVec.ofNat 16 ((s.ntu .tx q + pl.length) % s.n) }
  events       : ∃ es, t.events = s.events ++ es ++
      [.barrier .write, .regWrite (devOffset s.params.devRegs (.tail .tx q)) (BitVec.ofNat 32 ((s.ntu .tx q + pl.length) % s.n))] ∧
    ∀ e ∈ es, e.isRegWrite = false
  cur          : (t.queue q).tx = ⟨BitVec.ofNat 16 ((s.ntu .tx q + pl.length) % s.n), (s.queue q).tx.ntc,
    BitVec.ofNat 16 ((s.ntu .tx q + pl.length) % s.n)⟩
  records      : ∀ x ∈ pl, (t.queue q).txRec x.slot = ⟨BitVec.ofNat 16 x.buf, BitVec.ofNat 16 last, x.eop⟩
  otherRecords : ∀ i ∉ pl.map Placed.slot, (t.queue q).txRec i = (s.queue q).txRec i
  tags         : ∀ b, t.tag .tx q b = if b ∈ pl.map Placed.buf then .hw else s.tag .tx q b
  lens         : ∀ x ∈ pl, (t.queue q).txPool.len x.buf = BitVec.ofNat 16 x.bytes.length
  otherLens    : ∀ b ∉ pl.map Placed.buf, (t.queue q).txPool.len b = (s.queue q).txPool.len b

/-- The state after a tail write of the TX ring that was owed. -/
def State.tailWritten (s : State) (q : Nat) : State :=
  ((s.barrier .write).regWrite (.tail .tx q) (BitVec.ofNat 32 (s.ntu .tx q))).setQueue q
    ((s.queue q).setCur .tx { (s.queue q).cur .tx with tail := ((s.queue q).cur .tx).ntu })

theorem txFrame_regWrite (s : State) (q : Nat) (reg : DevReg) (v : Word) : s.TxFrame (s.regWrite reg v) q :=
  State.txFrame_of_queues ⟨rfl, rfl, rfl, rfl, rfl, rfl, rfl, rfl, rfl, rfl, rfl⟩ rfl rfl

theorem txFrame_tailWritten (s : State) (q : Nat) : s.TxFrame (s.tailWritten q) q := by
  have hbarrier : s.TxFrame (s.barrier .write) q :=
    State.txFrame_of_queues ⟨rfl, rfl, rfl, rfl, rfl, rfl, rfl, rfl, rfl, rfl, rfl⟩ rfl rfl
  have hwrite := hbarrier.trans (txFrame_regWrite _ q (.tail .tx q) (BitVec.ofNat 32 (s.ntu .tx q)))
  have hside : Queue.SameButTx (s.queue q)
      ((s.queue q).setCur .tx { (s.queue q).cur .tx with tail := ((s.queue q).cur .tx).ntu }) :=
    ⟨rfl, rfl, rfl, rfl, rfl, rfl, rfl, rfl, rfl⟩
  refine hwrite.trans (State.txFrame_setQueue ?_)
  rw [State.queue_regWrite, State.queue_barrier]
  exact hside

theorem mem_tailWritten (s : State) (q : Nat) : (s.tailWritten q).mem = drained s.mem s.wb := rfl

theorem wb_tailWritten (s : State) (q : Nat) : (s.tailWritten q).wb = [] := rfl

theorem events_tailWritten (s : State) (q : Nat) : (s.tailWritten q).events = s.events ++
    [.barrier .write, .regWrite (devOffset s.params.devRegs (.tail .tx q)) (BitVec.ofNat 32 (s.ntu .tx q))] :=
  List.append_assoc ..

theorem dev_tailWritten (s : State) (q : Nat) : (s.tailWritten q).dev =
    s.dev.setRing .tx q { s.dev.ring .tx q with tail := BitVec.ofNat 16 (s.ntu .tx q) } := by
  show s.dev.setRing .tx q { s.dev.ring .tx q with tail := (BitVec.ofNat 32 (s.ntu .tx q)).setWidth 16 } = _
  rw [BitVec.setWidth_ofNat_of_le (by decide)]

theorem queue_tailWritten (hq : q < s.queues.length) : (s.tailWritten q).queue q =
    { s.queue q with tx := { (s.queue q).tx with tail := (s.queue q).tx.ntu } } :=
  State.queue_setQueue_same _ _ _ hq

/-- The tail write posts what is staged: fewer pieces than slots move NTU off the old tail, so it is owed (40_ring.md R210). -/
theorem State.Staged.packetPosted {last : Nat} {pl : List Placed} (h : s.Staged q last pl u) (hq : q < s.queues.length)
    (hwb : s.wb = []) (hu : s.ntu .tx q < s.n) (hsync : (s.queue q).tx.tail = (s.queue q).tx.ntu) (hpos : 1 ≤ pl.length)
    (hlt : pl.length < s.n) : s.PacketPosted q last pl (ringTailSync .tx q u) := by
  have hntu := h.ntu_eq
  have howed : u.tail .tx q ≠ u.ntu .tx q := by
    have htail : u.tail .tx q = s.ntu .tx q :=
      (congrArg (fun c : Cursors => c.tail.toNat) h.cur).trans (congrArg BitVec.toNat hsync)
    rw [htail, hntu]
    intro he
    have hdist := ringDist_add hu hlt
    rw [← he, ringDist_self hu] at hdist
    omega
  rw [show ringTailSync .tx q u = u.tailWritten q from ringTailSync_of_ne howed]
  have hqueue := queue_tailWritten (h.length ▸ hq)
  obtain ⟨es, hes, hreg⟩ := h.events
  refine ⟨h.frame.trans (txFrame_tailWritten u q), ?_, wb_tailWritten u q, ?_, ⟨es, ?_, hreg⟩, ?_, ?_, ?_, fun b => ?_, ?_, ?_⟩
  · rw [mem_tailWritten, h.mem, h.wb, hwb, List.nil_append]
  · rw [dev_tailWritten, h.dev, hntu]
  · rw [events_tailWritten, hes, hntu, h.frame.globals.1]
  · rw [hqueue, h.cur]
  · rw [hqueue]
    exact h.records
  · rw [hqueue]
    exact h.otherRecords
  · rw [← h.tags b, State.tag, State.tag, hqueue]
    rfl
  · rw [hqueue]
    exact h.lens
  · rw [hqueue]
    exact h.otherLens

/-! ### The command -/

/-- The pieces of a packet in memory. -/
def State.packetPieces (s : State) (frags : List Frag) : List (List Byte) :=
  pieces s.params.bufSize (pieceCount (packetLength frags) s.params.bufSize) (packetBytes s.mem frags)

@[simp] theorem State.length_packetPieces (s : State) (frags : List Frag) :
    (s.packetPieces frags).length = pieceCount (packetLength frags) s.params.bufSize := length_pieces ..

theorem getD_pieces {b k j : Nat} (data : List Byte) (hj : j < k) : (pieces b k data).getD j [] = (data.drop (j * b)).take b := by
  induction k generalizing j data with
  | zero => omega
  | succ k ih =>
    rw [pieces]
    cases j with
    | zero => simp
    | succ j =>
      rw [List.getD_cons_succ, ih _ (by omega), List.drop_drop, Nat.succ_mul, Nat.add_comm b]

theorem length_getD_packetPieces {frags : List Frag} {j : Nat} (hj : j < pieceCount (packetLength frags) s.params.bufSize) :
    ((s.packetPieces frags).getD j []).length = min s.params.bufSize (packetLength frags - j * s.params.bufSize) := by
  rw [State.packetPieces, getD_pieces _ hj, List.length_take, List.length_drop, length_packetBytes]

/-- An accepted ENQUEUE posts the packet and answers NTU, or stops for want of memory under a fragment or a store. -/
theorem exec_enqueue_ends {q : BitVec 7} {frags : List Frag} (h : s.Inv) (ha : s.AcceptsPacket q frags) :
    ∃ x, exec (.enqueue q frags) s = Res.answer x ∧ x.Ends
      (fun a t => a = (.ok, BitVec.ofNat 32 (s.ntu .tx q.toNat)) ∧ s.PacketPosted q.toNat
        ((s.ntu .tx q.toNat + pieceCount (packetLength frags) s.params.bufSize - 1) % s.n)
        (s.placed q.toNat (s.packetPieces frags)) t)
      (fun _ => False)
      (fun _ => (∃ f ∈ frags, f.len ≠ 0 ∧ ¬ s.params.Backs f.addr.toNat f.len.toNat) ∨
        ∃ x ∈ s.placed q.toNat (s.packetPieces frags), ¬ s.StoresBacked q.toNat x) := by
  refine ⟨_, exec_enqueue_of_accepts ha, ?_⟩
  obtain ⟨⟨hq, hlive⟩, -, -, -, hbytes, -, hslots, hbufs⟩ := ha
  have hready := h.ready_of_live hlive
  have hrun := hready.running
  obtain ⟨htr, -, -, -⟩ := hready.rings.settled .tx q.toNat q.isLt
  have hpos : 1 ≤ pieceCount (packetLength frags) s.params.bufSize := one_le_pieceCount (by omega) h.config.valid.1
  have hroom : (s.view .tx q.toNat).count s.n + pieceCount (packetLength frags) s.params.bufSize < s.n := by
    change _ ≤ s.n - 1 - (s.view .tx q.toNat).count s.n at hslots
    omega
  have hsync : (s.queue q.toNat).tx.tail = (s.queue q.toNat).tx.ntu :=
    (h.cursors _ (s.queue_mem_of_lt (hrun.queue_lt q.isLt))).1.2.2
  have hblen : (s.queue q.toNat).txPool.blen.length = s.poolSize .tx := by
    obtain ⟨-, -, -, hblen, -⟩ := h.config.configured.sizedFor_queue hq
    rw [hblen, h.config.configured.slots_eq (h.config.configured.nq_ne_zero (by rw [hlive]; decide))]
    rfl
  refine ((readFrags_ends frags s).mono (fun _ _ => id) (fun _ => id) (fun _ => .inl)).bind ?_
  rintro data _ ⟨hdata, es, rfl, hes⟩
  obtain rfl := hdata h.noWb
  have hposting := ((still_events s (s.events ++ es)).ready hready).posting .tx q.isLt
    ((s.view .tx q.toNat).count s.n + pieceCount (packetLength frags) s.params.bufSize)
  refine ((stagePieces_ends (s.packetPieces frags) hposting hblen (by rw [State.length_packetPieces]; rfl) hroom
    (RingView.slotAt_last htr.ntu_lt htr.ntc_lt hpos) ?_).mono (fun _ _ => id) (fun _ => id) (fun _ => .inr)).bind
    fun _ u hstaged => ⟨rfl, ?_⟩
  · rw [State.length_packetPieces, length_freeBuffers]
    exact hbufs
  · refine State.Staged.packetPosted ((State.staged_events hes _ htr.ntu_lt).append hstaged nofun nofun)
      (hrun.queue_lt q.isLt) h.noWb htr.ntu_lt hsync ?_ ?_
    · simpa using hpos
    · rw [State.length_placed, State.length_packetPieces]
      omega

/-! ### The registers -/

theorem State.packetPieces_mem_placed {frags : List Frag} {j : Nat}
    (hj : j < pieceCount (packetLength frags) s.params.bufSize) :
    (⟨(s.ntu .tx q + j) % s.n, (s.freeBuffers .tx q).getD j 0, (s.packetPieces frags).getD j [],
      decide (j + 1 = (s.packetPieces frags).length)⟩ : Placed) ∈ s.placed q (s.packetPieces frags) :=
  State.mem_placed.2 ⟨j, by rwa [State.length_packetPieces], rfl⟩

theorem length_le_of_mem_placed {frags : List Frag} {x : Placed} (hx : x ∈ s.placed q (s.packetPieces frags)) :
    x.bytes.length ≤ s.params.bufSize := by
  obtain ⟨j, hj, rfl⟩ := State.mem_placed.1 hx
  rw [State.length_packetPieces] at hj
  exact (length_getD_packetPieces hj).trans_le (Nat.min_le_left ..)

theorem slot_lt_of_mem_placed {ps : List (List Byte)} {x : Placed} (hx : x ∈ s.placed q ps) : x.slot < s.n := by
  obtain ⟨j, -, rfl⟩ := State.mem_placed.1 hx
  exact Nat.mod_lt _ s.n_pos

theorem State.RegionBacked.txBuf (h : s.RegionBacked) (hq : q < s.nq.toNat) {b m : Nat} (hb : b < s.poolSize .tx)
    (hm : m ≤ s.params.pageSize) : s.params.Backs (s.bufAddr .tx q b) m := by
  have hq := State.qBase_add_qStride_le hq
  have hbase : s.regionBase.toNat ≤ s.qBase q := Nat.le_add_right _ _
  have hpool := Nat.mul_le_mul_right s.params.pageSize
    (show b + 1 ≤ Params.poolSize s.params s.n .tx + Params.poolSize s.params s.n .rx from Nat.le_add_right_of_le hb)
  rw [Nat.succ_mul] at hpool
  have haddr : s.bufAddr .tx q b = s.qBase q + Params.ringArea s.params s.n + b * s.params.pageSize := rfl
  rw [Params.qStride] at hq
  exact Params.backs_mono h (by omega) (by omega)

/-- In a backed region every store of an accepted packet is backed. -/
theorem State.RegionBacked.stores (h : s.RegionBacked) (hinv : s.Inv) (hq : q < s.nq.toNat) {frags : List Frag} {x : Placed}
    (hbufs : pieceCount (packetLength frags) s.params.bufSize ≤ s.poolCount .tx q .free)
    (hx : x ∈ s.placed q (s.packetPieces frags)) : s.StoresBacked q x := by
  obtain ⟨-, hfit, -, -, -, -, -, -, hpage, -⟩ := hinv.config.valid
  refine State.storesBacked_iff.2 ⟨h.txBuf hq ?_ ((length_le_of_mem_placed hx).trans hfit),
    h.desc (by omega) hq .tx (slot_lt_of_mem_placed hx)⟩
  have hbuf := List.mem_map_of_mem (f := Placed.buf) hx
  rw [State.map_buf_placed (by rw [State.length_packetPieces, length_freeBuffers]; exact hbufs)] at hbuf
  exact (State.mem_freeBuffers.1 (List.mem_of_mem_take hbuf)).1

/-- Settles O33: the packet is posted, piece j in slot NTU + j and in the j-th Free buffer. -/
theorem enqueuePostsPacket : Obligations.EnqueuePostsPacket := by
  intro q frags s h hlive hlink hne hfrags
  dsimp only
  intro hbytes hdescs hslots hbufs hbacked hregion
  have ha : s.AcceptsPacket q frags :=
    ⟨hlive, hlink, List.ne_nil_of_length_pos hne, hfrags, hbytes, hdescs, hslots, hbufs⟩
  obtain ⟨x, hx, hends⟩ := exec_enqueue_ends h ha
  cases x with
  | ended t => exact hends.elim
  | stuck f =>
    rcases hends with ⟨f, hf, hlen, hb⟩ | ⟨y, hy, hb⟩
    · exact absurd (hbacked f hf hlen) hb
    · exact absurd (hregion.stores h hlive.1 hbufs hy) hb
  | ok a t =>
  obtain ⟨rfl, hframe, -, hwb, hdev, hevents, hcur, hrecords, hothers, htags, hlens, hotherLens⟩ := hends
  obtain ⟨hglobals, hl, hqueues, hside⟩ := hframe
  have hplaced : (s.placed q.toNat (s.packetPieces frags)).length = pieceCount (packetLength frags) s.params.bufSize := by
    rw [State.length_placed, State.length_packetPieces]
  have hmap : (s.placed q.toNat (s.packetPieces frags)).map Placed.buf =
      (s.freeBuffers .tx q.toNat).take (pieceCount (packetLength frags) s.params.bufSize) := by
    rw [State.map_buf_placed (by rw [State.length_packetPieces, length_freeBuffers]; exact hbufs), State.length_packetPieces]
  have hpos : 1 ≤ pieceCount (packetLength frags) s.params.bufSize := one_le_pieceCount (by omega) h.config.valid.1
  obtain ⟨-, -, hsize, -⟩ := h.config.valid
  rw [hplaced] at hevents hdev hcur
  rw [hmap] at htags hotherLens
  refine ⟨t.respond .ok (BitVec.ofNat 32 (s.ntu .tx q.toNat)), hx, rfl, hcur, fun b _ => htags b, fun j hj => ?_,
    fun i _ hi => hothers i fun hmem => ?_, fun j hj => ?_, fun b _ hb => hotherLens b hb, hevents, hdev, hglobals, hl, hwb,
    hqueues, hside⟩
  · refine (hrecords _ (State.packetPieces_mem_placed hj)).trans ?_
    have heop : decide (j + 1 = (s.packetPieces frags).length) =
        decide (j = pieceCount (packetLength frags) s.params.bufSize - 1) := by
      rw [State.length_packetPieces, decide_eq_decide]
      omega
    rw [heop, Nat.add_sub_assoc hpos]
    rfl
  · obtain ⟨y, hy, rfl⟩ := List.mem_map.1 hmem
    obtain ⟨j, hj, rfl⟩ := State.mem_placed.1 hy
    rw [State.length_packetPieces] at hj
    exact hi j hj rfl
  · have hlen := length_getD_packetPieces hj
    show ((t.queue q.toNat).txPool.len _).toNat = _
    rw [hlens _ (State.packetPieces_mem_placed hj), hlen, BitVec.toNat_ofNat]
    exact Nat.mod_eq_of_lt (by omega)

/-! ### The memory -/

/-- The stores of distinct slots and buffers touch no byte in common (20_memory.md R111). -/
theorem pairwise_apart_stores {pl : List Placed} (hp : 0 < s.params.pageSize) (hslot : ∀ x ∈ pl, x.slot < s.n)
    (hbytes : ∀ x ∈ pl, x.bytes.length ≤ s.params.pageSize) (hslots : (pl.map Placed.slot).Nodup)
    (hbufs : (pl.map Placed.buf).Nodup) : (pl.flatMap (s.stores q)).Pairwise WbEntry.Apart := by
  have haddr : ∀ b, s.bufAddr .tx q b = s.qBase q + Params.ringArea s.params s.n + b * s.params.pageSize := fun _ => rfl
  have hdesc : ∀ x ∈ pl, ∀ b, s.descAddr .tx q x.slot + 16 ≤ s.bufAddr .tx q b := fun x hx b => by
    have := (State.descAddr_add_le (q := q) hp .tx (hslot x hx)).2
    rw [haddr]
    omega
  have hbelow : ∀ x ∈ pl, ∀ b, x.buf < b → s.bufAddr .tx q x.buf + x.bytes.length ≤ s.bufAddr .tx q b := fun x hx b hb => by
    have hmul := Nat.mul_le_mul_right s.params.pageSize (Nat.succ_le_of_lt hb)
    have := hbytes x hx
    rw [Nat.succ_mul] at hmul
    rw [haddr, haddr]
    omega
  rw [List.Nodup, List.pairwise_map] at hslots hbufs
  refine List.pairwise_flatMap.2 ⟨fun x hx => ?_, (hslots.and hbufs).imp_of_mem fun {x y} hx hy hne => ?_⟩
  · refine List.pairwise_pair.2 (.inr ?_)
    exact hdesc x hx x.buf
  · simp only [State.stores, List.mem_pair, forall_eq_or_imp, forall_eq, WbEntry.Apart, length_txDesc]
    have hxy := hdesc x hx y.buf
    have hyx := hdesc y hy x.buf
    have hdd : s.descAddr .tx q x.slot + 16 ≤ s.descAddr .tx q y.slot ∨ s.descAddr .tx q y.slot + 16 ≤ s.descAddr .tx q x.slot := by
      have := hne.1
      simp only [State.descAddr]
      omega
    have hbb : s.bufAddr .tx q x.buf + x.bytes.length ≤ s.bufAddr .tx q y.buf ∨
        s.bufAddr .tx q y.buf + y.bytes.length ≤ s.bufAddr .tx q x.buf :=
      (Nat.lt_or_gt_of_ne hne.2).imp (hbelow x hx y.buf) (hbelow y hy x.buf)
    exact ⟨⟨hbb, .inr hyx⟩, .inl hxy, hdd⟩

/-- Settles O34: the stores of the packet drain to memory, where each is found whole since they are apart. -/
theorem enqueueStoresPacket : Obligations.EnqueueStoresPacket := by
  intro q frags s t h ht hok
  dsimp only
  obtain ⟨v, hv⟩ := hok
  rcases execEnqueue_accepts_or_refuses ht with ha | ⟨st, hst, rfl⟩
  case inr =>
    cases hv
    exact absurd rfl hst
  obtain ⟨x, hx, hends⟩ := exec_enqueue_ends h ha
  rcases Res.answer_eq_next.1 (hx.symm.trans ht) with ⟨a, u, rfl, rfl⟩ | rfl
  case inr => exact hends.elim
  obtain ⟨-, hposted⟩ := hends
  have hmem : u.mem = _ := hposted.mem
  have hglobals := hposted.frame.globals
  obtain ⟨-, hfit, -, -, -, -, -, -, hpage, -⟩ := h.config.valid
  have hlen : (s.packetPieces frags).length ≤ (s.freeBuffers .tx q.toNat).length := by
    rw [State.length_packetPieces, length_freeBuffers]
    exact ha.buffers
  have hring : (s.packetPieces frags).length ≤ s.n := by
    have := s.ringFree_le .tx q.toNat
    have := ha.slots
    rw [State.length_packetPieces]
    omega
  have hapart : ((s.placed q.toNat (s.packetPieces frags)).flatMap (s.stores q.toNat)).Pairwise WbEntry.Apart :=
    pairwise_apart_stores (by omega) (fun _ => slot_lt_of_mem_placed) (fun _ hy => (length_le_of_mem_placed hy).trans hfit)
      (State.nodup_map_slot_placed hring) (State.nodup_map_buf_placed hlen)
  have hfound : ∀ y ∈ s.placed q.toNat (s.packetPieces frags), ∀ e ∈ s.stores q.toNat y,
      Memory.bytes u.mem e.addr e.bytes.length = e.bytes := fun y hy e he => by
    rw [hmem]
    exact bytes_drained_of_apart h.canon hapart (List.mem_flatMap.2 ⟨y, hy, he⟩)
  refine ⟨fun j hj => ?_, fun j hj => ?_, fun a hfree => ?_⟩
  · have hpiece := hfound _ (State.packetPieces_mem_placed hj) _ List.mem_cons_self
    dsimp only at hpiece
    rw [length_getD_packetPieces hj] at hpiece
    exact hpiece.trans (getD_pieces _ hj)
  · have hdesc := hfound _ (State.packetPieces_mem_placed hj) _ (List.mem_cons_of_mem _ List.mem_cons_self)
    dsimp only at hdesc
    rw [length_getD_packetPieces hj, length_txDesc] at hdesc
    have hcmd : txCmd (decide (j + 1 = (s.packetPieces frags).length)) =
        if j = pieceCount (packetLength frags) s.params.bufSize - 1 then 0x0B else 0x0A := by
      have hj : j < pieceCount (packetLength frags) s.params.bufSize := hj
      rw [State.length_packetPieces, txCmd]
      exact if_congr (decide_eq_true_iff.trans (by omega)) rfl rfl
    rw [hcmd] at hdesc
    show Memory.bytes u.mem (u.descAddr .tx q.toNat _) 16 = _
    rw [hglobals.descAddr_tx]
    exact hdesc
  · show Memory.byte u.mem a = _
    rw [hmem]
    refine byte_drained_of_not_within h.canon fun e he => ?_
    obtain ⟨y, hy, he⟩ := List.mem_flatMap.1 he
    obtain ⟨j, hj, rfl⟩ := State.mem_placed.1 hy
    rw [State.length_packetPieces] at hj
    obtain ⟨hbuf, hdesc⟩ := hfree j hj
    rw [State.stores, List.mem_pair] at he
    rcases he with rfl | rfl
    · dsimp only
      rw [length_getD_packetPieces hj]
      exact hbuf
    · exact hdesc

end Sys2Proof.Machine
end

section
/-! What the work on the RX side of one queue leaves unchanged (43_rx.md R360, R370). -/

namespace Sys2Proof.Machine

variable {s t u : State} {q : Nat}

/-- Beside memory, device, write buffer, events and response, only the RX side of queue q, its DISCARD and its RX_DROPS have
changed. -/
structure State.RxFrame (s t : State) (q : Nat) : Prop where
  globals : s.SameGlobals t
  lstate  : t.lstate = s.lstate
  others  : s.SameOtherQueues t q
  side    : Queue.SameButRx (s.queue q) (t.queue q)

theorem State.rxFrame_of_queues (hg : s.SameGlobals t) (hl : t.lstate = s.lstate) (hq : t.queues = s.queues) : s.RxFrame t q := by
  have hqueue : ∀ p, t.queue p = s.queue p := fun p => by rw [State.queue, State.queue, hq]
  refine ⟨hg, hl, fun p _ => hqueue p, ?_⟩
  rw [hqueue]
  exact ⟨rfl, rfl, rfl, rfl, rfl, rfl, rfl⟩

theorem State.RxFrame.refl (s : State) (q : Nat) : s.RxFrame s q :=
  State.rxFrame_of_queues ⟨rfl, rfl, rfl, rfl, rfl, rfl, rfl, rfl, rfl, rfl, rfl⟩ rfl rfl

theorem State.RxFrame.trans (h : s.RxFrame t q) (h' : t.RxFrame u q) : s.RxFrame u q := by
  refine ⟨h.globals.trans h'.globals, h'.lstate.trans h.lstate, fun p hp => (h'.others p hp).trans (h.others p hp), ?_⟩
  have hside := h.side
  have hside' := h'.side
  simp only [Queue.SameButRx] at hside hside' ⊢
  simp only [hside', hside, and_self]

theorem State.rxFrame_setQueue {x : Queue} (hx : Queue.SameButRx (s.queue q) x) : s.RxFrame (s.setQueue q x) q := by
  refine ⟨⟨rfl, rfl, rfl, rfl, rfl, rfl, rfl, rfl, rfl, rfl, rfl⟩, rfl, fun p hp => State.queue_setQueue_ne s q p x hp, ?_⟩
  rcases s.queue_setQueue_self q x with h | h <;> rw [h]
  · exact hx
  · exact ⟨rfl, rfl, rfl, rfl, rfl, rfl, rfl⟩

theorem rxFrame_events (s : State) (q : Nat) (es : List Event) : s.RxFrame { s with events := es } q :=
  State.rxFrame_of_queues ⟨rfl, rfl, rfl, rfl, rfl, rfl, rfl, rfl, rfl, rfl, rfl⟩ rfl rfl

theorem rxFrame_respond (s : State) (q : Nat) (st : Status) (v : Word) : s.RxFrame (s.respond st v) q :=
  State.rxFrame_of_queues ⟨rfl, rfl, rfl, rfl, rfl, rfl, rfl, rfl, rfl, rfl, rfl⟩ rfl rfl

theorem State.SameGlobals.descAddr_eq (h : s.SameGlobals t) (r : Ring) (q i : Nat) : t.descAddr r q i = s.descAddr r q i := by
  cases r <;> simp only [State.descAddr, State.ringBase, h.qBase_eq, h.n_eq]

theorem State.SameGlobals.bufAddr_eq (h : s.SameGlobals t) (r : Ring) (q b : Nat) : t.bufAddr r q b = s.bufAddr r q b := by
  cases r <;> simp only [State.bufAddr, h.qBase_eq, h.n_eq, h.poolSize_eq, h.1]

end Sys2Proof.Machine
end

section
/-! A run of buffers posted to a ring seen apart from the state (40_ring.md R205). -/

namespace Sys2Proof.Machine.RingView

variable {v : RingView} {n : Nat}

/-- The ring after a buffer from the list is posted to each slot from NTU on, whole records of one descriptor each. -/
def stagedAll (v : RingView) (n : Nat) (bs : List Nat) : RingView := bs.foldl (fun v b => v.staged n ⟨b, 0, false⟩) v

@[simp] theorem stagedAll_nil : v.stagedAll n [] = v := rfl

theorem stagedAll_cons (b : Nat) (bs : List Nat) : v.stagedAll n (b :: bs) = (v.staged n ⟨b, 0, false⟩).stagedAll n bs := rfl

@[simp] theorem ntc_stagedAll (bs : List Nat) : (v.stagedAll n bs).ntc = v.ntc := by
  induction bs generalizing v with
  | nil => rfl
  | cons b bs ih => exact ih

@[simp] theorem tail_stagedAll (bs : List Nat) : (v.stagedAll n bs).tail = v.tail := by
  induction bs generalizing v with
  | nil => rfl
  | cons b bs ih => exact ih

/-- The slot j past the slot after NTU is the slot j + 1 past NTU. -/
theorem ringInc_add (n i j : Nat) : (ringInc n i + j) % n = (i + (j + 1)) % n := by
  rw [ringInc, Nat.mod_add_mod, Nat.add_assoc, Nat.add_comm 1]

theorem ntu_stagedAll (hu : v.ntu < n) (bs : List Nat) : (v.stagedAll n bs).ntu = (v.ntu + bs.length) % n := by
  induction bs generalizing v with
  | nil => exact (Nat.mod_eq_of_lt hu).symm
  | cons b bs ih => exact (ih (ringInc_lt (Nat.zero_lt_of_lt hu))).trans (ringInc_add n v.ntu bs.length)

theorem tag_stagedAll (bs : List Nat) (c : Nat) : (v.stagedAll n bs).tag c = if c ∈ bs then .hw else v.tag c := by
  induction bs generalizing v with
  | nil => rfl
  | cons b bs ih =>
    rw [stagedAll_cons, ih, show (v.staged n ⟨b, 0, false⟩).tag = Function.update v.tag b .hw from rfl, Function.update_apply]
    by_cases hc : c = b <;> simp [hc]

/-- A slot that no buffer was posted to keeps its record. -/
theorem record_stagedAll_of_ne (hu : v.ntu < n) (bs : List Nat) {i : Nat} (hi : ∀ j < bs.length, i ≠ (v.ntu + j) % n) :
    (v.stagedAll n bs).record i = v.record i := by
  induction bs generalizing v with
  | nil => rfl
  | cons b bs ih =>
    have hfirst : i ≠ v.ntu := fun h => hi 0 (Nat.zero_lt_succ _) (by rw [h, Nat.add_zero, Nat.mod_eq_of_lt hu])
    rw [stagedAll_cons, ih (ringInc_lt (Nat.zero_lt_of_lt hu)) fun j hj he => hi (j + 1) (Nat.succ_lt_succ hj)
      (he.trans (ringInc_add n v.ntu j))]
    exact Function.update_of_ne hfirst _ _

/-- The j-th slot from NTU on names the j-th buffer. -/
theorem record_stagedAll (hu : v.ntu < n) {bs : List Nat} (hlen : bs.length ≤ n) {j : Nat} (hj : j < bs.length) :
    (v.stagedAll n bs).record ((v.ntu + j) % n) = ⟨bs.getD j 0, 0, false⟩ := by
  have hn := Nat.zero_lt_of_lt hu
  induction bs generalizing v j with
  | nil => exact absurd hj (Nat.not_lt_zero j)
  | cons b bs ih =>
    rw [List.length_cons] at hlen hj
    cases j with
    | zero =>
      have hlater : ∀ j < bs.length, v.ntu ≠ ((v.staged n ⟨b, 0, false⟩).ntu + j) % n := fun j hj he => by
        have he : v.ntu = (v.ntu + (j + 1)) % n := he.trans (ringInc_add n v.ntu j)
        have hdist := ringDist_add hu (show j + 1 < n by omega)
        rw [← he, ringDist_self hu] at hdist
        omega
      rw [Nat.add_zero, Nat.mod_eq_of_lt hu, stagedAll_cons, record_stagedAll_of_ne (ringInc_lt hn) bs hlater]
      exact Function.update_self ..
    | succ j =>
      have hrest := ih (v := v.staged n ⟨b, 0, false⟩) (ringInc_lt hn) (by omega) (show j < bs.length by omega)
      rw [← ringInc_add]
      exact hrest

end Sys2Proof.Machine.RingView
end

section
/-! Refill (43_rx.md R370 to R374): the buffers it posts, and the state it leaves. -/

namespace Sys2Proof.Machine

variable {s t u : State} {q : Nat}

/-! ### One buffer -/

/-- The write that posting buffer b to an RX slot makes (43_rx.md R372). -/
def State.rxStore (s : State) (q slot b : Nat) : WbEntry := ⟨s.descAddr .rx q slot, rxDesc (s.bufAddr .rx q b)⟩

/-- The state with one Free buffer posted to NTU. -/
def State.withBuffer (s : State) (q b : Nat) : State :=
  (s.posted .rx q (rxDesc (s.bufAddr .rx q b)) ⟨b, 0, false⟩).markedPosted .rx q b s.params.bufSize

/-- What posting one buffer does to its queue. -/
theorem queue_withBuffer (hq : q < s.queues.length) (b : Nat) : (s.withBuffer q b).queue q =
    { s.queue q with
      rx     := { (s.queue q).rx with ntu := BitVec.ofNat 16 (ringInc s.n (s.ntu .rx q)) }
      swRx   := (s.queue q).swRx.set (s.ntu .rx q) ⟨BitVec.ofNat 16 b⟩
      rxPool := ((s.queue q).rxPool.setTag b .hw).setLen b s.params.bufSize } := by
  have hpost : (s.posted .rx q (rxDesc (s.bufAddr .rx q b)) ⟨b, 0, false⟩).queue q = _ := State.queue_setQueue_same _ _ _ hq
  rw [State.withBuffer, State.markedPosted, State.queue_setQueue_same _ _ _ (by simpa [State.posted] using hq), hpost]
  rfl

theorem rxFrame_withBuffer (s : State) (q b : Nat) : s.RxFrame (s.withBuffer q b) q := by
  have hstore : s.RxFrame (s.stored (s.descAddr .rx q (s.ntu .rx q)) (rxDesc (s.bufAddr .rx q b))) q :=
    State.rxFrame_of_queues ⟨rfl, rfl, rfl, rfl, rfl, rfl, rfl, rfl, rfl, rfl, rfl⟩ rfl rfl
  have hpost := hstore.trans (u := s.posted .rx q (rxDesc (s.bufAddr .rx q b)) ⟨b, 0, false⟩)
    (State.rxFrame_setQueue ⟨rfl, rfl, rfl, rfl, rfl, rfl, rfl⟩)
  exact hpost.trans (State.rxFrame_setQueue ⟨rfl, rfl, rfl, rfl, rfl, rfl, rfl⟩)

/-! ### A run of buffers -/

/-- The writes that posting a list of buffers to the slots from NTU on makes. -/
def State.rxStores (s : State) (q : Nat) (bs : List Nat) : List WbEntry :=
  bs.mapIdx fun j b => s.rxStore q ((s.ntu .rx q + j) % s.n) b

theorem State.mem_rxStores {bs : List Nat} {e : WbEntry} :
    e ∈ s.rxStores q bs ↔ ∃ j < bs.length, s.rxStore q ((s.ntu .rx q + j) % s.n) (bs.getD j 0) = e := by
  simp only [State.rxStores, List.mem_mapIdx, ← exists_prop]
  exact exists_congr fun j => exists_congr fun hj => by rw [List.getD_eq_getElem _ _ hj]

/-- The buffers bs have been posted from s, and the tail write is owed: the stores wait in the write buffer. -/
structure State.Stocked (s : State) (q : Nat) (bs : List Nat) (t : State) : Prop where
  posting : t.Posting .rx q 0
  owed    : t.TailOwed .rx q
  frame   : s.RxFrame t q
  view    : t.view .rx q = (s.view .rx q).stagedAll s.n bs
  mem     : t.mem = s.mem
  dev     : t.dev = s.dev
  wb      : t.wb = s.wb ++ s.rxStores q bs
  events  : ∃ es, t.events = s.events ++ es ∧ ∀ e ∈ es, e.isRegWrite = false ∧ e.isDeliver = false
  blen    : (t.queue q).rxPool.blen.length = (s.queue q).rxPool.blen.length
  lens    : ∀ c, (t.queue q).rxPool.len c =
    if c ∈ bs ∧ c < (s.queue q).rxPool.blen.length then BitVec.ofNat 16 s.params.bufSize else (s.queue q).rxPool.len c
  discard : (t.queue q).discard = (s.queue q).discard
  drops   : (t.queue q).rxDrops = (s.queue q).rxDrops

theorem State.Posting.stocked_nil (h : s.Posting .rx q 0) (howed : s.TailOwed .rx q) : s.Stocked q [] s where
  posting := h
  owed    := howed
  frame   := .refl s q
  view    := rfl
  mem     := rfl
  dev     := rfl
  wb      := (List.append_nil _).symm
  events  := ⟨[], (List.append_nil _).symm, nofun⟩
  blen    := rfl
  lens    := fun _ => (if_neg fun h => nomatch h.1).symm
  discard := rfl
  drops   := rfl

/-- A Free buffer posted to a ring with room. -/
theorem State.Posting.stocked_one {b : Nat} (h : s.Posting .rx q 0) (hroom : s.ringFull .rx q = false)
    (hb : poolAcquire .rx q s = some b) : s.Stocked q [b] (s.withBuffer q b) := by
  have hq := h.focus.running.queue_lt h.focus.lt
  have hqueue := queue_withBuffer hq b
  obtain ⟨hposting, howed, hview, -⟩ := h.stage (w := ⟨b, 0, false⟩) (len := s.params.bufSize)
    (desc := rxDesc (s.bufAddr .rx q b)) hroom hb (Nat.two_pow_pos 16) nofun
  refine ⟨hposting, howed, rxFrame_withBuffer s q b, hview, rfl, rfl, ?_, ⟨_, rfl, by simp [Event.isRegWrite, Event.isDeliver]⟩,
    ?_, fun c => ?_, ?_, ?_⟩
  · show s.wb ++ [_] = s.wb ++ [s.rxStore q ((s.ntu .rx q + 0) % s.n) b]
    rw [Nat.add_zero, show s.ntu .rx q % s.n = s.ntu .rx q from Nat.mod_eq_of_lt h.tracked.ntu_lt]
    rfl
  · rw [hqueue]
    exact List.length_set
  · rw [hqueue]
    dsimp only
    rw [Pool.len_setLen, Pool.len_setTag]
    exact if_congr (and_congr_left' (by rw [List.mem_singleton, eq_comm])) rfl rfl
  · rw [hqueue]
  · rw [hqueue]

/-- One buffer and then the others. -/
theorem State.Stocked.cons {b : Nat} {bs : List Nat} (h : s.Stocked q [b] t) (h' : t.Stocked q bs u) :
    s.Stocked q (b :: bs) u where
  posting := h'.posting
  owed    := h'.owed
  frame   := h.frame.trans h'.frame
  view    := by rw [h'.view, h.view, h.frame.globals.n_eq]; rfl
  mem     := h'.mem.trans h.mem
  dev     := h'.dev.trans h.dev
  wb      := by
    have hntu : t.ntu .rx q = ringInc s.n (s.ntu .rx q) := congrArg RingView.ntu h.view
    have hrest : t.rxStores q bs = bs.mapIdx fun j c => s.rxStore q ((s.ntu .rx q + (j + 1)) % s.n) c := by
      simp only [State.rxStores, State.rxStore, h.frame.globals.descAddr_eq, h.frame.globals.bufAddr_eq, h.frame.globals.n_eq,
        hntu, RingView.ringInc_add]
    rw [h'.wb, h.wb, hrest, State.rxStores, State.rxStores, List.mapIdx_cons, List.mapIdx_cons, List.mapIdx_nil,
      List.append_assoc]
    rfl
  events  := by
    obtain ⟨es, hes, hkind⟩ := h.events
    obtain ⟨es', hes', hkind'⟩ := h'.events
    exact ⟨es ++ es', by rw [hes', hes, List.append_assoc], List.forall_mem_append.2 ⟨hkind, hkind'⟩⟩
  blen    := h'.blen.trans h.blen
  lens    := fun c => by
    rw [h'.lens, h.lens, h.blen, h.frame.globals.1]
    by_cases hc : c ∈ bs ∧ c < (s.queue q).rxPool.blen.length
    · rw [if_pos hc, if_pos ⟨List.mem_cons_of_mem b hc.1, hc.2⟩]
    · rw [if_neg hc]
      refine if_congr ?_ rfl rfl
      rw [List.mem_singleton, List.mem_cons]
      tauto
  discard := h'.discard.trans h.discard
  drops   := h'.drops.trans h.drops

theorem State.Stocked.tag_eq {bs : List Nat} (h : s.Stocked q bs t) (c : Nat) :
    t.tag .rx q c = if c ∈ bs then .hw else s.tag .rx q c :=
  (congrFun (congrArg RingView.tag h.view) c).trans (RingView.tag_stagedAll bs c)

/-! ### The loop -/

/-- Posting the lowest Free buffer leaves the others Free. -/
theorem State.Stocked.freeBuffers_eq {b : Nat} {free : List Nat} (h : s.Stocked q [b] t) (hfree : s.freeBuffers .rx q = b :: free) :
    t.freeBuffers .rx q = free := by
  have hnodup := s.nodup_freeBuffers .rx q
  have hfilter : t.freeBuffers .rx q = (s.freeBuffers .rx q).filter (· ≠ b) := by
    rw [State.freeBuffers, State.freeBuffers, List.filter_filter, h.frame.globals.poolSize_eq]
    refine List.filter_congr fun i _ => ?_
    rw [h.tag_eq]
    by_cases hi : i = b <;> simp [hi]
  rw [hfree, List.nodup_cons] at hnodup
  rw [hfilter, hfree, List.filter_cons_of_neg (by simp), List.filter_eq_self]
  intro i hi
  simpa using ne_of_mem_of_not_mem hi hnodup.1

theorem State.Posting.ringFree_eq_zero_iff {r : Ring} {target : Nat} (h : s.Posting r q target) :
    s.ringFree r q = 0 ↔ s.ringFull r q = true := by
  rw [← s.occupancy_eq_max_iff r q h.tracked.ntu_lt h.tracked.ntc_lt, State.ringFree]
  have := s.occupancy_lt r q
  omega

theorem State.Stocked.ringFree_eq {b : Nat} (h : s.Stocked q [b] t) (hs : s.Posting .rx q 0) (hroom : s.ringFull .rx q = false) :
    t.ringFree .rx q = s.ringFree .rx q - 1 := by
  have hcount : (t.view .rx q).count t.n = (s.view .rx q).count s.n + 1 := by
    rw [h.view, h.frame.globals.n_eq]
    exact RingView.count_staged hs.tracked.ntu_lt hs.tracked.ntc_lt (hs.count_lt_of_room hroom)
  have hocc : t.occupancy .rx q = s.occupancy .rx q + 1 := hcount
  rw [State.ringFree, State.ringFree, hocc, h.frame.globals.n_eq]
  omega

/-- How many buffers a refill posts (43_rx.md R371). -/
def State.refillCount (s : State) (q : Nat) : Nat := min (s.ringFree .rx q) (s.freeBuffers .rx q).length

/-- The buffers a refill posts: the Free ones, lowest first, while the ring has room. -/
def State.refillBufs (s : State) (q : Nat) : List Nat := (s.freeBuffers .rx q).take (s.ringFree .rx q)

@[simp] theorem State.length_refillBufs (s : State) (q : Nat) : (s.refillBufs q).length = s.refillCount q := List.length_take

theorem tag_posted_rx (s : State) (q c : Nat) (desc : List Byte) (w : SlotRecord) :
    (s.posted .rx q desc w).tag .rx q c = s.tag .rx q c := by
  rw [State.tag, State.posted]
  rcases State.queue_setQueue_self (State.emit _ _) q _ with hx | hx <;> rw [hx]
  · rfl
  · rfl

/-- One round: a Free buffer, room in the ring, and memory for the descriptor. -/
theorem refillLoop_succ {b : Nat} (fuel posted : Nat) (hroom : s.ringFull .rx q = false) (hb : poolAcquire .rx q s = some b)
    (hback : s.params.Backs (s.descAddr .rx q (s.ntu .rx q)) 16) :
    refillLoop q (fuel + 1) posted s = refillLoop q fuel (posted + 1) (s.withBuffer q b) := by
  obtain ⟨-, htag, -⟩ := poolAcquire_eq_some hb
  rw [refillLoop, hroom, if_neg Bool.false_ne_true, hb]
  dsimp only
  rw [ringPost_of_room (desc := rxDesc (s.bufAddr .rx q b)) hroom hback, Res.bind_ok]
  dsimp only
  rw [poolMarkPosted_of_free ((tag_posted_rx ..).trans htag), Res.bind_ok]
  rfl

theorem refillLoop_succ_of_not_backed {b : Nat} (fuel posted : Nat) (hroom : s.ringFull .rx q = false)
    (hb : poolAcquire .rx q s = some b) (hback : ¬ s.params.Backs (s.descAddr .rx q (s.ntu .rx q)) 16) :
    refillLoop q (fuel + 1) posted s = .stuck .memoryNotBacked := by
  rw [refillLoop, hroom, if_neg Bool.false_ne_true, hb]
  dsimp only
  rw [ringPost_of_not_backs (desc := rxDesc (s.bufAddr .rx q b)) hroom hback, Res.bind_stuck]

/-- Everything the loop of rx_refill can do, given a round for each buffer and one more: it posts all it may, or the platform has no
memory for a descriptor. -/
theorem refillLoop_ends (fuel posted : Nat) (h : s.Posting .rx q 0) (howed : s.TailOwed .rx q) (hfuel : s.refillCount q < fuel) :
    (refillLoop q fuel posted s).Ends
      (fun a t => a = (posted + s.refillCount q, decide ((s.freeBuffers .rx q).length < s.ringFree .rx q)) ∧
        s.Stocked q (s.refillBufs q) t)
      (fun _ => False) (fun _ => ∃ i < s.n, ¬ s.params.Backs (s.descAddr .rx q i) 16) := by
  induction fuel generalizing posted s with
  | zero => exact absurd hfuel (Nat.not_lt_zero _)
  | succ fuel ih =>
    unfold State.refillCount State.refillBufs at *
    by_cases hfull : s.ringFull .rx q = true
    · rw [refillLoop, if_pos hfull, h.ringFree_eq_zero_iff.2 hfull, Nat.zero_min]
      exact ⟨by simp, h.stocked_nil howed⟩
    have hroom : s.ringFull .rx q = false := by simpa using hfull
    have hpos : 0 < s.ringFree .rx q := Nat.pos_of_ne_zero (mt h.ringFree_eq_zero_iff.1 hfull)
    cases hfree : s.freeBuffers .rx q with
    | nil =>
      rw [refillLoop, if_neg hfull, poolAcquire_eq_head, hfree, List.take_nil]
      exact ⟨by simp [hpos], h.stocked_nil howed⟩
    | cons b free =>
      have hb : poolAcquire .rx q s = some b := by rw [poolAcquire_eq_head, hfree, List.head?_cons]
      by_cases hback : s.params.Backs (s.descAddr .rx q (s.ntu .rx q)) 16
      case neg =>
        rw [refillLoop_succ_of_not_backed fuel posted hroom hb hback]
        exact ⟨_, h.tracked.ntu_lt, hback⟩
      have hone := h.stocked_one hroom hb
      have hrest := ih (posted + 1) hone.posting hone.owed
      rw [hone.freeBuffers_eq hfree, hone.ringFree_eq h hroom] at hrest
      rw [hfree, List.length_cons] at hfuel
      rw [refillLoop_succ fuel posted hroom hb hback, List.length_cons, List.take_cons hpos]
      refine (hrest (by omega)).mono (fun a t ht => ?_) (fun _ => id) (fun _ hf => ?_)
      · obtain ⟨rfl, hstock⟩ := ht
        refine ⟨Prod.ext ?_ (decide_eq_decide.2 ?_), hone.cons hstock⟩
        · dsimp only
          omega
        · omega
      · simpa only [hone.frame.globals.n_eq, hone.frame.globals.1, hone.frame.globals.descAddr_eq] using hf

end Sys2Proof.Machine
end

section
/-! What a refill leaves (43_rx.md R371, R374), and REFILL. -/

namespace Sys2Proof.Machine

variable {s t u : State} {q : Nat}

/-! ### The tail write -/

/-- The state after a tail write of the RX ring that was owed. -/
def State.rxTailWritten (s : State) (q : Nat) : State :=
  ((s.barrier .write).regWrite (.tail .rx q) (BitVec.ofNat 32 (s.ntu .rx q))).setQueue q
    ((s.queue q).setCur .rx { (s.queue q).cur .rx with tail := ((s.queue q).cur .rx).ntu })

theorem rxFrame_rxTailWritten (s : State) (q : Nat) : s.RxFrame (s.rxTailWritten q) q := by
  have hwrite : s.RxFrame ((s.barrier .write).regWrite (.tail .rx q) (BitVec.ofNat 32 (s.ntu .rx q))) q :=
    State.rxFrame_of_queues (by simp [State.SameGlobals]) (by simp) (by simp)
  have hside : Queue.SameButRx (s.queue q)
      ((s.queue q).setCur .rx { (s.queue q).cur .rx with tail := ((s.queue q).cur .rx).ntu }) :=
    ⟨rfl, rfl, rfl, rfl, rfl, rfl, rfl⟩
  refine hwrite.trans (State.rxFrame_setQueue ?_)
  rw [State.queue_regWrite, State.queue_barrier]
  exact hside

theorem events_rxTailWritten (s : State) (q : Nat) : (s.rxTailWritten q).events = s.events ++
    [.barrier .write, .regWrite (devOffset s.params.devRegs (.tail .rx q)) (BitVec.ofNat 32 (s.ntu .rx q))] :=
  List.append_assoc ..

theorem dev_rxTailWritten (s : State) (q : Nat) : (s.rxTailWritten q).dev =
    s.dev.setRing .rx q { s.dev.ring .rx q with tail := BitVec.ofNat 16 (s.ntu .rx q) } := by
  show s.dev.setRing .rx q { s.dev.ring .rx q with tail := (BitVec.ofNat 32 (s.ntu .rx q)).setWidth 16 } = _
  rw [BitVec.setWidth_ofNat_of_le (by decide)]

theorem queue_rxTailWritten (hq : q < s.queues.length) : (s.rxTailWritten q).queue q =
    { s.queue q with rx := { (s.queue q).rx with tail := (s.queue q).rx.ntu } } :=
  State.queue_setQueue_same _ _ _ hq

/-! ### The refill -/

/-- The buffers bs have been posted from s: stored, and the tail register written unless there is none. -/
structure State.Restocked (s : State) (q : Nat) (bs : List Nat) (t : State) : Prop where
  ready   : t.Ready
  frame   : s.RxFrame t q
  view    : t.view .rx q = { (s.view .rx q).stagedAll s.n bs with tail := (s.ntu .rx q + bs.length) % s.n }
  mem     : t.mem = drained s.mem (s.rxStores q bs)
  dev     : t.dev = if bs.length = 0 then s.dev
    else s.dev.setRing .rx q { s.dev.ring .rx q with tail := BitVec.ofNat 16 ((s.ntu .rx q + bs.length) % s.n) }
  events  : ∃ es, (∀ e ∈ es, e.isRegWrite = false ∧ e.isDeliver = false) ∧ t.events = s.events ++ es ++
    (if bs.length = 0 then [] else [.barrier .write,
      .regWrite (devOffset s.params.devRegs (.tail .rx q)) (BitVec.ofNat 32 ((s.ntu .rx q + bs.length) % s.n))])
  lens    : ∀ c, (t.queue q).rxPool.len c =
    if c ∈ bs ∧ c < (s.queue q).rxPool.blen.length then BitVec.ofNat 16 s.params.bufSize else (s.queue q).rxPool.len c
  discard : (t.queue q).discard = (s.queue q).discard
  drops   : (t.queue q).rxDrops = (s.queue q).rxDrops

theorem State.Stocked.ntu_eq {bs : List Nat} (h : s.Stocked q bs t) (hu : s.ntu .rx q < s.n) :
    t.ntu .rx q = (s.ntu .rx q + bs.length) % s.n :=
  (congrArg RingView.ntu h.view).trans (RingView.ntu_stagedAll hu bs)

/-- With nothing posted no tail write is owed. -/
theorem State.Stocked.restocked_nil (h : s.Stocked q [] t) (hs : s.Ready) (hq : q < maxQueues) :
    s.Restocked q [] (ringTailSync .rx q t) := by
  obtain ⟨htr, hsync, -, -⟩ := hs.rings.settled .rx q hq
  have htail : t.tail .rx q = t.ntu .rx q :=
    ((congrArg RingView.tail h.view).trans hsync).trans (congrArg RingView.ntu h.view).symm
  have hready := h.posting.ready_ringTailSync h.owed nofun
  rw [ringTailSync_of_eq htail] at hready ⊢
  have hu : s.ntu .rx q < s.n := htr.ntu_lt
  obtain ⟨es, hes, hkind⟩ := h.events
  refine ⟨hready, h.frame, ?_, h.mem, h.dev, ⟨es, hkind, ?_⟩, h.lens, h.discard, h.drops⟩
  · rw [h.view, List.length_nil, Nat.add_zero, Nat.mod_eq_of_lt hu, show s.ntu .rx q = (s.view .rx q).tail from hsync.symm]
    rfl
  · rw [hes, List.length_nil, if_pos rfl, List.append_nil]

/-- Fewer buffers than slots move NTU off the old tail, so the tail write is owed (40_ring.md R210). -/
theorem State.Stocked.restocked {bs : List Nat} (h : s.Stocked q bs t) (hs : s.Ready) (hq : q < maxQueues)
    (hpos : 1 ≤ bs.length) (hlt : bs.length < s.n) : s.Restocked q bs (ringTailSync .rx q t) := by
  obtain ⟨htr, hsync, -, -⟩ := hs.rings.settled .rx q hq
  have hntu := h.ntu_eq htr.ntu_lt
  have howed : t.tail .rx q ≠ t.ntu .rx q := by
    have htail : t.tail .rx q = s.ntu .rx q := (congrArg RingView.tail h.view).trans ((RingView.tail_stagedAll bs).trans hsync)
    rw [htail, hntu]
    intro he
    have hdist := ringDist_add htr.ntu_lt hlt
    rw [show (s.view .rx q).ntu = s.ntu .rx q from rfl, ← he, ringDist_self (show s.ntu .rx q < s.n from htr.ntu_lt)] at hdist
    omega
  have hready := h.posting.ready_ringTailSync h.owed nofun
  have hwritten : ringTailSync .rx q t = t.rxTailWritten q := ringTailSync_of_ne howed
  have hqueue := queue_rxTailWritten (h.posting.focus.running.queue_lt hq)
  have hne : bs.length ≠ 0 := by omega
  rw [hwritten] at hready ⊢
  obtain ⟨es, hes, hkind⟩ := h.events
  refine ⟨hready, h.frame.trans (rxFrame_rxTailWritten t q), ?_, ?_, ?_, ⟨es, hkind, ?_⟩, ?_, ?_, ?_⟩
  · rw [← hntu, ← h.view, State.view, State.view, hqueue]
    rfl
  · show drained t.mem t.wb = _
    rw [h.mem, h.wb, hs.rings.noWb, List.nil_append]
  · rw [if_neg hne, dev_rxTailWritten, h.dev, hntu]
  · rw [if_neg hne, events_rxTailWritten, hes, hntu, h.frame.globals.1]
  · rw [hqueue]
    exact h.lens
  · rw [hqueue]
    exact h.discard
  · rw [hqueue]
    exact h.drops

theorem State.refillCount_lt (s : State) (q : Nat) : s.refillCount q < s.n := by
  have hring : s.refillCount q ≤ s.n - 1 - s.occupancy .rx q := Nat.min_le_left ..
  have := s.n_pos
  omega

/-- Everything rx_refill can do: it posts the Free buffers it has slots for, and says how many and whether the pool ran out; or the
platform has no memory for a descriptor. -/
theorem rxRefill_ends (h : s.Ready) (hq : q < maxQueues) :
    (rxRefill q s).Ends
      (fun a t => a = (s.refillCount q, decide ((s.freeBuffers .rx q).length < s.ringFree .rx q)) ∧
        s.Restocked q (s.refillBufs q) t)
      (fun _ => False) (fun _ => ∃ i < s.n, ¬ s.params.Backs (s.descAddr .rx q i) 16) := by
  refine (refillLoop_ends s.n 0 (h.posting .rx hq 0) (.inl h.rings.noWb) (s.refillCount_lt q)).bind ?_
  rintro a t ⟨rfl, hstock⟩
  refine ⟨by rw [Nat.zero_add], ?_⟩
  cases hbs : s.refillBufs q with
  | nil => exact (hbs ▸ hstock).restocked_nil h hq
  | cons b bs =>
    have hlt := s.refillCount_lt q
    rw [← State.length_refillBufs, hbs] at hlt
    exact (hbs ▸ hstock).restocked h hq (Nat.le_add_left 1 bs.length) hlt

/-- Where the platform has memory for the ring, a refill goes through. -/
theorem rxRefill_of_backed (h : s.Ready) (hq : q < maxQueues) (hb : ∀ i < s.n, s.params.Backs (s.descAddr .rx q i) 16) :
    ∃ t, rxRefill q s = .ok (s.refillCount q, decide ((s.freeBuffers .rx q).length < s.ringFree .rx q)) t ∧
      s.Restocked q (s.refillBufs q) t := by
  have hends := rxRefill_ends h hq
  cases hx : rxRefill q s with
  | ok a t =>
    rw [hx] at hends
    obtain ⟨rfl, ht⟩ := hends
    exact ⟨t, rfl, ht⟩
  | ended t =>
    rw [hx] at hends
    exact hends.elim
  | stuck f =>
    rw [hx] at hends
    obtain ⟨i, hi, hnot⟩ := hends
    exact absurd (hb i hi) hnot

/-! ### What a refill leaves -/

theorem State.mem_refillBufs_free {b : Nat} (h : b ∈ s.refillBufs q) : b < s.n ∧ s.tag .rx q b = .free :=
  State.mem_freeBuffers.1 (List.mem_of_mem_take h)

theorem State.Restocked.tag_eq {bs : List Nat} (h : s.Restocked q bs t) (c : Nat) :
    t.tag .rx q c = if c ∈ bs then .hw else s.tag .rx q c :=
  (congrFun (congrArg RingView.tag h.view) c).trans (RingView.tag_stagedAll bs c)

theorem State.Restocked.ntc_eq {bs : List Nat} (h : s.Restocked q bs t) : t.ntc .rx q = s.ntc .rx q :=
  (congrArg RingView.ntc h.view).trans (RingView.ntc_stagedAll bs)

theorem State.Restocked.ntu_eq {bs : List Nat} (h : s.Restocked q bs t) (hu : s.ntu .rx q < s.n) :
    t.ntu .rx q = (s.ntu .rx q + bs.length) % s.n :=
  (congrArg RingView.ntu h.view).trans (RingView.ntu_stagedAll hu bs)

/-- The three cursors of the ring after a refill (43_rx.md R371). -/
theorem State.Restocked.cursors {bs : List Nat} (h : s.Restocked q bs t) (hu : s.ntu .rx q < s.n) : (t.queue q).rx =
    ⟨BitVec.ofNat 16 ((s.ntu .rx q + bs.length) % s.n), (s.queue q).rx.ntc, BitVec.ofNat 16 ((s.ntu .rx q + bs.length) % s.n)⟩ := by
  have hfit := s.toNat_ofNat_mod_n (s.ntu .rx q + bs.length)
  have hntu : (t.queue q).rx.ntu = BitVec.ofNat 16 ((s.ntu .rx q + bs.length) % s.n) :=
    BitVec.eq_of_toNat_eq ((h.ntu_eq hu).trans hfit.symm)
  have hntc : (t.queue q).rx.ntc = (s.queue q).rx.ntc := BitVec.eq_of_toNat_eq h.ntc_eq
  have htail : (t.queue q).rx.tail = BitVec.ofNat 16 ((s.ntu .rx q + bs.length) % s.n) :=
    BitVec.eq_of_toNat_eq ((congrArg RingView.tail h.view).trans hfit.symm)
  rw [← hntu, ← hntc]
  exact congrArg (Cursors.mk _ _) (htail.trans hntu.symm)

/-- A refill stops for want of a slot or of a Free buffer (43_rx.md R374). -/
theorem State.Restocked.full_or_exhausted (h : s.Restocked q (s.refillBufs q) t) (hs : s.Ready) (hq : q < maxQueues) :
    t.ringFull .rx q = true ∨ ∀ c < s.n, t.tag .rx q c ≠ .free := by
  obtain ⟨htr, -, -, -⟩ := hs.rings.settled .rx q hq
  by_cases hcount : s.ringFree .rx q ≤ (s.freeBuffers .rx q).length
  · left
    have hk : s.refillCount q = s.n - 1 - (s.view .rx q).count s.n := Nat.min_eq_left hcount
    have hcount := htr.count_lt
    rw [State.ringFull_iff, h.frame.globals.n_eq, h.ntc_eq, h.ntu_eq htr.ntu_lt, State.length_refillBufs, hk, ringInc,
      Nat.mod_add_mod]
    have hntu : s.ntu .rx q = (s.ntc .rx q + (s.view .rx q).count s.n) % s.n := (RingView.slotAt_count htr.ntu_lt htr.ntc_lt).symm
    rw [hntu, Nat.add_assoc, Nat.mod_add_mod, Nat.add_assoc,
      show (s.view .rx q).count s.n + (s.n - 1 - (s.view .rx q).count s.n + 1) = s.n by omega, Nat.add_mod_right]
    exact Nat.mod_eq_of_lt htr.ntc_lt
  · right
    intro c hc hfree
    have hall : s.refillBufs q = s.freeBuffers .rx q := List.take_of_length_le (by omega)
    rw [h.tag_eq, hall] at hfree
    split at hfree
    · cases hfree
    · next hno => exact hno (State.mem_freeBuffers.2 ⟨hc, hfree⟩)

/-! ### REFILL and the closed gate -/

/-- In RingsReady REFILL is the refill and its answer (43_rx.md R370). -/
theorem exec_refill_of_live {q : BitVec 7} (h : s.Live q) : exec (.refill q) s =
    Res.answer ((rxRefill q.toNat s).bind fun done t =>
      .ok (.ok, (if done.2 then 0x10000 else 0) ||| BitVec.ofNat 32 done.1) t) := by
  rw [show exec (.refill q) s = execRefill q s from rfl, execRefill, perQueue_of_lt h.1, if_neg (not_not_intro h.2)]

/-- In RingsReady SERVICE_RX is the loop, if the reporting gate is open, and then a refill (43_rx.md R360). -/
theorem exec_serviceRx_of_live {q : BitVec 7} (b : Half) (h : s.Live q) : exec (.serviceRx q b) s =
    Res.answer ((if s.rxReporting then rxLoop q.toNat (s.budget b) s.n 0 0 0 s else .ok (0, 0) s).bind fun done t =>
      (rxRefill q.toNat t).bind fun _ t => .ok (.ok, BitVec.ofNat 32 done.2 <<< 16 ||| BitVec.ofNat 32 done.1) t) := by
  rw [show exec (.serviceRx q b) s = execServiceRx q b s from rfl, execServiceRx, perQueue_of_lt h.1, rxPass,
    if_neg (not_not_intro h.2), Res.bind_assoc]
  simp only [Res.bind_assoc, Res.bind_ok]

/-- No part of a refill enters a fault. -/
theorem refillLoop_not_ended (fuel posted : Nat) (s : State) :
    (refillLoop q fuel posted s).Ends (fun _ _ => True) (fun _ => False) (fun _ => True) := by
  induction fuel generalizing posted s with
  | zero => trivial
  | succ fuel ih =>
    unfold refillLoop
    split
    · trivial
    split
    · trivial
    refine ((ringPost_ends ..).mono (fun _ _ _ => trivial) (fun _ => id) (fun _ _ => trivial)).bind fun slot t _ => ?_
    cases slot with
    | none => trivial
    | some _ =>
      exact ((poolMarkPosted_ends ..).mono (fun _ _ _ => trivial) (fun _ => id) (fun _ _ => trivial)).bind fun _ u _ => ih _ u

theorem rxReporting_eq_false_iff : s.rxReporting = false ↔
    lstateLink s.lstate ≠ 2 ∧ (lstateLink s.lstate ≠ 1 ∨ s.params.rxWhileNegotiating = false) := by
  simp [State.rxReporting, linkUp, linkNegotiating, imp_iff_not_or]

/-- Settles O44: with the gate closed the pass is the refill alone, which ends no command by a fault. -/
theorem closedGateOnlyRefills : Obligations.ClosedGateOnlyRefills := by
  intro q b s hlive hgate
  have hrefill : (rxRefill q.toNat s).Ends (fun _ _ => True) (fun _ => False) (fun _ => True) :=
    (refillLoop_not_ended s.n 0 s).bind fun _ _ _ => trivial
  rw [exec_serviceRx_of_live b hlive, rxReporting_eq_false_iff.2 hgate, if_neg Bool.false_ne_true, Res.bind_ok,
    exec_refill_of_live hlive]
  cases hx : rxRefill q.toNat s with
  | ok done t => rfl
  | ended t =>
    rw [hx] at hrefill
    exact hrefill.elim
  | stuck f => rfl

end Sys2Proof.Machine
end

section
/-! What REFILL answers and leaves in registers, memory and device (43_rx.md R370 to R374). -/

namespace Sys2Proof.Machine

variable {s t : State} {q : Nat}

/-- The value of REFILL: the number posted, and bit 16 if the pool ran out (43_rx.md R370). -/
theorem refill_value {k : Nat} (hk : k < 2 ^ 16) (b : Bool) :
    (if b then 0x10000 else 0) ||| BitVec.ofNat 32 k = BitVec.ofNat 32 ((if b then 65536 else 0) + k) := by
  cases b with
  | false => simp
  | true => exact serviceTx_value_one hk

/-- The stores of a refill touch no byte in common: their slots are distinct. -/
theorem pairwise_apart_rxStores {bs : List Nat} (hlen : bs.length ≤ s.n) : (s.rxStores q bs).Pairwise WbEntry.Apart := by
  rw [State.rxStores, List.pairwise_iff_getElem]
  intro i j hi hj hij
  rw [List.length_mapIdx] at hi hj
  simp only [List.getElem_mapIdx, State.rxStore, WbEntry.Apart, length_rxDesc, State.descAddr]
  have hne : (s.ntu .rx q + i) % s.n ≠ (s.ntu .rx q + j) % s.n := fun he => by
    have hmod : i % s.n = j % s.n := Nat.ModEq.add_left_cancel' (s.ntu .rx q) he
    rw [Nat.mod_eq_of_lt (by omega), Nat.mod_eq_of_lt (by omega)] at hmod
    omega
  omega

theorem getD_take {bs : List Nat} {k j : Nat} (hj : j < k) : (bs.take k).getD j 0 = bs.getD j 0 := by
  simp only [List.getD_eq_getElem?_getD, List.getElem?_take_of_lt hj]

/-- The slots of a refill name its buffers. -/
theorem State.Restocked.handle_eq {bs : List Nat} (h : s.Restocked q bs t) (hu : s.ntu .rx q < s.n) (hlen : bs.length ≤ s.n)
    {j : Nat} (hj : j < bs.length) : t.handle .rx q ((s.ntu .rx q + j) % s.n) = bs.getD j 0 := by
  have hrecord := congrFun (congrArg RingView.record h.view) ((s.ntu .rx q + j) % s.n)
  rw [State.handle_eq, hrecord]
  exact congrArg SlotRecord.handle (RingView.record_stagedAll (v := s.view .rx q) hu hlen hj)

/-- The other slots keep their records. -/
theorem State.Restocked.rxRec_eq {bs : List Nat} (h : s.Restocked q bs t) (hu : s.ntu .rx q < s.n) {i : Nat}
    (hi : ∀ j < bs.length, i ≠ (s.ntu .rx q + j) % s.n) : (t.queue q).rxRec i = (s.queue q).rxRec i := by
  have hrecord := congrFun (congrArg RingView.record h.view) i
  have hkept := RingView.record_stagedAll_of_ne (v := s.view .rx q) hu bs hi
  exact congrArg RxRecord.mk (BitVec.eq_of_toNat_eq (congrArg SlotRecord.handle (hrecord.trans hkept)))

/-- The descriptors of a refill's buffers are found in memory. -/
theorem State.Restocked.descBytes_eq {bs : List Nat} (h : s.Restocked q bs t) (hm : Memory.wf s.mem) (hlen : bs.length ≤ s.n)
    {j : Nat} (hj : j < bs.length) : t.descBytes .rx q ((s.ntu .rx q + j) % s.n) = rxDesc (s.bufAddr .rx q (bs.getD j 0)) := by
  have hfound := bytes_drained_of_apart hm (pairwise_apart_rxStores (q := q) hlen) (State.mem_rxStores.2 ⟨j, hj, rfl⟩)
  rw [← h.mem] at hfound
  rw [State.descBytes, h.frame.globals.descAddr_eq]
  exact hfound

/-- A refill writes memory only in the descriptors of its slots. -/
theorem State.Restocked.byte_eq {bs : List Nat} (h : s.Restocked q bs t) (hm : Memory.wf s.mem) {a : Nat}
    (ha : ∀ j < bs.length, ¬ Within a (s.descAddr .rx q ((s.ntu .rx q + j) % s.n)) 16) :
    Memory.byte t.mem a = Memory.byte s.mem a := by
  rw [h.mem]
  refine byte_drained_of_not_within hm fun e he => ?_
  obtain ⟨j, hj, rfl⟩ := State.mem_rxStores.1 he
  exact ha j hj

/-- In the configured queues each RX buffer has a length register. -/
theorem State.Inv.length_rxBlen (h : s.Inv) (hq : q < s.nq.toNat) (hr : s.rstate = .ringsReady) :
    (s.queue q).rxPool.blen.length = s.n := by
  obtain ⟨-, -, -, -, -, hblen⟩ := h.config.configured.sizedFor_queue hq
  rw [hblen, h.config.configured.slots_eq (h.config.configured.nq_ne_zero (by rw [hr]; decide))]

/-- Settles O45: the refill posts the Free buffers it has slots for, and each fact is one of those of the state it leaves. -/
theorem refillPostsFreeBuffers : Obligations.RefillPostsFreeBuffers := by
  intro q s h hlive hb
  dsimp only
  have hready := h.ready_of_live hlive.2
  obtain ⟨htr, -, -, -⟩ := hready.rings.settled .rx q.toNat q.isLt
  have hu : s.ntu .rx q.toNat < s.n := htr.ntu_lt
  obtain ⟨t, hx, ht⟩ := rxRefill_of_backed hready q.isLt (h.ringReadable hlive hb .rx).backed
  have hstop := ht.full_or_exhausted hready q.isLt
  have hcount := s.refillCount_lt q.toNat
  have hn := s.n_le
  obtain ⟨-, -, hbuf, -⟩ := h.config.valid
  have hlen : (s.refillBufs q.toNat).length = _ := State.length_refillBufs s q.toNat
  have hbufs : s.refillBufs q.toNat = (s.freeBuffers .rx q.toNat).take (s.refillCount q.toNat) := List.take_eq_take_min
  rw [hbufs] at ht hlen
  rw [State.refillCount] at *
  generalize hk : min (s.ringFree .rx q.toNat) (s.freeBuffers .rx q.toNat).length = k at *
  have hle : ((s.freeBuffers .rx q.toNat).take k).length ≤ s.n := by omega
  have hjth : ∀ j < k, ((s.freeBuffers .rx q.toNat).take k).getD j 0 = (s.freeBuffers .rx q.toNat).getD j 0 := fun j => getD_take
  have hmem : ∀ j < k, (s.freeBuffers .rx q.toNat).getD j 0 ∈ (s.freeBuffers .rx q.toNat).take k := fun j hj => by
    rw [← hjth j hj, List.getD_eq_getElem _ _ (hj.trans_eq hlen.symm)]
    exact List.getElem_mem _
  have hcursors := ht.cursors hu
  have hdev := ht.dev
  obtain ⟨es, hkind, hevents⟩ := ht.events
  obtain ⟨hglobals, hl, hothers, hside⟩ := ht.frame
  rw [hlen] at hcursors hdev hevents
  refine ⟨t.respond .ok _, ?_, rfl, hcursors, fun c _ => ht.tag_eq c, fun j hj => ⟨?_, ?_⟩, fun i _ hi => ?_, fun c _ hc => ?_,
    fun j hj => ?_, fun a ha => ?_, ⟨es, fun e he => (hkind e he).1, hevents⟩, hdev, hstop, hglobals, hl, ht.ready.rings.noWb,
    hothers, hside, ht.discard, ht.drops⟩
  · rw [exec_refill_of_live hlive, hx, Res.bind_ok]
    dsimp only
    rw [refill_value (by omega)]
    simp only [decide_eq_true_iff]
    rfl
  · exact (ht.handle_eq hu hle (hj.trans_eq hlen.symm)).trans (hjth j hj)
  · have hfree := (State.mem_freeBuffers.1 (List.mem_of_mem_take (hmem j hj))).1
    show ((t.queue q.toNat).rxPool.len _).toNat = _
    rw [ht.lens, if_pos ⟨hmem j hj, hfree.trans_eq (h.length_rxBlen hlive.1 hlive.2).symm⟩, BitVec.toNat_ofNat]
    exact Nat.mod_eq_of_lt (by omega)
  · exact ht.rxRec_eq hu fun j hj => hi j (hlen ▸ hj)
  · exact (ht.lens c).trans (if_neg fun h => hc h.1)
  · refine (ht.descBytes_eq h.canon hle (hj.trans_eq hlen.symm)).trans ?_
    rw [hjth j hj]
    rfl
  · exact ht.byte_eq h.canon fun j hj => ha j (hlen ▸ hj)

end Sys2Proof.Machine
end

section
/-! Taking scanned descriptors off the RX ring (43_rx.md R354): the state after rx_apply, outcome by outcome. -/

namespace Sys2Proof.Machine

variable {s t : State} {q : Nat}

/-! ### Tagging a list of buffers -/

/-- The pool with the same tag written to each buffer of a list. -/
def Pool.setTags (p : Pool) (g : Tag) (bs : List Nat) : Pool := bs.foldl (fun p b => p.setTag b g) p

theorem Pool.setTags_cons (p : Pool) (g : Tag) (b : Nat) (bs : List Nat) : p.setTags g (b :: bs) = (p.setTag b g).setTags g bs := rfl

@[simp] theorem Pool.blen_setTags (p : Pool) (g : Tag) (bs : List Nat) : (p.setTags g bs).blen = p.blen := by
  induction bs generalizing p with
  | nil => rfl
  | cons b bs ih => exact ih _

theorem Pool.tag_setTags {p : Pool} {g : Tag} {bs : List Nat} (h : ∀ b ∈ bs, b < p.tags.length) (c : Nat) :
    (p.setTags g bs).tag c = if c ∈ bs then g else p.tag c := by
  induction bs generalizing p with
  | nil => rfl
  | cons b bs ih =>
    rw [List.forall_mem_cons] at h
    rw [Pool.setTags_cons, ih fun c hc => (h.2 c hc).trans_eq (Pool.length_setTag ..).symm, Pool.tag_setTag_eq_update _ _ h.1,
      Function.update_apply]
    by_cases hc : c = b <;> simp [hc]

/-- The state with an RX tag written to each buffer of a list. -/
def State.retagged (s : State) (q : Nat) (g : Tag) (bs : List Nat) : State :=
  s.setQueue q { s.queue q with rxPool := (s.queue q).rxPool.setTags g bs }

theorem State.queue_retagged (hq : q < s.queues.length) (g : Tag) (bs : List Nat) :
    (s.retagged q g bs).queue q = { s.queue q with rxPool := (s.queue q).rxPool.setTags g bs } :=
  State.queue_setQueue_same _ _ _ hq

theorem State.retagged_setTag (hq : q < s.queues.length) (g : Tag) (b : Nat) (bs : List Nat) :
    (s.setTag .rx q b g).retagged q g bs = s.retagged q g (b :: bs) := by
  have hqueue : (s.setTag .rx q b g).queue q = { s.queue q with rxPool := (s.queue q).rxPool.setTag b g } :=
    State.queue_setQueue_same _ _ _ hq
  rw [State.retagged, hqueue]
  exact State.setQueue_setQueue ..

/-- An operation on each scanned descriptor's buffer in turn, one that gives a posted buffer the tag g. -/
theorem giveBackAll_eq {α : Type} {g : Tag} {one : Nat → State → Res α} {all : List Scanned → State → Res Unit}
    (hone : ∀ {s b}, s.tag .rx q b = .hw → ∃ a, one b s = .ok a (s.setTag .rx q b g))
    (hnil : ∀ s, all [] s = .ok () s)
    (hcons : ∀ x xs s, all (x :: xs) s = (one x.handle.toNat s).bind fun _ t => all xs t)
    (recs : List Scanned) (hq : q < s.queues.length) (hnodup : (recs.map (·.handle.toNat)).Nodup)
    (hhw : ∀ x ∈ recs, s.tag .rx q x.handle.toNat = .hw) :
    all recs s = .ok () (s.retagged q g (recs.map (·.handle.toNat))) := by
  induction recs generalizing s with
  | nil =>
    rw [hnil]
    exact congrArg (Res.ok ()) (State.setQueue_queue s q).symm
  | cons x xs ih =>
    rw [List.map_cons, List.nodup_cons] at hnodup
    rw [List.forall_mem_cons] at hhw
    obtain ⟨a, ha⟩ := hone hhw.1
    have hlen : q < (s.setTag .rx q x.handle.toNat g).queues.length := hq.trans_eq (List.length_set ..).symm
    rw [hcons, ha, Res.bind_ok, ih hlen hnodup.2 fun y hy => ?_, State.retagged_setTag hq, List.map_cons]
    rw [State.tag_setTag, if_neg, hhw.2 y hy]
    rintro ⟨-, -, he, -⟩
    exact hnodup.1 (List.mem_map.2 ⟨y, hy, he⟩)

theorem completeAll_eq (recs : List Scanned) (hq : q < s.queues.length) (hnodup : (recs.map (·.handle.toNat)).Nodup)
    (hhw : ∀ x ∈ recs, s.tag .rx q x.handle.toNat = .hw) :
    completeAll q recs s = .ok () (s.retagged q .pend (recs.map (·.handle.toNat))) :=
  giveBackAll_eq (fun hb => ⟨_, poolMarkCompleted_of_hw hb⟩) (fun _ => rfl) (fun _ _ _ => rfl) recs hq hnodup hhw

theorem recycleAll_eq (recs : List Scanned) (hq : q < s.queues.length) (hnodup : (recs.map (·.handle.toNat)).Nodup)
    (hhw : ∀ x ∈ recs, s.tag .rx q x.handle.toNat = .hw) :
    recycleAll q recs s = .ok () (s.retagged q .free (recs.map (·.handle.toNat))) :=
  giveBackAll_eq (fun hb => ⟨_, poolRecycle_of_hw hb⟩) (fun _ => rfl) (fun _ _ _ => rfl) recs hq hnodup hhw

/-- What a scan lists are distinct posted buffers. -/
theorem RingView.Tracked.lists {v : RingView} {n size : Nat} {recs : List Scanned} (h : v.Tracked n size 0)
    (hrecs : v.Lists n 0 recs) (hlen : recs.length ≤ v.count n) :
    (recs.map (·.handle.toNat)).Nodup ∧ ∀ x ∈ recs, v.tag x.handle.toNat = .hw := by
  constructor
  · rw [show recs.map (·.handle.toNat) = _ from hrecs]
    refine List.Nodup.map_on (fun i hi j hj => ?_) (List.nodup_range' (step := 1))
    rw [List.mem_range'_1] at hi hj
    exact h.distinct i (by omega) j (by omega)
  · intro x hx
    have hmem := List.mem_map_of_mem (f := fun y : Scanned => y.handle.toNat) hx
    rw [show recs.map (·.handle.toNat) = _ from hrecs] at hmem
    obtain ⟨i, hi, he⟩ := List.mem_map.1 hmem
    rw [List.mem_range'_1] at hi
    rw [← he]
    exact h.isHw i (Nat.zero_le i) (by omega)

/-! ### The outcomes -/

/-- The tag a frame's buffers end with: Pend when it is delivered, else Free (43_rx.md R354). -/
def RxOutcome.tag : RxOutcome → Tag
  | .deliver => .pend
  | .wait | .oversize | .discardTail | .dropError | .dropLength => .free

/-- DISCARD after the outcome (43_rx.md R354, R356). -/
def RxOutcome.discard (o : RxOutcome) (old : Bool) : Bool :=
  match o with
  | .oversize    => true
  | .discardTail => false
  | .wait | .dropError | .dropLength | .deliver => old

/-- RX_DROPS after the outcome: an overflow counts only when its frame is not being discarded already (43_rx.md R356, R357). -/
def RxOutcome.drops (o : RxOutcome) (discard : Bool) (old : Word) : Word :=
  match o with
  | .dropError | .dropLength => old + 1
  | .oversize => if discard then old else old + 1
  | .wait | .discardTail | .deliver => old

/-- What the outcome logs (43_rx.md R358). -/
def RxOutcome.log (o : RxOutcome) (q : Nat) (recs : List Scanned) : List Event :=
  match o with
  | .deliver => [.deliver q (frameOf recs)]
  | .wait | .oversize | .discardTail | .dropError | .dropLength => []

/-- Queue x after the outcome, its descriptors not yet consumed. -/
def RxOutcome.applied (o : RxOutcome) (recs : List Scanned) (x : Queue) : Queue :=
  { x with
    rxPool  := x.rxPool.setTags o.tag (recs.map (·.handle.toNat))
    discard := o.discard x.discard
    rxDrops := o.drops x.discard x.rxDrops }

/-- The state after rx_apply: the descriptors taken off the ring, and what their outcome does. -/
def State.taken (s : State) (q : Nat) (o : RxOutcome) (recs : List Scanned) : State :=
  State.setQueue { s with events := s.events ++ o.log q recs } q
    { o.applied recs (s.queue q) with
      rx := { (s.queue q).rx with ntc := BitVec.ofNat 16 ((s.ntc .rx q + recs.length) % s.n) } }

theorem State.queue_taken (hq : q < s.queues.length) (o : RxOutcome) (recs : List Scanned) : (s.taken q o recs).queue q =
    { o.applied recs (s.queue q) with
      rx := { (s.queue q).rx with ntc := BitVec.ofNat 16 ((s.ntc .rx q + recs.length) % s.n) } } :=
  State.queue_setQueue_same _ _ _ hq

/-- Consuming after an outcome has been applied. -/
theorem ringConsume_applied (hq : q < s.queues.length) (o : RxOutcome) (recs : List Scanned) (hpos : 1 ≤ recs.length)
    (hlen : recs.length ≤ s.occupancy .rx q) :
    ringConsume .rx q recs.length
      (State.setQueue { s with events := s.events ++ o.log q recs } q (o.applied recs (s.queue q))) = .ok () (s.taken q o recs) := by
  have hqueue := State.queue_setQueue_same { s with events := s.events ++ o.log q recs } q (o.applied recs (s.queue q)) hq
  have hocc : (State.setQueue { s with events := s.events ++ o.log q recs } q (o.applied recs (s.queue q))).occupancy .rx q =
      s.occupancy .rx q := by
    rw [State.occupancy, State.ntc, State.ntu, hqueue]
    rfl
  rw [ringConsume_of_le hpos (hocc ▸ hlen), State.ntc, hqueue, State.setQueue_setQueue]
  rfl

/-- Everything rx_apply can do with descriptors whose buffers are posted. -/
theorem rxApply_eq {o : RxOutcome} {recs : List Scanned} (h : s.Ready) (hq : q < maxQueues) (ho : o ≠ .wait)
    (hrecs : (s.view .rx q).Lists s.n 0 recs) (hpos : 1 ≤ recs.length) (hlen : recs.length ≤ s.occupancy .rx q) :
    rxApply q o recs s = .ok () (s.taken q o recs) := by
  have hlt := h.running.queue_lt hq
  obtain ⟨hnodup, hhw⟩ := (h.rings.settled .rx q hq).tracked.lists hrecs hlen
  have hcomplete := completeAll_eq recs hlt hnodup hhw
  have hrecycle := recycleAll_eq recs hlt hnodup hhw
  have hqueue := State.queue_retagged hlt
  have hend := ringConsume_applied hlt o recs hpos hlen
  have hquiet (hlog : o.log q recs = []) :
      ringConsume .rx q recs.length (s.setQueue q (o.applied recs (s.queue q))) = .ok () (s.taken q o recs) := by
    rw [hlog, List.append_nil] at hend
    exact hend
  unfold rxApply
  cases o with
  | wait => exact absurd rfl ho
  | deliver =>
    dsimp only
    rw [hcomplete]
    exact hend
  | dropError | dropLength =>
    dsimp only
    rw [hrecycle, Res.bind_ok, Res.bind_ok, State.countDrop, hqueue, State.retagged, State.setQueue_setQueue]
    exact hquiet rfl
  | discardTail =>
    dsimp only
    rw [hrecycle, Res.bind_ok, Res.bind_ok, State.setDiscard, hqueue, State.retagged, State.setQueue_setQueue]
    exact hquiet rfl
  | oversize =>
    have hdiscard : ((s.retagged q .free (recs.map (·.handle.toNat))).queue q).discard = (s.queue q).discard := by rw [hqueue]
    dsimp only
    rw [hrecycle, Res.bind_ok, Res.bind_ok, hdiscard, ← hquiet rfl]
    congr 1
    simp only [RxOutcome.applied, RxOutcome.drops, RxOutcome.discard]
    split
    · rw [State.setDiscard, hqueue, State.retagged, State.setQueue_setQueue]
      rfl
    · have hcount : (s.retagged q .free (recs.map (·.handle.toNat))).countDrop q = s.setQueue q { s.queue q with
          rxPool := (s.queue q).rxPool.setTags .free (recs.map (·.handle.toNat)), rxDrops := (s.queue q).rxDrops + 1 } := by
        rw [State.countDrop, hqueue, State.retagged, State.setQueue_setQueue]
      rw [State.setDiscard, hcount, State.queue_setQueue_same _ _ _ hlt, State.setQueue_setQueue]
      rfl

/-- The rings are settled after rx_apply. -/
theorem State.Ready.taken {o : RxOutcome} {recs : List Scanned} (h : s.Ready) (hq : q < maxQueues) (ho : o ≠ .wait)
    (hrecs : (s.view .rx q).Lists s.n 0 recs) (hpos : 1 ≤ recs.length) (hlen : recs.length ≤ s.occupancy .rx q) :
    (s.taken q o recs).Ready := by
  have hruns := runs_rxApply h hq ho hrecs hpos hlen
  rw [rxApply_eq h hq ho hrecs hpos hlen] at hruns
  exact hruns

theorem rxFrame_taken (s : State) (q : Nat) (o : RxOutcome) (recs : List Scanned) : s.RxFrame (s.taken q o recs) q :=
  (rxFrame_events s q _).trans (State.rxFrame_setQueue ⟨rfl, rfl, rfl, rfl, rfl, rfl, rfl⟩)

end Sys2Proof.Machine
end

section
/-! The frame of SERVICE_RX and REFILL (43_rx.md R360, R370). -/

namespace Sys2Proof.Machine

variable {s t u : State} {q : Nat}

/-- Two facts about how an operation ends, together. -/
theorem Res.Ends.and {α : Type} {x : Res α} {P P' : α → State → Prop} {E E' : State → Prop} {S S' : Fault → Prop}
    (h : x.Ends P E S) (h' : x.Ends P' E' S') :
    x.Ends (fun a t => P a t ∧ P' a t) (fun t => E t ∧ E' t) (fun f => S f ∧ S' f) := by
  cases x <;> exact ⟨h, h'⟩

/-- A scan that goes on has only logged. -/
theorem rxScanLoop_logs (left j : Nat) (recs : List Scanned) (s : State) :
    (rxScanLoop q left j recs s).Ends (fun _ t => ∃ es, t = { s with events := s.events ++ es }) (fun _ => True)
      (fun _ => True) := by
  induction left generalizing j recs s with
  | zero => exact ⟨[], by rw [List.append_nil]⟩
  | succ left ih =>
    refine ((ringPeek_ends .rx q j s).mono (fun _ _ h => h.1) (fun _ => False.elim) (fun _ _ => trivial)).bind ?_
    rintro d _ ⟨es, rfl, -⟩
    cases d with
    | none => exact ⟨es, rfl⟩
    | some desc =>
      dsimp only
      split
      · trivial
      split
      · exact ⟨es, rfl⟩
      · exact (ih _ _ _).mono (fun _ _ ⟨es', h⟩ => ⟨es ++ es', by rw [h]; simp⟩) (fun _ => id) (fun _ => id)

/-- What a pass may change before its refill: the RX side of one queue, with no store and no device register written. -/
structure State.RxServed (s t : State) (q : Nat) : Prop where
  ready : t.Ready
  frame : s.RxFrame t q
  mem   : t.mem = s.mem
  dev   : t.dev = s.dev

theorem State.RxServed.trans (h : s.RxServed t q) (h' : t.RxServed u q) : s.RxServed u q :=
  ⟨h'.ready, h.frame.trans h'.frame, h'.mem.trans h.mem, h'.dev.trans h.dev⟩

theorem State.Ready.rxServed_events (h : s.Ready) (q : Nat) (es : List Event) : s.RxServed { s with events := es } q :=
  ⟨(still_events s es).ready h, rxFrame_events s q es, rfl, rfl⟩

/-- The loop of SERVICE_RX serves one queue, or a fault has been entered. -/
theorem rxLoop_ends (bmax fuel consumed units frames : Nat) (h : s.Ready) (hq : q < maxQueues) :
    (rxLoop q bmax fuel consumed units frames s).Ends (fun _ t => s.RxServed t q) State.FaultEntered (fun _ => True) := by
  induction fuel generalizing consumed units frames s with
  | zero => exact h.rxServed_events q s.events
  | succ fuel ih =>
    unfold rxLoop
    split
    · exact h.rxServed_events q s.events
    next hne =>
    have htr := (h.rings.settled .rx q hq).tracked
    have hcount : 0 < (s.view .rx q).count s.n :=
      Nat.pos_of_ne_zero fun h0 => hne ((s.occupancy_eq_zero_iff .rx q htr.ntu_lt htr.ntc_lt).1 h0)
    have hscan := rxScanLoop_ends (q := q) ((s.view .rx q).count s.n) [] h.running (.refl s) (by simp) rfl
    rw [List.length_nil, RingView.slotAt_zero htr.ntc_lt] at hscan
    refine ((hscan.and (rxScanLoop_logs ..)).mono (fun _ _ => id) (fun _ he => he.1) (fun _ _ => trivial)).bind ?_
    rintro ⟨eop, recs⟩ _ ⟨⟨-, hrecs, hlen, heop⟩, es, rfl⟩
    have hlogged := h.rxServed_events q (s.events ++ es)
    dsimp only
    split
    · exact hlogged
    next ho =>
    split
    · exact hlogged
    have hpos : 1 ≤ recs.length := by
      rcases rxClassify_ne_wait ho with heop' | hall
      · exact List.length_pos_iff.2 (heop heop')
      · exact hcount.trans_eq hall.symm
    rw [rxApply_eq hlogged.ready hq ho hrecs hpos hlen, Res.bind_ok]
    have htaken := hlogged.trans ⟨hlogged.ready.taken hq ho hrecs hpos hlen, rxFrame_taken .., rfl, rfl⟩
    exact (ih _ _ _ htaken.ready).mono (fun _ _ => htaken.trans) (fun _ => id) (fun _ => id)

/-- What SERVICE_RX and REFILL may change: beside the frame, the descriptors of one RX ring and its device tail. -/
structure State.RxWorked (s t : State) (q : Nat) : Prop where
  frame : s.RxFrame t q
  wb    : t.wb = s.wb
  mem   : ∀ a, (∀ slot < s.n, ¬ Within a (s.descAddr .rx q slot) 16) → Memory.byte t.mem a = Memory.byte s.mem a
  dev   : ∃ v, t.dev = s.dev.setRing .rx q { s.dev.ring .rx q with tail := v }

theorem Device.setRing_ring (d : Device) (r : Ring) (q : Nat) : d.setRing r q (d.ring r q) = d := by
  have hlist : ∀ l : List DevRing, l.set q (l.getD q DevRing.zero) = l := fun l => by
    by_cases hq : q < l.length
    · rw [List.getD_eq_getElem _ _ hq, List.set_getElem_self]
    · exact List.set_eq_of_length_le (Nat.le_of_not_lt hq)
  cases r <;> simp only [Device.setRing, Device.ring, hlist]

theorem State.rxWorked_respond (s : State) (q : Nat) (st : Status) (v : Word) : s.RxWorked (s.respond st v) q :=
  ⟨rxFrame_respond s q st v, rfl, fun _ _ => rfl, (s.dev.ring .rx q).tail, (s.dev.setRing_ring .rx q).symm⟩

/-- A refill after some service. -/
theorem State.RxServed.rxWorked {bs : List Nat} (h : s.RxServed t q) (hwb : s.wb = []) (hm : Memory.wf s.mem)
    (h' : t.Restocked q bs u) (st : Status) (v : Word) : s.RxWorked (u.respond st v) q := by
  refine ⟨(h.frame.trans h'.frame).trans (rxFrame_respond u q st v), h'.ready.rings.noWb.trans hwb.symm, fun a ha => ?_, ?_⟩
  · show Memory.byte u.mem a = _
    rw [h'.byte_eq (h.mem ▸ hm) fun j _ => ?_, h.mem]
    rw [h.frame.globals.descAddr_eq]
    exact ha _ (Nat.mod_lt _ t.n_pos |>.trans_eq h.frame.globals.n_eq)
  · show ∃ v, u.dev = _
    rw [h'.dev, h.dev]
    split
    · exact ⟨_, (s.dev.setRing_ring .rx q).symm⟩
    · exact ⟨_, rfl⟩

/-- Without a live queue the two commands only answer. -/
theorem exec_rx_of_not_live {i : Instr} {q : BitVec 7} {b : Half} (hi : i = .serviceRx q b ∨ i = .refill q) (hlive : ¬ s.Live q)
    (h : exec i s = .next t) : ∃ st v, t = s.respond st v := by
  rcases hi with rfl | rfl
  · rcases perQueue_eq_next (show perQueue q s _ = _ from h) with ⟨hq, h⟩ | ⟨-, rfl⟩
    · rw [rxPass_of_not_ready fun hr => hlive ⟨hq, hr⟩] at h
      cases h
      exact ⟨_, _, rfl⟩
    · exact ⟨_, _, rfl⟩
  · rcases perQueue_eq_next (show perQueue q s _ = _ from h) with ⟨hq, h⟩ | ⟨-, rfl⟩
    · rw [if_pos fun hr => hlive ⟨hq, hr⟩] at h
      exact ⟨_, _, answer_eq_next.1 h⟩
    · exact ⟨_, _, rfl⟩

/-- A service, then a refill and an answer: the frame, unless a fault has been entered. -/
theorem rxWorked_of_served {α : Type} {x : Res α} {f : α → Nat × Bool → Status × Word} (h : s.Inv) (hr : s.rstate = .ringsReady)
    (hq : q < maxQueues) (hx : x.Ends (fun _ u => s.RxServed u q) State.FaultEntered (fun _ => True))
    (ht : Res.answer (x.bind fun done u => (rxRefill q u).bind fun posted u => .ok (f done posted) u) = .next t)
    (hsame : t.rstate = s.rstate) : s.RxWorked t q := by
  have hends := hx.bind (k := fun done u => (rxRefill q u).bind fun posted u => .ok (f done posted) u)
    (Q := fun a u => s.RxWorked (u.respond a.1 a.2) q) fun done u hu =>
      ((rxRefill_ends hu.ready hq).mono (fun _ _ => id) (fun _ => False.elim) (fun _ _ => trivial)).bind
        fun _ w hw => hu.rxWorked h.noWb h.canon hw.2 _ _
  rcases Res.answer_eq_next.1 ht with ⟨a, u, hu, rfl⟩ | hu <;> rw [hu] at hends
  · exact hends
  · rw [hr, hends.faulted] at hsame
    cases hsame

/-- Settles O46: the loop serves the queue's RX side, and the refill stores its descriptors and writes its tail; a fault would have
left RingsReady. -/
theorem rxServiceFrame : Obligations.RxServiceFrame := by
  intro i q b s t h hi ht hsame
  suffices hw : s.RxWorked t q.toNat by
    obtain ⟨⟨hglobals, hl, hothers, hside⟩, hwb, hmem, hdev⟩ := hw
    exact ⟨hglobals, hl, hwb, hothers, hside, hmem, hdev⟩
  by_cases hlive : s.Live q
  case neg =>
    obtain ⟨st, v, rfl⟩ := exec_rx_of_not_live hi hlive ht
    exact s.rxWorked_respond _ st v
  have hready := h.ready_of_live hlive.2
  rcases hi with rfl | rfl
  · rw [exec_serviceRx_of_live b hlive] at ht
    have hloop : (if s.rxReporting then rxLoop q.toNat (s.budget b) s.n 0 0 0 s else .ok (0, 0) s).Ends
        (fun _ u => s.RxServed u q.toNat) State.FaultEntered (fun _ => True) := by
      split
      · exact rxLoop_ends _ _ _ _ _ hready q.isLt
      · exact hready.rxServed_events _ s.events
    exact rxWorked_of_served h hlive.2 q.isLt hloop ht hsame
  · rw [exec_refill_of_live hlive] at ht
    exact rxWorked_of_served (x := .ok () s)
      (f := fun _ done => (.ok, (if done.2 = true then 0x10000 else 0) ||| BitVec.ofNat 32 done.1)) h hlive.2 q.isLt
      (hready.rxServed_events _ s.events) ht hsame

end Sys2Proof.Machine
end

section
/-! Scanning the descriptors at NTC of an RX ring (43_rx.md R351, R352). -/

namespace Sys2Proof.Machine

variable {s t : State} {r : Ring} {q : Nat}

/-! ### One descriptor -/

/-- The status byte of a descriptor is its byte 12 (20_memory.md R106, R107). -/
theorem byteAt_descBytes (s : State) (r : Ring) (q i : Nat) : byteAt (s.descBytes r q i) 12 = s.statusByte r q i := by
  rw [byteAt, State.descBytes, List.getD_eq_getElem?_getD, Memory.getElem?_bytes]
  rfl

theorem isDeliver_of_mem_peekLog {i : Nat} {e : Event} (h : e ∈ s.peekLog r q i) : e.isDeliver = false := by
  unfold State.peekLog at h
  split at h <;> simp only [List.mem_append, List.mem_cons, List.not_mem_nil, or_false] at h
  · rcases h with (rfl | rfl) | rfl <;> rfl
  · rcases h with rfl | rfl <;> rfl

/-- What a scan records of the i-th descriptor past NTC (43_rx.md R352). -/
def State.scannedAt (s : State) (q i : Nat) : Scanned :=
  ⟨s.slotAt .rx q i, ((s.queue q).rxRec (s.slotAt .rx q i)).handle, s.rxLenAt q i, byteAt (s.rxDescAt q i) 12, s.rxErrorsAt q i⟩

/-- The i-th descriptor past NTC is done. -/
def State.rxDoneAt (s : State) (q i : Nat) : Prop := (byteAt (s.rxDescAt q i) 12).getLsbD 0 = true

theorem State.rxDoneAt_iff {i : Nat} : s.rxDoneAt q i ↔ (s.statusByte .rx q (s.slotAt .rx q i)).getLsbD 0 = true := by
  rw [State.rxDoneAt, State.rxDescAt, byteAt_descBytes]

/-- The i-th descriptor past NTC is marked EOP. -/
def State.rxEopAt (s : State) (q i : Nat) : Bool := (byteAt (s.rxDescAt q i) 12).getLsbD 1

/-- A done descriptor ends the command if it is too long, ends the scan if it is marked EOP, and else is followed by the next. -/
theorem rxScanLoop_of_done (h : s.RingReadable .rx q) (left i : Nat) (recs : List Scanned) (hdone : s.rxDoneAt q i) :
    rxScanLoop q (left + 1) (s.slotAt .rx q i) recs s =
      if s.params.bufSize < s.rxLenAt q i then
        .ended (State.faultAnswer { s with events := s.events ++ s.peekLog .rx q (s.slotAt .rx q i) } .rxLen)
      else if s.rxEopAt q i = true then
        .ok (true, recs ++ [s.scannedAt q i]) { s with events := s.events ++ s.peekLog .rx q (s.slotAt .rx q i) }
      else rxScanLoop q left (s.slotAt .rx q (i + 1)) (recs ++ [s.scannedAt q i])
        { s with events := s.events ++ s.peekLog .rx q (s.slotAt .rx q i) } := by
  have hnext : ringInc s.n (s.slotAt .rx q i) = s.slotAt .rx q (i + 1) := by
    rw [ringInc, State.slotAt, Nat.mod_add_mod, Nat.add_assoc, State.slotAt]
  have hslot : s.slotAt .rx q i < s.n := Nat.mod_lt _ s.n_pos
  rw [rxScanLoop, h.ringPeek_eq hslot, if_pos (State.rxDoneAt_iff.1 hdone), Res.bind_ok, ← hnext]
  rfl

/-- A descriptor that is not done ends the scan (43_rx.md R352). -/
theorem rxScanLoop_of_not_done (h : s.RingReadable .rx q) (left i : Nat) (recs : List Scanned) (hwait : ¬ s.rxDoneAt q i) :
    rxScanLoop q (left + 1) (s.slotAt .rx q i) recs s =
      .ok (false, recs) { s with events := s.events ++ s.peekLog .rx q (s.slotAt .rx q i) } := by
  have hslot : s.slotAt .rx q i < s.n := Nat.mod_lt _ s.n_pos
  rw [rxScanLoop, h.ringPeek_eq hslot, if_neg (mt State.rxDoneAt_iff.2 hwait), Res.bind_ok]

/-! ### A run of descriptors -/

/-- The i-th descriptor past NTC is done, of a legal length, and ends a packet or not. -/
structure State.RxLegalAt (s : State) (q i : Nat) (eop : Bool) : Prop where
  done : s.rxDoneAt q i
  len  : s.rxLenAt q i ≤ s.params.bufSize
  eop  : s.rxEopAt q i = eop

theorem rxScanLoop_of_eop (h : s.RingReadable .rx q) (left i : Nat) (recs : List Scanned) (hi : s.RxLegalAt q i true) :
    rxScanLoop q (left + 1) (s.slotAt .rx q i) recs s =
      .ok (true, recs ++ [s.scannedAt q i]) { s with events := s.events ++ s.peekLog .rx q (s.slotAt .rx q i) } := by
  rw [rxScanLoop_of_done h left i recs hi.done, if_neg (Nat.not_lt.2 hi.len), if_pos hi.eop]

theorem rxScanLoop_of_not_eop (h : s.RingReadable .rx q) (left i : Nat) (recs : List Scanned) (hi : s.RxLegalAt q i false) :
    rxScanLoop q (left + 1) (s.slotAt .rx q i) recs s = rxScanLoop q left (s.slotAt .rx q (i + 1)) (recs ++ [s.scannedAt q i])
      { s with events := s.events ++ s.peekLog .rx q (s.slotAt .rx q i) } := by
  rw [rxScanLoop_of_done h left i recs hi.done, if_neg (Nat.not_lt.2 hi.len), if_neg (by rw [hi.eop]; exact Bool.false_ne_true)]

/-- Done descriptors of a legal length without EOP are scanned one after another. -/
theorem rxScanLoop_of_run (h : s.RingReadable .rx q) (left m a : Nat) (recs : List Scanned)
    (hrun : ∀ i, a ≤ i → i < a + m → s.RxLegalAt q i false) :
    ∃ es, (∀ e ∈ es, e.isDeliver = false) ∧ rxScanLoop q (left + m) (s.slotAt .rx q a) recs s =
      rxScanLoop q left (s.slotAt .rx q (a + m)) (recs ++ (List.range' a m).map (s.scannedAt q))
        { s with events := s.events ++ es } := by
  induction m generalizing a recs s with
  | zero => exact ⟨[], nofun, by simp⟩
  | succ m ih =>
    have hfirst := rxScanLoop_of_not_eop h (left + m) a recs (hrun a (Nat.le_refl a) (by omega))
    obtain ⟨es, hes, hrest⟩ := ih (s := { s with events := s.events ++ s.peekLog .rx q (s.slotAt .rx q a) }) ⟨h.noWb, h.backed⟩
      (a + 1) (recs ++ [s.scannedAt q a]) fun i hi hm =>
        have hlegal := hrun i (by omega) (by omega)
        ⟨hlegal.done, hlegal.len, hlegal.eop⟩
    rw [List.append_assoc recs, List.append_assoc s.events, Nat.add_right_comm] at hrest
    exact ⟨s.peekLog .rx q (s.slotAt .rx q a) ++ es, List.forall_mem_append.2 ⟨fun _ => isDeliver_of_mem_peekLog, hes⟩,
      hfirst.trans hrest⟩

/-- The first k descriptors past NTC, as a scan lists them. -/
def State.scanned (s : State) (q k : Nat) : List Scanned := (List.range k).map (s.scannedAt q)

@[simp] theorem State.length_scanned (s : State) (q k : Nat) : (s.scanned q k).length = k := by
  rw [State.scanned, List.length_map, List.length_range]

theorem State.scanned_succ (s : State) (q k : Nat) : s.scanned q (k + 1) = s.scanned q k ++ [s.scannedAt q k] := by
  rw [State.scanned, List.range_succ, List.map_append, State.scanned, List.map_singleton]

theorem State.lists_scanned (s : State) (q k : Nat) : (s.view .rx q).Lists s.n 0 (s.scanned q k) := by
  rw [RingView.Lists, State.length_scanned, State.scanned, List.map_map, ← List.range_eq_range']
  rfl

/-- The scan of the descriptors at NTC lists the first k, and finds an end of packet or not. -/
def State.ScansTo (s : State) (q : Nat) (eop : Bool) (k : Nat) : Prop :=
  ∃ es, (∀ e ∈ es, e.isDeliver = false) ∧ rxScan q s = .ok (eop, s.scanned q k) { s with events := s.events ++ es }

theorem State.slotAt_zero (hc : s.ntc r q < s.n) : s.slotAt r q 0 = s.ntc r q := Nat.mod_eq_of_lt hc

theorem State.FrameAtHead.legal {k i : Nat} (hf : s.FrameAtHead q k) (hi : i < k) : s.RxLegalAt q i (decide (i = k - 1)) := by
  obtain ⟨-, -, hall, -⟩ := hf
  obtain ⟨hdone, hend, hlen⟩ := hall i hi
  exact ⟨hdone, hlen, Bool.eq_iff_iff.2 (hend.trans decide_eq_true_iff.symm)⟩

/-- A run of done descriptors at NTC is scanned from NTC. -/
theorem rxScan_of_run (h : s.RingReadable .rx q) (hc : s.ntc .rx q < s.n) {left m : Nat} (hocc : s.occupancy .rx q = left + m)
    (hrun : ∀ i < m, s.RxLegalAt q i false) :
    ∃ es, (∀ e ∈ es, e.isDeliver = false) ∧
      rxScan q s = rxScanLoop q left (s.slotAt .rx q m) (s.scanned q m) { s with events := s.events ++ es } := by
  obtain ⟨es, hes, hscan⟩ := rxScanLoop_of_run h left m 0 [] fun i _ hi => hrun i (by omega)
  rw [Nat.zero_add, List.nil_append, State.slotAt_zero hc, ← List.range_eq_range', ← hocc] at hscan
  exact ⟨es, hes, hscan⟩

/-- The scan of a whole frame lists it (43_rx.md R352). -/
theorem State.RingReadable.scansTo_frame (h : s.RingReadable .rx q) (hc : s.ntc .rx q < s.n) {k : Nat} (hf : s.FrameAtHead q k) :
    s.ScansTo q true k := by
  obtain ⟨m, rfl⟩ := Nat.exists_eq_add_of_le' hf.1
  obtain ⟨left, hleft⟩ := Nat.exists_eq_add_of_le' hf.2.1
  have hlast : s.RxLegalAt q m true := by simpa using State.FrameAtHead.legal hf (Nat.lt_succ_self m)
  obtain ⟨es, hes, hscan⟩ := rxScan_of_run h hc (left := left + 1) (m := m) (by omega) fun i hi => by
    simpa [show i ≠ m by omega] using State.FrameAtHead.legal hf (show i < m + 1 by omega)
  have hend := rxScanLoop_of_eop (s := { s with events := s.events ++ es }) ⟨h.noWb, h.backed⟩ left m (s.scanned q m)
    ⟨hlast.done, hlast.len, hlast.eop⟩
  refine ⟨es ++ s.peekLog .rx q (s.slotAt .rx q m), List.forall_mem_append.2 ⟨hes, fun _ => isDeliver_of_mem_peekLog⟩, ?_⟩
  rw [hscan, State.scanned_succ, ← List.append_assoc s.events]
  exact hend

/-- When every outstanding slot is done and none ends a packet, the scan lists them all. -/
theorem State.RingReadable.scansTo_all (h : s.RingReadable .rx q) (hc : s.ntc .rx q < s.n)
    (hall : ∀ i < s.occupancy .rx q, s.RxLegalAt q i false) : s.ScansTo q false (s.occupancy .rx q) :=
  rxScan_of_run h hc (Nat.zero_add _).symm hall

/-- When the descriptor at NTC is not done, the scan lists none. -/
theorem State.RingReadable.scansTo_none (h : s.RingReadable .rx q) (hc : s.ntc .rx q < s.n) (hpos : 0 < s.occupancy .rx q)
    (hwait : ¬ s.rxDoneAt q 0) : s.ScansTo q false 0 := by
  obtain ⟨left, hleft⟩ := Nat.exists_eq_add_of_le' hpos
  have hscan := rxScanLoop_of_not_done h left 0 [] hwait
  rw [State.slotAt_zero hc, ← hleft] at hscan
  exact ⟨s.peekLog .rx q (s.ntc .rx q), fun _ => isDeliver_of_mem_peekLog, hscan⟩

/-- A descriptor at NTC that is too long ends the command. -/
theorem State.RingReadable.rxScan_of_tooLong (h : s.RingReadable .rx q) (hc : s.ntc .rx q < s.n) (hpos : 0 < s.occupancy .rx q)
    (hdone : s.rxDoneAt q 0) (hlen : s.params.bufSize < s.rxLenAt q 0) :
    ∃ es, rxScan q s = .ended (State.faultAnswer { s with events := es } .rxLen) := by
  obtain ⟨left, hleft⟩ := Nat.exists_eq_add_of_le' hpos
  have hscan := rxScanLoop_of_done h left 0 [] hdone
  rw [if_pos hlen, State.slotAt_zero hc, ← hleft] at hscan
  exact ⟨s.events ++ s.peekLog .rx q (s.ntc .rx q), hscan⟩

end Sys2Proof.Machine
end

section
/-! A pass of SERVICE_RX that takes one frame, or the whole of an overflowing ring (43_rx.md R351 to R360). -/

namespace Sys2Proof.Machine

variable {s t : State} {q : Nat}

/-! ### The rounds of the loop -/

/-- The first round takes what the scan lists, whatever the budget, unless the frame is still arriving (43_rx.md R360). -/
theorem rxLoop_first {eop : Bool} {recs : List Scanned} {o : RxOutcome} (bmax fuel : Nat) (hne : s.ringEmpty .rx q = false)
    (hscan : rxScan q s = .ok (eop, recs) t) (hclass : rxClassify q eop recs t = o) (ho : o ≠ .wait) :
    rxLoop q bmax (fuel + 1) 0 0 0 s = (rxApply q o recs t).bind fun _ u =>
      rxLoop q bmax fuel recs.length 1 (if o = .deliver then 1 else 0) u := by
  rw [rxLoop, hne, if_neg Bool.false_ne_true, hscan, Res.bind_ok]
  dsimp only
  rw [hclass, if_neg ho, if_neg fun h => absurd h.1 (Nat.lt_irrefl 0), Nat.zero_add, Nat.zero_add]

/-- With nothing outstanding, or the descriptor at NTC not done, the loop ends (43_rx.md R355). -/
theorem rxLoop_of_waiting (bmax fuel consumed units frames : Nat) (h : s.Ready) (hq : q < maxQueues) (hread : s.RingReadable .rx q)
    (hwait : s.occupancy .rx q = 0 ∨ ¬ s.rxDoneAt q 0) :
    ∃ es, (∀ e ∈ es, e.isDeliver = false) ∧
      rxLoop q bmax fuel consumed units frames s = .ok (consumed, frames) { s with events := s.events ++ es } := by
  obtain ⟨htr, -, -, -⟩ := h.rings.settled .rx q hq
  have hempty := s.occupancy_eq_zero_iff .rx q htr.ntu_lt htr.ntc_lt
  have hstay : ∃ es, (∀ e ∈ es, Event.isDeliver e = false) ∧
      Res.ok (consumed, frames) s = .ok (consumed, frames) { s with events := s.events ++ es } := ⟨[], nofun, by simp⟩
  cases fuel with
  | zero => exact hstay
  | succ fuel =>
    rw [rxLoop]
    by_cases hocc : s.occupancy .rx q = 0
    · rw [if_pos (hempty.1 hocc)]
      exact hstay
    · obtain ⟨es, hes, hscan⟩ := hread.scansTo_none htr.ntc_lt (Nat.pos_of_ne_zero hocc) (hwait.resolve_left hocc)
      have hclass : rxClassify q false (s.scanned q 0) { s with events := s.events ++ es } = .wait := by
        rw [rxClassify, if_pos rfl, if_neg fun h => hocc h.1.symm]
      refine ⟨es, hes, ?_⟩
      rw [if_neg (mt hempty.2 hocc), hscan, Res.bind_ok]
      dsimp only
      rw [hclass, if_pos rfl]

/-! ### After the first round -/

section

variable {o : RxOutcome} {k : Nat}

theorem State.ntc_taken (hq : q < s.queues.length) (o : RxOutcome) (k : Nat) :
    (s.taken q o (s.scanned q k)).ntc .rx q = s.slotAt .rx q k := by
  have hcur := congrArg (fun x : Queue => x.rx.ntc.toNat) (State.queue_taken hq o (s.scanned q k))
  refine hcur.trans ?_
  dsimp only
  rw [State.length_scanned]
  exact s.toNat_ofNat_mod_n _

theorem State.occupancy_taken (h : s.Ready) (hq : q < maxQueues) (o : RxOutcome) (hk : k ≤ s.occupancy .rx q) :
    (s.taken q o (s.scanned q k)).occupancy .rx q = s.occupancy .rx q - k := by
  obtain ⟨htr, -, -, -⟩ := h.rings.settled .rx q hq
  have hlt := h.running.queue_lt hq
  have hntu : (s.taken q o (s.scanned q k)).ntu .rx q = s.ntu .rx q :=
    (congrArg (fun x : Queue => x.rx.ntu.toNat) (State.queue_taken hlt o (s.scanned q k))).trans rfl
  rw [State.occupancy, State.ntc_taken hlt, hntu]
  exact RingView.count_consumed htr.ntu_lt htr.ntc_lt hk

/-- The place 0 past NTC is then the place k of before. -/
theorem State.rxDoneAt_taken (hq : q < s.queues.length) (o : RxOutcome) (k : Nat) :
    (s.taken q o (s.scanned q k)).rxDoneAt q 0 ↔ s.rxDoneAt q k := by
  have hslot : (s.taken q o (s.scanned q k)).slotAt .rx q 0 = s.slotAt .rx q k := by
    rw [State.slotAt, State.ntc_taken hq, Nat.add_zero]
    exact Nat.mod_eq_of_lt (Nat.mod_lt _ s.n_pos)
  rw [State.rxDoneAt_iff, State.rxDoneAt_iff, hslot]
  rfl

/-- The tags after a frame is taken. -/
theorem State.tag_taken (h : s.Ready) (hq : q < maxQueues) (o : RxOutcome) (hk : k ≤ s.occupancy .rx q) (c : Nat) :
    (s.taken q o (s.scanned q k)).tag .rx q c =
      if c ∈ (s.scanned q k).map (·.handle.toNat) then o.tag else s.tag .rx q c := by
  obtain ⟨-, hhw⟩ := (h.rings.settled .rx q hq).tracked.lists (s.lists_scanned q k) (by rw [State.length_scanned]; exact hk)
  rw [State.tag, State.queue_taken (h.running.queue_lt hq)]
  refine Pool.tag_setTags (fun b hb => ?_) c
  obtain ⟨x, hx, rfl⟩ := List.mem_map.1 hb
  exact Pool.lt_of_tag_ne_free (s.queue q).rxPool (by
    rw [show (s.queue q).rxPool.tag x.handle.toNat = .hw from hhw x hx]
    decide)

theorem State.mem_handles_scanned {c : Nat} :
    c ∈ (s.scanned q k).map (·.handle.toNat) ↔ ∃ i < k, s.handle .rx q (s.slotAt .rx q i) = c := by
  rw [State.scanned, List.map_map, List.mem_map]
  exact exists_congr fun i => and_congr_left' List.mem_range

end

/-! ### The command -/

/-- A pass has taken the first k descriptors past NTC with outcome o, once, and refilled (43_rx.md R354, R360). -/
structure State.RxTook (s : State) (q k : Nat) (o : RxOutcome) (t : State) : Prop where
  response : t.response = some ⟨.ok, BitVec.ofNat 32 ((if o = .deliver then 65536 else 0) + k)⟩
  ntc      : t.ntc .rx q = (s.ntc .rx q + k) % s.n
  pend     : ∀ c, t.tag .rx q c = .pend ↔
    if ∃ i < k, s.handle .rx q (s.slotAt .rx q i) = c then o = .deliver else s.tag .rx q c = .pend
  drops    : (t.queue q).rxDrops = o.drops (s.queue q).discard (s.queue q).rxDrops
  discard  : (t.queue q).discard = o.discard (s.queue q).discard
  events   : ∃ es es', t.events = s.events ++ es ++ o.log q (s.scanned q k) ++ es' ∧ ∀ e ∈ es ++ es', e.isDeliver = false
  refilled : t.ringFull .rx q = true ∨ ∀ c < s.n, t.tag .rx q c ≠ .free

theorem RxOutcome.tag_eq_pend_iff {o : RxOutcome} : o.tag = .pend ↔ o = .deliver := by cases o <;> decide

/-- A refill makes no buffer Pend and takes none that is. -/
theorem State.Restocked.tag_eq_pend_iff (h : s.Restocked q (s.refillBufs q) t) (c : Nat) :
    t.tag .rx q c = .pend ↔ s.tag .rx q c = .pend := by
  rw [h.tag_eq]
  split
  · next hc => simp [(State.mem_refillBufs_free hc).2]
  · rfl

/-- A refill delivers nothing. -/
theorem State.Restocked.quiet {bs : List Nat} (h : s.Restocked q bs t) :
    ∃ es, t.events = s.events ++ es ∧ ∀ e ∈ es, e.isDeliver = false := by
  obtain ⟨es, hkind, hevents⟩ := h.events
  refine ⟨_, hevents.trans (List.append_assoc ..), List.forall_mem_append.2 ⟨fun e he => (hkind e he).2, ?_⟩⟩
  split <;> simp [Event.isDeliver]

/-- The value of a pass that takes k descriptors and delivers a frame or none. -/
theorem serviceRx_value {k : Nat} (hk : k < 2 ^ 16) (o : RxOutcome) :
    BitVec.ofNat 32 (if o = .deliver then 1 else 0) <<< 16 ||| BitVec.ofNat 32 k =
      BitVec.ofNat 32 ((if o = .deliver then 65536 else 0) + k) := by
  split
  · exact serviceTx_value_one hk
  · simp

/-- The state when the loop has taken the first k descriptors with outcome o, logging es before and es' after. -/
def State.frameTaken (s : State) (q k : Nat) (o : RxOutcome) (es es' : List Event) : State :=
  { s.taken q o (s.scanned q k) with events := s.events ++ es ++ o.log q (s.scanned q k) ++ es' }

/-- The loop takes the first k descriptors with outcome o, and then finds nothing done behind them. -/
theorem rxLoop_takes {eop : Bool} {k : Nat} {o : RxOutcome} (bmax : Nat) (h : s.Ready) (hq : q < maxQueues)
    (hread : s.RingReadable .rx q) (hscan : s.ScansTo q eop k) (hclass : rxClassify q eop (s.scanned q k) s = o) (ho : o ≠ .wait)
    (hpos : 1 ≤ k) (hk : k ≤ s.occupancy .rx q) (hrest : k = s.occupancy .rx q ∨ ¬ s.rxDoneAt q k) :
    ∃ es es', (∀ e ∈ es ++ es', e.isDeliver = false) ∧ (s.frameTaken q k o es es').Ready ∧
      rxLoop q bmax s.n 0 0 0 s = .ok (k, if o = .deliver then 1 else 0) (s.frameTaken q k o es es') := by
  obtain ⟨es, hes, hscan⟩ := hscan
  obtain ⟨fuel, hn⟩ := s.exists_n_eq_succ
  obtain ⟨htr, -, -, -⟩ := h.rings.settled .rx q hq
  have hlt := h.running.queue_lt hq
  have hne : s.ringEmpty .rx q = false := by
    rw [Bool.eq_false_iff, Ne, ← s.occupancy_eq_zero_iff .rx q htr.ntu_lt htr.ntc_lt]
    omega
  have hlen : (s.scanned q k).length = k := s.length_scanned q k
  have hu : State.Ready { s with events := s.events ++ es } := (still_events s _).ready h
  have hlists := s.lists_scanned q k
  have happly := rxApply_eq hu hq ho hlists (hpos.trans_eq hlen.symm) (hlen.trans_le hk)
  have htaken := hu.taken hq ho hlists (hpos.trans_eq hlen.symm) (hlen.trans_le hk)
  have hbehind := hrest.imp (fun hall => (State.occupancy_taken hu hq o hk).trans (Nat.sub_eq_zero_of_le hall.ge))
    (mt (State.rxDoneAt_taken (s := { s with events := s.events ++ es }) hlt o k).1)
  obtain ⟨es', hes', hwait⟩ := rxLoop_of_waiting bmax fuel k 1 (if o = .deliver then 1 else 0) htaken hq
    ⟨hread.noWb, hread.backed⟩ hbehind
  refine ⟨es, es', List.forall_mem_append.2 ⟨hes, hes'⟩,
    (still_events (State.taken { s with events := s.events ++ es } q o (s.scanned q k)) _).ready htaken, ?_⟩
  rw [hn, rxLoop_first bmax fuel hne hscan hclass ho, happly, Res.bind_ok, hlen, hwait]
  rfl

/-- What the refill that follows leaves of it. -/
theorem State.Restocked.rxTook {k : Nat} {o : RxOutcome} {es es' : List Event} (h : s.Ready) (hq : q < maxQueues)
    (hk : k ≤ s.occupancy .rx q) (hes : ∀ e ∈ es ++ es', e.isDeliver = false) (hw : (s.frameTaken q k o es es').Ready)
    (ht : (s.frameTaken q k o es es').Restocked q ((s.frameTaken q k o es es').refillBufs q) t) :
    s.RxTook q k o (t.respond .ok (BitVec.ofNat 32 (if o = .deliver then 1 else 0) <<< 16 ||| BitVec.ofNat 32 k)) := by
  have hlt := h.running.queue_lt hq
  have hqueue : (s.frameTaken q k o es es').queue q = _ := State.queue_taken hlt o (s.scanned q k)
  have htag : ∀ c, (s.frameTaken q k o es es').tag .rx q c =
      if ∃ i < k, s.handle .rx q (s.slotAt .rx q i) = c then o.tag else s.tag .rx q c := fun c =>
    (State.tag_taken h hq o hk c).trans (if_congr State.mem_handles_scanned rfl rfl)
  have hsmall : k < 2 ^ 16 := by
    have := s.occupancy_lt .rx q
    have := s.n_le
    omega
  refine ⟨?_, ht.ntc_eq.trans (State.ntc_taken hlt o k), fun c => ?_, ?_, ?_, ?_, ht.full_or_exhausted hw hq⟩
  · rw [serviceRx_value hsmall]
    rfl
  · refine (ht.tag_eq_pend_iff c).trans ?_
    rw [htag]
    split
    · exact RxOutcome.tag_eq_pend_iff
    · rfl
  · exact ht.drops.trans (by rw [hqueue]; rfl)
  · exact ht.discard.trans (by rw [hqueue]; rfl)
  · obtain ⟨es'', hevents, hquiet⟩ := ht.quiet
    refine ⟨es, es' ++ es'', hevents.trans (List.append_assoc ..), ?_⟩
    rw [← List.append_assoc]
    exact List.forall_mem_append.2 ⟨hes, hquiet⟩

/-- A pass that takes k descriptors, with nothing done behind them. -/
theorem serviceRx_takes {q : BitVec 7} {eop : Bool} {k : Nat} {o : RxOutcome} (b : Half) (h : s.Inv) (hlive : s.Live q)
    (hb : s.RegionBacked) (hgate : s.rxReporting = true) (hscan : s.ScansTo q.toNat eop k)
    (hclass : rxClassify q.toNat eop (s.scanned q.toNat k) s = o) (ho : o ≠ .wait) (hpos : 1 ≤ k)
    (hk : k ≤ s.occupancy .rx q.toNat) (hrest : k = s.occupancy .rx q.toNat ∨ ¬ s.rxDoneAt q.toNat k) :
    ∃ t, exec (.serviceRx q b) s = .next t ∧ s.RxTook q.toNat k o t := by
  have hready := h.ready_of_live hlive.2
  have hread := h.ringReadable hlive hb .rx
  obtain ⟨es, es', hes, hw, hloop⟩ := rxLoop_takes (s.budget b) hready q.isLt hread hscan hclass ho hpos hk hrest
  obtain ⟨t, hrefill, ht⟩ := rxRefill_of_backed hw q.isLt hread.backed
  refine ⟨_, ?_, ht.rxTook hready q.isLt hk hes hw⟩
  rw [exec_serviceRx_of_live b hlive, if_pos hgate, hloop, Res.bind_ok, hrefill]
  rfl

end Sys2Proof.Machine
end

section
/-! What SERVICE_RX does with a frame at NTC (43_rx.md R353 to R358). -/

namespace Sys2Proof.Machine

variable {s t : State} {q k : Nat}

/-! ### The scanned descriptors as a frame -/

theorem State.map_scanned {α : Type} (f : Scanned → α) (s : State) (q k : Nat) :
    (s.scanned q k).map f = (List.range k).map fun i => f (s.scannedAt q i) := List.map_map ..

theorem scanTotal_eq (recs : List Scanned) : scanTotal recs = (recs.map (·.len)).sum := by
  induction recs with
  | nil => rfl
  | cons x xs ih => rw [scanTotal, ih, List.map_cons, List.sum_cons]

theorem scanErrors_eq (recs : List Scanned) : scanErrors recs = (recs.map (·.er)).foldr (· ||| ·) 0 := by
  induction recs with
  | nil => rfl
  | cons x xs ih => rw [scanErrors, ih, List.map_cons, List.foldr_cons]

/-- A frame has an error bit of the mask exactly when one of its descriptors has. -/
theorem scanErrors_and_eq_zero_iff {mask : Byte} {recs : List Scanned} :
    scanErrors recs &&& mask = 0 ↔ ∀ x ∈ recs, x.er &&& mask = 0 := by
  induction recs with
  | nil => simp [scanErrors]
  | cons x xs ih => rw [scanErrors, BitVec.and_or_distrib_right, List.forall_mem_cons, ← ih]; exact BitVec.or_eq_zero_iff

theorem State.scanTotal_scanned (s : State) (q k : Nat) : scanTotal (s.scanned q k) = s.rxTotal q k := by
  rw [scanTotal_eq, State.map_scanned]
  rfl

theorem State.forall_mem_scanned {P : Scanned → Prop} : (∀ x ∈ s.scanned q k, P x) ↔ ∀ i < k, P (s.scannedAt q i) := by
  rw [State.scanned, List.forall_mem_map]
  simp only [List.mem_range]

theorem State.dropLast_scanned (s : State) (q k : Nat) : (s.scanned q k).dropLast = s.scanned q (k - 1) := by
  cases k with
  | zero => rfl
  | succ k => rw [State.scanned_succ, List.dropLast_concat, Nat.add_sub_cancel]

/-- What R353 makes of a whole frame that is no tail of a dropped one. -/
theorem rxClassify_scanned (h : (s.queue q).discard = false) : rxClassify q true (s.scanned q k) s =
    if ¬ ∀ i < k, s.rxErrorsAt q i &&& s.params.frameErrMask = 0 then .dropError
    else if s.rxTotal q k = 0 ∨ s.params.maxRxFrameLen < s.rxTotal q k then .dropLength
    else if ¬ ∀ i < k - 1, s.rxLenAt q i = s.params.bufSize then .dropLength
    else .deliver := by
  have herrors : scanErrors (s.scanned q k) &&& s.params.frameErrMask ≠ 0 ↔
      ¬ ∀ i < k, s.rxErrorsAt q i &&& s.params.frameErrMask = 0 :=
    not_congr (scanErrors_and_eq_zero_iff.trans State.forall_mem_scanned)
  have hshort : (s.scanned q k).dropLast.any (fun x => x.len != s.params.bufSize) = true ↔
      ¬ ∀ i < k - 1, s.rxLenAt q i = s.params.bufSize := by
    have hfill : (∀ x ∈ s.scanned q (k - 1), x.len = s.params.bufSize) ↔ ∀ i < k - 1, s.rxLenAt q i = s.params.bufSize :=
      State.forall_mem_scanned
    rw [State.dropLast_scanned, ← hfill]
    simp
  rw [rxClassify, if_neg (by decide), h, if_neg Bool.false_ne_true, State.scanTotal_scanned]
  exact if_congr herrors rfl (if_congr Iff.rfl rfl (if_congr hshort rfl rfl))

/-- The frame record of a scanned frame (43_rx.md R358). -/
theorem frameOf_scanned (hc : s.ntc .rx q < s.n) (hpos : 1 ≤ k) : frameOf (s.scanned q k) = {
    slot := s.ntc .rx q, count := k,
    bufs := (List.range k).map (fun i => (BitVec.ofNat 16 (s.handle .rx q (s.slotAt .rx q i)), s.rxLenAt q i)),
    total := s.rxTotal q k, status := byteAt (s.rxDescAt q (k - 1)) 12,
    errors := ((List.range k).map (s.rxErrorsAt q)).foldr (· ||| ·) 0 } := by
  obtain ⟨m, rfl⟩ := Nat.exists_eq_add_of_le' hpos
  have hslot : ((s.scanned q (m + 1)).map (·.slot)).headD 0 = s.ntc .rx q := by
    rw [State.map_scanned, List.range_succ_eq_map]
    exact State.slotAt_zero hc
  have hbufs : (s.scanned q (m + 1)).map (fun x => (x.handle, x.len)) = (List.range (m + 1)).map fun i =>
      (BitVec.ofNat 16 (s.handle .rx q (s.slotAt .rx q i)), s.rxLenAt q i) := by
    rw [State.map_scanned]
    exact List.map_congr_left fun i _ => by rw [State.handle, BitVec.ofNat_toNat, BitVec.setWidth_eq]; rfl
  have hstatus : ((s.scanned q (m + 1)).map (·.st)).getLastD 0 = byteAt (s.rxDescAt q m) 12 := by
    rw [State.scanned_succ, List.map_append]
    simp [State.scannedAt]
  rw [frameOf, hslot, hbufs, hstatus, State.length_scanned, State.scanTotal_scanned, scanErrors_eq, State.map_scanned]
  rfl

/-! ### A frame delivered -/

theorem State.FrameAtHead.behind (h : s.FrameAtHead q k) : k = s.occupancy .rx q ∨ ¬ s.rxDoneAt q k := by
  obtain ⟨-, -, -, hrest⟩ := h
  exact hrest.imp_right fun hwait hdone => by
    rw [State.rxDoneAt_iff, hwait] at hdone
    cases hdone

/-- A pass over a whole frame at NTC. -/
theorem serviceRx_frame {q : BitVec 7} (b : Half) (h : s.Inv) (hlive : s.Live q) (hb : s.RegionBacked)
    (hgate : s.rxReporting = true) (hf : s.FrameAtHead q.toNat k) {o : RxOutcome}
    (hclass : rxClassify q.toNat true (s.scanned q.toNat k) s = o) (ho : o ≠ .wait) :
    ∃ t, exec (.serviceRx q b) s = .next t ∧ s.RxTook q.toNat k o t := by
  obtain ⟨htr, -, -, -⟩ := (h.ready_of_live hlive.2).rings.settled .rx q.toNat q.isLt
  exact serviceRx_takes b h hlive hb hgate ((h.ringReadable hlive hb .rx).scansTo_frame htr.ntc_lt hf) hclass ho hf.1 hf.2.1
    (State.FrameAtHead.behind hf)

/-- Settles O40: the scan lists the frame, R353 calls it clean, and the frame record is made of what was listed. -/
theorem serviceRxDeliversCleanFrame : Obligations.ServiceRxDeliversCleanFrame := by
  intro q b s k h hlive hb hgate
  dsimp only
  intro hdiscard hf herrors hfill hpos hmax
  have hclass : rxClassify q.toNat true (s.scanned q.toNat k) s = .deliver := by
    rw [rxClassify_scanned hdiscard, if_neg (not_not_intro herrors), if_neg (by omega), if_neg (not_not_intro hfill)]
  obtain ⟨t, ht, htook⟩ := serviceRx_frame b h hlive hb hgate hf hclass (by decide)
  obtain ⟨htr, -, -, -⟩ := (h.ready_of_live hlive.2).rings.settled .rx q.toNat q.isLt
  obtain ⟨es, es', hevents, hes⟩ := htook.events
  refine ⟨t, ht, htook.response, htook.ntc, fun i hi => ?_, htook.drops, htook.discard.trans hdiscard, ⟨es, es', ?_, hes⟩,
    htook.refilled⟩
  · rw [htook.pend, if_pos ⟨i, hi, rfl⟩]
  · rw [hevents, RxOutcome.log, frameOf_scanned htr.ntc_lt hf.1]

/-! ### A frame dropped -/

theorem RxOutcome.log_eq_nil {o : RxOutcome} (ho : o ≠ .deliver) (q : Nat) (recs : List Scanned) : o.log q recs = [] := by
  cases o with
  | deliver => exact absurd rfl ho
  | wait | oversize | discardTail | dropError | dropLength => rfl

/-- A pass that delivers nothing. -/
theorem State.RxTook.quiet {o : RxOutcome} (h : s.RxTook q k o t) (ho : o ≠ .deliver) :
    t.response = some ⟨.ok, BitVec.ofNat 32 k⟩ ∧
      (∀ c, t.tag .rx q c = .pend → (∀ i < k, s.handle .rx q (s.slotAt .rx q i) ≠ c) ∧ s.tag .rx q c = .pend) ∧
      ∃ es, t.events = s.events ++ es ∧ ∀ e ∈ es, e.isDeliver = false := by
  obtain ⟨es, es', hevents, hes⟩ := h.events
  refine ⟨?_, fun c hc => ?_, es ++ es', ?_, hes⟩
  · rw [h.response, if_neg ho, Nat.zero_add]
  · rw [h.pend] at hc
    split at hc
    · exact absurd hc ho
    · next hno => exact ⟨fun i hi he => hno ⟨i, hi, he⟩, hc⟩
  · rw [hevents, RxOutcome.log_eq_nil ho, List.append_nil, List.append_assoc]

/-- A bad frame is the uncounted tail of a dropped one, or a counted drop. -/
theorem rxClassify_bad (h : (s.queue q).discard = true ∨ (∃ i < k, s.rxErrorsAt q i &&& s.params.frameErrMask ≠ 0) ∨
      s.rxTotal q k = 0 ∨ s.params.maxRxFrameLen < s.rxTotal q k ∨ ∃ i < k - 1, s.rxLenAt q i ≠ s.params.bufSize) :
    ∃ o, rxClassify q true (s.scanned q k) s = o ∧
      ((s.queue q).discard = true ∧ o = .discardTail ∨ (s.queue q).discard = false ∧ (o = .dropError ∨ o = .dropLength)) := by
  cases hd : (s.queue q).discard with
  | true => exact ⟨.discardTail, by rw [rxClassify, if_neg nofun, if_pos hd], .inl ⟨rfl, rfl⟩⟩
  | false =>
    refine ⟨_, rfl, .inr ⟨rfl, ?_⟩⟩
    rw [rxClassify_scanned hd]
    split
    · exact .inl rfl
    next herrors =>
    split
    · exact .inr rfl
    next htotal =>
    split
    · exact .inr rfl
    next hfill =>
    rw [not_not] at herrors hfill
    rcases h with h | ⟨i, hi, h⟩ | h | h | ⟨i, hi, h⟩
    · rw [hd] at h
      cases h
    · exact absurd (herrors i hi) h
    · exact absurd (.inl h) htotal
    · exact absurd (.inr h) htotal
    · exact absurd (hfill i hi) h

/-- Settles O41: R353 calls the frame a drop, or the tail of one, and neither delivers anything. -/
theorem serviceRxDropsBadFrame : Obligations.ServiceRxDropsBadFrame := by
  intro q b s k h hlive hb hgate
  dsimp only
  intro hf hbad
  obtain ⟨o, hclass, ho⟩ := rxClassify_bad hbad
  have hkind : o ≠ .wait ∧ o ≠ .deliver := by rcases ho with ⟨-, rfl⟩ | ⟨-, rfl | rfl⟩ <;> decide
  obtain ⟨t, ht, htook⟩ := serviceRx_frame b h hlive hb hgate hf hclass hkind.1
  obtain ⟨hresponse, hpend, hevents⟩ := htook.quiet hkind.2
  refine ⟨t, ht, hresponse, htook.ntc, fun i hi hp => (hpend _ hp).1 i hi rfl, ?_, ?_, hevents, htook.refilled⟩
  · rw [htook.drops]
    rcases ho with ⟨hd, rfl⟩ | ⟨hd, rfl | rfl⟩ <;> simp [RxOutcome.drops, hd]
  · rw [htook.discard]
    rcases ho with ⟨hd, rfl⟩ | ⟨hd, rfl | rfl⟩ <;> simp [RxOutcome.discard, hd]

/-! ### A frame that overflows the ring -/

/-- A ring of a live queue has two slots at least (10_state.md R36). -/
theorem State.Inv.two_le_n (h : s.Inv) (hr : s.rstate = .ringsReady) : 2 ≤ s.n := by
  have hconf := h.config.configured
  obtain ⟨-, -, -, -, -, -, hzero⟩ := hconf.sized
  have hlogn : s.logn.toNat ≠ 0 := fun h0 =>
    hconf.nq_ne_zero (by rw [hr]; decide) (hzero.2 (BitVec.eq_of_toNat_eq h0))
  exact Nat.pow_le_pow_right Nat.two_pos (Nat.pos_of_ne_zero hlogn)

/-- Settles O42: the scan lists every slot and finds no end of packet in a full ring. -/
theorem serviceRxDropsOverflowingFrame : Obligations.ServiceRxDropsOverflowingFrame := by
  intro q b s h hlive hb hgate
  dsimp only
  intro hfull hall
  obtain ⟨htr, -, -, -⟩ := (h.ready_of_live hlive.2).rings.settled .rx q.toNat q.isLt
  have hocc := (s.occupancy_eq_max_iff .rx q.toNat htr.ntu_lt htr.ntc_lt).2 hfull
  have hpos : 1 ≤ s.occupancy .rx q.toNat := by
    have := h.two_le_n hlive.2
    omega
  have hscan := (h.ringReadable hlive hb .rx).scansTo_all htr.ntc_lt fun i hi =>
    have ⟨hdone, hend, hlen⟩ := hall i (hi.trans_eq hocc)
    ⟨hdone, hlen, hend⟩
  have hclass : rxClassify q.toNat false (s.scanned q.toNat (s.occupancy .rx q.toNat)) s = .oversize := by
    rw [rxClassify, if_pos rfl, if_pos ⟨State.length_scanned .., hfull⟩]
  obtain ⟨t, ht, htook⟩ := serviceRx_takes b h hlive hb hgate hscan hclass (by decide) hpos (Nat.le_refl _) (.inl rfl)
  obtain ⟨hresponse, hpend, hevents⟩ := htook.quiet (by decide)
  refine ⟨t, ht, hocc ▸ hresponse, htook.ntc.trans (RingView.slotAt_count htr.ntu_lt htr.ntc_lt), htook.discard, ?_,
    fun c _ hc => (hpend c hc).2, hevents⟩
  rw [htook.drops, RxOutcome.drops]
  split
  · exact (BitVec.add_zero _).symm
  · rfl

/-! ### A descriptor that is too long -/

/-- What a fault entered from RingsReady leaves (60_exceptions.md R560). -/
theorem State.Inv.faultAnswer_of_live (h : s.Inv) (hr : s.rstate = .ringsReady) (es : List Event) (r : Reason)
    (ht : State.faultAnswer { s with events := es } r = t) :
    t.response = some ⟨r.status, r.code.setWidth 32⟩ ∧ t.rstate = .faulted ∧ t.gen = s.gen + 1 ∧
      t.faultReason = r.code ∧ t.events.getLast? = some (.fault r) ∧ t.dev.rxEn = false ∧ t.dev.txEn = false ∧
      ∀ p < t.nq.toNat, t.AllFree p := by
  subst ht
  have hrun : State.rstate { s with events := es } = .ringsReady := hr
  have hf : State.rstate { s with events := es } ≠ .faulted := by
    rw [hrun]
    decide
  have hconf : State.ConfigInv { s with events := es } :=
    ⟨h.config.valid, h.config.sized, h.config.region, h.config.regs, h.config.quiet⟩
  have hnq := hconf.configured.nq_ne_zero (by rw [hrun]; decide)
  have hafter := hconf.configured.configInv_faultAnswer hnq hf r
  have hrstate : (State.faultAnswer { s with events := es } r).rstate = .faulted := State.enterFault_rstate _ _
  refine ⟨rfl, hrstate, ?_, ?_, ?_, ?_, ?_, fun p hp => hafter.allFree (by rw [hrstate]; decide) hp⟩
  all_goals
    rw [State.faultAnswer, State.enterFault_of_not_faulted _ _ hf, if_pos hrun]
    simp

/-- Settles O43: the scan ends the command at the first descriptor. -/
theorem serviceRxLengthFaults : Obligations.ServiceRxLengthFaults := by
  intro q b s h hlive hb hgate
  dsimp only
  intro hne hdone hlen
  obtain ⟨fuel, hn⟩ := s.exists_n_eq_succ
  obtain ⟨htr, -, -, -⟩ := (h.ready_of_live hlive.2).rings.settled .rx q.toNat q.isLt
  have hocc : 0 < s.occupancy .rx q.toNat := Nat.pos_of_ne_zero fun h0 => by
    rw [(s.occupancy_eq_zero_iff .rx q.toNat htr.ntu_lt htr.ntc_lt).1 h0] at hne
    cases hne
  have hslot := State.slotAt_zero (show s.ntc .rx q.toNat < s.n from htr.ntc_lt)
  rw [← hslot] at hdone hlen
  obtain ⟨es, hscan⟩ := (h.ringReadable hlive hb .rx).rxScan_of_tooLong htr.ntc_lt hocc hdone hlen
  refine ⟨_, ?_, h.faultAnswer_of_live hlive.2 es .rxLen rfl⟩
  rw [exec_serviceRx_of_live b hlive, if_pos hgate, hn, rxLoop, hne, if_neg Bool.false_ne_true, hscan]
  rfl

end Sys2Proof.Machine
end

section
/-! RSTATE and GEN: what every command and every step does to them (10_state.md R34, 44_control.md R421). -/

namespace Sys2Proof.Machine

variable {s t u : State}

/-! ### Work that keeps RSTATE and GEN, and fault entry -/

/-- RSTATE and GEN are the same. -/
def State.SamePhase (s t : State) : Prop := t.rstate = s.rstate ∧ t.gen = s.gen

theorem State.SamePhase.refl (s : State) : s.SamePhase s := ⟨rfl, rfl⟩

theorem State.SamePhase.trans (h : s.SamePhase t) (h' : t.SamePhase u) : s.SamePhase u :=
  ⟨h'.1.trans h.1, h'.2.trans h.2⟩

/-- No operation of a queue writes RSTATE or GEN, but by fault entry. -/
theorem samePhase_keptBy (q : Nat) : KeptBy q State.SamePhase where
  refl := .refl
  trans := .trans
  emit _ _ := ⟨rfl, rfl⟩
  setQueue _ _ := ⟨rfl, rfl⟩
  store _ _ _ := ⟨rfl, rfl⟩
  drain _ := ⟨rfl, rfl⟩
  dev _ _ := ⟨rfl, rfl⟩

/-- A fault is entered: GEN counts it, and the log ends with its reason (60_exceptions.md R560). -/
def State.EntersFault (s t : State) : Prop :=
  t.gen = s.gen + 1 ∧ t.rstate = .faulted ∧ ∃ r, t.events.getLast? = some (.fault r) ∧ t.faultReason = r.code

theorem entersFault_faultAnswer (h : s.rstate ≠ .faulted) (r : Reason) : s.EntersFault (s.faultAnswer r) := by
  rw [State.faultAnswer, State.enterFault_of_not_faulted s r h]
  refine ⟨?_, rfl, r, by simp, rfl⟩
  by_cases hr : s.rstate = .ringsReady <;> simp [hr]

theorem State.SamePhase.entersFault (h : s.SamePhase t) (h' : t.EntersFault u) : s.EntersFault u := by
  obtain ⟨hgen, hrest⟩ := h'
  exact ⟨by rw [hgen, h.2], hrest⟩

/-- Where work may only keep the phase, the command keeps it or enters a fault; in Faulted there is no fault to enter. -/
theorem Keeps.phase_cases {x : Res (Status × Word)} (hx : Keeps State.SamePhase s x) (ht : x.answer = .next t) :
    s.SamePhase t ∨ (s.rstate ≠ .faulted ∧ s.EntersFault t) := by
  obtain ⟨a, u, rfl, rfl⟩ | rfl := Res.answer_eq_next.1 ht
  · exact .inl hx
  · obtain ⟨u, r, hu, rfl⟩ := hx
    by_cases hf : u.rstate = .faulted
    · rw [State.faultAnswer, State.enterFault_of_faulted u r hf]
      exact .inl hu
    · exact .inr ⟨hu.1 ▸ hf, hu.entersFault (entersFault_faultAnswer hf r)⟩

theorem keepsPhase_dispatch (q : Nat) (s : State) : Keeps State.SamePhase s (dispatch q s) := by
  have K := samePhase_keptBy q
  unfold dispatch
  dsimp only
  refine K.lift (K.setQueue s _ : s.SamePhase (s.closeWindow q)) ?_
  split
  · exact K.refl _
  · refine K.bind ?_ fun _ t _ => K.bind ?_ fun _ u _ => ?_
    · split
      · exact K.bind (K.txPass 0 _) fun _ t _ => K.refl t
      · exact K.refl _
    · split
      · exact K.bind (K.rxPass 0 _) fun _ u _ => K.refl u
      · exact K.refl _
    · show State.SamePhase _ _
      split
      · exact ⟨rfl, rfl⟩
      · exact K.refl u

theorem keepsPhase_tickLoop (qs : List Nat) (d : Nat) (s : State) : Keeps State.SamePhase s (tickLoop qs d s) := by
  induction qs generalizing d s with
  | nil => exact .refl s
  | cons q qs ih =>
    have K := samePhase_keptBy q
    refine K.bind ?_ fun d t _ => ih d t
    unfold tickQueue
    dsimp only
    split
    · refine K.lift (K.setQueue s { s.queue q with cnt := (s.queue q).cnt - 1 }) ?_
      split
      · exact K.bind (keepsPhase_dispatch q _) fun _ t _ => K.refl t
      · exact K.refl _
    · exact K.refl s

/-! ### Activation -/

/-- RSTATE, GEN and the shape of every queue are the same. -/
def State.SameShapes (s t : State) : Prop := s.SamePhase t ∧ ∀ p, (t.queue p).shape = (s.queue p).shape

/-- No ring or pool operation of a queue changes them. -/
theorem sameShapes_shapeKeptBy (q : Nat) : ShapeKeptBy q State.SameShapes where
  refl s := ⟨.refl s, fun _ => rfl⟩
  trans h h' := ⟨h.1.trans h'.1, fun p => (h'.2 p).trans (h.2 p)⟩
  emit _ _ := ⟨⟨rfl, rfl⟩, fun _ => rfl⟩
  setQueue s x hx := by
    refine ⟨⟨rfl, rfl⟩, fun p => ?_⟩
    rw [State.queue_setQueue]
    split
    · next hp => rw [hx, hp.1]
    · rfl
  store _ _ _ := ⟨⟨rfl, rfl⟩, fun _ => rfl⟩
  drain _ := ⟨⟨rfl, rfl⟩, fun _ => rfl⟩
  regWrite _ _ _ := ⟨⟨rfl, rfl⟩, fun _ => rfl⟩

/-- Programming the device is nothing but register writes. -/
theorem ShapeKeptBy.programQueues {q : Nat} {R : State → State → Prop} (K : ShapeKeptBy q R) (qs : List Nat) (s : State) :
    R s (programQueues qs s) := by
  have ring : ∀ r p u, R u (u.programRing r p) := fun r p u =>
    K.trans (K.trans (K.trans (K.trans (K.regWrite u _ _) (K.regWrite _ _ _)) (K.regWrite _ _ _)) (K.regWrite _ _ _))
      (K.regWrite _ _ _)
  induction qs generalizing s with
  | nil => exact K.refl s
  | cons p qs ih => exact K.trans (K.trans (ring .tx p s) (ring .rx p _)) (ih _)

/-- Activation ends in RingsReady, GEN counts it, and no window opens (44_control.md R411). -/
theorem activate_phase (hr : s.rstate ≠ .faulted) :
    (activate s).Ends
      (fun _ t => t.rstate = .ringsReady ∧ t.gen = s.gen + 1 ∧ ∀ p, (t.queue p).shape = (s.queue p).shape)
      s.EntersFault (fun _ => True) := by
  have K := sameShapes_shapeKeptBy 0
  have hprog : s.SameShapes (((programQueues (List.range s.nq.toNat) s).regWrite .rctl 0x00000002).regWrite .tctl 0x00000002) :=
    K.trans (K.trans (K.programQueues _ s) (K.regWrite _ _ _)) (K.regWrite _ _ _)
  have hrefill := K.lift hprog (K.forEach (f := fun q u => (rxRefill q u).bind fun _ v => .ok () v) (fun q u =>
    (sameShapes_shapeKeptBy q).bind ((sameShapes_shapeKeptBy q).rxRefill u) fun _ v => (sameShapes_shapeKeptBy q).refl v)
    (List.range s.nq.toNat) _)
  unfold activate
  refine (hrefill.mono (fun _ _ => id) ?_ fun _ => id).bind fun _ t ht => ?_
  · rintro t ⟨u, r, hu, rfl⟩
    exact hu.1.entersFault (entersFault_faultAnswer (hu.1.1 ▸ hr) r)
  · exact ⟨rfl, by simp [ht.1.2], ht.2⟩

/-- A poll of the reset waits, or brings the rings up once the device has left reset, or enters the fault. -/
theorem resetPoll_phase (hr : s.rstate = .resetting) :
    (resetPoll s).Ends
      (fun _ t => s.SamePhase t ∨ (s.dev.resetting = false ∧ t.rstate = .ringsReady ∧ t.gen = s.gen + 1 ∧
        ∀ p, (t.queue p).shape = (s.queue p).shape))
      s.EntersFault (fun _ => True) := by
  have hf : State.rstate (State.afterRegRead { s with resetPolls := s.resetPolls + 1 } .ctrl) ≠ .faulted := by
    simp [hr]
  unfold resetPoll
  dsimp only
  split
  · next hdone => exact (activate_phase hf).mono (fun _ _ h => .inr ⟨hdone, h⟩) (fun _ => id) fun _ => id
  · split
    · exact entersFault_faultAnswer hf .resetTimeout
    · exact .inl ⟨rfl, rfl⟩

/-- With no window open the queue loop of a TICK does nothing. -/
theorem tickLoop_of_closed {qs : List Nat} (h : ∀ q, (s.queue q).armed = false) (d : Nat) : tickLoop qs d s = .ok d s := by
  induction qs with
  | nil => rfl
  | cons q qs ih =>
    rw [tickLoop, tickQueue, h q]
    exact ih

end Sys2Proof.Machine
end

section
/-! The table of RSTATE's changes (44_control.md R421). -/

namespace Sys2Proof.Machine

variable {s t : State}

/-- What instruction i may do to RSTATE and GEN. -/
def State.Tabled (i : Instr) (s t : State) : Prop :=
  s.SamePhase t ∨
  (t.gen = s.gen + 1 ∧
    ((s.rstate ≠ .resetting ∧ t.rstate = .resetting ∧ ∃ q logn base size, i = .init q logn base size) ∨
     (s.rstate = .resetting ∧ t.rstate = .ringsReady ∧ i = .tick ∧ s.dev.resetting = false) ∨
     ((s.rstate = .resetting ∨ s.rstate = .ringsReady) ∧ t.rstate = .stopped ∧ i = .stop) ∨
     ((s.rstate = .resetting ∨ s.rstate = .ringsReady ∨ s.rstate = .stopped) ∧ t.rstate = .faulted ∧
       ∃ r, t.events.getLast? = some (.fault r) ∧ t.faultReason = r.code)))

theorem State.EntersFault.tabled (h : s.EntersFault t) (hf : s.rstate ≠ .faulted) (hu : s.rstate ≠ .uninitialized) (i : Instr) :
    s.Tabled i t := by
  obtain ⟨hgen, hrest⟩ := h
  refine .inr ⟨hgen, .inr (.inr (.inr ⟨?_, hrest⟩))⟩
  cases hs : s.rstate with
  | uninitialized => exact absurd hs hu
  | resetting => exact .inl rfl
  | ringsReady => exact .inr (.inl rfl)
  | stopped => exact .inr (.inr rfl)
  | faulted => exact absurd hs hf

theorem samePhase_of_answer {st : Status} {v : Word} (ht : answer s st v = .next t) : s.SamePhase t := by
  rw [answer_eq_next.1 ht]
  exact ⟨rfl, rfl⟩

/-- A command of one queue runs its own rule only where queues are configured, so not in Uninitialized. -/
theorem State.ConfigInv.tabled_perQueue {q : BitVec 7} {k : Host.Outcome State Fault Refusal} {i : Instr} (h : s.ConfigInv)
    (hk : k = .next t → s.SamePhase t ∨ (s.rstate ≠ .faulted ∧ s.EntersFault t)) (ht : perQueue q s k = .next t) :
    s.Tabled i t := by
  obtain ⟨hq, ht⟩ | ⟨-, rfl⟩ := perQueue_eq_next ht
  · have hu : s.rstate ≠ .uninitialized := fun hs => by
      rw [h.configured.fresh.1 hs] at hq
      exact absurd hq (Nat.not_lt_zero _)
    exact (hk ht).elim .inl fun ⟨hf, he⟩ => he.tabled hf hu i
  · exact .inl ⟨rfl, rfl⟩

/-! ### INIT, STOP, POLL_LINK, TICK -/

theorem tabled_init {nqLess1 : BitVec 7} {logn : BitVec 4} {base : Addr} {size : Word}
    (ht : execInit nqLess1 logn base size s = .next t) : s.Tabled (.init nqLess1 logn base size) t := by
  unfold execInit at ht
  dsimp only at ht
  iterate 2
    split at ht
    · exact .inl (samePhase_of_answer ht)
  split at ht
  · exact .inl (samePhase_of_answer ht)
  next hr =>
    rw [answer_eq_next.1 ht]
    refine .inr ⟨?_, .inl ⟨hr, rfl, _, _, _, _, rfl⟩⟩
    split <;> simp [State.initialised]

theorem tabled_stop (ht : execStop s = .next t) : s.Tabled .stop t := by
  unfold execStop at ht
  split at ht
  · exact .inl (samePhase_of_answer ht)
  · exact .inl (samePhase_of_answer ht)
  · exact .inl (samePhase_of_answer ht)
  next hr =>
    rw [answer_eq_next.1 ht]
    exact .inr ⟨by simp, .inr (.inr (.inl ⟨.inl hr, rfl, rfl⟩))⟩
  next hr =>
    rw [answer_eq_next.1 ht]
    exact .inr ⟨by simp, .inr (.inr (.inl ⟨.inr hr, rfl, rfl⟩))⟩

theorem samePhase_pollLink {link speed : BitVec 2} {fd : BitVec 1} (ht : execPollLink link speed fd s = .next t) :
    s.SamePhase t := by
  unfold execPollLink at ht
  split at ht
  · exact samePhase_of_answer ht
  split at ht
  · exact samePhase_of_answer ht
  dsimp only at ht
  split at ht
  · rw [answer_eq_next.1 ht]; exact ⟨rfl, rfl⟩
  · rw [answer_eq_next.1 ht]; exact ⟨rfl, rfl⟩

theorem Queue.armed_of_shape {x y : Queue} (h : y.shape = x.shape) : y.armed = x.armed := by
  simp only [Queue.shape, Prod.mk.injEq] at h
  obtain ⟨-, -, -, harmed, -⟩ := h
  exact harmed

/-- Outside RingsReady no window is open. -/
theorem State.ConfigInv.closed_of_not_ready (h : s.ConfigInv) (hr : s.rstate ≠ .ringsReady) (q : Nat) :
    (s.queue q).armed = false := by
  by_cases hq : q < s.queues.length
  · rw [(h.quiet.1 hr).2 _ (State.queue_mem_of_lt hq)]
    rfl
  · rw [State.queue, List.getD_eq_default _ _ (Nat.le_of_not_lt hq)]
    rfl

/-- In Resetting a TICK polls; activation opens no window, so nothing is dispatched after it. -/
theorem tabled_tick_of_resetting (h : s.ConfigInv) (hr : s.rstate = .resetting) (ht : execTick s = .next t) : s.Tabled .tick t := by
  have hpoll := resetPoll_phase hr
  unfold execTick at ht
  rw [if_pos hr] at ht
  have hf : s.rstate ≠ .faulted := by rw [hr]; decide
  have hu : s.rstate ≠ .uninitialized := by rw [hr]; decide
  cases hx : resetPoll s with
  | stuck f => rw [hx] at ht; cases ht
  | ended u =>
    rw [hx] at hpoll ht
    cases ht
    exact State.EntersFault.tabled hpoll hf hu .tick
  | ok a u =>
    rw [hx, Res.bind_ok] at ht
    rw [hx] at hpoll
    obtain hsame | ⟨hdone, hready, hgen, hshape⟩ := hpoll
    · rw [if_neg (by rw [hsame.1, hr]; decide)] at ht
      cases ht
      exact .inl hsame
    · have hclosed : ∀ q, (u.queue q).armed = false := fun q => by
        rw [Queue.armed_of_shape (hshape q)]
        exact h.closed_of_not_ready (by rw [hr]; decide) q
      rw [if_pos hready, tickLoop_of_closed hclosed] at ht
      cases ht
      exact .inr ⟨hgen, .inr (.inl ⟨hr, hready, rfl, hdone⟩)⟩

theorem tabled_tick (h : s.ConfigInv) (ht : execTick s = .next t) : s.Tabled .tick t := by
  by_cases hr : s.rstate = .resetting
  · exact tabled_tick_of_resetting h hr ht
  unfold execTick at ht
  rw [if_neg hr, Res.bind_ok] at ht
  split at ht
  · next hready =>
    have K := samePhase_keptBy 0
    have hloop : Keeps State.SamePhase s ((tickLoop (List.range s.nq.toNat) 0 s).bind fun d t =>
        .ok (Status.ok, BitVec.ofNat 32 d) t) := K.bind (keepsPhase_tickLoop _ 0 s) fun _ u _ => K.refl u
    obtain hsame | ⟨hf, hfault⟩ := hloop.phase_cases ht
    · exact .inl hsame
    · exact hfault.tabled hf (by rw [hready]; decide) .tick
  · cases ht
    exact .inl ⟨rfl, rfl⟩

/-! ### The commands of one queue -/

section

variable {q : BitVec 7}

theorem tabled_enqueue {frags : List Frag} (h : s.ConfigInv) (ht : execEnqueue q frags s = .next t) :
    s.Tabled (.enqueue q frags) t := by
  refine h.tabled_perQueue (fun ht => ?_) ht
  dsimp only at ht
  iterate 5
    split at ht
    · exact .inl (samePhase_of_answer ht)
  have K := samePhase_keptBy q.toNat
  refine Keeps.phase_cases ?_ ht
  exact K.bind (K.readFrags frags s) fun _ u _ => K.bind (K.stagePieces _ _ u) fun _ v _ => K.ringTailSync .tx v

theorem tabled_serviceTx {b : Half} (h : s.ConfigInv) (ht : execServiceTx q b s = .next t) : s.Tabled (.serviceTx q b) t := by
  refine h.tabled_perQueue (fun ht => Keeps.phase_cases ?_ ht) ht
  exact (samePhase_keptBy q.toNat).bind ((samePhase_keptBy q.toNat).txPass b s) fun _ u _ => .refl u

theorem tabled_serviceRx {b : Half} (h : s.ConfigInv) (ht : execServiceRx q b s = .next t) : s.Tabled (.serviceRx q b) t := by
  refine h.tabled_perQueue (fun ht => Keeps.phase_cases ?_ ht) ht
  exact (samePhase_keptBy q.toNat).bind ((samePhase_keptBy q.toNat).rxPass b s) fun _ u _ => .refl u

theorem tabled_refill (h : s.ConfigInv) (ht : execRefill q s = .next t) : s.Tabled (.refill q) t := by
  refine h.tabled_perQueue (fun ht => ?_) ht
  split at ht
  · exact .inl (samePhase_of_answer ht)
  · refine Keeps.phase_cases ?_ ht
    exact (samePhase_keptBy q.toNat).bind ((samePhase_keptBy q.toNat).rxRefill s) fun _ u _ => .refl u

theorem tabled_release {r : Ring} {index : Half} (h : s.ConfigInv) (ht : execRelease r q index s = .next t) :
    s.Tabled (.release r q index) t := by
  refine h.tabled_perQueue (fun ht => .inl ?_) ht
  split at ht
  · exact samePhase_of_answer ht
  split at ht
  · exact samePhase_of_answer ht
  next u hu =>
    rw [(poolRelease_eq_some.1 hu).2] at ht
    exact ((samePhase_keptBy q.toNat).setTag r index.toNat .free s).trans (samePhase_of_answer ht)

theorem tabled_irq {c : Half} (h : s.ConfigInv) (ht : execIrq q c s = .next t) : s.Tabled (.irq q c) t := by
  refine h.tabled_perQueue (fun ht => ?_) ht
  have K := samePhase_keptBy q.toNat
  split at ht
  · next hparity =>
    cases ht
    exact .inr ⟨hparity.2.2, entersFault_faultAnswer hparity.2.2 .dmaParity⟩
  split at ht
  · exact .inl (samePhase_of_answer ht)
  dsimp only at ht
  split at ht
  · exact .inl (samePhase_of_answer ht)
  have hacc : s.SamePhase (s.accumulate q.toNat (c &&& causeMask)) := K.setQueue s _
  split at ht
  · refine Keeps.phase_cases ?_ ht
    exact K.lift hacc (K.bind (keepsPhase_dispatch _ _) fun _ u _ => K.refl u)
  · exact .inl (hacc.trans (State.SamePhase.trans ⟨by simp, by simp⟩ (samePhase_of_answer ht)))

theorem samePhase_readReg {index : Half} (ht : execReadReg q index s = .next t) : s.SamePhase t := by
  unfold execReadReg at ht
  split at ht
  · split at ht
    · exact samePhase_of_answer ht
    · exact samePhase_of_answer ht
  split at ht
  · obtain ⟨-, ht⟩ | ⟨-, rfl⟩ := perQueue_eq_next ht
    · exact samePhase_of_answer ht
    · exact ⟨rfl, rfl⟩
  · exact samePhase_of_answer ht

end

/-! ### Every command and every step -/

theorem exec_tabled {i : Instr} (h : s.ConfigInv) (ht : exec i s = .next t) : s.Tabled i t := by
  have query : ∀ {q : BitVec 7} {st : Status} {v : Word} {j : Instr}, perQueue q s (answer s st v) = .next t → s.Tabled j t :=
    h.tabled_perQueue fun ht => .inl (samePhase_of_answer ht)
  cases i with
  | init nqLess1 logn base size => exact tabled_init ht
  | stop => exact tabled_stop ht
  | enqueue q frags => exact tabled_enqueue h ht
  | serviceTx q b => exact tabled_serviceTx h ht
  | serviceRx q b => exact tabled_serviceRx h ht
  | refill q => exact tabled_refill h ht
  | release r q index => exact tabled_release h ht
  | irq q c => exact tabled_irq h ht
  | pollLink link speed fd => exact .inl (samePhase_pollLink ht)
  | tick => exact tabled_tick h ht
  | setItr q w =>
    refine h.tabled_perQueue (fun ht => .inl ?_) ht
    exact ((samePhase_keptBy q.toNat).setQueue s _).trans (samePhase_of_answer ht)
  | isEmpty r q => exact query ht
  | isFull r q => exact query ht
  | capacity r q => exact query ht
  | occupancy r q => exact query ht
  | readReg q index => exact .inl (samePhase_readReg ht)
  | poolTag r q index =>
    refine h.tabled_perQueue (fun ht => .inl ?_) ht
    split at ht
    · exact samePhase_of_answer ht
    · exact samePhase_of_answer ht

/-- Settles O56: a command does what the table says of it, and no other step touches RSTATE or GEN. -/
theorem rStateChangesAsTabled : Obligations.RStateChangesAsTabled := by
  intro s t h ht
  have same : ∀ {rest : List Input}, (s.withInputs rest).OutsideWrite t → t.rstate = s.rstate ∧ t.gen = s.gen := by
    rintro rest ⟨m, d, rfl, -, -⟩
    exact ⟨rfl, rfl⟩
  obtain ⟨-, ⟨-, rfl⟩ | ⟨w, args, rest, i, hi, hd, ht⟩ | ⟨w, args, rest, e, hi, -, rfl⟩ | ⟨m, rest, hi, ht⟩ |
    ⟨addr, bytes, rest, hi, rfl⟩⟩ := step_cases ht
  · exact .inl ⟨rfl, rfl⟩
  · have hrest : (s.withInputs rest).ConfigInv := ⟨h.valid, h.sized, h.region, h.regs, h.quiet⟩
    exact (exec_tabled hrest ht).imp id fun ⟨hgen, hrow⟩ => ⟨hgen, w, args, rest, i, hi, hd, hrow⟩
  · exact .inl ⟨rfl, rfl⟩
  · have hmove := outside_deviceMove m (s.withInputs rest)
    obtain ht | ht := moveOutcome_eq_next.1 ht
    · rw [ht] at hmove
      exact .inl (same hmove)
    · rw [ht] at hmove
      exact hmove.elim
  · exact .inl (same (outsideWrite_hostWrite addr bytes _))

end Sys2Proof.Machine
end

section
/-! READ_REG over the index map (10_state.md R80, 44_control.md R425). -/

namespace Sys2Proof.Machine

variable {s : State} {q : BitVec 7} {index : Half} {v : Word}

/-- The global registers with their indices (10_state.md R80). -/
def State.globalTable (s : State) : List (Nat × Word) :=
  [(0x000, s.rstate.code.setWidth 32), (0x001, s.lstate.setWidth 32), (0x002, s.gen), (0x003, s.nq.setWidth 32),
   (0x004, s.logn.setWidth 32), (0x005, s.faultReason.setWidth 32), (0x006, s.resetPolls.setWidth 32),
   (0x007, s.regionBase.setWidth 32), (0x008, (s.regionBase >>> 32).setWidth 32), (0x009, s.regionSize)]

/-- The registers of queue q with their indices (10_state.md R80). -/
def State.queueTable (s : State) (q : Nat) : List (Nat × Word) :=
  let x := s.queue q
  [(0x100, x.tx.ntu.setWidth 32), (0x101, x.tx.ntc.setWidth 32), (0x102, x.tx.tail.setWidth 32),
   (0x103, x.rx.ntu.setWidth 32), (0x104, x.rx.ntc.setWidth 32), (0x105, x.rx.tail.setWidth 32),
   (0x106, if x.discard then 1 else 0), (0x107, x.itr.setWidth 32), (0x108, x.cnt.setWidth 32),
   (0x109, if x.armed then 1 else 0), (0x10A, x.acc.setWidth 32), (0x10B, x.rxDrops),
   (0x10C, BitVec.ofNat 32 (s.poolCount .tx q .free)), (0x10D, BitVec.ofNat 32 (s.poolCount .tx q .hw)),
   (0x10E, BitVec.ofNat 32 (s.poolCount .tx q .pend)), (0x10F, BitVec.ofNat 32 (s.poolCount .rx q .free)),
   (0x110, BitVec.ofNat 32 (s.poolCount .rx q .hw)), (0x111, BitVec.ofNat 32 (s.poolCount .rx q .pend))]

theorem State.globalReg_eq_some_iff {i : Nat} : s.globalReg i = some v ↔ (i, v) ∈ s.globalTable := by
  constructor
  · intro h
    unfold State.globalReg at h
    split at h
    all_goals cases h
    all_goals simp [State.globalTable]
    · exact (rfl : s.regionBase.extractLsb' 0 32 = s.regionBase.setWidth 32)
    · exact (rfl : s.regionBase.extractLsb' 32 32 = (s.regionBase >>> 32).setWidth 32)
  · have hlisted : ∀ x ∈ s.globalTable, s.globalReg x.1 = some x.2 := by
      simp only [State.globalTable, List.forall_mem_cons]
      exact ⟨rfl, rfl, rfl, rfl, rfl, rfl, rfl, rfl, rfl, rfl, nofun⟩
    exact hlisted (i, v)

theorem State.queueReg_eq_some_iff {p i : Nat} : s.queueReg p i = some v ↔ (i, v) ∈ s.queueTable p := by
  constructor
  · intro h
    unfold State.queueReg at h
    dsimp only at h
    split at h
    all_goals cases h
    all_goals simp [State.queueTable]
  · have hlisted : ∀ x ∈ s.queueTable p, s.queueReg p x.1 = some x.2 := by
      simp only [State.queueTable, List.forall_mem_cons]
      exact ⟨rfl, rfl, rfl, rfl, rfl, rfl, rfl, rfl, rfl, rfl, rfl, rfl, rfl, rfl, rfl, rfl, rfl, rfl, nofun⟩
    exact hlisted (i, v)

theorem State.le_of_mem_queueTable {p i : Nat} (h : (i, v) ∈ s.queueTable p) : 0x100 ≤ i := by
  simp only [State.queueTable, List.mem_cons, Prod.mk.injEq, List.not_mem_nil, or_false] at h
  omega

/-! ### The answers -/

theorem execReadReg_of_global (h : s.globalReg index.toNat = some v) :
    execReadReg q index s = .next { s with response := some (if q = 0 then ⟨.ok, v⟩ else ⟨.inval, 0⟩) } := by
  rw [execReadReg, h]
  by_cases hq : q = 0
  · rw [if_pos hq]
    exact if_neg (not_not_intro hq)
  · rw [if_neg hq]
    exact if_pos hq

theorem execReadReg_of_queueReg (hglobal : s.globalReg index.toNat = none) (h : s.queueReg q.toNat index.toNat = some v) :
    execReadReg q index s =
      .next { s with response := some (if q.toNat < s.nq.toNat then ⟨.ok, v⟩ else ⟨.inval, 0⟩) } := by
  rw [execReadReg, hglobal, h]
  exact perQueue_answer q s v

theorem execReadReg_of_unlisted (hglobal : s.globalReg index.toNat = none) (h : s.queueReg q.toNat index.toNat = none) :
    execReadReg q index s = .next { s with response := some ⟨.inval, 0⟩ } := by
  rw [execReadReg, hglobal, h]
  rfl

/-- Settles O14: the two tables of the statement are those of the index map, and an index in neither is in no arm of it. -/
theorem readRegAnswers : Obligations.ReadRegAnswers := by
  intro q index s
  refine ⟨rfl, fun v hv => ?_, fun v hv => ?_, fun hglobal hqueue => ?_⟩
  · exact execReadReg_of_global (State.globalReg_eq_some_iff.2 hv)
  · exact execReadReg_of_queueReg (State.globalReg_eq_none (State.le_of_mem_queueTable hv)) (State.queueReg_eq_some_iff.2 hv)
  · refine execReadReg_of_unlisted ?_ ?_
    · exact Option.eq_none_iff_forall_ne_some.2 fun v hv => hglobal v (State.globalReg_eq_some_iff.1 hv)
    · exact Option.eq_none_iff_forall_ne_some.2 fun v hv => hqueue v (State.queueReg_eq_some_iff.1 hv)

end Sys2Proof.Machine
end

section
/-! INIT, STOP and POLL_LINK (44_control.md R400, R415 to R420). -/

namespace Sys2Proof.Machine

variable {s t : State}

/-! ### Teardown with nothing waiting to be written -/

/-- The queues after a teardown (44_control.md R416). -/
def State.tornQueues (s : State) : List Queue :=
  s.queues.mapIdx fun i x =>
    if i < s.nq.toNat then { Queue.fresh s.n (s.poolSize .tx) with itr := x.itr, rxDrops := x.rxDrops } else x

theorem State.teardown_eq_torn (h : s.wb = []) : s.teardown = { s with queues := s.tornQueues, lstate := 0 } := by
  rw [State.teardown_of_wb_nil s h, mapFirst_eq_mapIdx]
  rfl

theorem State.deviceDisable_eq (s : State) : s.deviceDisable = { s with
    dev := { s.dev with rxEn := false, txEn := false }
    events := s.events ++ [.regWrite s.params.devRegs.rctl 0, .regWrite s.params.devRegs.tctl 0] } := by
  rw [← State.dev_deviceDisable, ← State.events_deviceDisable]
  rfl

theorem State.teardown_deviceDisable_eq_torn (h : s.wb = []) : s.deviceDisable.teardown = { s with
    queues := s.tornQueues
    lstate := 0
    dev := { s.dev with rxEn := false, txEn := false }
    events := s.events ++ [.regWrite s.params.devRegs.rctl 0, .regWrite s.params.devRegs.tctl 0] } := by
  rw [State.deviceDisable_eq, State.teardown_eq_torn]
  · rfl
  · exact h

/-! ### INIT -/

section

variable {q : BitVec 7} {logn : BitVec 4} {base : Addr} {size : Word}

/-- An INIT that R400 refuses whatever the state is. -/
abbrev State.BadInit (s : State) (q : BitVec 7) (logn : BitVec 4) (base : Addr) (size : Word) : Prop :=
  logn.toNat < 1 ∨ 12 < logn.toNat ∨ base.toNat % s.params.pageSize ≠ 0 ∨
    size.toNat < Params.needed s.params (2 ^ logn.toNat) (q.toNat + 1) ∨ 2 ^ 64 < base.toNat + size.toNat

/-- INIT as one chain of checks. -/
theorem execInit_eq (q : BitVec 7) (logn : BitVec 4) (base : Addr) (size : Word) (s : State) :
    execInit q logn base size s =
      if s.BadInit q logn base size then answer s .inval 0
      else if s.rstate = .resetting then answer s .state 0
      else answer ((if s.rstate = .ringsReady then s.deviceDisable.teardown else s).initialised (q.toNat + 1) logn base size)
        .okPending 0 := by
  by_cases hlogn : logn.toNat < 1 ∨ logn.toNat > 12
  · rw [execInit, if_pos hlogn, if_pos (hlogn.elim .inl fun h => .inr (.inl h))]
  by_cases hregion : base.toNat % s.params.pageSize ≠ 0 ∨
      size.toNat < Params.needed s.params (2 ^ logn.toNat) (q.toNat + 1) ∨ base.toNat + size.toNat > 2 ^ 64
  · rw [execInit, if_neg hlogn, if_pos hregion, if_pos (.inr (.inr hregion))]
  · have hgood : ¬ s.BadInit q logn base size :=
      fun h => h.elim (fun h => hlogn (.inl h)) fun h => h.elim (fun h => hlogn (.inr h)) hregion
    rw [execInit, if_neg hlogn, if_neg hregion, if_neg hgood]

theorem Device.write_ctrlRst (d : Device) : d.write .ctrl 0x04000000 = d.startReset := by
  rw [Device.write, if_pos (by decide)]

theorem State.initialised_eq (s : State) (nq : Nat) (logn : BitVec 4) (base : Addr) (size : Word) :
    s.initialised nq logn base size = { s with
      nq := BitVec.ofNat 8 nq, logn := logn, regionBase := base, regionSize := size,
      queues := List.replicate maxQueues (Queue.fresh (2 ^ logn.toNat) (Params.poolSize s.params (2 ^ logn.toNat) .tx)),
      lstate := 0, faultReason := 0, resetPolls := 0, rstate := .resetting, gen := s.gen + 1, dev := s.dev.startReset,
      events := s.events ++ [.regWrite s.params.devRegs.ctrl 0x04000000] } := by
  rw [← Device.write_ctrlRst]
  rfl

/-- Settles O26: the two checks come before any change. -/
theorem initRefusesWithoutChange : Obligations.InitRefusesWithoutChange := by
  intro q logn base size s
  refine ⟨fun hbad => ?_, fun hgood hr => ?_⟩
  · exact (execInit_eq q logn base size s).trans (if_pos hbad)
  · exact (execInit_eq q logn base size s).trans ((if_neg hgood).trans (if_pos hr))

/-- Settles O25: disabling the device leaves nothing that the reset does not overwrite, but two register writes in the log. -/
theorem initStartsReset : Obligations.InitStartsReset := by
  intro q logn base size s hwb hlo hhi halign hneed htop hr
  have hgood : ¬ s.BadInit q logn base size := by
    simp only [State.BadInit]
    omega
  refine (execInit_eq q logn base size s).trans ((if_neg hgood).trans ((if_neg hr).trans ?_))
  by_cases hready : s.rstate = .ringsReady
  · rw [if_pos hready, if_pos hready, State.teardown_deviceDisable_eq_torn hwb, State.initialised_eq]
    rfl
  · rw [if_neg hready, if_neg hready, List.append_nil, State.initialised_eq]
    rfl

end

/-! ### STOP -/

theorem execStop_of_resetting (h : s.rstate = .resetting) : execStop s = answer (s.teardown.setRState .stopped) .ok 0 := by
  rw [execStop, h]

theorem execStop_of_ready (h : s.rstate = .ringsReady) :
    execStop s = answer (s.deviceDisable.teardown.setRState .stopped) .ok 0 := by
  rw [execStop, h]

theorem execStop_of_stopped (h : s.rstate ≠ .resetting) (h' : s.rstate ≠ .ringsReady) : execStop s = answer s .ok 0 := by
  unfold execStop
  split
  · rfl
  · rfl
  · rfl
  next hr => exact absurd hr h
  next hr => exact absurd hr h'

/-- Settles O27: with nothing waiting to be written, teardown changes the queues and LSTATE only. -/
theorem stopTearsDown : Obligations.StopTearsDown := by
  intro s hwb
  by_cases hreset : s.rstate = .resetting
  · have hr : s.rstate ≠ .ringsReady := by rw [hreset]; decide
    refine (execStop_of_resetting hreset).trans ?_
    rw [if_pos (.inl hreset), if_neg hr, if_neg hr, State.teardown_eq_torn hwb, List.append_nil]
    rfl
  by_cases hr : s.rstate = .ringsReady
  · refine (execStop_of_ready hr).trans ?_
    rw [if_pos (.inr hr), if_pos hr, if_pos hr, State.teardown_deviceDisable_eq_torn hwb]
    rfl
  · rw [if_neg (fun h => h.elim hreset hr)]
    exact execStop_of_stopped hreset hr

/-- A teardown logs at most the barrier that drains the write buffer. -/
theorem State.events_teardown (s : State) :
    ∃ es, s.teardown.events = s.events ++ es ∧ ∀ e ∈ es, e.isDeliver = false ∧ e.isCapacity = false := by
  unfold State.teardown
  dsimp only
  split
  · exact ⟨[], (List.append_nil _).symm, nofun⟩
  · exact ⟨[.barrier .write], rfl, List.forall_mem_singleton.2 ⟨rfl, rfl⟩⟩

/-- A STOP leaves a state in which STOP does nothing, and logs register writes and a barrier at most. -/
theorem execStop_ends (h : execStop s = .next t) :
    (t.rstate = .stopped ∨ t.rstate = .faulted ∨ t.rstate = .uninitialized) ∧
    (s.rstate = .ringsReady → t.rstate = .stopped) ∧ t.response = some ⟨.ok, 0⟩ ∧
    ∃ es, t.events = s.events ++ es ∧ ∀ e ∈ es, e.isDeliver = false ∧ e.isCapacity = false := by
  by_cases hreset : s.rstate = .resetting
  · rw [execStop_of_resetting hreset] at h
    rw [answer_eq_next.1 h]
    exact ⟨.inl rfl, fun _ => rfl, rfl, s.events_teardown⟩
  by_cases hr : s.rstate = .ringsReady
  · rw [execStop_of_ready hr] at h
    obtain ⟨es, hes, hquiet⟩ := s.deviceDisable.events_teardown
    rw [answer_eq_next.1 h]
    refine ⟨.inl rfl, fun _ => rfl, rfl,
      [.regWrite s.params.devRegs.rctl 0, .regWrite s.params.devRegs.tctl 0] ++ es, ?_, ?_⟩
    · rw [State.respond_events, State.setRState_events, hes, State.events_deviceDisable, List.append_assoc]
    · exact List.forall_mem_cons.2 ⟨⟨rfl, rfl⟩, List.forall_mem_cons.2 ⟨⟨rfl, rfl⟩, hquiet⟩⟩
  · rw [execStop_of_stopped hreset hr] at h
    rw [answer_eq_next.1 h]
    refine ⟨?_, fun hready => absurd hready hr, rfl, [], (List.append_nil _).symm, nofun⟩
    show s.rstate = _ ∨ s.rstate = _ ∨ s.rstate = _
    cases hs : s.rstate with
    | uninitialized => exact .inr (.inr rfl)
    | resetting => exact absurd hs hreset
    | ringsReady => exact absurd hs hr
    | stopped => exact .inl rfl
    | faulted => exact .inr (.inl rfl)

theorem State.respond_eq_self {st : Status} {v : Word} (h : s.response = some ⟨st, v⟩) : s.respond st v = s := by
  rw [State.respond, ← h]

/-- Settles O28: the state after a STOP meets the configuration invariant outside RingsReady, where every queue is idle. -/
theorem stopLeavesAllFree : Obligations.StopLeavesAllFree := by
  intro s t h ht
  obtain ⟨hstate, hstopped, hresponse, hevents⟩ := execStop_ends ht
  have hreset : t.rstate ≠ .resetting := by rintro hr; simp [hr] at hstate
  have hr : t.rstate ≠ .ringsReady := by rintro hr; simp [hr] at hstate
  refine ⟨fun q hq => (exec_configInv h ht).allFree hr hq, hstate, hstopped, hevents, hresponse, ?_⟩
  refine (execStop_of_stopped hreset hr).trans (congrArg _ (State.respond_eq_self hresponse))

/-! ### POLL_LINK -/

section

variable (link speed : BitVec 2) (fd : BitVec 1)

/-- The link, speed and duplex fields of IMM (30_encoding.md R157). -/
theorem pollLink_imm : (fd ++ speed ++ link).setWidth 16 = BitVec.ofNat 16 (link.toNat + 4 * speed.toNat + 16 * fd.toNat) := by
  revert link speed fd
  decide

theorem polledLink_eq : polledLink link speed fd =
    if link = 2 then BitVec.ofNat 8 (link.toNat + 4 * speed.toNat + 16 * fd.toNat) else BitVec.ofNat 8 link.toNat := by
  revert link speed fd
  decide

/-- What a LINK_CHANGED event says of the stored bits. -/
theorem polledLink_fields : lstateLink (polledLink link speed fd) = link ∧
    lstateSpeed (polledLink link speed fd) = (if link = 2 then speed else 0) ∧
    decide (lstateFd (polledLink link speed fd) = 1) = decide (link = 2 ∧ fd = 1) := by
  revert link speed fd
  decide

end

theorem ne_lowBits_iff (a l : Byte) : a ≠ l &&& 0x1F ↔ a.toNat ≠ l.toNat % 32 := by
  have hlow : (l &&& 0x1F).toNat = l.toNat % 32 := (BitVec.toNat_and ..).trans (Nat.and_two_pow_sub_one_eq_mod l.toNat 5)
  rw [← hlow, ne_eq, ne_eq, BitVec.toNat_inj]

/-- Settles O29: the arms of POLL_LINK one by one, the stored bits as the statement writes them. -/
theorem pollLinkStoresLink : Obligations.PollLinkStoresLink := by
  intro link speed fd s
  obtain ⟨hlink, hspeed, hfd⟩ := polledLink_fields link speed fd
  dsimp only
  refine ⟨congrArg (fun imm => (Word.ofFields 0x09 0 0 imm, [])) (pollLink_imm link speed fd), ?_⟩
  rw [← polledLink_eq]
  show execPollLink link speed fd s = _
  unfold execPollLink
  by_cases hbad : link = 3 ∨ speed = 3
  · rw [if_pos hbad, if_pos hbad]
    rfl
  rw [if_neg hbad, if_neg hbad]
  by_cases hr : s.rstate ≠ .ringsReady
  · rw [if_pos hr, if_pos hr]
    rfl
  rw [if_neg hr, if_neg hr]
  dsimp only
  rw [hlink, hspeed, hfd, if_congr (ne_lowBits_iff _ s.lstate) rfl rfl]
  split
  · rfl
  · rfl

end Sys2Proof.Machine
end

section
/-! TICK while the device is in reset (44_control.md R410). -/

namespace Sys2Proof.Machine

variable {s : State}

/-- The state after a poll has counted itself and read CTRL. -/
def State.polled (s : State) : State := State.afterRegRead { s with resetPolls := s.resetPolls + 1 } .ctrl

theorem State.polled_eq (s : State) : s.polled = { s with
    resetPolls := s.resetPolls + 1
    draws := s.draws + 1
    events := s.events ++ [.regRead s.params.devRegs.ctrl (s.regValue .ctrl)] } := rfl

section

variable (hr : s.rstate = .resetting)

include hr

theorem execTick_of_waiting (hd : s.dev.resetting = true) (hleft : (s.resetPolls + 1).toNat < s.params.resetPollLimit) :
    execTick s = answer s.polled .ok 0 := by
  have hpoll : resetPoll s = .ok () s.polled :=
    (if_neg (ne_of_eq_of_ne hd (by decide))).trans (if_neg (Nat.not_le.2 hleft))
  have hwait : s.polled.rstate ≠ .ringsReady := by rw [State.polled_eq, hr]; decide
  rw [execTick, if_pos hr, hpoll, Res.bind_ok, if_neg hwait]
  rfl

theorem execTick_of_timeout (hd : s.dev.resetting = true) (hspent : s.params.resetPollLimit ≤ (s.resetPolls + 1).toNat) :
    execTick s = .next (s.polled.faultAnswer .resetTimeout) := by
  have hpoll : resetPoll s = .ended (s.polled.faultAnswer .resetTimeout) :=
    (if_neg (ne_of_eq_of_ne hd (by decide))).trans (if_pos hspent)
  rw [execTick, if_pos hr, hpoll]
  rfl

theorem execTick_of_acknowledged (hd : s.dev.resetting = false) :
    execTick s = Res.answer ((activate s.polled).bind fun _ s =>
      (if s.rstate = .ringsReady then tickLoop (List.range s.nq.toNat) 0 s else .ok 0 s).bind fun d s =>
        .ok (.ok, BitVec.ofNat 32 d) s) := by
  have hpoll : resetPoll s = activate s.polled := if_pos hd
  rw [execTick, if_pos hr, hpoll]

end

/-- Settles O22: the value read is that of the poll, whose bit 26 is the device's. -/
theorem tickPollsReset : Obligations.TickPollsReset := by
  intro s hr hd hleft
  exact ⟨s.regValue .ctrl, (ctrlRst_regValue s).trans hd, execTick_of_waiting hr hd hleft⟩

/-- Settles O23: the fault is entered outside RingsReady, so the device is left alone. -/
theorem tickTimesResetOut : Obligations.TickTimesResetOut := by
  intro s hr hd hwb hspent
  refine ⟨s.regValue .ctrl, (ctrlRst_regValue s).trans hd, (execTick_of_timeout hr hd hspent).trans ?_⟩
  have hrstate : s.polled.rstate = .resetting := hr
  have hwb' : s.polled.wb = [] := hwb
  rw [State.faultAnswer, State.enterFault_of_not_faulted _ _ (by rw [hrstate]; decide), if_neg (by rw [hrstate]; decide),
    State.teardown_eq_torn hwb', List.append_cons s.events, State.polled_eq]
  rfl

end Sys2Proof.Machine
end

section
/-! The device programming of an activation (44_control.md R411). -/

namespace Sys2Proof.Machine

variable {s : State} {r : Ring} {q : Nat}

/-- Both lists of device rings are long enough for queue q. -/
abbrev Device.Has (d : Device) (q : Nat) : Prop := q < d.tx.length ∧ q < d.rx.length

theorem Device.ring_setRing_same {d : Device} (h : d.Has q) (r : Ring) (x : DevRing) : (d.setRing r q x).ring r q = x := by
  rw [Device.ring_setRing, if_pos]
  cases r with
  | tx => exact ⟨rfl, rfl, h.1⟩
  | rx => exact ⟨rfl, rfl, h.2⟩

theorem Device.ring_setRing_ne (d : Device) {r r' : Ring} {q p : Nat} (h : r' ≠ r ∨ p ≠ q) (x : DevRing) :
    (d.setRing r q x).ring r' p = d.ring r' p := by
  rw [Device.ring_setRing, if_neg]
  rintro ⟨hr, hp, -⟩
  exact h.elim (· hr) (· hp.symm)

@[simp] theorem Device.has_setRing {d : Device} {r : Ring} {q p : Nat} {x : DevRing} : (d.setRing r q x).Has p ↔ d.Has p := by
  simp [Device.Has]

theorem Device.setRing_setRing (d : Device) (r : Ring) (q : Nat) (x y : DevRing) :
    (d.setRing r q x).setRing r q y = d.setRing r q y := by
  cases r <;> simp [Device.setRing]

/-- The registers of a ring right after it is programmed. -/
def State.programmedRing (s : State) (r : Ring) (q : Nat) : DevRing where
  dbase := BitVec.ofNat 32 (s.ringBase r q / 2 ^ 32) ++ BitVec.ofNat 32 (s.ringBase r q)
  dlen  := BitVec.ofNat 32 (s.n * 16)
  head  := 0
  tail  := 0
  done  := []

/-- The five register writes leave nothing of the ring's old registers. -/
theorem State.dev_programRing (h : s.dev.Has q) (r : Ring) :
    (s.programRing r q).dev = s.dev.setRing r q (s.programmedRing r q) := by
  simp only [State.programRing, State.regWrite_dev, Device.write, Device.ring_setRing_same h, Device.setRing_setRing,
    BitVec.extractLsb'_append_eq_right]
  rfl

/-- Nothing but the device and the log may differ. -/
def State.SameButDevice (s t : State) : Prop := ∃ d es, t = { s with dev := d, events := es }

theorem State.SameButDevice.trans {t u : State} (h : s.SameButDevice t) (h' : t.SameButDevice u) : s.SameButDevice u := by
  obtain ⟨_, _, rfl⟩ := h
  obtain ⟨d, es, rfl⟩ := h'
  exact ⟨d, es, rfl⟩

theorem State.sameButDevice_regWrite (s : State) (reg : DevReg) (v : Word) : s.SameButDevice (s.regWrite reg v) := ⟨_, _, rfl⟩

theorem State.sameButDevice_programRing (s : State) (r : Ring) (q : Nat) : s.SameButDevice (s.programRing r q) :=
  ((((s.sameButDevice_regWrite _ _).trans (State.sameButDevice_regWrite _ _ _)).trans (State.sameButDevice_regWrite _ _ _)).trans
    (State.sameButDevice_regWrite _ _ _)).trans (State.sameButDevice_regWrite _ _ _)

theorem State.SameButDevice.programmedRing {t : State} (h : s.SameButDevice t) : t.programmedRing = s.programmedRing := by
  obtain ⟨d, es, rfl⟩ := h
  rfl

theorem sameButDevice_programQueues (qs : List Nat) (s : State) : s.SameButDevice (programQueues qs s) := by
  induction qs generalizing s with
  | nil => exact ⟨s.dev, s.events, rfl⟩
  | cons q qs ih => exact ((s.sameButDevice_programRing .tx q).trans (State.sameButDevice_programRing _ .rx q)).trans (ih _)

/-- The device after the rings of some queues are programmed: the same but for the registers of those rings. -/
structure Device.Programmed (d : Device) (qs : List Nat) (f : Ring → Nat → DevRing) (e : Device) : Prop where
  rxEn      : e.rxEn = d.rxEn
  txEn      : e.txEn = d.txEn
  resetting : e.resetting = d.resetting
  has       : ∀ q, e.Has q ↔ d.Has q
  ring      : ∀ r q, e.ring r q = if q ∈ qs then f r q else d.ring r q

/-- Programming goes queue by queue, TX first (44_control.md R411). -/
theorem dev_programQueues (qs : List Nat) (s : State) (h : ∀ q ∈ qs, s.dev.Has q) :
    s.dev.Programmed qs s.programmedRing (programQueues qs s).dev := by
  induction qs generalizing s with
  | nil => exact ⟨rfl, rfl, rfl, fun _ => .rfl, fun _ _ => rfl⟩
  | cons q qs ih =>
    have hq : s.dev.Has q := h q List.mem_cons_self
    have hdev : ((s.programRing .tx q).programRing .rx q).dev =
        (s.dev.setRing .tx q (s.programmedRing .tx q)).setRing .rx q (s.programmedRing .rx q) := by
      rw [State.dev_programRing, State.dev_programRing hq, (s.sameButDevice_programRing .tx q).programmedRing]
      rw [State.dev_programRing hq]
      exact Device.has_setRing.2 hq
    have hstill := (s.sameButDevice_programRing .tx q).trans ((s.programRing .tx q).sameButDevice_programRing .rx q)
    obtain ⟨hrx, htx, hres, hhas, hring⟩ := ih ((s.programRing .tx q).programRing .rx q) fun p hp => by
      rw [hdev, Device.has_setRing, Device.has_setRing]
      exact h p (List.mem_cons_of_mem _ hp)
    rw [hdev] at hrx htx hres hhas
    refine ⟨hrx.trans (by simp), htx.trans (by simp), hres.trans (by simp), fun p => (hhas p).trans (by simp), fun r p => ?_⟩
    refine (hring r p).trans ?_
    rw [hstill.programmedRing, hdev]
    by_cases hp : p ∈ qs
    · rw [if_pos hp, if_pos (List.mem_cons_of_mem _ hp)]
    rw [if_neg hp]
    by_cases hpq : p = q
    · subst hpq
      rw [if_pos List.mem_cons_self]
      cases r with
      | tx => rw [Device.ring_setRing_ne _ (.inl (by decide)), Device.ring_setRing_same hq]
      | rx => rw [Device.ring_setRing_same (Device.has_setRing.2 hq)]
    · rw [Device.ring_setRing_ne _ (.inr hpq), Device.ring_setRing_ne _ (.inr hpq),
        if_neg (fun hmem => (List.mem_cons.1 hmem).elim hpq hp)]

end Sys2Proof.Machine
end

section
/-! A refill of an idle RX ring fills it with the buffers 0 to N - 2 (43_rx.md R371). -/

namespace Sys2Proof.Machine

variable {s t : State} {q k m n b : Nat}

/-- The RX ring of a queue is full with the buffers 0 to n - 2 of b bytes, in the slots of the same numbers, where x was idle. -/
structure Queue.Filled (n b : Nat) (x y : Queue) : Prop where
  cur     : y.rx = ⟨BitVec.ofNat 16 (n - 1), 0, BitVec.ofNat 16 (n - 1)⟩
  tag     : ∀ h < n, y.rxPool.tag h = if h < n - 1 then .hw else .free
  handle  : ∀ i < n - 1, (y.rxRec i).handle.toNat = i
  len     : ∀ i < n - 1, (y.rxPool.len i).toNat = b
  side    : Queue.SameButRx x y
  discard : y.discard = x.discard
  drops   : y.rxDrops = x.rxDrops

/-- Every buffer of an idle queue is Free, and the ring has room for all but one. -/
theorem State.refillBufs_of_idle (h : (s.queue q).Idle n m) : s.refillBufs q = List.range (s.n - 1) := by
  have hfree : s.freeBuffers .rx q = List.range s.n :=
    List.filter_eq_self.2 fun i _ => beq_iff_eq.2 (h.tag_eq_free .rx i)
  have hcur : (s.queue q).cur .rx = Cursors.zero := by rw [h]; rfl
  have hocc : s.occupancy .rx q = 0 := by
    rw [State.occupancy, State.ntc, State.ntu, hcur]
    exact ringDist_self s.n_pos
  have hroom : s.ringFree .rx q = s.n - 1 := by rw [State.ringFree, hocc, Nat.sub_zero]
  rw [State.refillBufs, hfree, hroom, List.take_range, Nat.min_eq_left (Nat.sub_le _ 1)]

theorem State.ntu_of_idle (h : (s.queue q).Idle n m) (r : Ring) : s.ntu r q = 0 := by
  rw [State.ntu, h]
  cases r <;> rfl

theorem getD_range (h : k < n) : (List.range n).getD k 0 = k := by
  rw [List.getD_eq_getElem _ _ (by simpa using h), List.getElem_range]

section

variable (h : s.Restocked q (List.range (s.n - 1)) t) (hidle : (s.queue q).Idle s.n m)

include h hidle

theorem State.Restocked.filled (hbuf : s.params.bufSize ≤ 0xFFFF) : Queue.Filled s.n s.params.bufSize (s.queue q) (t.queue q) where
  cur := by
    have hcur := h.cursors (by rw [State.ntu_of_idle hidle]; exact s.n_pos)
    rw [State.ntu_of_idle hidle, List.length_range, Nat.zero_add, Nat.mod_eq_of_lt (Nat.sub_lt s.n_pos Nat.one_pos)] at hcur
    rw [hcur, hidle]
    rfl
  tag b _ := by
    have htag := h.tag_eq b
    simp only [List.mem_range] at htag
    rw [show s.tag .rx q b = .free from hidle.tag_eq_free .rx b] at htag
    exact htag
  handle i hi := by
    have hhandle := h.handle_eq (j := i) (by rw [State.ntu_of_idle hidle]; exact s.n_pos) (by simp) (by simpa using hi)
    rw [State.ntu_of_idle hidle, Nat.zero_add, Nat.mod_eq_of_lt (by omega), getD_range hi] at hhandle
    exact hhandle
  len i hi := by
    obtain ⟨-, -, -, -, -, hblen⟩ := hidle.sizedFor
    rw [h.lens, if_pos ⟨List.mem_range.2 hi, by omega⟩, BitVec.toNat_ofNat]
    exact Nat.mod_eq_of_lt (by omega)
  side := h.frame.side
  discard := h.discard
  drops := h.drops

theorem State.Restocked.descBytes_of_idle (hm : Memory.wf s.mem) {i : Nat} (hi : i < s.n - 1) :
    t.descBytes .rx q i = rxDesc (s.bufAddr .rx q i) := by
  have hbytes := h.descBytes_eq hm (j := i) (by simp) (by simpa using hi)
  rwa [State.ntu_of_idle hidle, Nat.zero_add, Nat.mod_eq_of_lt (by omega), getD_range hi] at hbytes

theorem State.Restocked.byte_of_idle (hm : Memory.wf s.mem) {a : Nat} (ha : ∀ i < s.n - 1, ¬ Within a (s.descAddr .rx q i) 16) :
    Memory.byte t.mem a = Memory.byte s.mem a := by
  refine h.byte_eq hm fun j hj => ?_
  rw [List.length_range] at hj
  rw [State.ntu_of_idle hidle, Nat.zero_add, Nat.mod_eq_of_lt (by omega)]
  exact ha j hj

theorem State.Restocked.dev_of_idle (hn : 2 ≤ s.n) :
    t.dev = s.dev.setRing .rx q { s.dev.ring .rx q with tail := BitVec.ofNat 16 (s.n - 1) } := by
  have hdev := h.dev
  rwa [List.length_range, if_neg (by omega), State.ntu_of_idle hidle, Nat.zero_add, Nat.mod_eq_of_lt (by omega)] at hdev

end

/-! ### Descriptors of different queues -/

/-- Descriptors of different queues do not overlap (20_memory.md R111). -/
theorem State.not_within_desc (hp : 0 < s.params.pageSize) {q' i i' a : Nat} (hq : q ≠ q') (hi : i < s.n) (hi' : i' < s.n)
    (ha : Within a (s.descAddr .rx q i) 16) : ¬ Within a (s.descAddr .rx q' i') 16 := by
  have hlow := s.descAddr_add_le (q := q) hp .rx hi
  have hlow' := s.descAddr_add_le (q := q') hp .rx hi'
  have hstride : Params.ringArea s.params s.n ≤ Params.qStride s.params s.n := Nat.le_add_right _ _
  have hnext : ∀ {c d : Nat}, c < d → s.qBase c + Params.qStride s.params s.n ≤ s.qBase d := fun {c d} hcd => by
    have := Nat.mul_le_mul_right (Params.qStride s.params s.n) (Nat.succ_le_of_lt hcd)
    rw [Nat.succ_mul] at this
    simp only [State.qBase]
    omega
  rcases Nat.lt_or_gt_of_ne hq with hlt | hlt
  · have := hnext hlt
    omega
  · have := hnext hlt
    omega

end Sys2Proof.Machine
end

section
/-! The refills of an activation, queue by queue (44_control.md R411). -/

namespace Sys2Proof.Machine

variable {t u p : State} {k m : Nat}

/-- From p, where every queue is idle, the RX rings of the queues below k have been filled. -/
structure State.Filling (p : State) (k : Nat) (u : State) : Prop where
  ready   : u.Ready
  globals : p.SameGlobals u
  canon   : Memory.wf u.mem
  spare   : ∀ q, k ≤ q → u.queue q = p.queue q
  filled  : ∀ q < k, Queue.Filled p.n p.params.bufSize (p.queue q) (u.queue q)
  rxEn    : u.dev.rxEn = p.dev.rxEn
  txEn    : u.dev.txEn = p.dev.txEn
  reset   : u.dev.resetting = p.dev.resetting
  has     : ∀ q, u.dev.Has q ↔ p.dev.Has q
  rings   : ∀ r q, u.dev.ring r q =
    if r = .rx ∧ q < k then { p.dev.ring r q with tail := BitVec.ofNat 16 (p.n - 1) } else p.dev.ring r q
  descs   : ∀ q < k, ∀ i < p.n - 1, u.descBytes .rx q i = rxDesc (p.bufAddr .rx q i)
  bytes   : ∀ a, (∀ q < k, ∀ i < p.n - 1, ¬ Within a (p.descAddr .rx q i) 16) → Memory.byte u.mem a = Memory.byte p.mem a

theorem State.Ready.filling (h : p.Ready) (hm : Memory.wf p.mem) : p.Filling 0 p where
  ready := h
  globals := (State.TxFrame.refl p 0).globals
  canon := hm
  spare _ _ := rfl
  filled _ hq := absurd hq (Nat.not_lt_zero _)
  rxEn := rfl
  txEn := rfl
  reset := rfl
  has _ := .rfl
  rings _ _ := (if_neg fun h => absurd h.2 (Nat.not_lt_zero _)).symm
  descs _ hq := absurd hq (Nat.not_lt_zero _)
  bytes _ _ := rfl

/-- The next refill leaves the queues before it as they are, and stores in no slot of theirs. -/
theorem State.Filling.next (h : p.Filling k u) (hidle : (p.queue k).Idle p.n m) (hn : 2 ≤ p.n) (hhas : p.dev.Has k)
    (ht : u.Restocked k (List.range (p.n - 1)) t) : p.Filling (k + 1) t := by
  have hglobals := h.globals
  have hn_eq : u.n = p.n := hglobals.n_eq
  have hparams : u.params = p.params := hglobals.1
  have hqueue : u.queue k = p.queue k := h.spare k (Nat.le_refl k)
  have hidle' : (u.queue k).Idle u.n m := by rw [hqueue, hn_eq]; exact hidle
  rw [← hn_eq] at ht
  obtain ⟨hbuf, hpage, hword, -⟩ := ht.ready.running.valid
  rw [ht.frame.globals.1] at hbuf hpage hword
  have hdev := ht.dev_of_idle hidle' (hn_eq ▸ hn)
  have hsplit : ∀ {q}, q < k + 1 → q = k ∨ (q < k ∧ q ≠ k) := fun hq => by omega
  refine ⟨ht.ready, hglobals.trans ht.frame.globals, ?_, fun q hq => ?_, fun q hq => ?_, ?_, ?_, ?_, fun q => ?_,
    fun r q => ?_, fun q hq i hi => ?_, fun a ha => ?_⟩
  · rw [ht.mem]
    exact wf_drained _ _ h.canon
  · rw [ht.frame.others q (by omega)]
    exact h.spare q (by omega)
  · obtain rfl | ⟨hlt, hne⟩ := hsplit hq
    · rw [← hn_eq, ← hparams, ← hqueue]
      exact ht.filled hidle' hword
    · rw [ht.frame.others q hne]
      exact h.filled q hlt
  · rw [hdev, Device.rxEn_setRing, h.rxEn]
  · rw [hdev, Device.txEn_setRing, h.txEn]
  · rw [hdev, Device.resetting_setRing, h.reset]
  · rw [hdev, Device.has_setRing]
    exact h.has q
  · rw [hdev]
    by_cases hring : r = .rx ∧ q = k
    · obtain ⟨rfl, rfl⟩ := hring
      rw [Device.ring_setRing_same ((h.has q).2 hhas), h.rings, if_neg (by omega), if_pos ⟨rfl, Nat.lt_succ_self q⟩, hn_eq]
    · rw [Device.ring_setRing_ne _ (by by_contra hc; exact hring (by simpa [not_or] using hc)), h.rings]
      refine if_congr ⟨fun hlt => ⟨hlt.1, by omega⟩, fun hlt => ⟨hlt.1, ?_⟩⟩ rfl rfl
      obtain rfl | ⟨hlt', -⟩ := hsplit hlt.2
      · exact absurd ⟨hlt.1, rfl⟩ hring
      · exact hlt'
  · obtain rfl | ⟨hlt, hne⟩ := hsplit hq
    · rw [← hglobals.bufAddr_eq]
      exact ht.descBytes_of_idle hidle' h.canon (hn_eq ▸ hi)
    · rw [← h.descs q hlt i hi, State.descBytes, State.descBytes, ht.frame.globals.descAddr_eq]
      refine Memory.bytes_congr _ _ _ _ fun a hlo hhi => ht.byte_of_idle hidle' h.canon fun i' hi' => ?_
      exact State.not_within_desc (by omega) hne (by omega) (by omega) ⟨hlo, hhi⟩
  · rw [ht.byte_of_idle hidle' h.canon fun i hi => ?_]
    · exact h.bytes a fun q hq => ha q (by omega)
    · rw [hglobals.descAddr_eq]
      exact ha k (Nat.lt_succ_self k) i (hn_eq ▸ hi)

end Sys2Proof.Machine
end

section
/-! Activation, and the TICK that makes it (44_control.md R410, R411). -/

namespace Sys2Proof.Machine

variable {s t u p : State} {q k : Nat}

/-- Where activation goes through: configured rings of at least two slots, nothing live, memory for every descriptor. -/
structure State.Activatable (s : State) : Prop where
  ready  : s.Ready
  canon  : Memory.wf s.mem
  two    : 2 ≤ s.n
  backed : s.RegionBacked
  idle   : ∀ q < s.nq.toNat, (s.queue q).Idle s.n (s.poolSize .tx)
  has    : ∀ q < s.nq.toNat, s.dev.Has q

/-- The refills of the queues from k on go through, each filling its ring. -/
theorem State.Filling.refills (hp : p.Activatable) (j : Nat) (h : p.Filling k u) (hj : k + j ≤ p.nq.toNat) :
    ∃ t, forEach (fun q s => (rxRefill q s).bind fun _ s => .ok () s) (List.range' k j) u = .ok () t ∧ p.Filling (k + j) t := by
  induction j generalizing k u with
  | zero => exact ⟨u, rfl, h⟩
  | succ j ih =>
    have hk : k < p.nq.toNat := by omega
    have hidle := hp.idle k hk
    have hidle' : (u.queue k).Idle u.n (p.poolSize .tx) := by
      rw [h.spare k (Nat.le_refl k), h.globals.n_eq]
      exact hidle
    have hpage : 0 < p.params.pageSize := by
      obtain ⟨hbuf, hbufPage, -⟩ := hp.ready.running.valid
      omega
    obtain ⟨t, hrefill, ht⟩ := rxRefill_of_backed h.ready (hk.trans_le hp.ready.running.nq) fun i hi => by
      rw [h.globals.1, h.globals.descAddr_eq]
      exact hp.backed.desc hpage hk .rx (h.globals.n_eq ▸ hi)
    rw [State.refillBufs_of_idle hidle', h.globals.n_eq] at ht
    obtain ⟨v, hv, hfilled⟩ := ih (h.next hidle hp.two (hp.has k hk) ht) (by omega)
    refine ⟨v, ?_, by rwa [show k + (j + 1) = k + 1 + j by omega]⟩
    rw [List.range'_succ, forEach, hrefill]
    exact hv

theorem State.SameButDevice.sameGlobals (h : s.SameButDevice p) : s.SameGlobals p := by
  obtain ⟨d, es, rfl⟩ := h
  exact (State.TxFrame.refl s 0).globals

theorem State.SameButDevice.queue_eq (h : s.SameButDevice p) (q : Nat) : p.queue q = s.queue q := by
  obtain ⟨d, es, rfl⟩ := h
  rfl

theorem State.SameButDevice.mem_eq (h : s.SameButDevice p) : p.mem = s.mem := by
  obtain ⟨d, es, rfl⟩ := h
  rfl

theorem State.SameButDevice.activatable (h : s.SameButDevice p) (hs : s.Activatable) (hhas : ∀ q, p.dev.Has q ↔ s.dev.Has q) :
    p.Activatable := by
  obtain ⟨d, es, rfl⟩ := h
  have hstill : s.Still { s with dev := d, events := es } := ⟨sameRings_of_queues rfl rfl rfl rfl rfl rfl, rfl⟩
  exact ⟨hstill.ready hs.ready, hs.canon, hs.two, hs.backed, hs.idle, fun q hq => (hhas q).2 (hs.has q hq)⟩

/-- The state activation refills from: the rings programmed, and the device enabled (44_control.md R411). -/
def State.programmed (s : State) : State :=
  ((programQueues (List.range s.nq.toNat) s).regWrite .rctl 0x00000002).regWrite .tctl 0x00000002

theorem State.sameButDevice_programmed (s : State) : s.SameButDevice s.programmed :=
  ((sameButDevice_programQueues _ s).trans (State.sameButDevice_regWrite _ _ _)).trans (State.sameButDevice_regWrite _ _ _)

theorem State.dev_programmed (s : State) :
    s.programmed.dev = { (programQueues (List.range s.nq.toNat) s).dev with rxEn := true, txEn := true } := by
  simp [State.programmed, Device.write]

theorem State.Activatable.dev_programmed (h : s.Activatable) :
    s.dev.Programmed (List.range s.nq.toNat) s.programmedRing (programQueues (List.range s.nq.toNat) s).dev :=
  dev_programQueues _ s fun q hq => h.has q (List.mem_range.1 hq)

/-- The rest of a filled queue is idle still. -/
theorem Queue.Filled.rest_idle {n m b : Nat} {x y : Queue} (h : Queue.Filled n b x y) (hx : x.Idle n m) :
    y.tx = ⟨0, 0, 0⟩ ∧ (∀ i, y.txPool.tag i = .free) ∧ y.discard = false ∧ y.armed = false ∧ y.cnt = 0 ∧ y.acc = 0 := by
  obtain ⟨htx, -, hpool, -, hcnt, harmed, hacc⟩ := h.side
  rw [htx, hpool, h.discard, harmed, hcnt, hacc]
  exact ⟨by rw [hx]; rfl, hx.tag_eq_free .tx, by rw [hx]; rfl, by rw [hx]; rfl, by rw [hx]; rfl, by rw [hx]; rfl⟩

/-- The rings are up in u, but RSTATE and LSTATE are still those of s (the ACT column of 70_reset_and_hazards.md R600). -/
structure State.BroughtUp (s u : State) : Prop where
  ready   : u.Ready
  globals : s.SameGlobals u
  spare   : ∀ q, s.nq.toNat ≤ q → u.queue q = s.queue q
  filled  : ∀ q < s.nq.toNat, Queue.Filled s.n s.params.bufSize (s.queue q) (u.queue q)
  rxEn    : u.dev.rxEn = true
  txEn    : u.dev.txEn = true
  reset   : u.dev.resetting = s.dev.resetting
  rings   : ∀ q < s.nq.toNat, ∀ r, u.dev.ring r q = { s.programmedRing r q with tail := ((u.queue q).cur r).ntu }
  descs   : ∀ q < s.nq.toNat, ∀ i < s.n - 1, u.descBytes .rx q i = rxDesc (s.bufAddr .rx q i)
  bytes   : ∀ a, (∀ q < s.nq.toNat, ∀ i < s.n - 1, ¬ Within a (s.descAddr .rx q i) 16) →
    Memory.byte u.mem a = Memory.byte s.mem a

theorem State.Filling.broughtUp (h : s.programmed.Filling s.nq.toNat u) (hs : s.Activatable) : s.BroughtUp u := by
  have hwrite := s.sameButDevice_programmed
  have hglobals := hwrite.sameGlobals
  have hprog := hs.dev_programmed
  have hdev := s.dev_programmed
  have hfilled : ∀ q < s.nq.toNat, Queue.Filled s.n s.params.bufSize (s.queue q) (u.queue q) := fun q hq => by
    rw [← hglobals.n_eq, ← hwrite.queue_eq, ← hglobals.1]
    exact h.filled q hq
  refine ⟨h.ready, hglobals.trans h.globals, fun q hq => (h.spare q hq).trans (hwrite.queue_eq q), hfilled,
    h.rxEn.trans (by rw [hdev]), h.txEn.trans (by rw [hdev]), h.reset.trans (by rw [hdev]; exact hprog.resetting),
    fun q hq r => ?_, fun q hq i hi => ?_, fun a ha => ?_⟩
  · have hring : s.programmed.dev.ring r q = s.programmedRing r q := by
      have hmem := hprog.ring r q
      rw [if_pos (List.mem_range.2 hq)] at hmem
      rw [hdev, ← hmem]
      cases r <;> rfl
    rw [h.rings, hring, hglobals.n_eq]
    cases r with
    | tx =>
      rw [if_neg (by simp), show (u.queue q).cur .tx = ⟨0, 0, 0⟩ from ((hfilled q hq).rest_idle (hs.idle q hq)).1]
      rfl
    | rx => rw [if_pos ⟨rfl, hq⟩, show (u.queue q).cur .rx = _ from (hfilled q hq).cur]
  · rw [← hglobals.bufAddr_eq]
    exact h.descs q hq i (hglobals.n_eq.symm ▸ hi)
  · rw [← hwrite.mem_eq]
    refine h.bytes a fun q hq i hi => ?_
    rw [hglobals.descAddr_eq]
    exact ha q hq i (hglobals.n_eq ▸ hi)

/-- Activation brings the rings up and enters RingsReady. -/
theorem activate_eq (h : s.Activatable) :
    ∃ t, activate s = .ok () ((t.setRState .ringsReady).setLState 0x20) ∧ s.BroughtUp t := by
  have hp : s.programmed.Activatable := s.sameButDevice_programmed.activatable h fun q => by
    rw [State.dev_programmed]
    exact h.dev_programmed.has q
  obtain ⟨-, -, -, hnq, -⟩ := s.sameButDevice_programmed.sameGlobals
  obtain ⟨t, hloop, ht⟩ := (hp.ready.filling hp.canon).refills hp s.nq.toNat (by rw [hnq, Nat.zero_add])
  rw [← List.range_eq_range'] at hloop
  rw [Nat.zero_add] at ht
  exact ⟨t, by rw [activate, ← State.programmed, hloop]; rfl, ht.broughtUp h⟩

/-- In a resetting state of the invariant every queue is idle, and the configuration is there. -/
theorem State.Inv.activatable (h : s.Inv) (hr : s.rstate = .resetting) (hb : s.RegionBacked) : s.Activatable := by
  have hc := h.config.configured
  have hnq := hc.nq_ne_zero (by rw [hr]; decide)
  have hslots := hc.slots_eq hnq
  obtain ⟨-, htx, hrx, -, hmax, -, hiff⟩ := h.config.sized
  refine ⟨h.ready (by rw [hr]; decide) (by rw [hr]; decide), h.canon, ?_, hb, fun q hq => ?_, fun q hq => ?_⟩
  · exact Nat.le_self_pow (fun h0 => hnq (hiff.2 (BitVec.eq_of_toNat_eq h0))) 2
  · show (s.queue q).Idle s.n (s.params.txPoolMult * s.n)
    rw [← hslots]
    exact (h.config.quiet.1 (by rw [hr]; decide)).2 _ (hc.queue_mem hq)
  · exact ⟨htx ▸ hq.trans_le hmax, hrx ▸ hq.trans_le hmax⟩

/-! ### The registers and memory after it -/

theorem toNat_append_halves {a : Nat} (h : a < 2 ^ 64) : (BitVec.ofNat 32 (a / 2 ^ 32) ++ BitVec.ofNat 32 a).toNat = a := by
  rw [BitVec.toNat_append, BitVec.toNat_ofNat, BitVec.toNat_ofNat, ← Nat.shiftLeft_add_eq_or_of_lt (Nat.mod_lt _ (by decide)),
    Nat.shiftLeft_eq]
  omega

theorem State.RegionBacked.ringBase_lt (h : s.RegionBacked) (hp : 0 < s.params.pageSize) (hq : q < s.nq.toNat) (r : Ring) :
    s.ringBase r q < 2 ^ 64 := by
  obtain ⟨htop, -⟩ := h.desc hp hq r s.n_pos
  rw [State.descAddr] at htop
  omega

/-- The registers of a programmed ring are the numbers R411 writes. -/
theorem State.programmedRing_numbers (h : s.RegionBacked) (hp : 0 < s.params.pageSize) (hq : q < s.nq.toNat) (r : Ring) :
    (s.programmedRing r q).dbase.toNat = s.ringBase r q ∧ (s.programmedRing r q).dlen.toNat = s.n * 16 := by
  have hn := s.n_le
  exact ⟨toNat_append_halves (h.ringBase_lt hp hq r), (BitVec.toNat_ofNat ..).trans (Nat.mod_eq_of_lt (by omega))⟩

/-- The TICK whose poll finds the reset acknowledged is the activation: no window is open for it to serve. -/
theorem execTick_of_activated (h : s.ConfigInv) (hr : s.rstate = .resetting) (hd : s.dev.resetting = false)
    (ha : activate s.polled = .ok () t) : execTick s = answer t .ok 0 := by
  have hphase := activate_phase (s := s.polled) (by rw [State.polled_eq, hr]; decide)
  rw [ha] at hphase
  obtain ⟨hready, -, hshape⟩ := hphase
  have hclosed : ∀ q, (t.queue q).armed = false := fun q =>
    (Queue.armed_of_shape (hshape q)).trans (h.closed_of_not_ready (by rw [hr]; decide) q)
  rw [execTick_of_acknowledged hr hd, ha, Res.bind_ok, if_pos hready, tickLoop_of_closed hclosed]
  rfl

theorem State.Activatable.polled (h : s.Activatable) : s.polled.Activatable := by
  have hstill : s.Still s.polled := ⟨sameRings_of_queues rfl rfl rfl rfl rfl rfl, rfl⟩
  exact ⟨hstill.ready h.ready, h.canon, h.two, h.backed, h.idle, h.has⟩

/-- Settles O24: the poll counts itself and reads CTRL, and activation brings the rings up from there. -/
theorem tickActivatesRings : Obligations.TickActivatesRings := by
  intro s h hr hd hb
  have hact := h.activatable hr hb
  obtain ⟨u, hu, hup⟩ := activate_eq hact.polled
  obtain ⟨hparams, -, hgen, hnq, hlogn, hreason, hpolls, hbase, hsize, -, -⟩ := hup.globals
  refine ⟨_, execTick_of_activated h.config hr hd hu, rfl, rfl, congrArg (· + 1) hgen, rfl, hpolls,
    hreason.trans (h.config.configured.faultReason_eq_zero (by rw [hr]; decide)), hnq, hlogn, hbase, hsize, hparams,
    hup.ready.rings.noWb, hup.rxEn, hup.txEn, hup.reset.trans hd, fun q hq => ?_, hup.spare, hup.descs, hup.bytes⟩
  have hf : Queue.Filled s.n s.params.bufSize (s.queue q) (u.queue q) := hup.filled q hq
  obtain ⟨htx, htags, hdiscard, harmed, hcnt, hacc⟩ := hf.rest_idle (hact.idle q hq)
  obtain ⟨-, -, -, hitr, -⟩ := hf.side
  refine ⟨htx, hf.cur, fun b _ => htags b, hf.tag, fun i hi => ⟨hf.handle i hi, hf.len i hi⟩, hitr, hf.drops, hdiscard, harmed,
    hcnt, hacc, fun r => ?_⟩
  obtain ⟨hbuf, hpage, -⟩ := h.config.valid
  obtain ⟨hdbase, hdlen⟩ := State.programmedRing_numbers hb (by omega) hq r
  have hring : u.dev.ring r q = { s.programmedRing r q with tail := ((u.queue q).cur r).ntu } := hup.rings q hq r
  show (u.dev.ring r q).dbase.toNat = _ ∧ (u.dev.ring r q).dlen.toNat = _ ∧ (u.dev.ring r q).head = _ ∧
    (u.dev.ring r q).tail = ((u.queue q).cur r).ntu
  rw [hring]
  exact ⟨hdbase, hdlen, rfl, rfl⟩

end Sys2Proof.Machine
end

section
/-! SET_ITR, and what an IRQ does short of a pass: a merge into the window, a link cause, a parity fault (45_irq.md R450,
R460). -/

namespace Sys2Proof.Machine

/-- Settles O15: past the check of the queue, the window length is the one field written. -/
theorem setItrWritesWindowLength : Obligations.SetItrWritesWindowLength := by
  intro q w s
  refine ⟨rfl, ?_⟩
  by_cases hq : q.toNat < s.nq.toNat
  · rw [if_pos hq]
    exact perQueue_of_lt hq
  · rw [if_neg hq]
    exact perQueue_of_ge (Nat.le_of_not_lt hq)

/-! ### A dispatch in RingsReady -/

/-- The TX part of a dispatch of the causes c (60_exceptions.md R575). -/
def serveTx (q : Nat) (c : Half) (s : State) : Res Unit :=
  if c &&& txMask ≠ 0 then (txPass q 0 s).bind fun _ s => .ok () s else .ok () s

/-- The RX part of a dispatch of the causes c (60_exceptions.md R575). -/
def serveRx (q : Nat) (c : Half) (s : State) : Res Unit :=
  if c &&& rxMask ≠ 0 then (rxPass q 0 s).bind fun _ s => .ok () s else .ok () s

/-- LCP set if the causes c have a link cause (60_exceptions.md R577). -/
def State.linkServed (s : State) (c : Half) : State :=
  if c &&& linkMask ≠ 0 then s.setLState (lstateSetLcp s.lstate) else s

/-- A dispatch of the causes c once the window is closed (60_exceptions.md R575). -/
def servePasses (q : Nat) (c : Half) (s : State) : Res Unit :=
  (serveTx q c s).bind fun _ s => (serveRx q c s).bind fun _ s => .ok () (s.linkServed c)

theorem dispatch_of_ready {s : State} (hr : s.rstate = .ringsReady) (q : Nat) :
    dispatch q s = servePasses q (s.queue q).acc (s.closeWindow q) := if_neg (not_not_intro hr)

theorem State.linkServed_of_link {s : State} {c : Half} (h : c &&& linkMask ≠ 0) :
    s.linkServed c = s.setLState (lstateSetLcp s.lstate) := if_pos h

theorem servePasses_of_link {c : Half} (htx : c &&& txMask = 0) (hrx : c &&& rxMask = 0) (q : Nat) (s : State) :
    servePasses q c s = .ok () (s.linkServed c) := by
  rw [servePasses, serveTx, if_neg (not_not_intro htx), Res.bind_ok, serveRx, if_neg (not_not_intro hrx), Res.bind_ok]

/-! ### The causes merged -/

section

variable {s : State} {q : Nat} (hq : q < s.queues.length) (c : Half)

include hq

theorem State.queue_accumulate_same :
    (s.accumulate q c).queue q = { s.queue q with acc := (s.queue q).acc ||| c } := s.queue_setQueue_same q _ hq

/-- The window that a merge leaves open counts on, or starts at ITR. -/
theorem State.openWindow_accumulate : (s.accumulate q c).openWindow q = s.setQueue q { s.queue q with
    acc := (s.queue q).acc ||| c
    armed := true
    cnt := if (s.queue q).armed then (s.queue q).cnt else (s.queue q).itr } := by
  rw [State.openWindow, State.queue_accumulate_same hq]
  cases harmed : (s.queue q).armed with
  | true =>
    have hcounting : { s.queue q with acc := (s.queue q).acc ||| c } =
        { s.queue q with acc := (s.queue q).acc ||| c, armed := true, cnt := (s.queue q).cnt } := by rw [← harmed]
    exact congrArg (s.setQueue q) hcounting
  | false => exact s.setQueue_setQueue q _ _

/-- Closing the window drops what was merged into it. -/
theorem State.closeWindow_accumulate : (s.accumulate q c).closeWindow q = s.closeWindow q := by
  rw [State.closeWindow, State.queue_accumulate_same hq]
  exact s.setQueue_setQueue q _ _

end

/-! ### IRQ in RingsReady, with no parity fault to take -/

section

variable {s : State} {q : BitVec 7} {c : Half} (hlive : s.Live q)
  (hparity : c.getLsbD 15 = false ∨ s.params.parityFaultEnabled = false)

include hlive hparity

theorem execIrq_of_live : execIrq q c s =
    if c &&& causeMask = 0 then answer s .ok 0
    else if ((s.accumulate q.toNat (c &&& causeMask)).queue q.toNat).itr = 0 then
      Res.answer ((dispatch q.toNat (s.accumulate q.toNat (c &&& causeMask))).bind fun _ s => .ok (.ok, 1) s)
    else answer ((s.accumulate q.toNat (c &&& causeMask)).openWindow q.toNat) .ok 0 := by
  obtain ⟨hq, hr⟩ := hlive
  have hnone : ¬ (parityCause c = true ∧ s.params.parityFaultEnabled = true ∧ s.rstate ≠ .faulted) := by
    rintro ⟨hc, he, -⟩
    exact hparity.elim (fun h => Bool.false_ne_true (h.symm.trans hc)) fun h => Bool.false_ne_true (h.symm.trans he)
  rw [execIrq, perQueue_of_lt hq, if_neg hnone, if_neg (not_not_intro hr)]

theorem execIrq_of_no_cause (hc : c &&& causeMask = 0) : execIrq q c s = answer s .ok 0 :=
  (execIrq_of_live hlive hparity).trans (if_pos hc)

variable (hc : c &&& causeMask ≠ 0) (hlen : q.toNat < s.queues.length)

include hc hlen

theorem execIrq_of_moderated (hitr : (s.queue q.toNat).itr ≠ 0) :
    execIrq q c s = answer ((s.accumulate q.toNat (c &&& causeMask)).openWindow q.toNat) .ok 0 := by
  rw [execIrq_of_live hlive hparity, if_neg hc, State.queue_accumulate_same hlen, if_neg hitr]

theorem execIrq_of_unmoderated (hitr : (s.queue q.toNat).itr = 0) : execIrq q c s =
    Res.answer ((servePasses q.toNat ((s.queue q.toNat).acc ||| (c &&& causeMask)) (s.closeWindow q.toNat)).bind
      fun _ s => .ok (.ok, 1) s) := by
  have hr : (s.accumulate q.toNat (c &&& causeMask)).rstate = .ringsReady := hlive.2
  rw [execIrq_of_live hlive hparity, if_neg hc, dispatch_of_ready hr, State.closeWindow_accumulate hlen,
    State.queue_accumulate_same hlen, if_pos hitr]

end

/-- Settles O16: a masked cause of zero leaves nothing to merge; otherwise the merge and the opening write one queue. -/
theorem irqMergesIntoWindow : Obligations.IrqMergesIntoWindow := by
  intro q c s hlive hparity
  refine ⟨execIrq_of_no_cause hlive hparity, fun hc hlen hitr => ?_⟩
  refine (execIrq_of_moderated hlive hparity hc hlen hitr).trans ?_
  rw [State.openWindow_accumulate hlen]
  rfl

/-- A value with no bit of a mask has no bit of a part of the mask. -/
theorem and_eq_zero_of_submask {c m m' : Half} (h : c &&& m = 0) (hm : m &&& m' = m') : c &&& m' = 0 := by
  rw [← hm, ← BitVec.and_assoc, h]
  exact BitVec.zero_and

/-- Settles O17: the mask 0x00D3 is TX_MASK and RX_MASK together, so the dispatch has only its link part to do. -/
theorem irqLinkCauseSetsLcp : Obligations.IrqLinkCauseSetsLcp := by
  intro q c s hlive hlen hparity hc hitr hnoPass hlink
  have htx := and_eq_zero_of_submask hnoPass (m' := txMask) (by decide)
  have hrx := and_eq_zero_of_submask hnoPass (m' := rxMask) (by decide)
  refine (execIrq_of_unmoderated hlive hparity hc hlen hitr).trans ?_
  rw [show causeMask = 0x00DF from rfl, servePasses_of_link htx hrx, State.linkServed_of_link hlink]
  rfl

/-! ### Parity -/

/-- A fault entered from any state but Faulted, with nothing waiting to be written (60_exceptions.md R560). -/
theorem State.enterFault_eq_torn {s : State} (hwb : s.wb = []) (hf : s.rstate ≠ .faulted) (r : Reason) :
    s.enterFault r = { s with
      queues := s.tornQueues
      lstate := 0
      rstate := .faulted
      gen := s.gen + 1
      faultReason := r.code
      dev := if s.rstate = .ringsReady then { s.dev with rxEn := false, txEn := false } else s.dev
      events := s.events ++
        (if s.rstate = .ringsReady then
          [.regWrite s.params.devRegs.rctl 0, .regWrite s.params.devRegs.tctl 0] else []) ++ [.fault r] } := by
  rw [State.enterFault_of_not_faulted s r hf]
  by_cases hr : s.rstate = .ringsReady
  · rw [if_pos hr, if_pos hr, if_pos hr, State.teardown_deviceDisable_eq_torn hwb]
    rfl
  · rw [if_neg hr, if_neg hr, if_neg hr, State.teardown_eq_torn hwb, List.append_nil]
    rfl

/-- Settles O19: the parity check comes before the check of RSTATE. -/
theorem parityCauseEntersFault : Obligations.ParityCauseEntersFault := by
  intro q c s hq hwb hc he hf
  have hfault : execIrq q c s = .next (s.faultAnswer .dmaParity) := (perQueue_of_lt hq).trans (if_pos ⟨hc, he, hf⟩)
  refine hfault.trans ?_
  rw [State.faultAnswer, State.enterFault_eq_torn hwb hf]
  rfl

end Sys2Proof.Machine
end

section
/-! No pass reads the response: a pass run with another last response does the same, but that it keeps that response
(30_encoding.md R160). The claims about a dispatch run it as commands, each of which answers. -/

namespace Sys2Proof.Machine

/-- The state with another last response. -/
def State.withResponse (s : State) (v : Option Response) : State := { s with response := v }

/-- A micro-operation that goes on does so with another last response; a fault entry has answered already. -/
def Res.withResponse {α : Type} (x : Res α) (v : Option Response) : Res α :=
  match x with
  | .ok a s  => .ok a (s.withResponse v)
  | .ended s => .ended s
  | .stuck f => .stuck f

/-- A micro-operation neither reads nor writes the response, but by fault entry. -/
def IgnoresResponse {α : Type} (f : State → Res α) : Prop := ∀ s v, f (s.withResponse v) = (f s).withResponse v

/-! ### Sequence and choice -/

theorem Res.withResponse_withResponse {α : Type} (x : Res α) (v w : Option Response) :
    (x.withResponse v).withResponse w = x.withResponse w := by cases x <;> rfl

theorem Res.answer_withResponse (x : Res (Status × Word)) (v : Option Response) : (x.withResponse v).answer = x.answer := by
  cases x <;> rfl

section

variable {α β : Type} {v : Option Response}

theorem Res.bind_withResponse {x x' : Res α} {k k' : α → State → Res β} (hx : x' = x.withResponse v)
    (hk : ∀ a t, k' a (t.withResponse v) = (k a t).withResponse v) : x'.bind k' = (x.bind k).withResponse v := by
  subst hx
  cases x with
  | ok a t => exact hk a t
  | ended t => rfl
  | stuck f => rfl

theorem Res.ite_withResponse {c : Prop} [Decidable c] {x x' y y' : Res α} (hx : x' = x.withResponse v)
    (hy : y' = y.withResponse v) : (if c then x' else y') = (if c then x else y).withResponse v := by
  rw [hx, hy, apply_ite (Res.withResponse · v)]

theorem State.ite_withResponse {c : Prop} [Decidable c] {s s' t t' : State} (hs : s' = s.withResponse v)
    (ht : t' = t.withResponse v) : (if c then s' else t') = (if c then s else t).withResponse v := by
  rw [hs, ht, apply_ite (State.withResponse · v)]

theorem IgnoresResponse.bind {f : State → Res α} {k : α → State → Res β} (hf : IgnoresResponse f)
    (hk : ∀ a, IgnoresResponse (k a)) : IgnoresResponse fun s => (f s).bind k :=
  fun s v => Res.bind_withResponse (hf s v) fun a t => hk a t v

theorem IgnoresResponse.ok (a : α) : IgnoresResponse (Res.ok a) := fun _ _ => rfl

end

theorem ignoresResponse_forEach {f : Nat → State → Res Unit} (hf : ∀ i, IgnoresResponse (f i)) (is : List Nat) :
    IgnoresResponse (forEach f is) := by
  induction is with
  | nil => exact .ok ()
  | cons i is ih => exact (hf i).bind fun _ => ih

/-! ### Fault entry -/

theorem State.teardown_withResponse (s : State) (v : Option Response) :
    (s.withResponse v).teardown = s.teardown.withResponse v :=
  State.ite_withResponse rfl rfl

theorem State.enterFault_withResponse (s : State) (v : Option Response) (r : Reason) :
    (s.withResponse v).enterFault r = (s.enterFault r).withResponse v := by
  by_cases hf : s.rstate = .faulted
  · rw [State.enterFault_of_faulted s r hf]
    exact State.enterFault_of_faulted _ r hf
  have hf' : (s.withResponse v).rstate ≠ .faulted := hf
  have hdisabled : (if (s.withResponse v).rstate = .ringsReady then (s.withResponse v).deviceDisable else s.withResponse v) =
      (if s.rstate = .ringsReady then s.deviceDisable else s).withResponse v := State.ite_withResponse rfl rfl
  rw [State.enterFault_of_not_faulted s r hf, State.enterFault_of_not_faulted _ r hf', hdisabled, State.teardown_withResponse]
  rfl

/-- A fault's own answer replaces whatever response there was. -/
theorem ignoresResponse_fault {α : Type} (r : Reason) : IgnoresResponse (α := α) fun s => .ended (s.faultAnswer r) := by
  intro s v
  show Res.ended (State.respond ((s.withResponse v).enterFault r) _ _) = _
  rw [State.enterFault_withResponse]
  rfl

/-! ### Memory, rings and pools -/

theorem ignoresResponse_memRead (addr n : Nat) : IgnoresResponse (memRead addr n) := fun _ _ => Res.ite_withResponse rfl rfl

theorem ignoresResponse_memWrite (addr : Nat) (bytes : List Byte) : IgnoresResponse (memWrite addr bytes) :=
  fun _ _ => Res.ite_withResponse rfl rfl

section

variable (r : Ring) (q : Nat)

theorem ignoresResponse_ringPost (desc : List Byte) (w : SlotRecord) : IgnoresResponse (ringPost r q desc w) := by
  intro s v
  exact Res.ite_withResponse rfl (Res.bind_withResponse (ignoresResponse_memWrite _ _ s v) fun _ _ => rfl)

theorem ignoresResponse_ringPeek (slot : Nat) : IgnoresResponse (ringPeek r q slot) := by
  intro s v
  refine Res.bind_withResponse (ignoresResponse_memRead _ _ (s.barrier .read) v) fun st t => ?_
  exact Res.ite_withResponse (Res.bind_withResponse (ignoresResponse_memRead _ _ t v) fun _ _ => rfl) rfl

theorem ignoresResponse_ringConsume (k : Nat) : IgnoresResponse (ringConsume r q k) := fun _ _ => Res.ite_withResponse rfl rfl

theorem ringTailSync_withResponse (s : State) (v : Option Response) :
    ringTailSync r q (s.withResponse v) = (ringTailSync r q s).withResponse v :=
  State.ite_withResponse rfl rfl

theorem ignoresResponse_poolMarkPosted (h len : Nat) : IgnoresResponse (poolMarkPosted r q h len) :=
  fun _ _ => Res.ite_withResponse rfl rfl

theorem ignoresResponse_poolMarkCompleted (h : Nat) : IgnoresResponse (poolMarkCompleted r q h) :=
  fun s v => Res.ite_withResponse rfl (ignoresResponse_fault .notPosted s v)

theorem ignoresResponse_poolRecycle (h : Nat) : IgnoresResponse (poolRecycle r q h) := by
  intro s v
  refine Res.bind_withResponse (ignoresResponse_poolMarkCompleted r q h s v) fun _ t => ?_
  by_cases hp : t.tag r q h = .pend
  · rw [poolRelease_of_pend hp, poolRelease_of_pend (show (t.withResponse v).tag r q h = .pend from hp)]
    rfl
  · rw [poolRelease_of_ne_pend hp, poolRelease_of_ne_pend (show (t.withResponse v).tag r q h ≠ .pend from hp)]
    rfl

end

/-! ### TX -/

section

variable (q : Nat)

theorem ignoresResponse_txDoneLoop (slot left i : Nat) (gap : Bool) : IgnoresResponse (txDoneLoop q slot left i gap) := by
  induction left generalizing i gap with
  | zero => exact .ok _
  | succ left ih =>
    intro s v
    refine Res.bind_withResponse (ignoresResponse_ringPeek .tx q _ s v) fun d t => ?_
    cases d with
    | none => exact ih _ _ t v
    | some _ => exact Res.ite_withResponse (ignoresResponse_fault .order t v) (ih _ _ t v)

theorem ignoresResponse_txReleasePacket (slot k : Nat) : IgnoresResponse (txReleasePacket q slot k) := by
  intro s v
  refine ignoresResponse_forEach (fun i t w => ?_) (List.range k) s v
  exact ignoresResponse_poolRecycle .tx q _ t w

theorem ignoresResponse_txLoop (bmax fuel slots pkts : Nat) : IgnoresResponse (txLoop q bmax fuel slots pkts) := by
  induction fuel generalizing slots pkts with
  | zero => exact .ok _
  | succ fuel ih =>
    intro s v
    refine Res.ite_withResponse rfl (Res.ite_withResponse rfl ?_)
    refine Res.bind_withResponse (ignoresResponse_txDoneLoop q _ _ _ _ s v) fun done t => Res.ite_withResponse ?_ rfl
    exact Res.bind_withResponse (ignoresResponse_txReleasePacket q _ _ t v) fun _ u =>
      Res.bind_withResponse (ignoresResponse_ringConsume .tx q _ u v) fun _ w => ih _ _ w v

theorem ignoresResponse_txPass (b : Half) : IgnoresResponse (txPass q b) := by
  intro s v
  refine Res.ite_withResponse rfl (Res.bind_withResponse (ignoresResponse_txLoop q _ _ _ _ s v) fun done t => ?_)
  exact congrArg (Res.ok done) (State.ite_withResponse rfl rfl)

/-! ### RX -/

theorem ignoresResponse_refillLoop (fuel posted : Nat) : IgnoresResponse (refillLoop q fuel posted) := by
  induction fuel generalizing posted with
  | zero => exact .ok _
  | succ fuel ih =>
    intro s v
    refine Res.ite_withResponse rfl ?_
    rw [show poolAcquire .rx q (s.withResponse v) = poolAcquire .rx q s from rfl]
    cases poolAcquire .rx q s with
    | none => rfl
    | some h =>
      refine Res.bind_withResponse (ignoresResponse_ringPost .rx q _ _ s v) fun slot t => ?_
      cases slot with
      | none => rfl
      | some _ => exact Res.bind_withResponse (ignoresResponse_poolMarkPosted .rx q _ _ t v) fun _ u => ih _ u v

theorem ignoresResponse_rxRefill : IgnoresResponse (rxRefill q) := by
  intro s v
  exact Res.bind_withResponse (ignoresResponse_refillLoop q _ _ s v) fun done t =>
    congrArg (Res.ok done) (ringTailSync_withResponse .rx q t v)

theorem ignoresResponse_rxScanLoop (left j : Nat) (recs : List Scanned) : IgnoresResponse (rxScanLoop q left j recs) := by
  induction left generalizing j recs with
  | zero => exact .ok _
  | succ left ih =>
    intro s v
    refine Res.bind_withResponse (ignoresResponse_ringPeek .rx q _ s v) fun d t => ?_
    cases d with
    | none => rfl
    | some _ =>
      exact Res.ite_withResponse (ignoresResponse_fault .rxLen t v) (Res.ite_withResponse rfl (ih _ _ t v))

theorem ignoresResponse_completeAll (recs : List Scanned) : IgnoresResponse (completeAll q recs) := by
  induction recs with
  | nil => exact .ok ()
  | cons x xs ih => exact (ignoresResponse_poolMarkCompleted .rx q _).bind fun _ => ih

theorem ignoresResponse_recycleAll (recs : List Scanned) : IgnoresResponse (recycleAll q recs) := by
  induction recs with
  | nil => exact .ok ()
  | cons x xs ih => exact (ignoresResponse_poolRecycle .rx q _).bind fun _ => ih

theorem ignoresResponse_rxApply (o : RxOutcome) (recs : List Scanned) : IgnoresResponse (rxApply q o recs) := by
  intro s v
  have recycled := ignoresResponse_recycleAll q recs s v
  refine Res.bind_withResponse ?_ fun _ t => ignoresResponse_ringConsume .rx q _ t v
  cases o with
  | wait => rfl
  | deliver => exact Res.bind_withResponse (ignoresResponse_completeAll q recs s v) fun _ _ => rfl
  | dropError => exact Res.bind_withResponse recycled fun _ _ => rfl
  | dropLength => exact Res.bind_withResponse recycled fun _ _ => rfl
  | discardTail => exact Res.bind_withResponse recycled fun _ _ => rfl
  | oversize =>
    refine Res.bind_withResponse recycled fun _ t => ?_
    have hcount : (if (t.queue q).discard then t.withResponse v else (t.withResponse v).countDrop q) =
        (if (t.queue q).discard then t else t.countDrop q).withResponse v := State.ite_withResponse rfl rfl
    exact congrArg (fun u : State => Res.ok () (u.setDiscard q true)) hcount

theorem ignoresResponse_rxLoop (bmax fuel consumed units frames : Nat) :
    IgnoresResponse (rxLoop q bmax fuel consumed units frames) := by
  induction fuel generalizing consumed units frames with
  | zero => exact .ok _
  | succ fuel ih =>
    intro s v
    refine Res.ite_withResponse rfl ?_
    refine Res.bind_withResponse (ignoresResponse_rxScanLoop q _ _ _ s v) fun scan t => ?_
    refine Res.ite_withResponse rfl (Res.ite_withResponse rfl ?_)
    exact Res.bind_withResponse (ignoresResponse_rxApply q _ _ t v) fun _ u => ih _ _ _ u v

theorem ignoresResponse_rxPass (b : Half) : IgnoresResponse (rxPass q b) := by
  intro s v
  refine Res.ite_withResponse rfl (Res.bind_withResponse ?_ fun done t => ?_)
  · exact Res.ite_withResponse (ignoresResponse_rxLoop q _ _ _ _ _ s v) rfl
  · exact Res.bind_withResponse (ignoresResponse_rxRefill q t v) fun _ _ => rfl

/-! ### A dispatch -/

variable (c : Half)

theorem ignoresResponse_serveTx : IgnoresResponse (serveTx q c) := by
  intro s v
  exact Res.ite_withResponse (Res.bind_withResponse (ignoresResponse_txPass q 0 s v) fun _ _ => rfl) rfl

theorem ignoresResponse_serveRx : IgnoresResponse (serveRx q c) := by
  intro s v
  exact Res.ite_withResponse (Res.bind_withResponse (ignoresResponse_rxPass q 0 s v) fun _ _ => rfl) rfl

theorem ignoresResponse_linkServed : IgnoresResponse fun s => .ok () (s.linkServed c) := by
  intro s v
  exact congrArg (Res.ok ()) (State.ite_withResponse rfl rfl)

theorem ignoresResponse_servePasses : IgnoresResponse (servePasses q c) :=
  (ignoresResponse_serveTx q c).bind fun _ => (ignoresResponse_serveRx q c).bind fun _ => ignoresResponse_linkServed c

theorem ignoresResponse_dispatch : IgnoresResponse (dispatch q) := by
  intro s v
  exact Res.ite_withResponse rfl (ignoresResponse_servePasses q _ (s.closeWindow q) v)

/-! ### The queues of a TICK -/

theorem ignoresResponse_tickQueue (d : Nat) : IgnoresResponse (tickQueue q d) := by
  intro s v
  refine Res.ite_withResponse (Res.ite_withResponse ?_ rfl) rfl
  have closing := ignoresResponse_dispatch q (s.setQueue q { s.queue q with cnt := (s.queue q).cnt - 1 }) v
  exact Res.bind_withResponse closing fun _ _ => rfl

end

theorem ignoresResponse_tickLoop (qs : List Nat) (d : Nat) : IgnoresResponse (tickLoop qs d) := by
  induction qs generalizing d with
  | nil => exact .ok d
  | cons q qs ih => exact (ignoresResponse_tickQueue q d).bind fun d => ih d

end Sys2Proof.Machine
end

section
/-! TICK in RingsReady (45_irq.md R470): a dispatch said by the service commands, and the windows that only count down. -/

namespace Sys2Proof.Machine

variable {s : State}

/-! ### What a dispatch keeps -/

/-- RSTATE and NQ are the same. -/
def State.SameLive (s t : State) : Prop := t.rstate = s.rstate ∧ t.nq = s.nq

theorem sameLive_keptBy (q : Nat) : KeptBy q State.SameLive where
  refl _ := ⟨rfl, rfl⟩
  trans h h' := ⟨h'.1.trans h.1, h'.2.trans h.2⟩
  emit _ _ := ⟨rfl, rfl⟩
  setQueue _ _ := ⟨rfl, rfl⟩
  store _ _ _ := ⟨rfl, rfl⟩
  drain _ := ⟨rfl, rfl⟩
  dev _ _ := ⟨rfl, rfl⟩

theorem keepsLive_serveTx (q : Nat) (c : Half) (s : State) : Keeps State.SameLive s (serveTx q c s) := by
  have K := sameLive_keptBy q
  unfold serveTx
  split
  · exact K.bind (K.txPass 0 s) fun _ t _ => K.refl t
  · exact K.refl s

theorem keepsLive_serveRx (q : Nat) (c : Half) (s : State) : Keeps State.SameLive s (serveRx q c s) := by
  have K := sameLive_keptBy q
  unfold serveRx
  split
  · exact K.bind (K.rxPass 0 s) fun _ t _ => K.refl t
  · exact K.refl s

theorem State.sameLive_linkServed (s : State) (c : Half) : s.SameLive (s.linkServed c) := by
  unfold State.linkServed
  split
  · exact ⟨rfl, rfl⟩
  · exact ⟨rfl, rfl⟩

theorem keepsLive_servePasses (q : Nat) (c : Half) (s : State) : Keeps State.SameLive s (servePasses q c s) :=
  (sameLive_keptBy q).bind (keepsLive_serveTx q c s) fun _ t _ =>
    (sameLive_keptBy q).bind (keepsLive_serveRx q c t) fun _ u _ => u.sameLive_linkServed c

/-! ### A command as a micro-operation -/

/-- What follows a micro-operation that goes on. -/
def Res.followedBy (x : Res Unit) (k : State → Host.Outcome State Fault Refusal) : Host.Outcome State Fault Refusal :=
  match x with
  | .ok _ s  => k s
  | .ended s => .next s
  | .stuck f => .fault f

/-- A part of a dispatch ends as a micro-operation does, but for the response it leaves when it goes on. -/
def Performs (o : Host.Outcome State Fault Refusal) (x : Res Unit) : Prop := ∃ v, o = (x.withResponse v).followedBy .next

theorem performs_next (s : State) : Performs (.next s) (.ok () s) := ⟨s.response, rfl⟩

theorem performs_answer {α : Type} (x : Res α) (g : α → Status × Word) :
    Performs (Res.answer (x.bind fun a s => .ok (g a) s)) (x.bind fun _ s => .ok () s) := by
  cases x with
  | ok a t => exact ⟨some ⟨(g a).1, (g a).2⟩, rfl⟩
  | ended t => exact ⟨none, rfl⟩
  | stuck f => exact ⟨none, rfl⟩

theorem performs_ite {c : Prop} [Decidable c] {o o' : Host.Outcome State Fault Refusal} {x x' : Res Unit}
    (h : Performs o x) (h' : Performs o' x') : Performs (if c then o else o') (if c then x else x') := by
  split
  · exact h
  · exact h'

section

variable {o : Host.Outcome State Fault Refusal} {x : Res Unit} {k : State → Host.Outcome State Fault Refusal}
  (ho : Performs o x) (hr : s.rstate = .ringsReady) (hx : Keeps State.SameLive s x)

include ho hr hx

/-- `andThen` goes on exactly where the micro-operation does: a pass that goes on keeps RingsReady, and a fault leaves it. -/
theorem Performs.andThen_eq : ∃ v, andThen o k = (x.withResponse v).followedBy k := by
  obtain ⟨v, rfl⟩ := ho
  refine ⟨v, ?_⟩
  cases x with
  | ok _ t => exact andThen_ready (t := t.withResponse v) (hx.1.trans hr) k
  | ended t =>
    obtain ⟨u, r, -, rfl⟩ := hx
    have hfaulted : (u.faultAnswer r).rstate = .faulted := u.enterFault_rstate r
    exact andThen_left (by rw [hfaulted]; decide) k
  | stuck f => rfl

/-- Two parts in sequence. -/
theorem Performs.bind {k' : State → Res Unit} (hk' : IgnoresResponse k')
    (hk : ∀ t, s.SameLive t → Performs (k t) (k' t)) : Performs (andThen o k) (x.bind fun _ => k') := by
  obtain ⟨v, hv⟩ := ho.andThen_eq hr hx (k := k)
  rw [hv]
  cases x with
  | ok _ t =>
    obtain ⟨w, hw⟩ := hk (t.withResponse v) hx
    refine ⟨w, hw.trans ?_⟩
    rw [hk', Res.withResponse_withResponse]
    rfl
  | ended t => exact ⟨none, rfl⟩
  | stuck f => exact ⟨none, rfl⟩

/-- A part, then what answers the command. -/
theorem Performs.answer {k' : State → Res (Status × Word)} (hk' : IgnoresResponse k')
    (hk : ∀ t, s.SameLive t → k t = (k' t).answer) : andThen o k = (x.bind fun _ => k').answer := by
  obtain ⟨v, hv⟩ := ho.andThen_eq hr hx (k := k)
  rw [hv]
  cases x with
  | ok _ t =>
    show k (t.withResponse v) = (k' t).answer
    rw [hk (t.withResponse v) hx, hk', Res.answer_withResponse]
  | ended t => rfl
  | stuck f => rfl

end

section

variable {q : BitVec 7} (hq : q.toNat < s.nq.toNat)

include hq

theorem performs_serviceTx : Performs (exec (.serviceTx q 0) s) ((txPass q.toNat 0 s).bind fun _ t => .ok () t) := by
  rw [show exec (.serviceTx q 0) s = _ from perQueue_of_lt hq]
  exact performs_answer _ _

theorem performs_serviceRx : Performs (exec (.serviceRx q 0) s) ((rxPass q.toNat 0 s).bind fun _ t => .ok () t) := by
  rw [show exec (.serviceRx q 0) s = _ from perQueue_of_lt hq]
  exact performs_answer _ _

/-- The causes of a queue served by commands are those served by the passes (60_exceptions.md R575). -/
theorem performs_serveCauses (hr : s.rstate = .ringsReady) (c : Half) :
    Performs (serveCauses q c s) (servePasses q.toNat c s) := by
  have hrest : IgnoresResponse fun t => (serveRx q.toNat c t).bind fun _ u => .ok () (u.linkServed c) :=
    (ignoresResponse_serveRx q.toNat c).bind fun _ => ignoresResponse_linkServed c
  refine (performs_ite (performs_serviceTx hq) (performs_next s)).bind hr (keepsLive_serveTx _ c s) hrest fun t ht => ?_
  obtain ⟨htr, htn⟩ := ht
  exact (performs_ite (performs_serviceRx (htn ▸ hq)) (performs_next t)).bind (htr.trans hr) (keepsLive_serveRx _ c t)
    (ignoresResponse_linkServed c) fun u _ => performs_next (u.linkServed c)

end

/-! ### A window's turn -/

section

variable {q : Nat}

theorem State.lt_of_armed (h : (s.queue q).armed = true) : q < s.queues.length := by
  by_contra hq
  rw [State.queue, List.getD_eq_default _ _ (Nat.le_of_not_lt hq)] at h
  cases h

theorem tickQueue_of_closed (h : (s.queue q).armed = false) (d : Nat) : tickQueue q d s = .ok d s := by
  rw [tickQueue, h]
  rfl

theorem tickQueue_of_counting (h : (s.queue q).armed = true) (hcnt : (s.queue q).cnt ≠ 1) (d : Nat) :
    tickQueue q d s = .ok d (s.setQueue q { s.queue q with cnt := (s.queue q).cnt - 1 }) := by
  have hleft : ¬ (s.queue q).cnt - 1 = 0 := fun h => hcnt (by bv_omega)
  rw [tickQueue, if_pos h, if_neg hleft]

theorem tickQueue_of_closing (hr : s.rstate = .ringsReady) (h : (s.queue q).armed = true) (hcnt : (s.queue q).cnt = 1)
    (d : Nat) : tickQueue q d s =
      (servePasses q (s.queue q).acc (s.closeWindow q)).bind fun _ t => .ok (d + 1) t := by
  have hr' : (s.setQueue q { s.queue q with cnt := (s.queue q).cnt - 1 }).rstate = .ringsReady := hr
  rw [tickQueue, if_pos h, if_pos (by rw [hcnt]; decide), dispatch_of_ready hr', State.closeWindow,
    State.queue_setQueue_same _ _ _ (State.lt_of_armed h), State.setQueue_setQueue]
  rfl

end

/-! ### The queues in turn -/

theorem execTick_of_ready (hr : s.rstate = .ringsReady) : execTick s =
    Res.answer ((tickLoop (List.range s.nq.toNat) 0 s).bind fun d s => .ok (.ok, BitVec.ofNat 32 d) s) := by
  rw [execTick, if_neg (by rw [hr]; decide), Res.bind_ok, if_pos hr]

/-- The queue loop of a TICK, its count answered, is the windows in turn. -/
theorem tickWindows_eq_tickLoop {qs : List Nat} (hr : s.rstate = .ringsReady) (hqs : ∀ q ∈ qs, q < s.nq.toNat)
    (hnq : s.nq.toNat ≤ 128) (d : Nat) :
    tickWindows qs d s = Res.answer ((tickLoop qs d s).bind fun d s => .ok (.ok, BitVec.ofNat 32 d) s) := by
  induction qs generalizing d s with
  | nil => rfl
  | cons q qs ih =>
    have hq : q < s.nq.toNat := hqs q List.mem_cons_self
    have hrest : ∀ p ∈ qs, p < s.nq.toNat := fun p hp => hqs p (List.mem_cons_of_mem q hp)
    rw [tickWindows, tickLoop]
    by_cases hclosed : (s.queue q).armed = false
    · rw [tickQueue_of_closed hclosed]
      exact (if_pos hclosed).trans (ih hr hrest hnq d)
    have hopen : (s.queue q).armed = true := by simpa using hclosed
    refine (if_neg hclosed).trans ?_
    by_cases hlast : (s.queue q).cnt = 1
    · have hbits : (BitVec.ofNat 7 q).toNat = q := Nat.mod_eq_of_lt (hq.trans_le hnq)
      have hlive : (BitVec.ofNat 7 q).toNat < (s.closeWindow q).nq.toNat := hbits.symm ▸ hq
      have hserve := performs_serveCauses hlive hr (s.queue q).acc
      rw [hbits] at hserve
      rw [tickQueue_of_closing hr hopen hlast, Res.bind_assoc, Res.bind_assoc]
      refine (if_pos hlast).trans (hserve.answer hr (keepsLive_servePasses _ _ _)
        ((ignoresResponse_tickLoop qs (d + 1)).bind fun _ => .ok _) fun t ht => ?_)
      have hnqt : t.nq = s.nq := ht.2
      exact ih (ht.1.trans hr) (by rwa [hnqt]) (by rwa [hnqt]) (d + 1)
    · rw [tickQueue_of_counting hopen hlast]
      exact (if_neg hlast).trans (ih (s := s.setQueue q _) hr hrest hnq d)

/-- Settles O21: in RingsReady a TICK is its queue loop, and a closing window's passes are those of the service commands. -/
theorem tickClosingWindowDispatches : Obligations.TickClosingWindowDispatches := by
  intro s hr hnq
  exact (execTick_of_ready hr).trans (tickWindows_eq_tickLoop hr (fun q hq => List.mem_range.1 hq) hnq 0).symm

/-! ### No window closes -/

/-- The queue numbered i counted down by one, if it is among some queues and its window is open. -/
def Queue.countedIn (qs : List Nat) (i : Nat) (x : Queue) : Queue :=
  if i ∈ qs ∧ x.armed = true then { x with cnt := x.cnt - 1 } else x

/-- The open windows of some queues counted down by one. -/
def State.countedDown (s : State) (qs : List Nat) : State := { s with queues := s.queues.mapIdx (Queue.countedIn qs) }

section

variable {q : Nat} {qs : List Nat}

theorem Queue.countedIn_of_not_mem {i : Nat} (h : i ∉ qs) : Queue.countedIn qs i = id :=
  funext fun _ => if_neg fun hi => h hi.1

/-- A queue takes one turn. -/
theorem Queue.countedIn_cons (h : q ∉ qs) (i : Nat) (x : Queue) :
    (x.countedIn [q] i).countedIn qs i = x.countedIn (q :: qs) i := by
  by_cases hi : i = q
  · subst hi
    rw [Queue.countedIn_of_not_mem h]
    simp [Queue.countedIn]
  · have hother : i ∉ [q] := by simpa using hi
    rw [Queue.countedIn_of_not_mem hother]
    simp [Queue.countedIn, hi]

theorem State.countedDown_nil (s : State) : s.countedDown [] = s := by
  have hnone : s.queues.mapIdx (Queue.countedIn []) = s.queues :=
    List.ext_getElem? fun i => by simp [List.getElem?_mapIdx, Queue.countedIn_of_not_mem]
  rw [State.countedDown, hnone]

theorem State.countedDown_cons (h : q ∉ qs) : (s.countedDown [q]).countedDown qs = s.countedDown (q :: qs) := by
  have hturns : (s.queues.mapIdx (Queue.countedIn [q])).mapIdx (Queue.countedIn qs) =
      s.queues.mapIdx (Queue.countedIn (q :: qs)) := by
    rw [List.mapIdx_mapIdx]
    exact congrArg (s.queues.mapIdx ·) (funext₂ (Queue.countedIn_cons h))
  exact congrArg (fun xs => { s with queues := xs }) hturns

theorem State.queue_countedDown_of_not_mem (h : q ∉ qs) : (s.countedDown qs).queue q = s.queue q := by
  simp [State.queue, State.countedDown, List.getElem?_mapIdx, Queue.countedIn_of_not_mem h]

theorem State.countedDown_singleton (s : State) (q : Nat) : s.countedDown [q] = s.setQueue q ((s.queue q).countedIn [q] q) := by
  refine congrArg (fun xs => { s with queues := xs }) (List.ext_getElem? fun i => ?_)
  rw [List.getElem?_mapIdx, List.getElem?_set]
  by_cases hi : q = i
  · subst hi
    by_cases hq : q < s.queues.length <;> simp [State.queue, hq]
  · have hother : i ∉ [q] := by simpa using Ne.symm hi
    simp [hi, Queue.countedIn_of_not_mem hother]

/-- A turn that closes no window counts its own down. -/
theorem tickQueue_of_not_closing (h : (s.queue q).armed = true → (s.queue q).cnt ≠ 1) (d : Nat) :
    tickQueue q d s = .ok d (s.countedDown [q]) := by
  rw [State.countedDown_singleton]
  cases harmed : (s.queue q).armed with
  | false => rw [tickQueue_of_closed harmed, Queue.countedIn, if_neg (by simp [harmed]), State.setQueue_queue]
  | true => rw [tickQueue_of_counting harmed (h harmed), Queue.countedIn, if_pos ⟨List.mem_singleton_self q, harmed⟩]

theorem tickLoop_of_none_closing (hqs : qs.Nodup) (h : ∀ q ∈ qs, (s.queue q).armed = true → (s.queue q).cnt ≠ 1)
    (d : Nat) : tickLoop qs d s = .ok d (s.countedDown qs) := by
  induction qs generalizing s with
  | nil => exact congrArg (Res.ok d) (s.countedDown_nil).symm
  | cons q qs ih =>
    obtain ⟨hq, hqs⟩ := List.nodup_cons.1 hqs
    rw [tickLoop, tickQueue_of_not_closing (h q List.mem_cons_self), Res.bind_ok, ih hqs, State.countedDown_cons hq]
    intro p hp
    rw [State.queue_countedDown_of_not_mem (by simpa using fun e : p = q => hq (e ▸ hp))]
    exact h p (List.mem_cons_of_mem q hp)

end

/-- Settles O20: the queue loop counts the open windows down one by one, and its count of closed windows stays zero. -/
theorem tickCountsOpenWindowsDown : Obligations.TickCountsOpenWindowsDown := by
  intro s hr _ h
  refine (execTick_of_ready hr).trans ?_
  rw [tickLoop_of_none_closing List.nodup_range fun q hq => h q (List.mem_range.1 hq)]
  have hcounted : Queue.countedIn (List.range s.nq.toNat) =
      fun i x => if i < s.nq.toNat ∧ x.armed = true then { x with cnt := x.cnt - 1 } else x :=
    funext₂ fun i x => by rw [Queue.countedIn]; simp only [List.mem_range]
  rw [State.countedDown, hcounted]
  rfl

end Sys2Proof.Machine
end

section
/-! The moves of the device: everything a move can do, and what it leaves to the block (48_device_agent.md R505, R514, R515). -/

namespace Sys2Proof.Machine

variable {s t : State} {r : Ring} {q : Nat}

/-! ### What a move can do -/

/-- Everything a move can do: nothing; end the device reset; or, where a completion is enabled, write memory and the head and `done`
of one ring (48_device_agent.md R511, R515, R520). -/
inductive State.MovesTo (s : State) : State → Prop where
  | idle : s.MovesTo s
  | resetDone (h : s.dev.resetting = true) : s.MovesTo { s with dev := { s.dev with resetting := false } }
  | complete (r : Ring) (q : Nat) (m : List Host.Cell) (head : Half) (done : List Nat) (h : s.completionEnabled r q = true) :
      s.MovesTo { s with mem := m, dev := s.dev.setRing r q { s.dev.ring r q with head := head, done := done } }

/-- A writeback writes memory and nothing else. -/
abbrev WritesMemory (s : State) (x : Res Unit) : Prop :=
  x.Ends (fun _ t => ∃ m, t = { s with mem := m }) (fun _ => False) (fun _ => True)

theorem writesMemory_deviceWrite (addr : Nat) (bytes : List Byte) (s : State) : WritesMemory s (deviceWrite addr bytes s) :=
  (deviceWrite_ends addr bytes s).mono (fun _ _ h => ⟨_, h.2⟩) (fun _ => id) (fun _ _ => trivial)

theorem writesMemory_rxWriteback (q slot : Nat) (d : RxDraw) (s : State) : WritesMemory s (rxWriteback q slot d s) := by
  refine (writesMemory_deviceWrite _ _ s).bind ?_
  rintro _ _ ⟨m, rfl⟩
  exact writesMemory_deviceWrite _ _ { s with mem := m }

/-- A part of a move does what a move can do, or stops for want of memory. -/
abbrev Moves (s : State) (x : Res Unit) : Prop := x.Ends (fun _ t => s.MovesTo t) (fun _ => False) (fun _ => True)

theorem moves_completeHead {w : State → Res Unit} (h : s.completionEnabled r q = true) (hw : WritesMemory s (w s)) :
    Moves s (completeHead r q w s) := by
  refine Res.Ends.bind (P := fun _ t => ∃ m, t = { s with mem := m }) ?_ ?_
  · split
    · exact ⟨s.mem, rfl⟩
    · exact hw
  · rintro _ _ ⟨m, rfl⟩
    exact .complete r q m _ _ h

theorem moves_completeAt {w : State → Res Unit} (slot : Nat) (h : s.completionEnabled r q = true) (hw : WritesMemory s (w s)) :
    Moves s (completeAt r q slot w s) := by
  refine hw.bind ?_
  rintro _ _ ⟨m, rfl⟩
  exact .complete r q m (s.dev.ring r q).head _ h

/-- Every move is one of these. -/
theorem moves_deviceMove (m : Move) (s : State) : Moves s (deviceMove m s) := by
  cases m with
  | txComplete q x =>
    unfold deviceMove; dsimp only; split
    next h => exact moves_completeHead h (writesMemory_deviceWrite _ _ s)
    next => exact .idle
  | rxComplete q d =>
    unfold deviceMove; dsimp only; split
    next h => exact moves_completeHead (Bool.and_eq_true_iff.1 h).1 (writesMemory_rxWriteback _ _ d s)
    next => exact .idle
  | resetDone =>
    unfold deviceMove; dsimp only; split
    next h => exact .resetDone h
    next => exact .idle
  | txCompleteAt q k x =>
    unfold deviceMove; dsimp only; split
    next h =>
      obtain ⟨-, henabled, -⟩ := completionAtEnabled_iff.1 h
      exact moves_completeAt _ henabled (writesMemory_deviceWrite _ _ s)
    next => exact .idle
  | rxCompleteAt q k d =>
    unfold deviceMove; dsimp only; split
    next h =>
      obtain ⟨-, henabled, -⟩ := completionAtEnabled_iff.1 (Bool.and_eq_true_iff.1 h).1
      exact moves_completeAt _ henabled (writesMemory_rxWriteback _ _ d s)
    next => exact .idle

theorem movesTo_of_moveOutcome {m : Move} (h : moveOutcome (deviceMove m s) = .next t) : s.MovesTo t := by
  have hmoves := moves_deviceMove m s
  rcases moveOutcome_eq_next.1 h with h | h <;> rw [h] at hmoves
  · exact hmoves
  · exact hmoves.elim

/-! ### What a move leaves -/

/-- A disabled device, and one in reset, completes nothing (48_device_agent.md R514, R515). -/
theorem State.completionEnabled_eq_false (h : (s.dev.rxEn = false ∧ s.dev.txEn = false) ∨ s.dev.resetting = true) :
    s.completionEnabled r q = false := by
  rcases h with ⟨hrx, htx⟩ | hresetting
  · cases r <;> simp [State.completionEnabled, hrx, htx]
  · simp [State.completionEnabled, hresetting]

theorem State.MovesTo.block (h : s.MovesTo t) : t = { s with mem := t.mem, dev := t.dev } := by cases h <;> rfl

theorem State.MovesTo.mem_eq (h : s.MovesTo t)
    (hoff : (s.dev.rxEn = false ∧ s.dev.txEn = false) ∨ s.dev.resetting = true) : t.mem = s.mem := by
  cases h with
  | idle | resetDone => rfl
  | complete r q m head done henabled => exact absurd henabled (Bool.eq_false_iff.1 (State.completionEnabled_eq_false hoff))

theorem State.MovesTo.rxEn_eq (h : s.MovesTo t) : t.dev.rxEn = s.dev.rxEn := by
  cases h with
  | idle | resetDone => rfl
  | complete => exact Device.rxEn_setRing ..

theorem State.MovesTo.txEn_eq (h : s.MovesTo t) : t.dev.txEn = s.dev.txEn := by
  cases h with
  | idle | resetDone => rfl
  | complete => exact Device.txEn_setRing ..

/-- No move starts a reset. -/
theorem State.MovesTo.resetting (h : s.MovesTo t) (ht : t.dev.resetting = true) : s.dev.resetting = true := by
  cases h with
  | idle => exact ht
  | resetDone h => exact h
  | complete => exact (Device.resetting_setRing ..).symm.trans ht

/-- What a write of a ring's registers leaves in that ring it leaves in every ring. -/
theorem Device.apply_ring_setRing {α : Type} {f : DevRing → α} {d : Device} {x : DevRing} (h : f x = f (d.ring r q)) (r' : Ring)
    (p : Nat) : f ((d.setRing r q x).ring r' p) = f (d.ring r' p) := by
  rcases Ring.other_or_same r r' q p with hne | ⟨rfl, rfl⟩
  · rw [Device.ring_setRing_ne d hne]
  · rw [Device.ring_setRing, apply_ite f, h, ite_self]

/-- The registers of a ring that the block writes, base and tail, no move writes. -/
theorem State.MovesTo.ring_eq (h : s.MovesTo t) (r : Ring) (q : Nat) :
    (t.dev.ring r q).tail = (s.dev.ring r q).tail ∧ (t.dev.ring r q).dbase = (s.dev.ring r q).dbase := by
  cases h with
  | idle => exact ⟨rfl, rfl⟩
  | resetDone => cases r <;> exact ⟨rfl, rfl⟩
  | complete =>
    refine ⟨Device.apply_ring_setRing (f := (·.tail)) ?_ r q, Device.apply_ring_setRing (f := (·.dbase)) ?_ r q⟩ <;> rfl

/-- Settles O47: each way a move can go leaves the block alone, and the one that writes memory needs an enabled device out of
reset. -/
theorem deviceMovesLeaveTheBlockAlone : Obligations.DeviceMovesLeaveTheBlockAlone := by
  intro m rest s t hi ht
  have hv := (step_cases ht).1
  rw [step_of_move hv hi] at ht
  have hmove := movesTo_of_moveOutcome ht
  exact ⟨hmove.block, hmove.mem_eq, hmove.rxEn_eq, hmove.txEn_eq, hmove.resetting, hmove.ring_eq⟩

end Sys2Proof.Machine
end

section
/-! The writebacks of a completion at the head (48_device_agent.md R511 to R513, R520). -/

namespace Sys2Proof.Machine

variable {s t u : State} {r : Ring} {q : Nat}

/-! ### A completion at the head -/

theorem deviceWrite_of_backs {addr : Nat} {bytes : List Byte} (h : s.params.Backs addr bytes.length) :
    deviceWrite addr bytes s = .ok () { s with mem := Memory.setBytes s.mem addr bytes } := if_pos h

/-- A slot that is not done yet is written back, then the head moves on. -/
theorem completeHead_of_pending {w : State → Res Unit} (hpending : s.headSlot r q ∉ (s.dev.ring r q).done)
    (hw : w s = .ok () u) : completeHead r q w s = .ok () (u.advanceHead r q) := by
  rw [completeHead, if_neg hpending, hw, Res.bind_ok]

theorem State.Sized.has (h : s.Sized) (hq : q < maxQueues) : s.dev.Has q := by
  obtain ⟨-, htx, hrx, -⟩ := h
  exact ⟨htx.symm ▸ hq, hrx.symm ▸ hq⟩

theorem State.head_advanceHead (h : s.dev.Has q) (r : Ring) :
    ((s.advanceHead r q).dev.ring r q).head = BitVec.ofNat 16 (((s.dev.ring r q).head.toNat + 1) % s.n) := by
  rw [State.advanceHead, State.setDevRing, Device.ring_setRing_same h]
  rfl

theorem step_of_move_ok {m : Move} {rest : List Input} (hv : s.params.Valid) (hi : s.inputs = .device m :: rest)
    (hm : deviceMove m (s.withInputs rest) = .ok () t) : step s = .next t := by
  rw [step_of_move hv hi, hm]
  rfl

/-! ### TX -/

/-- Settles O48: the completion is enabled and its slot is not done, so the move writes the one byte and the head moves on. -/
theorem txCompletionWritesBack : Obligations.TxCompletionWritesBack := by
  intro q x rest s hv hsized hm hi hq hen hreset hne hpending a hback
  have henabled : (s.withInputs rest).completionEnabled .tx q = true := by
    simp [State.completionEnabled, State.withInputs, hen, hreset, hne]
  have hwrite : txWriteback q ((s.withInputs rest).headSlot .tx q) x (s.withInputs rest) =
      .ok () { s.withInputs rest with mem := Memory.setBytes s.mem a [0x01 ||| (x &&& 0x0E)] } := deviceWrite_of_backs hback
  have hmove : deviceMove (.txComplete q x) (s.withInputs rest) = _ :=
    (if_pos henabled).trans (completeHead_of_pending hpending hwrite)
  refine ⟨_, step_of_move_ok hv hi hmove, ?_, fun a' ha' => ?_, State.head_advanceHead (hsized.has hq) .tx⟩
  · show Memory.byte (Memory.setByte s.mem a _) a = _
    rw [Memory.byte_setByte _ _ _ hm, if_pos rfl]
  · show Memory.byte (Memory.setByte s.mem a _) a' = _
    rw [Memory.byte_setByte _ _ _ hm, if_neg ha']

/-! ### RX -/

/-- R513's bytes 8 to 15, one by one. -/
theorem rxStatusBytes_eq (d : RxDraw) : rxStatusBytes d =
    [BitVec.ofNat 8 d.data.length, BitVec.ofNat 8 (d.data.length / 256), d.csum.setWidth 8, (d.csum >>> 8).setWidth 8,
      0x01 ||| (d.st &&& 0xEE), d.er, d.special.setWidth 8, (d.special >>> 8).setWidth 8] := by
  have low : ∀ v : Half, BitVec.ofNat 8 v.toNat = v.setWidth 8 := fun v => rfl
  have high : ∀ v : Half, BitVec.ofNat 8 (v.toNat / 256) = (v >>> 8).setWidth 8 := fun v => by
    apply BitVec.eq_of_toNat_eq
    simp [Nat.shiftRight_eq_div_pow]
  simp only [rxStatusBytes, put16, List.cons_append, List.nil_append, low, high]

/-- What the statement asks of the draw is what the device may draw, the buffers being at most 0xFFFF bytes. -/
theorem admitsDraw_of_length {p : Params} {d : RxDraw} (hv : p.Valid)
    (hlen : d.data.length ≤ p.bufSize ∨ (p.deviceConformant = false ∧ d.data.length ≤ 0xFFFF))
    (hfull : d.data.length = p.bufSize ∨ d.st.getLsbD 1 = true ∨ p.deviceConformant = false) :
    Params.admitsDraw p d = true := by
  rw [admitsDraw_iff, eopBit]
  obtain ⟨-, -, hbuf, -⟩ := hv
  split
  next hconf =>
    simp only [hconf, Bool.true_eq_false, false_and, or_false] at hlen hfull
    rcases hfull with hfull | heop
    · exact .inl hfull
    · rcases hlen.lt_or_eq with hlt | heq
      · exact .inr ⟨heop, hlt⟩
      · exact .inl heq
  next => omega

/-- Where the platform has the memory, both parts of the writeback at slot address a are stored. -/
theorem rxWriteback_of_backs {slot a buf : Nat} {d : RxDraw} (ha : (s.dev.ring .rx q).slotAddr slot = a)
    (hbuf : le64 (Memory.bytes s.mem a 8) 0 = buf) (hdata : s.params.Backs buf (d.data.take s.params.bufSize).length)
    (hdesc : s.params.Backs (a + 8) 8) : rxWriteback q slot d s = .ok () { s with
      mem := Memory.setBytes (Memory.setBytes s.mem buf (d.data.take s.params.bufSize)) (a + 8) (rxStatusBytes d) } := by
  subst ha hbuf
  rw [rxWriteback, deviceWrite_of_backs hdata]
  exact deviceWrite_of_backs hdesc

/-- A later write elsewhere leaves what an earlier one wrote. -/
theorem Memory.bytes_setBytes_setBytes {m : List Host.Cell} (hm : Memory.wf m) {a a' : Nat} {bs bs' : List Byte}
    (h : a' + bs'.length ≤ a ∨ a + bs.length ≤ a') :
    Memory.bytes (Memory.setBytes (Memory.setBytes m a bs) a' bs') a bs.length = bs := by
  rw [Memory.bytes_congr _ (Memory.setBytes m a bs), Memory.bytes_setBytes _ _ _ hm]
  intro c hlo hhi
  exact Memory.byte_setBytes_of_not_within _ _ _ (Memory.wf_setBytes _ _ _ hm) _ (by omega)

/-- Settles O49: the completion is enabled and its slot is not done, so the move writes the data and then the descriptor's bytes,
which lie apart, and the head moves on. -/
theorem rxCompletionWritesBack : Obligations.RxCompletionWritesBack := by
  intro q d rest s hv hsized hm hi hq hen hreset hne hpending len room hlen hfull a buf n hdesc hdata hapart
  have henabled : ((s.withInputs rest).completionEnabled .rx q && Params.admitsDraw s.params d) = true := by
    rw [admitsDraw_of_length hv hlen hfull]
    simp [State.completionEnabled, State.withInputs, hen, hreset, hne]
  have htake : (d.data.take room).length = n := by rw [List.length_take, Nat.min_comm]
  have hwrite : rxWriteback q ((s.withInputs rest).headSlot .rx q) d (s.withInputs rest) = .ok () { s.withInputs rest with
      mem := Memory.setBytes (Memory.setBytes s.mem buf (d.data.take room)) (a + 8) (rxStatusBytes d) } :=
    rxWriteback_of_backs rfl rfl (htake.symm ▸ hdata) hdesc
  have hmove : deviceMove (.rxComplete q d) (s.withInputs rest) = _ :=
    (if_pos henabled).trans (completeHead_of_pending hpending hwrite)
  have hapart' : a + 8 + (rxStatusBytes d).length ≤ buf ∨ buf + (d.data.take room).length ≤ a + 8 := by
    rw [htake]
    exact hapart.imp id fun h => h.trans (Nat.le_add_right a 8)
  have hm' : Memory.wf (Memory.setBytes s.mem buf (d.data.take room)) := Memory.wf_setBytes _ _ _ hm
  refine ⟨_, step_of_move_ok hv hi hmove, ?_, ?_, fun a' hbuf hstatus => ?_, State.head_advanceHead (hsized.has hq) .rx⟩
  · rw [← htake]
    exact Memory.bytes_setBytes_setBytes hm hapart'
  · rw [← rxStatusBytes_eq]
    exact Memory.bytes_setBytes (rxStatusBytes d) _ (a + 8) hm'
  · refine (Memory.byte_setBytes_of_not_within (rxStatusBytes d) _ (a + 8) hm' a' hstatus).trans ?_
    exact Memory.byte_setBytes_of_not_within _ _ buf hm a' (htake.symm ▸ hbuf)

end Sys2Proof.Machine
end

section
/-! The device's tail registers follow the block's (48_device_agent.md R522): the work on one queue, a dispatch, an activation. -/

namespace Sys2Proof.Machine

variable {s t u : State} {r : Ring} {q p : Nat}

/-- The device has registers for every configured ring, and its tail register there equals the block's copy. -/
structure State.TailsAgree (s : State) : Prop where
  has  : ∀ q < s.nq.toNat, s.dev.Has q
  tail : ∀ q < s.nq.toNat, ∀ r, (s.dev.ring r q).tail.toNat = s.tail r q

/-! ### Steps that write no tail, and the one that does -/

theorem State.TailsAgree.of_same (h : s.TailsAgree) (hnq : t.nq = s.nq) (hdev : t.dev = s.dev)
    (htail : ∀ r q, t.tail r q = s.tail r q) : t.TailsAgree := by
  refine ⟨fun q hq => ?_, fun q hq r => ?_⟩ <;> rw [hnq] at hq <;> rw [hdev]
  · exact h.has q hq
  · exact (h.tail q hq r).trans (htail r q).symm

/-- A tail write that the block's copy follows. -/
theorem State.TailsAgree.of_written {v : Half} (h : s.TailsAgree) (hnq : t.nq = s.nq)
    (hdev : t.dev = s.dev.setRing r q { s.dev.ring r q with tail := v }) (hsame : t.tail r q = v.toNat)
    (hothers : ∀ r' p, r' ≠ r ∨ p ≠ q → t.tail r' p = s.tail r' p) : t.TailsAgree := by
  refine ⟨fun p hp => ?_, fun p hp r' => ?_⟩ <;> rw [hnq] at hp <;> rw [hdev]
  · exact Device.has_setRing.2 (h.has p hp)
  · rcases Ring.other_or_same r r' q p with hne | ⟨rfl, rfl⟩
    · rw [Device.ring_setRing_ne _ hne, hothers r' p hne, h.tail p hp r']
    · rw [Device.ring_setRing_same (h.has p hp), hsame]

/-- Where the rings are the same, so are the tails. -/
theorem State.Still.tailsAgree (h : s.Still t) (hdev : t.dev = s.dev) (hs : s.TailsAgree) : t.TailsAgree :=
  hs.of_same h.rings.nq hdev fun r q => congrArg RingView.tail (h.rings.view r q)

theorem State.TxFrame.tail_eq (h : s.TxFrame t q) (hne : r ≠ .tx ∨ p ≠ q) : t.tail r p = s.tail r p := by
  by_cases hp : p = q
  · subst hp
    cases r with
    | tx => exact absurd rfl (hne.resolve_right (absurd rfl))
    | rx => exact congrArg (·.tail.toNat) h.side.1
  · rw [State.tail, State.tail, h.others p hp]

theorem State.RxFrame.tail_eq (h : s.RxFrame t q) (hne : r ≠ .rx ∨ p ≠ q) : t.tail r p = s.tail r p := by
  by_cases hp : p = q
  · subst hp
    cases r with
    | tx => exact congrArg (·.tail.toNat) h.side.1
    | rx => exact absurd rfl (hne.resolve_right (absurd rfl))
  · rw [State.tail, State.tail, h.others p hp]

theorem State.TxServed.tailsAgree (h : s.TxServed t q) (hs : s.TailsAgree) : t.TailsAgree := by
  obtain ⟨-, -, -, hnq, -⟩ := h.frame.globals
  refine hs.of_same hnq h.dev fun r p => ?_
  rcases Ring.other_or_same .tx r q p with hne | ⟨rfl, rfl⟩
  · exact h.frame.tail_eq hne
  · exact congrArg BitVec.toNat h.tail

/-- A posted packet's tail write goes to both. -/
theorem State.PacketPosted.tailsAgree {last : Nat} {pl : List Placed} (h : s.PacketPosted q last pl t) (hs : s.TailsAgree) :
    t.TailsAgree := by
  obtain ⟨-, -, -, hnq, -⟩ := h.frame.globals
  exact hs.of_written hnq h.dev (congrArg (·.tail.toNat) h.cur) fun _ _ => h.frame.tail_eq

/-- A refill's tail write goes to both; with nothing posted neither is written. -/
theorem State.Restocked.tailsAgree {bs : List Nat} (h : s.Restocked q bs t) (hready : s.Ready) (hq : q < maxQueues)
    (hs : s.TailsAgree) : t.TailsAgree := by
  obtain ⟨-, -, -, hnq, -⟩ := h.frame.globals
  have htail : t.tail .rx q = (s.ntu .rx q + bs.length) % s.n := congrArg RingView.tail h.view
  have hdev := h.dev
  split at hdev
  next hnil =>
    refine hs.of_same hnq hdev fun r p => ?_
    rcases Ring.other_or_same .rx r q p with hne | ⟨rfl, rfl⟩
    · exact h.frame.tail_eq hne
    · obtain ⟨htr, hsync, -⟩ := hready.rings.settled .rx p hq
      rw [htail, hnil, Nat.add_zero, Nat.mod_eq_of_lt (show s.ntu .rx p < s.n from htr.ntu_lt)]
      exact hsync.symm
  next => exact hs.of_written hnq hdev (htail.trans (s.toNat_ofNat_mod_n _).symm) fun _ _ => h.frame.tail_eq

theorem State.tailsAgree_taken (hq : q < s.queues.length) (o : RxOutcome) (recs : List Scanned) (hs : s.TailsAgree) :
    (s.taken q o recs).TailsAgree := by
  refine hs.of_same rfl rfl fun r p => ?_
  rcases Ring.other_or_same .rx r q p with hne | ⟨rfl, rfl⟩
  · exact (rxFrame_taken s q o recs).tail_eq hne
  · rw [State.tail, State.queue_taken hq]
    rfl

/-! ### Work on the queues -/

/-- A command at work between tail writes: every ring is settled, and the tails agree. -/
structure State.InStep (s : State) : Prop where
  ready : s.Ready
  tails : s.TailsAgree

/-- Work goes on in step, or a fault entry has left RingsReady. -/
abbrev KeepsStep {α : Type} (x : Res α) : Prop :=
  x.Ends (fun _ t => t.InStep) (fun t => t.rstate = .faulted) (fun _ => True)

theorem State.Still.inStep (h : s.Still t) (hdev : t.dev = s.dev) (hs : s.InStep) : t.InStep :=
  ⟨h.ready hs.ready, h.tailsAgree hdev hs.tails⟩

/-- What is known to leave the rings settled is in step when it keeps the tails in agreement. -/
theorem Runs.keepsStep {α : Type} {x : Res α} (hx : Runs x State.Ready)
    (htails : x.Ends (fun _ t => t.TailsAgree) (fun t => t.rstate = .faulted) (fun _ => True)) : KeepsStep x :=
  (Res.Ends.and hx htails).mono (fun _ _ h => ⟨h.1, h.2⟩) (fun _ h => h.2) (fun _ _ => trivial)

theorem keepsStep_txPass (b : Half) (h : s.InStep) (hq : q < maxQueues) : KeepsStep (txPass q b s) := by
  refine (runs_txPass b h.ready hq).keepsStep ?_
  unfold txPass
  split
  · exact h.tails
  · refine (txLoop_ends ..).bind (fun done t ht => ?_)
    have htails := ht.tailsAgree h.tails
    show State.TailsAgree _
    split
    · exact (still_events t _).tailsAgree rfl htails
    · exact htails

/-- A scan of a settled ring only logs, and what it classifies as more than a wait is taken off the ring. -/
theorem rxScan_ends (h : s.Ready) (hq : q < maxQueues) (hne : ¬ s.ringEmpty .rx q = true) :
    (rxScan q s).Ends
      (fun scan t => (∃ es, t = { s with events := s.events ++ es }) ∧ ∀ o, o = rxClassify q scan.1 scan.2 t → o ≠ .wait →
        rxApply q o scan.2 t = .ok () (t.taken q o scan.2) ∧ (t.taken q o scan.2).Ready)
      State.FaultEntered (fun _ => True) := by
  have htr := (h.rings.settled .rx q hq).tracked
  have hcount : 0 < (s.view .rx q).count s.n :=
    Nat.pos_of_ne_zero fun h0 => hne ((s.occupancy_eq_zero_iff .rx q htr.ntu_lt htr.ntc_lt).1 h0)
  have hscan := rxScanLoop_ends (q := q) ((s.view .rx q).count s.n) [] h.running (.refl s) (by simp) rfl
  rw [List.length_nil, RingView.slotAt_zero htr.ntc_lt] at hscan
  refine (hscan.and (rxScanLoop_logs ..)).mono ?_ (fun _ he => he.1) (fun _ _ => trivial)
  rintro ⟨eop, recs⟩ _ ⟨⟨-, hrecs, hlen, heop⟩, es, rfl⟩
  refine ⟨⟨es, rfl⟩, ?_⟩
  rintro _ rfl ho
  have hpos : 1 ≤ recs.length := by
    rcases rxClassify_ne_wait ho with heop' | hall
    · exact List.length_pos_iff.2 (heop heop')
    · exact hcount.trans_eq hall.symm
  have hready := (still_events s (s.events ++ es)).ready h
  exact ⟨rxApply_eq hready hq ho hrecs hpos hlen, hready.taken hq ho hrecs hpos hlen⟩

theorem keepsStep_rxLoop (bmax fuel consumed units frames : Nat) (h : s.InStep) (hq : q < maxQueues) :
    KeepsStep (rxLoop q bmax fuel consumed units frames s) := by
  induction fuel generalizing consumed units frames s with
  | zero => exact h
  | succ fuel ih =>
    unfold rxLoop
    split
    · exact h
    next hne =>
    refine ((rxScan_ends h.ready hq hne).mono (fun _ _ => id) (fun _ he => he.faulted) (fun _ => id)).bind ?_
    rintro ⟨eop, recs⟩ _ ⟨⟨es, rfl⟩, htake⟩
    have hlogged := (still_events s (s.events ++ es)).inStep rfl h
    dsimp only
    split
    · exact hlogged
    next ho =>
    split
    · exact hlogged
    obtain ⟨happly, hready⟩ := htake _ rfl ho
    rw [happly, Res.bind_ok]
    exact ih _ _ _ ⟨hready, State.tailsAgree_taken (hlogged.ready.running.queue_lt hq) _ _ hlogged.tails⟩

theorem keepsStep_rxRefill (h : s.InStep) (hq : q < maxQueues) : KeepsStep (rxRefill q s) :=
  (rxRefill_ends h.ready hq).mono (fun _ _ ht => ⟨ht.2.ready, ht.2.tailsAgree h.ready hq h.tails⟩) (fun _ => False.elim)
    (fun _ _ => trivial)

theorem keepsStep_rxPass (b : Half) (h : s.InStep) (hq : q < maxQueues) : KeepsStep (rxPass q b s) := by
  unfold rxPass
  split
  · exact h
  · refine Res.Ends.bind (P := fun _ t => t.InStep) ?_ fun _ t ht => (keepsStep_rxRefill ht hq).bind fun _ _ => id
    split
    · exact keepsStep_rxLoop _ _ _ _ _ h hq
    · exact h

/-! ### Dispatch and TICK -/

theorem keepsStep_servePasses (c : Half) (h : s.InStep) (hq : q < maxQueues) : KeepsStep (servePasses q c s) := by
  refine Res.Ends.bind (P := fun _ t => t.InStep) ?_ fun _ t ht =>
    Res.Ends.bind (P := fun _ t => t.InStep) ?_ fun _ u hu => ?_
  · unfold serveTx
    split
    · exact (keepsStep_txPass 0 h hq).bind fun _ _ => id
    · exact h
  · unfold serveRx
    split
    · exact (keepsStep_rxPass 0 ht hq).bind fun _ _ => id
    · exact ht
  · show State.InStep (u.linkServed c)
    unfold State.linkServed
    split
    · exact (still_lstate u _).inStep rfl hu
    · exact hu

theorem keepsStep_dispatch (h : s.InStep) (hq : q < maxQueues) : KeepsStep (dispatch q s) := by
  have hclosed := (still_closeWindow s q).inStep rfl h
  by_cases hr : s.rstate = .ringsReady
  · rw [dispatch_of_ready hr]
    exact keepsStep_servePasses _ hclosed hq
  · rw [show dispatch q s = .ok () (s.closeWindow q) from if_pos hr]
    exact hclosed

theorem keepsStep_tickQueue (d : Nat) (h : s.InStep) (hq : q < maxQueues) : KeepsStep (tickQueue q d s) := by
  have hcounted : (s.setQueue q { s.queue q with cnt := (s.queue q).cnt - 1 }).InStep :=
    (still_setQueue fun r => by cases r <;> rfl).inStep rfl h
  unfold tickQueue
  dsimp only
  split
  · split
    · exact (keepsStep_dispatch hcounted hq).bind fun _ _ => id
    · exact hcounted
  · exact h

theorem keepsStep_tickLoop (qs : List Nat) (hqs : ∀ q ∈ qs, q < maxQueues) (d : Nat) (h : s.InStep) :
    KeepsStep (tickLoop qs d s) := by
  induction qs generalizing d s with
  | nil => exact h
  | cons q qs ih =>
    exact (keepsStep_tickQueue d h (hqs q List.mem_cons_self)).bind fun d t ht =>
      ih (fun p hp => hqs p (List.mem_cons_of_mem _ hp)) d ht

theorem keepsStep_tickQueues (h : s.InStep) : KeepsStep (tickLoop (List.range s.nq.toNat) 0 s) :=
  keepsStep_tickLoop _ (fun _ hq => (List.mem_range.1 hq).trans_le h.ready.running.nq) 0 h

/-! ### Activation -/

/-- The rings of idle queues are programmed with tail zero, as the block's copies are (44_control.md R411). -/
theorem State.tailsAgree_programmed (hidle : ∀ q < s.nq.toNat, ∀ r, s.tail r q = 0) (hhas : ∀ q < s.nq.toNat, s.dev.Has q) :
    s.programmed.TailsAgree := by
  have hprog := dev_programQueues (List.range s.nq.toNat) s fun q hq => hhas q (List.mem_range.1 hq)
  have hsame := s.sameButDevice_programmed
  obtain ⟨-, -, -, hnq, -⟩ := hsame.sameGlobals
  refine ⟨fun q hq => ?_, fun q hq r => ?_⟩ <;> rw [hnq] at hq <;> rw [State.dev_programmed]
  · exact (hprog.has q).2 (hhas q hq)
  · have hring := hprog.ring r q
    rw [if_pos (List.mem_range.2 hq)] at hring
    rw [State.tail, hsame.queue_eq, ← State.tail, hidle q hq r]
    show (((programQueues (List.range s.nq.toNat) s).dev.ring r q).tail).toNat = 0
    rw [hring]
    rfl

theorem keepsStep_activate (h : s.Ready) (hidle : ∀ q < s.nq.toNat, ∀ r, s.tail r q = 0)
    (hhas : ∀ q < s.nq.toNat, s.dev.Has q) : KeepsStep (activate s) := by
  have hstill : s.Still s.programmed :=
    ((still_programQueues _ s).trans (still_regWrite _ _ _)).trans (still_regWrite _ _ _)
  have hprog : s.programmed.InStep := ⟨hstill.ready h, State.tailsAgree_programmed hidle hhas⟩
  refine Res.Ends.bind (forEach_ends (I := State.InStep) _ (fun q hq u hu => ?_) _ hprog) fun _ t ht => ?_
  · exact (keepsStep_rxRefill hu ((List.mem_range.1 hq).trans_le h.running.nq)).bind fun _ _ => id
  · exact ⟨(still_lstate _ 0x20).ready ht.ready.setRState_ringsReady, ht.tails.of_same rfl rfl fun _ _ => rfl⟩

end Sys2Proof.Machine
end

section
/-! Every command and every step keeps the device's tail registers equal to the block's (48_device_agent.md R522, 10_state.md R41). -/

namespace Sys2Proof.Machine

variable {s t : State} {r : Ring}

/-- In RingsReady the tails agree. -/
def State.Synced (s : State) : Prop := s.rstate = .ringsReady → s.TailsAgree

/-- A command that goes on ends with the tails in agreement, where it ends in RingsReady. -/
def EndsSynced (o : Host.Outcome State Fault Refusal) : Prop := ∀ t, o = .next t → t.Synced

/-! ### How a command may end -/

theorem State.Still.synced (h : s.Still t) (hdev : t.dev = s.dev) (hs : s.Synced) : t.Synced := fun hr =>
  h.tailsAgree hdev (hs (h.rings.rstate.symm.trans hr))

theorem State.Synced.of_same (hs : s.Synced) (hr : t.rstate = s.rstate) (hnq : t.nq = s.nq) (hdev : t.dev = s.dev)
    (htail : ∀ r q, t.tail r q = s.tail r q) : t.Synced := fun ht => (hs (hr.symm.trans ht)).of_same hnq hdev htail

theorem State.synced_of_not_ready (h : s.rstate ≠ .ringsReady) : s.Synced := fun hr => absurd hr h

theorem endsSynced_next (h : t.Synced) : EndsSynced (.next t) := fun u hu => by
  cases hu
  exact h

theorem endsSynced_answer (h : s.Synced) (st : Status) (v : Word) : EndsSynced (answer s st v) :=
  endsSynced_next ((still_respond s st v).synced rfl h)

theorem endsSynced_perQueue {q : BitVec 7} {k : Host.Outcome State Fault Refusal} (h : s.Synced) (hk : EndsSynced k) :
    EndsSynced (perQueue q s k) := by
  unfold perQueue
  split
  · exact hk
  · exact endsSynced_answer h _ _

theorem KeepsStep.endsSynced {x : Res (Status × Word)} (h : KeepsStep x) : EndsSynced x.answer := by
  cases x with
  | ok a t =>
    have h : t.InStep := h
    exact endsSynced_answer (fun _ => h.tails) a.1 a.2
  | ended t =>
    have h : t.rstate = .faulted := h
    exact endsSynced_next (State.synced_of_not_ready (by rw [h]; decide))
  | stuck f => exact fun _ ht => nomatch ht

theorem State.Inv.inStep (h : s.Inv) (hs : s.Synced) (hr : s.rstate = .ringsReady) : s.InStep := ⟨h.ready_of_live hr, hs hr⟩

/-! ### INIT, STOP, POLL_LINK, TICK -/

theorem endsSynced_execInit {nqLess1 : BitVec 7} {logn : BitVec 4} {base : Addr} {size : Word} (hs : s.Synced) :
    EndsSynced (execInit nqLess1 logn base size s) := by
  unfold execInit
  dsimp only
  iterate 3
    split
    · exact endsSynced_answer hs _ _
  exact endsSynced_answer (State.synced_of_not_ready (by simp [State.initialised])) _ _

theorem endsSynced_execStop : EndsSynced (execStop s) := fun t ht => by
  obtain ⟨hend, -⟩ := execStop_ends ht
  refine State.synced_of_not_ready fun hr => ?_
  simp [hr] at hend

theorem endsSynced_execPollLink {link speed : BitVec 2} {fd : BitVec 1} (hs : s.Synced) :
    EndsSynced (execPollLink link speed fd s) := by
  have hset : ∀ l, s.Still (s.setLState l) := still_lstate s
  unfold execPollLink
  dsimp only
  iterate 2
    split
    · exact endsSynced_answer hs _ _
  split
  · exact endsSynced_next ((((hset _).trans (still_events _ _)).trans (still_respond _ _ _)).synced rfl hs)
  · exact endsSynced_next (((hset _).trans (still_respond _ _ _)).synced rfl hs)

theorem State.tail_of_idle {n m q : Nat} (h : (s.queue q).Idle n m) (r : Ring) : s.tail r q = 0 := by
  rw [State.tail, h]
  cases r <;> rfl

/-- The poll that finds the reset acknowledged activates idle rings. -/
theorem keepsStep_activate_polled (h : s.Inv) (hr : s.rstate = .resetting) : KeepsStep (activate s.polled) := by
  have hstill : s.Still s.polled := ⟨sameRings_of_queues rfl rfl rfl rfl rfl rfl, rfl⟩
  have hc := h.config.configured
  obtain ⟨-, -, -, -, hmax, -⟩ := h.config.sized
  refine keepsStep_activate (hstill.ready (h.ready (by rw [hr]; decide) (by rw [hr]; decide))) (fun q hq r => ?_) fun q hq => ?_
  · exact State.tail_of_idle ((h.config.quiet.1 (by rw [hr]; decide)).2 _ (hc.queue_mem hq)) r
  · exact h.config.sized.has (Nat.lt_of_lt_of_le hq hmax)

theorem endsSynced_execTick (h : s.Inv) (hs : s.Synced) : EndsSynced (execTick s) := by
  by_cases hreset : s.rstate = .resetting
  · cases hd : s.dev.resetting with
    | false =>
      rw [execTick_of_acknowledged hreset hd]
      refine KeepsStep.endsSynced ((keepsStep_activate_polled h hreset).bind fun _ t ht =>
        Res.Ends.bind (P := fun _ t => t.InStep) ?_ fun _ _ => id)
      split
      · exact keepsStep_tickQueues ht
      · exact ht
    | true =>
      rcases Nat.lt_or_ge (s.resetPolls + 1).toNat s.params.resetPollLimit with hleft | hspent
      · rw [execTick_of_waiting hreset hd hleft]
        exact endsSynced_answer (State.synced_of_not_ready (by rw [State.polled_eq, hreset]; decide)) _ _
      · rw [execTick_of_timeout hreset hd hspent]
        exact endsSynced_next (State.synced_of_not_ready (by simp [State.faultAnswer]))
  by_cases hready : s.rstate = .ringsReady
  · rw [execTick_of_ready hready]
    exact KeepsStep.endsSynced ((keepsStep_tickQueues (h.inStep hs hready)).bind fun _ _ => id)
  · rw [execTick_of_idle hready hreset]
    exact endsSynced_answer hs _ _

/-! ### The commands of one queue -/

section

variable {q : BitVec 7}

theorem endsSynced_execEnqueue {frags : List Frag} (h : s.Inv) (hs : s.Synced) : EndsSynced (execEnqueue q frags s) := by
  intro t ht
  rcases execEnqueue_accepts_or_refuses ht with ha | ⟨st, -, rfl⟩
  · obtain ⟨x, hx, hends⟩ := exec_enqueue_ends h ha
    have hends : x.Ends (fun a t => (t.respond a.1 a.2).TailsAgree) (fun _ => False) (fun _ => True) :=
      hends.mono (fun a u hu => (still_respond u a.1 a.2).tailsAgree rfl (hu.2.tailsAgree (hs ha.live.2))) (fun _ => id)
        (fun _ _ => trivial)
    rcases Res.answer_eq_next.1 (hx.symm.trans ht) with ⟨a, u, hu, rfl⟩ | hu <;> rw [hu] at hends
    · exact fun _ => hends
    · exact hends.elim
  · exact (still_respond s st 0).synced rfl hs

theorem endsSynced_execServiceTx {b : Half} (h : s.Inv) (hs : s.Synced) : EndsSynced (execServiceTx q b s) := by
  refine endsSynced_perQueue hs ?_
  by_cases hr : s.rstate = .ringsReady
  · exact KeepsStep.endsSynced ((keepsStep_txPass b (h.inStep hs hr) q.isLt).bind fun _ _ => id)
  · rw [txPass_of_not_ready hr]
    exact endsSynced_answer hs _ _

theorem endsSynced_execServiceRx {b : Half} (h : s.Inv) (hs : s.Synced) : EndsSynced (execServiceRx q b s) := by
  refine endsSynced_perQueue hs ?_
  by_cases hr : s.rstate = .ringsReady
  · exact KeepsStep.endsSynced ((keepsStep_rxPass b (h.inStep hs hr) q.isLt).bind fun _ _ => id)
  · rw [rxPass_of_not_ready hr]
    exact endsSynced_answer hs _ _

theorem endsSynced_execRefill (h : s.Inv) (hs : s.Synced) : EndsSynced (execRefill q s) := by
  refine endsSynced_perQueue hs ?_
  split
  · exact endsSynced_answer hs _ _
  next hr => exact KeepsStep.endsSynced ((keepsStep_rxRefill (h.inStep hs (not_not.1 hr)) q.isLt).bind fun _ _ => id)

theorem State.tail_setTag (s : State) (r r' : Ring) (q p b : Nat) (g : Tag) : (s.setTag r q b g).tail r' p = s.tail r' p := by
  rw [State.tail, State.tail, State.setTag, State.queue_setQueue]
  split
  next hp =>
    obtain ⟨rfl, -⟩ := hp
    cases r <;> cases r' <;> rfl
  next => rfl

theorem endsSynced_execRelease {index : Half} (hs : s.Synced) : EndsSynced (execRelease r q index s) := by
  refine endsSynced_perQueue hs ?_
  split
  · exact endsSynced_answer hs _ _
  split
  · exact endsSynced_answer hs _ _
  next t ht =>
  obtain ⟨-, rfl⟩ := poolRelease_eq_some.1 ht
  have hfreed : (s.setTag r q.toNat index.toNat .free).Synced := hs.of_same rfl rfl rfl fun r' p => s.tail_setTag r r' _ p _ _
  exact endsSynced_answer hfreed _ _

theorem endsSynced_execIrq {c : Half} (h : s.Inv) (hs : s.Synced) : EndsSynced (execIrq q c s) := by
  refine endsSynced_perQueue hs ?_
  split
  · exact endsSynced_next (State.synced_of_not_ready (by simp [State.faultAnswer]))
  split
  · exact endsSynced_answer hs _ _
  next hr =>
  dsimp only
  split
  · exact endsSynced_answer hs _ _
  have hacc := still_accumulate s q.toNat (c &&& causeMask)
  split
  · exact KeepsStep.endsSynced ((keepsStep_dispatch (hacc.inStep rfl (h.inStep hs (not_not.1 hr))) q.isLt).bind fun _ _ => id)
  · refine endsSynced_answer ((hacc.trans (still_openWindow _ _)).synced ?_ hs) _ _
    unfold State.openWindow
    dsimp only
    split <;> rfl

theorem endsSynced_execSetItr {w : Half} (hs : s.Synced) : EndsSynced (execSetItr q w s) :=
  endsSynced_perQueue hs (endsSynced_answer ((still_setQueue fun r => by cases r <;> rfl).synced rfl hs) _ _)

theorem endsSynced_execReadReg {index : Half} (hs : s.Synced) : EndsSynced (execReadReg q index s) := by
  unfold execReadReg
  split
  · split <;> exact endsSynced_answer hs _ _
  split
  · exact endsSynced_perQueue hs (endsSynced_answer hs _ _)
  · exact endsSynced_answer hs _ _

end

/-! ### Every command and every step -/

theorem endsSynced_exec (i : Instr) (h : s.Inv) (hs : s.Synced) : EndsSynced (exec i s) := by
  cases i with
  | init nqLess1 logn base size => exact endsSynced_execInit hs
  | stop => exact endsSynced_execStop
  | enqueue q frags => exact endsSynced_execEnqueue h hs
  | serviceTx q b => exact endsSynced_execServiceTx h hs
  | serviceRx q b => exact endsSynced_execServiceRx h hs
  | refill q => exact endsSynced_execRefill h hs
  | release r q index => exact endsSynced_execRelease hs
  | irq q c => exact endsSynced_execIrq h hs
  | pollLink link speed fd => exact endsSynced_execPollLink hs
  | tick => exact endsSynced_execTick h hs
  | setItr q w => exact endsSynced_execSetItr hs
  | isEmpty r q => exact endsSynced_perQueue hs (endsSynced_answer hs _ _)
  | isFull r q => exact endsSynced_perQueue hs (endsSynced_answer hs _ _)
  | capacity r q => exact endsSynced_perQueue hs (endsSynced_answer hs _ _)
  | occupancy r q => exact endsSynced_perQueue hs (endsSynced_answer hs _ _)
  | readReg q index => exact endsSynced_execReadReg hs
  | poolTag r q index =>
    refine endsSynced_perQueue hs ?_
    split <;> exact endsSynced_answer hs _ _

theorem State.MovesTo.synced (h : s.MovesTo t) (hs : s.Synced) : t.Synced := by
  have hring := h.ring_eq
  cases h with
  | idle => exact hs
  | resetDone => exact fun hr => ⟨(hs hr).has, fun q hq r => (congrArg BitVec.toNat (hring r q).1).trans ((hs hr).tail q hq r)⟩
  | complete =>
    exact fun hr => ⟨fun q hq => Device.has_setRing.2 ((hs hr).has q hq),
      fun q hq r => (congrArg BitVec.toNat (hring r q).1).trans ((hs hr).tail q hq r)⟩

theorem synced_hostWrite (addr : Addr) (bytes : List Byte) (hs : s.Synced) : (hostWrite addr bytes s).Synced := by
  unfold hostWrite
  split
  · exact hs.of_same rfl rfl rfl fun _ _ => rfl
  · exact hs

theorem endsSynced_step (h : s.Inv) (hs : s.Synced) : EndsSynced (step s) := by
  intro t ht
  have hrest : ∀ rest, (s.withInputs rest).Synced := fun rest => hs.of_same rfl rfl rfl fun _ _ => rfl
  obtain ⟨-, ⟨-, rfl⟩ | ⟨w, args, rest, i, -, -, ht⟩ | ⟨w, args, rest, e, -, -, rfl⟩ | ⟨m, rest, -, ht⟩ |
    ⟨addr, bytes, rest, -, rfl⟩⟩ := step_cases ht
  · exact hs
  · exact endsSynced_exec i (h.withInputs rest) (hrest rest) t ht
  · exact endsSynced_answer (hrest rest) _ _ _ rfl
  · exact (movesTo_of_moveOutcome ht).synced (hrest rest)
  · exact synced_hostWrite addr bytes (hrest rest)

/-- Settles O60: a tail write goes to the device and to the block's copy, nothing else writes either but an activation, which programs
both with zero; and the cursor invariant has TAIL = NTU. -/
theorem deviceTailAgreesWithBlock : Obligations.DeviceTailAgreesWithBlock := by
  intro s t h ht hsync hr q hq r
  have hinv := ringAndPoolInvariantKept s t h ht
  obtain ⟨-, -, -, -, hmax, -⟩ := h.config.sized
  have hs : s.Synced := fun hr =>
    ⟨fun q hq => h.config.sized.has (hq.trans_le hmax), fun q hq r => congrArg BitVec.toNat (hsync hr q hq r)⟩
  obtain ⟨htx, hrx⟩ := hinv.cursors _ (hinv.config.configured.queue_mem hq)
  refine ⟨BitVec.eq_of_toNat_eq ((endsSynced_step h hs t ht hr).tail q hq r), ?_⟩
  cases r with
  | tx => exact htx.2.2
  | rx => exact hrx.2.2

end Sys2Proof.Machine
end

section
/-! What a command of one queue does, said once for every relation that the ring and pool operations of the queue keep. -/

namespace Sys2Proof.Machine

/-- The queue of a command that runs only ring and pool operations of that queue, or only answers: every command that names a
queue but IRQ and SET_ITR, which write moderation registers. -/
def ringQueueOf : Instr → Option (BitVec 7)
  | .init _ _ _ _ | .stop | .pollLink _ _ _ | .tick | .irq _ _ | .setItr _ _ => none
  | .enqueue q _ | .serviceTx q _ | .serviceRx q _ | .refill q | .release _ q _ | .isEmpty _ q | .isFull _ q | .capacity _ q
  | .occupancy _ q | .readReg q _ | .poolTag _ q _ => some q

/-- A command ended in a related state, or by fault entry from a related state. -/
def EndsKept (R : State → State → Prop) (s t : State) : Prop := R s t ∨ ∃ u r, R s u ∧ t = u.faultAnswer r

variable {R : State → State → Prop} {s t : State}

theorem KeptBy.shapeKeptBy {q : Nat} (K : KeptBy q R) : ShapeKeptBy q R :=
  ⟨K.refl, K.trans, K.emit, fun s x _ => K.setQueue s x, K.store, K.drain, K.regWrite⟩

/-- The passes of a dispatch are operations of its queue, but for LCP (60_exceptions.md R575). -/
theorem ShapeKeptBy.servePasses {q : Nat} (K : ShapeKeptBy q R) (hlstate : ∀ s l, R s (s.setLState l)) (c : Half) (s : State) :
    Keeps R s (servePasses q c s) := by
  refine K.bind (?_ : Keeps R s (serveTx q c s)) fun _ t => K.bind (?_ : Keeps R t (serveRx q c t)) fun _ u => ?_
  · unfold serveTx
    split
    · exact K.bind (K.txPass 0 s) fun _ t => K.refl t
    · exact K.refl s
  · unfold serveRx
    split
    · exact K.bind (K.rxPass 0 t) fun _ u => K.refl u
    · exact K.refl t
  · show R u (u.linkServed c)
    unfold State.linkServed
    split
    · exact hlstate u _
    · exact K.refl u

theorem endsKept_perQueue {q : BitVec 7} {k : Host.Outcome State Fault Refusal} (hrespond : ∀ s st v, R s (s.respond st v))
    (hk : k = .next t → EndsKept R s t) (ht : perQueue q s k = .next t) : EndsKept R s t := by
  obtain ⟨-, ht⟩ | ⟨-, rfl⟩ := perQueue_eq_next ht
  · exact hk ht
  · exact .inl (hrespond s _ _)

section

variable {q : BitVec 7} (K : ShapeKeptBy q.toNat R) (hrespond : ∀ s st v, R s (s.respond st v))

include K hrespond

theorem Keeps.endsKept {x : Res (Status × Word)} (hx : Keeps R s x) (ht : x.answer = .next t) : EndsKept R s t := by
  obtain ⟨a, u, rfl, rfl⟩ | rfl := Res.answer_eq_next.1 ht
  · exact .inl (K.trans hx (hrespond u _ _))
  · exact .inr hx

theorem endsKept_answer {u : State} {st : Status} {v : Word} (hu : R s u) (ht : answer u st v = .next t) : EndsKept R s t := by
  rw [answer_eq_next.1 ht]
  exact .inl (K.trans hu (hrespond u _ _))

theorem endsKept_ringCommand {i : Instr} (hi : ringQueueOf i = some q) (ht : exec i s = .next t) : EndsKept R s t := by
  have refused : ∀ {st : Status} {v : Word}, answer s st v = .next t → EndsKept R s t :=
    endsKept_answer K hrespond (K.refl s)
  cases i <;> cases hi
  case enqueue frags =>
    refine endsKept_perQueue hrespond (fun ht => ?_) ht
    dsimp only at ht
    iterate 5
      split at ht
      · exact refused ht
    refine Keeps.endsKept K hrespond ?_ ht
    exact K.bind (K.readFrags frags s) fun _ u => K.bind (K.stagePieces _ _ u) fun _ v => K.ringTailSync .tx v
  case serviceTx b =>
    refine endsKept_perQueue hrespond (Keeps.endsKept K hrespond ?_) ht
    exact K.bind (K.txPass b s) fun _ u => K.refl u
  case serviceRx b =>
    refine endsKept_perQueue hrespond (Keeps.endsKept K hrespond ?_) ht
    exact K.bind (K.rxPass b s) fun _ u => K.refl u
  case refill =>
    refine endsKept_perQueue hrespond (fun ht => ?_) ht
    split at ht
    · exact refused ht
    · refine Keeps.endsKept K hrespond ?_ ht
      exact K.bind (K.rxRefill s) fun _ u => K.refl u
  case release r index =>
    refine endsKept_perQueue hrespond (fun ht => ?_) ht
    split at ht
    · exact refused ht
    split at ht
    · exact refused ht
    next u hu =>
    rw [(poolRelease_eq_some.1 hu).2] at ht
    exact endsKept_answer K hrespond (K.setTag s r _ .free) ht
  case isEmpty | isFull | capacity | occupancy => exact endsKept_perQueue hrespond refused ht
  case readReg index =>
    simp only [exec, execReadReg] at ht
    split at ht
    · split at ht
      · exact refused ht
      · exact refused ht
    split at ht
    · exact endsKept_perQueue hrespond refused ht
    · exact refused ht
  case poolTag r index =>
    refine endsKept_perQueue hrespond (fun ht => ?_) ht
    split at ht
    · exact refused ht
    · exact refused ht

end

/-! ### IRQ -/

/-- An IRQ writes its own queue and LSTATE, or enters a fault (45_irq.md R450). -/
theorem endsKept_irq {q : BitVec 7} (K : KeptBy q.toNat R) (hrespond : ∀ s st v, R s (s.respond st v))
    (hlstate : ∀ s l, R s (s.setLState l)) {c : Half} (ht : execIrq q c s = .next t) : EndsKept R s t := by
  have S := K.shapeKeptBy
  refine endsKept_perQueue hrespond (fun ht => ?_) ht
  split at ht
  · cases ht
    exact .inr ⟨s, _, K.refl s, rfl⟩
  split at ht
  · exact endsKept_answer S hrespond (K.refl s) ht
  next hr =>
  dsimp only at ht
  split at ht
  · exact endsKept_answer S hrespond (K.refl s) ht
  have hacc : R s (s.accumulate q.toNat (c &&& causeMask)) := K.setQueue s _
  split at ht
  · have hready : (s.accumulate q.toNat (c &&& causeMask)).rstate = .ringsReady := not_not.1 hr
    rw [dispatch_of_ready hready] at ht
    refine Keeps.endsKept S hrespond (K.lift hacc ?_) ht
    exact K.lift (K.setQueue _ _) (S.bind (S.servePasses hlstate _ _) fun _ u => K.refl u)
  · refine endsKept_answer S hrespond (K.trans hacc ?_) ht
    unfold State.openWindow
    dsimp only
    split
    · exact K.refl _
    · exact K.setQueue _ _

end Sys2Proof.Machine
end

section
/-! IRQ with ITR = 0: the dispatch as commands (60_exceptions.md R575, R576). -/

namespace Sys2Proof.Machine

/-- Settles O18: the IRQ closes the window and serves the merged causes, and serving them by passes is serving them by commands,
since no pass reads the response that the commands leave. -/
theorem dispatchIsTheServicePass : Obligations.DispatchIsTheServicePass := by
  intro q c s hlive hlen hparity hc hitr
  have hserve := performs_serveCauses (s := s.closeWindow q.toNat) hlive.1 hlive.2 ((s.queue q.toNat).acc ||| (c &&& causeMask))
  have hanswer : IgnoresResponse (Res.ok (Status.ok, (1 : Word))) := .ok _
  refine (execIrq_of_unmoderated hlive hparity hc hlen hitr).trans ?_
  exact (hserve.answer hlive.2 (keepsLive_servePasses _ _ _) hanswer fun _ _ => rfl).symm

end Sys2Proof.Machine
end

section
/-! The queues a per-queue command leaves alone (60_exceptions.md R583). -/

namespace Sys2Proof.Machine

/-- RSTATE and every queue but q are the same. -/
def State.SameBut (q : Nat) (s t : State) : Prop := t.rstate = s.rstate ∧ s.SameOtherQueues t q

theorem sameBut_keptBy (q : Nat) : KeptBy q (State.SameBut q) where
  refl _ := ⟨rfl, fun _ _ => rfl⟩
  trans h h' := ⟨h'.1.trans h.1, fun p hp => (h'.2 p hp).trans (h.2 p hp)⟩
  emit _ _ := ⟨rfl, fun _ _ => rfl⟩
  setQueue s x := ⟨rfl, fun p hp => s.queue_setQueue_ne q p x hp⟩
  store _ _ _ := ⟨rfl, fun _ _ => rfl⟩
  drain _ := ⟨rfl, fun _ _ => rfl⟩
  dev _ _ := ⟨rfl, fun _ _ => rfl⟩

/-- A per-queue command changes its own queue only, or enters a fault. -/
theorem exec_sameBut {i : Instr} {q : BitVec 7} {s t : State} (hi : perQueueOf i = some q) (ht : exec i s = .next t) :
    EndsKept (State.SameBut q.toNat) s t := by
  have K := sameBut_keptBy q.toNat
  have hrespond : ∀ (s : State) st v, s.SameBut q.toNat (s.respond st v) := fun _ _ _ => ⟨rfl, fun _ _ => rfl⟩
  cases i with
  | irq p c =>
    cases hi
    exact endsKept_irq K hrespond (fun _ _ => ⟨rfl, fun _ _ => rfl⟩) ht
  | setItr p w =>
    cases hi
    exact endsKept_perQueue hrespond (endsKept_answer K.shapeKeptBy hrespond (K.setQueue s _)) ht
  | readReg p index =>
    have hp : ringQueueOf (.readReg p index) = some q := (Option.ite_none_right_eq_some.1 hi).2
    exact endsKept_ringCommand K.shapeKeptBy hrespond hp ht
  | _ =>
    refine endsKept_ringCommand K.shapeKeptBy hrespond ?_ ht
    exact hi

/-- Settles O59: a fault that leaves RSTATE as it was was entered in Faulted, where fault entry does nothing. -/
theorem commandsTouchOnlyTheirQueue : Obligations.CommandsTouchOnlyTheirQueue := by
  intro i q s t p hi ht hr hp
  obtain ⟨-, hsame⟩ | ⟨u, r, ⟨hu, hsame⟩, rfl⟩ := exec_sameBut hi ht
  · exact hsame p hp
  · have hfaulted : u.rstate = .faulted := hu.trans (hr.symm.trans (u.enterFault_rstate r))
    rw [State.faultAnswer, State.enterFault_of_faulted u r hfaulted]
    exact hsame p hp

end Sys2Proof.Machine
end

section
/-! The moderation windows (60_exceptions.md R570): a window is open exactly while its count is not zero. A dispatch closes its
window before its passes run, and the passes keep every moderation register. -/

namespace Sys2Proof.Machine

variable {s t : State} {q : Nat}

/-! ### One queue -/

/-- The window of a queue is open exactly while its count is not zero, and has causes only while open. -/
def Queue.WindowOk (x : Queue) : Prop := (x.armed = true → x.cnt ≠ 0) ∧ (x.armed = false → x.cnt = 0 ∧ x.acc = 0)

theorem Queue.windowOk_of_closed {x : Queue} (harmed : x.armed = false) (hcnt : x.cnt = 0) (hacc : x.acc = 0) : x.WindowOk :=
  ⟨fun h => absurd (harmed.symm.trans h) Bool.false_ne_true, fun _ => ⟨hcnt, hacc⟩⟩

theorem Queue.windowOk_of_open {x : Queue} (harmed : x.armed = true) (hcnt : x.cnt ≠ 0) : x.WindowOk :=
  ⟨fun _ => hcnt, fun h => absurd (h.symm.trans harmed) Bool.false_ne_true⟩

theorem Queue.WindowOk.of_shape {x y : Queue} (hx : x.WindowOk) (h : y.shape = x.shape) : y.WindowOk := by
  simp only [Queue.shape, Prod.mk.injEq] at h
  obtain ⟨-, -, hcnt, harmed, hacc⟩ := h
  rwa [Queue.WindowOk, hcnt, harmed, hacc]

/-! ### Every queue -/

theorem State.WindowsOk.queue (h : s.WindowsOk) (q : Nat) : (s.queue q).WindowOk := by
  by_cases hq : q < s.queues.length
  · exact h _ (State.queue_mem_of_lt hq)
  · rw [State.queue, List.getD_eq_default _ _ (Nat.le_of_not_lt hq)]
    exact Queue.windowOk_of_closed rfl rfl rfl

theorem State.windowsOk_of_queue (h : ∀ q, (s.queue q).WindowOk) : s.WindowsOk := by
  intro x hx
  obtain ⟨q, hq, rfl⟩ := List.getElem_of_mem hx
  have hget : s.queue q = s.queues[q] := List.getD_eq_getElem _ _ hq
  exact hget ▸ h q

theorem State.WindowsOk.setQueue (h : s.WindowsOk) {x : Queue} (hx : x.WindowOk) : (s.setQueue q x).WindowsOk := by
  intro y hy
  obtain hy | rfl := List.mem_or_eq_of_mem_set hy
  · exact h y hy
  · exact hx

theorem State.WindowsOk.closeWindow (h : s.WindowsOk) (q : Nat) : (s.closeWindow q).WindowsOk :=
  h.setQueue (Queue.windowOk_of_closed rfl rfl rfl)

theorem State.WindowsOk.of_shapes (h : s.WindowsOk) (ht : ∀ p, (t.queue p).shape = (s.queue p).shape) : t.WindowsOk :=
  State.windowsOk_of_queue fun p => (h.queue p).of_shape (ht p)

/-- Outside RingsReady every queue is idle, and an idle queue has its window closed. -/
theorem State.ConfigInv.windowsOk_of_not_ready (h : s.ConfigInv) (hr : s.rstate ≠ .ringsReady) : s.WindowsOk := by
  intro x hx
  rw [(h.quiet.1 hr).2 x hx]
  exact Queue.windowOk_of_closed rfl rfl rfl

/-! ### Work in RingsReady -/

/-- The windows are as they must be where a command ends in RingsReady; elsewhere the configuration invariant says it. -/
def State.LiveWindowsOk (s : State) : Prop := s.rstate = .ringsReady → s.WindowsOk

theorem State.liveWindowsOk_faultAnswer (s : State) (r : Reason) : (s.faultAnswer r).LiveWindowsOk := fun hr =>
  RState.noConfusion ((s.enterFault_rstate r).symm.trans hr)

/-- Work goes on in RingsReady with every window as it must be, or a fault entry has ended it. -/
abbrev KeepsWindows {α : Type} (x : Res α) : Prop :=
  x.Ends (fun _ t => t.rstate = .ringsReady ∧ t.WindowsOk) State.LiveWindowsOk (fun _ => True)

/-- A dispatch closes the window, and its passes keep every moderation register (60_exceptions.md R575). -/
theorem keepsWindows_dispatch (hr : s.rstate = .ringsReady) (h : s.WindowsOk) (q : Nat) (c : Half) :
    KeepsWindows (servePasses q c (s.closeWindow q)) := by
  have hshapes := (sameShapes_shapeKeptBy q).servePasses (fun _ _ => ⟨⟨rfl, rfl⟩, fun _ => rfl⟩) c (s.closeWindow q)
  refine hshapes.mono (fun _ t ⟨hphase, hshape⟩ => ⟨hphase.1.trans hr, (h.closeWindow q).of_shapes hshape⟩) ?_ fun _ => id
  rintro t ⟨u, r, -, rfl⟩
  exact u.liveWindowsOk_faultAnswer r

/-- A window that reaches zero is closed and dispatched; any other goes on counting (45_irq.md R470). -/
theorem keepsWindows_tickQueue (hr : s.rstate = .ringsReady) (h : s.WindowsOk) (d : Nat) : KeepsWindows (tickQueue q d s) := by
  by_cases hclosed : (s.queue q).armed = false
  · rw [tickQueue_of_closed hclosed]
    exact ⟨hr, h⟩
  have hopen : (s.queue q).armed = true := by simpa using hclosed
  by_cases hlast : (s.queue q).cnt = 1
  · rw [tickQueue_of_closing hr hopen hlast]
    exact (keepsWindows_dispatch hr h q _).bind fun _ _ => id
  · rw [tickQueue_of_counting hopen hlast]
    have hleft : (s.queue q).cnt - 1 ≠ 0 := fun h => hlast (by bv_omega)
    exact ⟨hr, h.setQueue (Queue.windowOk_of_open hopen hleft)⟩

theorem keepsWindows_tickLoop (qs : List Nat) (hr : s.rstate = .ringsReady) (h : s.WindowsOk) (d : Nat) :
    KeepsWindows (tickLoop qs d s) := by
  induction qs generalizing d s with
  | nil => exact ⟨hr, h⟩
  | cons q qs ih => exact (keepsWindows_tickQueue hr h d).bind fun d t ⟨hrt, ht⟩ => ih hrt ht d

/-! ### The commands -/

/-- An answer writes no window. -/
theorem liveWindowsOk_of_answer {u : State} {st : Status} {v : Word} (h : s.WindowsOk) (ht : answer u st v = .next t)
    (hu : u.queues = s.queues) : t.LiveWindowsOk := by
  rw [answer_eq_next.1 ht]
  intro _ x hx
  exact h x (hu ▸ hx)

theorem liveWindowsOk_of_res {x : Res (Status × Word)}
    (hx : x.Ends (fun _ t => t.LiveWindowsOk) State.LiveWindowsOk (fun _ => True)) (ht : x.answer = .next t) :
    t.LiveWindowsOk := by
  obtain ⟨a, u, rfl, rfl⟩ | rfl := Res.answer_eq_next.1 ht
  · exact hx
  · exact hx

theorem liveWindowsOk_execInit {nqLess1 : BitVec 7} {logn : BitVec 4} {base : Addr} {size : Word} (h : s.WindowsOk)
    (ht : execInit nqLess1 logn base size s = .next t) : t.LiveWindowsOk := by
  unfold execInit at ht
  dsimp only at ht
  iterate 3
    split at ht
    · exact liveWindowsOk_of_answer h ht rfl
  rw [answer_eq_next.1 ht]
  exact nofun

theorem liveWindowsOk_execStop (h : s.WindowsOk) (ht : execStop s = .next t) : t.LiveWindowsOk := by
  unfold execStop at ht
  split at ht
  case h_1 | h_2 | h_3 => exact liveWindowsOk_of_answer h ht rfl
  case h_4 | h_5 =>
    rw [answer_eq_next.1 ht]
    exact nofun

theorem liveWindowsOk_execPollLink {link speed : BitVec 2} {fd : BitVec 1} (h : s.WindowsOk)
    (ht : execPollLink link speed fd s = .next t) : t.LiveWindowsOk := by
  unfold execPollLink at ht
  dsimp only at ht
  iterate 3
    split at ht
    · exact liveWindowsOk_of_answer h ht rfl
  exact liveWindowsOk_of_answer h ht rfl

/-- A poll that activates the rings opens no window; one that waits stays outside RingsReady (44_control.md R410, R411). -/
theorem liveWindowsOk_resetPoll (h : s.WindowsOk) (hr : s.rstate = .resetting) :
    (resetPoll s).Ends (fun _ t => t.LiveWindowsOk) State.LiveWindowsOk (fun _ => True) := by
  refine (resetPoll_phase hr).mono (fun _ t ht => ?_) (fun t ⟨_, hf, _⟩ hready => ?_) fun _ => id
  · obtain ⟨hwaits, -⟩ | ⟨-, -, -, hshape⟩ := ht
    · exact fun hready => RState.noConfusion (hr.symm.trans (hwaits.symm.trans hready))
    · exact fun _ => h.of_shapes hshape
  · exact RState.noConfusion (hf.symm.trans hready)

theorem liveWindowsOk_execTick (h : s.WindowsOk) (ht : execTick s = .next t) : t.LiveWindowsOk := by
  refine liveWindowsOk_of_res ?_ ht
  refine Res.Ends.bind (P := fun _ u => u.LiveWindowsOk) ?_ fun _ u hu =>
    Res.Ends.bind (P := fun _ v => v.LiveWindowsOk) ?_ fun _ _ => id
  · split
    · next hr => exact liveWindowsOk_resetPoll h hr
    · exact fun _ => h
  · split
    · next hr => exact (keepsWindows_tickLoop _ hr (hu hr) 0).mono (fun _ _ hv _ => hv.2) (fun _ => id) fun _ => id
    · exact hu

/-- An IRQ dispatches at once where ITR = 0, and else leaves its window open with the count it had or with ITR (45_irq.md R450). -/
theorem liveWindowsOk_execIrq {p : BitVec 7} {c : Half} (hlen : p.toNat < s.queues.length) (h : s.WindowsOk)
    (ht : execIrq p c s = .next t) : t.LiveWindowsOk := by
  obtain ⟨-, ht⟩ | ⟨-, rfl⟩ := perQueue_eq_next ht
  case inr => exact fun _ => h
  split at ht
  · cases ht
    exact s.liveWindowsOk_faultAnswer _
  split at ht
  · exact liveWindowsOk_of_answer h ht rfl
  next hr =>
  have hready : s.rstate = .ringsReady := not_not.1 hr
  have hmerged : (s.accumulate p.toNat (c &&& causeMask)).rstate = .ringsReady := hready
  dsimp only at ht
  rw [dispatch_of_ready hmerged, State.closeWindow_accumulate hlen, State.openWindow_accumulate hlen,
    State.queue_accumulate_same hlen] at ht
  split at ht
  · exact liveWindowsOk_of_answer h ht rfl
  split at ht
  · refine liveWindowsOk_of_res ((keepsWindows_dispatch hready h _ _).bind ?_) ht
    exact fun _ _ hu _ => hu.2
  next hitr =>
  refine liveWindowsOk_of_answer (h.setQueue (Queue.windowOk_of_open rfl ?_)) ht rfl
  split
  · next hopen => exact (h.queue p.toNat).1 hopen
  · exact hitr

theorem exec_liveWindowsOk {i : Instr} (hc : s.ConfigInv) (h : s.WindowsOk) (ht : exec i s = .next t) : t.LiveWindowsOk := by
  cases i with
  | init nqLess1 logn base size => exact liveWindowsOk_execInit h ht
  | stop => exact liveWindowsOk_execStop h ht
  | pollLink link speed fd => exact liveWindowsOk_execPollLink h ht
  | tick => exact liveWindowsOk_execTick h ht
  | irq q c =>
    obtain ⟨hlen, -⟩ := hc.sized
    exact liveWindowsOk_execIrq (hlen ▸ q.isLt) h ht
  | setItr q w =>
    obtain ⟨-, ht⟩ | ⟨-, rfl⟩ := perQueue_eq_next ht
    · have hsame : Queue.WindowOk { s.queue q.toNat with itr := w } := h.queue q.toNat
      exact liveWindowsOk_of_answer (h.setQueue hsame) ht rfl
    · exact fun _ => h
  | _ =>
    obtain ⟨-, hshape⟩ | ⟨u, r, -, rfl⟩ :=
      endsKept_ringCommand (sameShapes_shapeKeptBy _) (fun _ _ _ => ⟨⟨rfl, rfl⟩, fun _ => rfl⟩) rfl ht
    · exact fun _ => h.of_shapes hshape
    · exact u.liveWindowsOk_faultAnswer r

/-- Settles O58: outside RingsReady no window is open, and a command that ends in RingsReady closes a window, opens it with a count
that is not zero, counts it down to one at the least, or leaves it; nothing else touches a queue. -/
theorem windowInvariantKept : Obligations.WindowInvariantKept := by
  intro s t hc h ht
  by_cases hr : t.rstate = .ringsReady
  · have hrest : (s.withInputs s.inputs.tail).ConfigInv := ⟨hc.valid, hc.sized, hc.region, hc.regs, hc.quiet⟩
    obtain ⟨-, rfl⟩ | ⟨i, hi⟩ | ⟨st, v, rfl⟩ | ⟨m, d, rfl, -, -⟩ := step_effects ht
    · exact h
    · exact exec_liveWindowsOk hrest h hi hr
    · exact h
    · exact h
  · exact (configurationInvariantKept s t hc ht).windowsOk_of_not_ready hr

end Sys2Proof.Machine
end
